-- ==== Sys2Proof/Word.lean ====
section
/-!
DEFINITION. The word types of the machine.
-/

namespace Sys2Proof

/-- One byte of memory. -/
abbrev Byte := BitVec 8

/-- An instruction word, a 32-bit register, one lane of a vector. -/
abbrev W32 := BitVec 32

/-- A scalar or staging register. -/
abbrev W64 := BitVec 64

end Sys2Proof
end

