-- ==== Sys2Proof/Config.lean ====
section
/-!
DEFINITION. What an implementation fixes and the spec leaves open: opaque constants, whose values nothing can evaluate
or prove. Each is named in the assumption log.
-/

namespace Sys2Proof.Config

/-- A noise bit taken in live mode (R80), by the number of the free value (log entry 3). -/
opaque noiseBit : Nat → Bool

/-- Whether an access at a home slice misses the LLC (R386), by the number of the free value (log entry 17). -/
opaque llcMiss : Nat → Bool

/-- The outcome of the firmware's signature check at cold reset (R358; log entry 6). -/
opaque firmwareOk : Nat → Bool

/-- Whether a copy of the health store is valid at a cold reset (R460; log entry 6). -/
opaque flashValid : Nat → Bool

/-- The bytes of the device's SM2 public key (R404; log entry 5). -/
opaque sm2Key : Nat → Byte

/-- The bytes of an SM2 signature, by the number of the free value and the byte's place (R404; log entry 5). -/
opaque sm2Sign : Nat → Nat → Byte

/-- A correctly rounded result that the model's interval does not decide (R158, R159; log entry 13), by function,
operand bits and rounding mode. -/
opaque undecided : Nat → Nat → Nat → Nat

/-- Whether a unit that works on its own (a load, a divide, a copy engine, a fetch, a retry) takes its next step in a
cycle, by the kind of step, the number of what it works on, and the cycle (log entry 2). -/
opaque happens : Nat → Nat → Nat → Bool

/-- A value the spec does not state, by the number of the free value (log entry 23). -/
opaque freeWord : Nat → W64

end Sys2Proof.Config
end

