-- ==== Sys2Proof/Syntax.lean ====
section
/-!
DEFINITION. The syntax of the machine: one constructor of `Instr` for each row of the opcode table.
-/

namespace Sys2Proof

/-- What every instruction word carries beside its class and operation (R90): the stop bit, and the predicate
field, where 0-6 name p0-p6 and 7 means always. -/
structure Hdr where
  stop : Bool
  pred : Nat
deriving DecidableEq, Repr

/-- The b source of the class-1 operations 0-18 (R103): a register, or the 32 bits of the extension word. -/
inductive SrcB where
  | reg (n : Nat)
  | imm (x : Nat)
deriving DecidableEq, Repr

/-- The extension word of a class-2 instruction (R146). -/
structure VExt where
  opx : Nat
  fmt : Nat
  rm : Nat
  c : Nat
  xs : Nat
deriving DecidableEq, Repr

/-- A Bamug packet as it is received: the port it came in on and the bytes of its UDP payload (R396). -/
structure BamugPacket where
  port : Nat
  bytes : List Byte
deriving DecidableEq, Repr

/-- A RoCE v2 packet as it is received (R394): the port, the destination QP, the packet's position in its message,
the request fields and the payload. `ce` is the congestion mark of the IP header. -/
structure RoceMsg where
  port : Nat
  qpn : Nat
  psn : Nat
  first : Bool
  last : Bool
  ackReq : Bool
  imm : Option W32
  va : Nat
  rkey : Nat
  len : Nat
  operand : W64
  compare : W64
  code : Nat
  payload : List Byte
  ce : Bool
deriving DecidableEq, Repr

/-- A management datagram (R356): who sent it, and its bytes. -/
structure Datagram where
  sender : Nat
  bytes : List Byte
deriving DecidableEq, Repr

/-- Where a storage or datapath error shows itself (R441). -/
inductive Site where
  /-- HBM: pseudo-channel 64·stack + pc (R459) and address -/
  | hbm (channel addr : Nat)
  /-- a line of an LLC slice -/
  | llc (addr : Nat) (dirty : Bool)
  /-- the line that an engine or the network is writing (R443) -/
  | line (addr : Nat)
  /-- a byte of a tile's scratchpad -/
  | scratch (tile addr : Nat)
  /-- a byte, by its physical address, of a line that a tile caches -/
  | cache (tile addr : Nat)
  /-- a lane of a vector register -/
  | vector (ctx reg lane : Nat)
  /-- a lane of a row of a tile register -/
  | tileReg (ctx reg lane : Nat)
  | scalar (ctx reg : Nat)
  | staging (ctx reg : Nat)
  | handle (ctx reg : Nat)
  | control (ctx num : Nat)
  | predicates (ctx : Nat)
  /-- a bundle in the half of the loop buffer that executes -/
  | loopBuffer (ctx bundle : Nat)
  | queueState (queue : Nat)
  | pendingVector
  | controllerSram (fc : Nat)
  /-- the stage that carries a result in flight -/
  | datapath (ctx id : Nat)
  /-- cell (i, j) of the matrix unit that computes a result -/
  | matrix (ctx id i j : Nat)
deriving DecidableEq, Repr


/-- One operation or event of the part: the instruction words of R114 (each with its header `h`) and,
after them, the events of the machine that no word performs (opcode_table.json). Fields are numbers as the
encoding gives them; an extension field stands under the name its entry gives it. -/
inductive Instr where
  /-- R98: the scheduling control word. -/
  | sched (stop : Bool) (pd : Nat) (wait : Nat) (waiters : Nat) (pf : Bool)
  /-- R122 -/
  | add (h : Hdr) (d : Nat) (a : Nat) (b : SrcB)
  /-- R122 -/
  | sub (h : Hdr) (d : Nat) (a : Nat) (b : SrcB)
  /-- R122 -/
  | mul (h : Hdr) (d : Nat) (a : Nat) (b : SrcB)
  /-- R122 -/
  | mulh (h : Hdr) (d : Nat) (a : Nat) (b : SrcB)
  /-- R122 -/
  | mulhu (h : Hdr) (d : Nat) (a : Nat) (b : SrcB)
  /-- R122 -/
  | and (h : Hdr) (d : Nat) (a : Nat) (b : SrcB)
  /-- R122 -/
  | or (h : Hdr) (d : Nat) (a : Nat) (b : SrcB)
  /-- R122 -/
  | xor (h : Hdr) (d : Nat) (a : Nat) (b : SrcB)
  /-- R122 -/
  | andn (h : Hdr) (d : Nat) (a : Nat) (b : SrcB)
  /-- R122 -/
  | shl (h : Hdr) (d : Nat) (a : Nat) (b : SrcB)
  /-- R122 -/
  | shr (h : Hdr) (d : Nat) (a : Nat) (b : SrcB)
  /-- R122 -/
  | sra (h : Hdr) (d : Nat) (a : Nat) (b : SrcB)
  /-- R122 -/
  | min (h : Hdr) (d : Nat) (a : Nat) (b : SrcB)
  /-- R122 -/
  | max (h : Hdr) (d : Nat) (a : Nat) (b : SrcB)
  /-- R122 -/
  | minu (h : Hdr) (d : Nat) (a : Nat) (b : SrcB)
  /-- R122 -/
  | maxu (h : Hdr) (d : Nat) (a : Nat) (b : SrcB)
  /-- R122 -/
  | seq (h : Hdr) (d : Nat) (a : Nat) (b : SrcB)
  /-- R122 -/
  | slt (h : Hdr) (d : Nat) (a : Nat) (b : SrcB)
  /-- R122 -/
  | sltu (h : Hdr) (d : Nat) (a : Nat) (b : SrcB)
  /-- R123 -/
  | sel (h : Hdr) (d : Nat) (a : Nat) (b : Nat)
  /-- R123 -/
  | clz (h : Hdr) (d : Nat) (a : Nat)
  /-- R123 -/
  | popc (h : Hdr) (d : Nat) (a : Nat)
  /-- R124 -/
  | bext (h : Hdr) (d : Nat) (a : Nat) (sx : Bool) (lm1 : Nat) (pos : Nat)
  /-- R124 -/
  | bins (h : Hdr) (d : Nat) (a : Nat) (lm1 : Nat) (pos : Nat)
  /-- R125 -/
  | lih (h : Hdr) (d : Nat) (a : Nat) (imm : Nat)
  /-- R126 -/
  | div (h : Hdr) (d : Nat) (a : Nat) (b : Nat) (k : Nat) (u : Bool)
  /-- R126 -/
  | rem (h : Hdr) (d : Nat) (a : Nat) (b : Nat) (k : Nat) (u : Bool)
  /-- R127 -/
  | movg (h : Hdr) (d : Nat) (a : Nat)
  /-- R127 -/
  | movfg (h : Hdr) (d : Nat) (a : Nat)
  /-- R128 -/
  | setp (h : Hdr) (cond : Nat) (a : Nat) (b : Nat)
  /-- R152 -/
  | vadd (h : Hdr) (d : Nat) (a : Nat) (b : Nat) (x : Option VExt)
  /-- R152 -/
  | vsub (h : Hdr) (d : Nat) (a : Nat) (b : Nat) (x : Option VExt)
  /-- R152 -/
  | vmul (h : Hdr) (d : Nat) (a : Nat) (b : Nat) (x : Option VExt)
  /-- R153 -/
  | vfma (h : Hdr) (d : Nat) (a : Nat) (b : Nat) (x : VExt)
  /-- R153 -/
  | vfms (h : Hdr) (d : Nat) (a : Nat) (b : Nat) (x : VExt)
  /-- R154 -/
  | vmax (h : Hdr) (d : Nat) (a : Nat) (b : Nat) (x : Option VExt)
  /-- R154 -/
  | vmin (h : Hdr) (d : Nat) (a : Nat) (b : Nat) (x : Option VExt)
  /-- R155 -/
  | vabs (h : Hdr) (d : Nat) (a : Nat) (x : Option VExt)
  /-- R155 -/
  | vneg (h : Hdr) (d : Nat) (a : Nat) (x : Option VExt)
  /-- R155 -/
  | vfloor (h : Hdr) (d : Nat) (a : Nat) (x : Option VExt)
  /-- R155 -/
  | vceil (h : Hdr) (d : Nat) (a : Nat) (x : Option VExt)
  /-- R155 -/
  | vmov (h : Hdr) (d : Nat) (a : Nat) (x : Option VExt)
  /-- R156 -/
  | vcmp (h : Hdr) (d : Nat) (a : Nat) (b : Nat) (x : VExt)
  /-- R157 -/
  | vsel (h : Hdr) (d : Nat) (a : Nat) (b : Nat) (x : Option VExt)
  /-- R158 -/
  | vexp2 (h : Hdr) (d : Nat) (a : Nat) (x : Option VExt)
  /-- R158 -/
  | vlog2 (h : Hdr) (d : Nat) (a : Nat) (x : Option VExt)
  /-- R158 -/
  | vrcp (h : Hdr) (d : Nat) (a : Nat) (x : Option VExt)
  /-- R158 -/
  | vrsqrt (h : Hdr) (d : Nat) (a : Nat) (x : Option VExt)
  /-- R159 -/
  | vexpb (h : Hdr) (d : Nat) (a : Nat) (b : Nat) (x : Option VExt)
  /-- R160 -/
  | vcvt (h : Hdr) (d : Nat) (a : Nat) (x : VExt)
  /-- R160 -/
  | vcvtTag (h : Hdr) (d : Nat) (a : Nat) (x : VExt)
  /-- R161 -/
  | vpack (h : Hdr) (d : Nat) (a : Nat) (b : Nat) (x : VExt)
  /-- R162 -/
  | vunpk (h : Hdr) (d : Nat) (a : Nat) (x : VExt)
  /-- R163 -/
  | vredadd (h : Hdr) (d : Nat) (a : Nat) (x : Option VExt)
  /-- R163 -/
  | vredmax (h : Hdr) (d : Nat) (a : Nat) (x : Option VExt)
  /-- R163 -/
  | vscan (h : Hdr) (d : Nat) (a : Nat) (x : Option VExt)
  /-- R164 -/
  | vperm (h : Hdr) (d : Nat) (a : Nat) (b : Nat) (x : Option VExt)
  /-- R165 -/
  | vbcast (h : Hdr) (d : Nat) (a : Nat) (b : Nat) (x : Option VExt)
  /-- R166 -/
  | viadd (h : Hdr) (d : Nat) (a : Nat) (b : Nat) (x : Option VExt)
  /-- R166 -/
  | vimul (h : Hdr) (d : Nat) (a : Nat) (b : Nat) (x : Option VExt)
  /-- R167 -/
  | vand (h : Hdr) (d : Nat) (a : Nat) (b : Nat) (x : Option VExt)
  /-- R167 -/
  | vor (h : Hdr) (d : Nat) (a : Nat) (b : Nat) (x : Option VExt)
  /-- R167 -/
  | vxor (h : Hdr) (d : Nat) (a : Nat) (b : Nat) (x : Option VExt)
  /-- R168 -/
  | vshl (h : Hdr) (d : Nat) (a : Nat) (b : Nat) (x : Option VExt)
  /-- R168 -/
  | vshr (h : Hdr) (d : Nat) (a : Nat) (b : Nat) (x : Option VExt)
  /-- R169 -/
  | vrng (h : Hdr) (d : Nat) (x : VExt)
  /-- R170 -/
  | vffs (h : Hdr) (d : Nat) (a : Nat) (x : Option VExt)
  /-- R170 -/
  | vany (h : Hdr) (a : Nat) (x : Option VExt)
  /-- R175 -/
  | mma (h : Hdr) (d : Nat) (a : Nat) (b : Nat) (unit : Nat) (cpat : Nat) (cop : Nat) (gm1 : Nat) (gs : Nat)
  /-- R175 -/
  | mmaz (h : Hdr) (d : Nat) (a : Nat) (b : Nat) (unit : Nat) (cpat : Nat) (cop : Nat) (gm1 : Nat) (gs : Nat)
  /-- R175 -/
  | mmat (h : Hdr) (d : Nat) (a : Nat) (b : Nat) (unit : Nat) (cpat : Nat) (cop : Nat) (gm1 : Nat) (gs : Nat)
  /-- R176 -/
  | mzero (h : Hdr) (d : Nat) (fmt : Option Nat)
  /-- R177 -/
  | mcvt (h : Hdr) (d : Nat) (a : Nat) (fmt : Nat) (rm : Nat) (q : Nat)
  /-- R178 -/
  | mfmt (h : Hdr) (d : Nat) (a : Nat) (fmt : Nat)
  /-- R179 -/
  | mtv (h : Hdr) (d : Nat) (a : Nat) (k : Nat) (r : Nat)
  /-- R180 -/
  | mvt (h : Hdr) (d : Nat) (a : Nat) (r : Nat)
  /-- R181 -/
  | mcsel (h : Hdr) (d : Nat) (a : Nat) (b : Nat) (unit : Nat) (min : Bool) (init : Bool)
  /-- R187 -/
  | ldw (h : Hdr) (d : Nat) (a : Nat) (off : Option Nat)
  /-- R187 -/
  | ldd (h : Hdr) (d : Nat) (a : Nat) (off : Option Nat)
  /-- R187 -/
  | stw (h : Hdr) (d : Nat) (a : Nat) (off : Option Nat)
  /-- R187 -/
  | std (h : Hdr) (d : Nat) (a : Nat) (off : Option Nat)
  /-- R188 -/
  | vld (h : Hdr) (d : Nat) (a : Nat) (b : Nat) (fmt : Nat) (off : Nat)
  /-- R188 -/
  | vst (h : Hdr) (d : Nat) (a : Nat) (b : Nat) (off : Nat)
  /-- R189 -/
  | ldt (h : Hdr) (d : Nat) (a : Nat) (fmt : Nat) (t : Bool) (r : Nat) (nrm1 : Nat) (sw : Nat)
  /-- R190 -/
  | tld (h : Hdr) (d : Nat) (a : Nat) (b : Nat) (fmt : Nat) (r : Nat) (nrm1 : Nat) (sw : Nat)
  /-- R190 -/
  | tst (h : Hdr) (d : Nat) (a : Nat) (b : Nat) (r : Nat) (nrm1 : Nat) (sw : Nat)
  /-- R195 -/
  | ldg (h : Hdr) (d : Nat) (a : Nat) (b : Nat) (k : Nat) (sz : Nat) (ord : Nat) (scope : Nat) (fmt : Nat)
  /-- R195 -/
  | stg (h : Hdr) (d : Nat) (a : Nat) (b : Nat) (sz : Nat) (ord : Nat) (scope : Nat)
  /-- R196 -/
  | vgat (h : Hdr) (d : Nat) (a : Nat) (b : Nat) (k : Nat) (fmt : Nat) (mv : Nat)
  /-- R196 -/
  | vsct (h : Hdr) (d : Nat) (a : Nat) (b : Nat) (mv : Nat)
  /-- R197 -/
  | amo (h : Hdr) (d : Nat) (a : Nat) (b : Nat) (k : Nat) (aop : Nat) (sz : Bool) (u : Bool) (ord : Nat) (scope : Nat) (opr : Nat) (cmp : Nat)
  /-- R191 -/
  | alloc (h : Hdr) (a : Nat) (b : Nat)
  /-- R192 -/
  | free (h : Hdr) (a : Nat) (b : Nat)
  /-- R193 -/
  | vldc (h : Hdr) (d : Nat) (a : Nat) (k : Nat) (fmt : Nat)
  /-- R193 -/
  | vstc (h : Hdr) (d : Nat) (a : Nat)
  /-- R198 -/
  | pref (h : Hdr) (a : Nat) (b : Nat) (lvl : Bool) (lnm1 : Nat)
  /-- R198 -/
  | inv (h : Hdr) (a : Nat) (b : Nat) (lnm1 : Nat)
  /-- R200 -/
  | sbind (h : Hdr) (d : Nat) (a : Nat)
  /-- R204 -/
  | sunbind (h : Hdr) (d : Nat)
  /-- R203 -/
  | sflush (h : Hdr) (a : Nat) (k : Nat) (scope : Nat)
  /-- R205 -/
  | sstat (h : Hdr) (a : Nat) (b : Nat)
  /-- R204 -/
  | sskip (h : Hdr) (a : Nat) (b : Nat)
  /-- R234 -/
  | xcopy (h : Hdr) (d : Nat) (g : Nat) (c : Nat) (k : Nat) (scope : Nat)
  /-- R236 -/
  | xlist (h : Hdr) (d : Nat) (g : Nat) (c : Nat) (k : Nat) (scope : Nat)
  /-- R237 -/
  | xfill (h : Hdr) (d : Nat) (g : Nat) (c : Nat) (k : Nat) (scope : Nat)
  /-- R238 -/
  | xred (h : Hdr) (d : Nat) (g : Nat) (c : Nat) (k : Nat) (scope : Nat)
  /-- R239 -/
  | xstat (h : Hdr) (d : Nat) (g : Nat) (c : Nat) (k : Nat) (scope : Nat)
  /-- R130 -/
  | br (h : Hdr) (seg : Nat) (bun : Nat)
  /-- R130 -/
  | brz (h : Hdr) (a : Nat) (seg : Nat) (bun : Nat)
  /-- R130 -/
  | brnz (h : Hdr) (a : Nat) (seg : Nat) (bun : Nat)
  /-- R130 -/
  | brp (h : Hdr) (a : Nat) (b : Nat) (seg : Nat) (bun : Nat)
  /-- R132 -/
  | call (h : Hdr) (d : Nat) (seg : Nat) (bun : Nat)
  /-- R132 -/
  | ret (h : Hdr) (a : Nat)
  /-- R132 -/
  | jmpr (h : Hdr) (d : Nat) (a : Nat)
  /-- R133 -/
  | loop (h : Hdr) (a : Nat) (n : Nat) (seg : Nat) (bun : Nat)
  /-- R134 -/
  | exit (h : Hdr)
  /-- R135 -/
  | trap (h : Hdr) (code : Nat)
  /-- R135 -/
  | nop (h : Hdr)
  /-- R135 -/
  | segpf (h : Hdr) (seg : Nat)
  /-- R208 -/
  | fence (h : Hdr) (scope : Nat)
  /-- R208 -/
  | fenceAll (h : Hdr) (scope : Nat)
  /-- R208 -/
  | fenceDrain (h : Hdr)
  /-- R212 -/
  | wait (h : Hdr) (d : Nat) (a : Nat) (b : Nat) (loc : Bool) (sz : Bool) (acq : Bool) (scope : Nat) (exp : Nat)
  /-- R212 -/
  | waitArm (h : Hdr) (d : Nat) (a : Nat) (b : Nat) (loc : Bool) (sz : Bool) (acq : Bool) (scope : Nat) (exp : Nat)
  /-- R212 -/
  | waitAny (h : Hdr) (d : Nat)
  /-- R212 -/
  | waitClr (h : Hdr)
  /-- R217 -/
  | sync (h : Hdr) (a : Nat)
  /-- R219 -/
  | fadd (h : Hdr) (a : Nat) (b : Nat) (scope : Nat) (val : Nat)
  /-- R220 -/
  | fset (h : Hdr) (a : Nat) (b : Nat) (scope : Nat) (off : Nat) (val : Nat)
  /-- R221 -/
  | fwait (h : Hdr) (d : Nat) (a : Nat) (b : Nat) (acq : Bool) (scope : Nat) (thr : Nat)
  /-- R223 -/
  | promote (h : Hdr) (a : Nat)
  /-- R136 -/
  | csrr (h : Hdr) (d : Nat) (num : Nat)
  /-- R136 -/
  | csrw (h : Hdr) (a : Nat) (num : Nat)
  /-- R140 -/
  | trn (h : Hdr) (d : Nat) (a : Nat) (rights : Nat) (l2s : Nat)
  /-- R141 -/
  | hinv (h : Hdr) (d : Nat)
  /-- R141 -/
  | hinvAll (h : Hdr)
  /-- R142 -/
  | commit (h : Hdr)
  /-- R143 -/
  | sig (h : Hdr) (a : Nat)
  /-- R144 -/
  | brk (h : Hdr) (code : Nat)
  /-- R144 -/
  | tsc (h : Hdr) (d : Nat)
  /-- R241 -/
  | glook (h : Hdr) (d : Nat) (g : Nat) (c : Nat) (k : Nat) (scope : Nat)
  /-- R242 -/
  | gins (h : Hdr) (d : Nat) (g : Nat) (c : Nat) (k : Nat) (scope : Nat)
  /-- R243 -/
  | gref (h : Hdr) (d : Nat) (g : Nat) (c : Nat) (k : Nat) (scope : Nat)
  /-- R243 -/
  | gunref (h : Hdr) (d : Nat) (g : Nat) (c : Nat) (k : Nat) (scope : Nat)
  /-- R244 -/
  | kvapp (h : Hdr) (d : Nat) (g : Nat) (c : Nat) (k : Nat) (scope : Nat)
  /-- R245 -/
  | kvtrunc (h : Hdr) (d : Nat) (g : Nat) (c : Nat) (k : Nat) (scope : Nat)
  /-- R247 -/
  | hla (h : Hdr) (d : Nat) (g : Nat) (c : Nat) (k : Nat) (scope : Nat)
  /-- R248 -/
  | hrd (h : Hdr) (d : Nat) (g : Nat) (c : Nat) (k : Nat) (scope : Nat)
  /-- R248 -/
  | hrel (h : Hdr) (d : Nat) (g : Nat) (c : Nat) (k : Nat) (scope : Nat)
  /-- R249 -/
  | hswp (h : Hdr) (d : Nat) (g : Nat) (c : Nat) (k : Nat) (scope : Nat)
  /-- R247 -/
  | hnode (h : Hdr) (d : Nat) (g : Nat) (c : Nat) (k : Nat) (scope : Nat)
  /-- R250 -/
  | hcpo (h : Hdr) (d : Nat) (g : Nat) (c : Nat) (k : Nat) (scope : Nat)
  /-- R252 -/
  | publish (h : Hdr) (d : Nat) (g : Nat) (c : Nat) (k : Nat) (scope : Nat)
  /-- R253 -/
  | adopt (h : Hdr) (d : Nat) (g : Nat) (c : Nat) (k : Nat) (scope : Nat) (seqb : Bool)
  /-- R254 -/
  | vers (h : Hdr) (d : Nat) (g : Nat) (c : Nat) (k : Nat) (scope : Nat)
  /-- R255 -/
  | flrec (h : Hdr) (d : Nat) (g : Nat) (c : Nat) (k : Nat) (scope : Nat)
  /-- R255 -/
  | flcommit (h : Hdr) (d : Nat) (g : Nat) (c : Nat) (k : Nat) (scope : Nat)
  /-- R256 -/
  | fltake (h : Hdr) (d : Nat) (g : Nat) (c : Nat) (k : Nat) (scope : Nat)
  /-- R256 -/
  | flack (h : Hdr) (d : Nat) (g : Nat) (c : Nat) (k : Nat) (scope : Nat)
  /-- R257 -/
  | nbmv (h : Hdr) (d : Nat) (g : Nat) (c : Nat) (k : Nat) (scope : Nat)
  /-- R258 -/
  | nbmat (h : Hdr) (d : Nat) (g : Nat) (c : Nat) (k : Nat) (scope : Nat)
  /-- R258 -/
  | nbstat (h : Hdr) (d : Nat) (g : Nat) (c : Nat) (k : Nat) (scope : Nat)
  /-- R260 -/
  | coll (h : Hdr) (d : Nat) (g : Nat) (c : Nat) (k : Nat) (scope : Nat)
  /-- R261 -/
  | fput (h : Hdr) (d : Nat) (g : Nat) (c : Nat) (k : Nat) (scope : Nat)
  /-- R261 -/
  | fget (h : Hdr) (d : Nat) (g : Nat) (c : Nat) (k : Nat) (scope : Nat)
  /-- R262 -/
  | famo (h : Hdr) (d : Nat) (g : Nat) (c : Nat) (k : Nat) (scope : Nat)
  /-- R263 -/
  | fnfetch (h : Hdr) (d : Nat) (g : Nat) (c : Nat) (k : Nat) (scope : Nat)
  /-- R106 -/
  | fixedResultLands (ctx : Nat) (id : Nat)
  /-- R108 -/
  | taggedResultLands (ctx : Nat) (id : Nat)
  /-- R173 -/
  | matrixResultComplete (ctx : Nat) (id : Nat)
  /-- R185 -/
  | tileTransferComplete (ctx : Nat) (id : Nat)
  /-- R50 -/
  | segmentExpansionDone (ctx : Nat)
  /-- R131 -/
  | segmentFallThrough (ctx : Nat)
  /-- R53 -/
  | syncArrival (ctx : Nat)
  /-- R53 -/
  | syncRestart (ctx : Nat)
  /-- R211 -/
  | monitorFire (ctx : Nat) (idx : Nat) (reason : Nat)
  /-- R221 -/
  | flagPush (ctx : Nat)
  /-- R214 -/
  | waitTimeout (ctx : Nat)
  /-- R422 -/
  | hangTimeout (ctx : Nat)
  /-- R223 -/
  | promotionArrival (id : Nat)
  /-- R223 -/
  | promotionAck (id : Nat)
  /-- R202 -/
  | streamFetch (ctx : Nat) (q : Nat)
  /-- R227 -/
  | engineCommandEnd (id : Nat)
  /-- R326 -/
  | materialisationEnd (ext : Nat)
  /-- R474 -/
  | adoptTimeout (id : Nat)
  /-- R327 -/
  | nbmatQueuedStart (ws : Nat)
  /-- R283 -/
  | refusalRetry (id : Nat)
  /-- R429 -/
  | heldFaultPost (vd : Nat)
  /-- R36 -/
  | drainComplete (ctx : Nat)
  /-- R434 -/
  | deadDrainComplete (ctx : Nat)
  /-- R30 -/
  | taskGroupEnd (serial : Nat)
  /-- R449 -/
  | rerunEnd (ctx : Nat)
  /-- R450 -/
  | retirementCommit (tile : Nat)
  /-- R341 -/
  | scannerVisit (queue : Nat)
  /-- R344 -/
  | controllerFrame (fc : Nat)
  /-- R337 -/
  | nopCommand (fc : Nat)
  /-- R345 -/
  | launch (fc : Nat)
  /-- R34 -/
  | launchPlacement (serial : Nat) (place : List (Nat × Nat))
  /-- R349 -/
  | graph (fc : Nat)
  /-- R360 -/
  | repart (fc : Nat)
  /-- R337 -/
  | badcmd (fc : Nat)
  /-- R350 -/
  | graphNodeLaunch (node : Nat)
  /-- R351 -/
  | activationDiscard (buf : Nat)
  /-- R351 -/
  | bufferReplay (buf : Nat)
  /-- R364 -/
  | sliceEnd (serial : Nat)
  /-- R365 -/
  | checkpointSave (ctx : Nat)
  /-- R373 -/
  | contextRestore (slot : Nat) (tile : Nat) (bank : Nat)
  /-- R372 -/
  | vdStopped (vd : Nat)
  /-- R467 -/
  | collStepTimeout (id : Nat)
  /-- R173 -/
  | matrixComputePhaseEnd (ctx : Nat) (id : Nat)
  /-- R272 -/
  | writePerformed (id : Nat)
  /-- R212 -/
  | waitReadReturn (ctx : Nat)
  /-- R84 -/
  | noiseLogReadAhead (ctx : Nat)
  /-- R364 -/
  | quantumExpiry (ctx : Nat)
  /-- R390 -/
  | egressPacketTransmit (port : Nat) (id : Nat)
  /-- R398 -/
  | bamugRetransmitTimeout (conn : Nat)
  /-- R465 -/
  | roceAckTimeout (conn : Nat)
  /-- R394 -/
  | roceRateRecovery (conn : Nat)
  /-- R465 -/
  | roceRnrRetryTimer (conn : Nat)
  /-- R397 -/
  | bamugWrite (p : BamugPacket)
  /-- R397 -/
  | bamugReadReq (p : BamugPacket)
  /-- R397 -/
  | bamugReadResp (p : BamugPacket)
  /-- R399 -/
  | bamugAtomicReq (p : BamugPacket)
  /-- R397 -/
  | bamugAtomicResp (p : BamugPacket)
  /-- R397 -/
  | bamugFlagAdd (p : BamugPacket)
  /-- R397 -/
  | bamugNameReq (p : BamugPacket)
  /-- R263 -/
  | bamugNameResp (p : BamugPacket)
  /-- R260 -/
  | bamugCollData (p : BamugPacket)
  /-- R461 -/
  | bamugUnknownOpcode (p : BamugPacket)
  /-- R395 -/
  | roceSend (p : RoceMsg)
  /-- R394 -/
  | roceRdmaWrite (p : RoceMsg)
  /-- R394 -/
  | roceRdmaRead (p : RoceMsg)
  /-- R394 -/
  | roceReadResponse (p : RoceMsg)
  /-- R394 -/
  | roceCompareSwap (p : RoceMsg)
  /-- R394 -/
  | roceFetchAdd (p : RoceMsg)
  /-- R401 -/
  | roceAcknowledge (p : RoceMsg)
  /-- R465 -/
  | roceNakReceived (p : RoceMsg)
  /-- R314 -/
  | reclaimLine
  /-- R441 -/
  | softError (site : Site) (correctable : Bool)
  /-- R453 -/
  | noiseHealthFail (tile : Nat) (test : Nat)
  /-- R453 -/
  | noiseSourceRestore (tile : Nat)
  /-- R458 -/
  | patrolScrub (site : Site) (err : Nat)
  /-- R460 -/
  | healthStoreUpdate
  /-- R24 -/
  | thermalTrip (sensor : Nat) (temp : Nat)
  /-- R25 -/
  | coldReset
  /-- R338 -/
  | notifyStore (queue : Nat) (tail : Nat)
  /-- R340 -/
  | scannerWake
  /-- R360 -/
  | repartCommit
  /-- R372 -/
  | vdStop (vd : Nat)
  /-- R372 -/
  | vdResume (vd : Nat)
  /-- R372 -/
  | vdDiscard (vd : Nat)
  /-- R381 -/
  | invalWholeVd (val : Nat)
  /-- R381 -/
  | invalStage1Pages (val : Nat)
  /-- R381 -/
  | invalStage2Pages (val : Nat)
  /-- R381 -/
  | invalidationComplete
  /-- R383 -/
  | pageReply (val : Nat)
  /-- R382 -/
  | mmPrqWrite (val : Nat)
  /-- R385 -/
  | mmDlogWrite (val : Nat)
  /-- R387 -/
  | mmEvqWrite (val : Nat)
  /-- R387 -/
  | mmEvqtailWrite (val : Nat)
  /-- R387 -/
  | evictionRequestService
  /-- R334 -/
  | feQcfgWrite (val : Nat)
  /-- R353 -/
  | feSemaWrite (master : Nat) (val : Nat)
  /-- R356 -/
  | feCebindWrite (val : Nat)
  /-- R354 -/
  | feFeatEnWrite (n : Nat) (val : Nat)
  /-- R468 -/
  | fcRestart (val : Nat)
  /-- R436 -/
  | feNqWrite (val : Nat)
  /-- R352 -/
  | fePoolCfgWrite (val : Nat)
  /-- R457 -/
  | reLogWrite (val : Nat)
  /-- R457 -/
  | reEqWrite (val : Nat)
  /-- R460 -/
  | healthClearRequest (val : Nat)
  /-- R404 -/
  | attestationRequest (val : Nat)
  /-- R464 -/
  | connectionReset (val : Nat)
  /-- R395 -/
  | fxRqheadWrite (val : Nat)
  /-- R353 -/
  | configRegisterWrite (addr : Nat) (val : Nat)
  /-- R353 -/
  | feCfgdenyRead
  /-- R363 -/
  | scStatRead
  /-- R464 -/
  | fxErr0Read
  /-- R464 -/
  | fxErr1Read
  /-- R458 -/
  | reStatRead
  /-- R439 -/
  | hwdErrRead
  /-- R436 -/
  | feNqdropRead
  /-- R429 -/
  | mmPrstatRead
  /-- R356 -/
  | mgmtRead (dg : Datagram)
  /-- R356 -/
  | mgmtWrite (dg : Datagram)
  /-- R356 -/
  | cebRegisterRead (addr : Nat)
  /-- R356 -/
  | cebRegisterWrite (addr : Nat) (val : Nat)
  /-- R353 -/
  | endpointConnectionLoss
  /-- R398 -/
  | bamugAck (p : BamugPacket)
  /-- R462 -/
  | bamugNak (p : BamugPacket)
  /-- R394 -/
  | roceCnp (p : RoceMsg)
  /-- R389 -/
  | pfcPause (port : Nat) (vc : Nat) (paused : Bool)
  /-- R403 -/
  | ptpMessage (offset : Int) (rate : Int)
  /-- R389 -/
  | portLinkChange (port : Nat) (up : Bool)
  /-- R394 -/
  | roceUnsupportedPacket (p : RoceMsg)
  /-- R356 -/
  | mgmtMalformedRequest (dg : Datagram)
  /-- R340 -/
  | scannerGating (gated : Bool)
deriving DecidableEq, Repr

end Sys2Proof
end

