-- ==== Sys2Proof/Decode.lean ====
section
/-!
DEFINITION. The decoder, total on any words, and after it the encoder. Rules R90-R93, R97, R98, R100, R101, R112,
R114, R115 and the encoding entries of R121-R263.
-/

namespace Sys2Proof

/-- Why a word is no instruction: the reasons of the ILLEGAL trap that the words alone decide (R417), and a word
whose extension word is missing. -/
inductive Reject where
  /-- R417 reason 1: class 15 or an unassigned operation. -/
  | unassignedOp
  /-- R417 reason 2: an E bit that the entry does not allow. -/
  | badE
  /-- R417 reason 3: a nonzero unused field or reserved extension bit. -/
  | reservedField
  /-- R417 reason 4: a register or operand code out of range or not allowed in its position. -/
  | registerRange
  /-- R417 reason 5: a reserved or out-of-range modifier. -/
  | badModifier
  /-- R417 reason 6: a scheduling control word with E = 1 or with reserved bits. -/
  | badScw
  /-- R417 reason 7: a `sync` whose predicate field is not 7. -/
  | badSync
  /-- R417 reason 9: a destination equal to a source where the entry forbids it. -/
  | destIsSource
  /-- E = 1, and no word follows (R417 reason 25 finds such a segment before it runs). -/
  | truncated
deriving DecidableEq, Repr

/-- The reason code of R417. -/
def Reject.reason : Reject → Nat
  | .unassignedOp => 1
  | .badE => 2
  | .reservedField => 3
  | .registerRange => 4
  | .badModifier => 5
  | .badScw => 6
  | .badSync => 7
  | .destIsSource => 9
  | .truncated => 25

/-- `n` bits of `w` from bit `lo` up. -/
def fld (w lo n : Nat) : Nat := w / 2 ^ lo % 2 ^ n

/-- The value `n` moved up to bit `k`. -/
def up (k n : Nat) : Nat := n * 2 ^ k

/-- Bit `lo` of `w`. -/
def fldB (w lo : Nat) : Bool := fld w lo 1 == 1

/-- The fields of an instruction word (R90). -/
structure Fields where
  h : Hdr
  e : Nat
  cls : Nat
  op : Nat
  d : Nat
  a : Nat
  b : Nat
deriving DecidableEq, Repr

/-- R90: the fields of a word. -/
def Fields.ofWord (w : Nat) : Fields :=
  ⟨⟨fldB w 31, fld w 18 3⟩, fld w 30 1, fld w 26 4, fld w 21 5, fld w 12 6, fld w 6 6, fld w 0 6⟩

/-- R90: the word with given fields. -/
def wordOf (h : Hdr) (e cls op d a b : Nat) : Nat :=
  up 31 h.stop.toNat + up 30 e + up 26 cls + up 21 op + up 18 h.pred + up 12 d + up 6 a + b

/-- R146: the fields of a class-2 extension word. -/
def VExt.ofWord (x : Nat) : VExt := ⟨fld x 20 8, fld x 16 4, fld x 13 3, fld x 6 6, fld x 0 6⟩

/-- R146: the class-2 extension word with given fields. -/
def VExt.word (x : VExt) : Nat := up 20 x.opx + up 16 x.fmt + up 13 x.rm + up 6 x.c + x.xs

/-- The b source is the extension word. -/
def SrcB.isImm : SrcB → Bool
  | .reg _ => false
  | .imm _ => true

/-- The b field that goes with a b source: zero with an immediate (R103). -/
def SrcB.regField : SrcB → Nat
  | .reg n => n
  | .imm _ => 0

/-- The extension word of a b source. -/
def SrcB.ext? : SrcB → Option Nat
  | .reg _ => none
  | .imm x => some x

/-- What an entry says about the E bit (R92). -/
inductive ExtRule where
  | never
  | always
  | optional
deriving DecidableEq, Repr


/-- Whether an assigned operation takes an extension word (R92 and each entry); `none` for an operation that no row
of R114 assigns. -/
def extRule (cls op : Nat) : Option ExtRule :=
  match cls, op with
  | 1, 0 => some .optional
  | 1, 1 => some .optional
  | 1, 2 => some .optional
  | 1, 3 => some .optional
  | 1, 4 => some .optional
  | 1, 5 => some .optional
  | 1, 6 => some .optional
  | 1, 7 => some .optional
  | 1, 8 => some .optional
  | 1, 9 => some .optional
  | 1, 10 => some .optional
  | 1, 11 => some .optional
  | 1, 12 => some .optional
  | 1, 13 => some .optional
  | 1, 14 => some .optional
  | 1, 15 => some .optional
  | 1, 16 => some .optional
  | 1, 17 => some .optional
  | 1, 18 => some .optional
  | 1, 19 => some .never
  | 1, 20 => some .never
  | 1, 21 => some .never
  | 1, 22 => some .always
  | 1, 23 => some .always
  | 1, 24 => some .always
  | 1, 26 => some .always
  | 1, 27 => some .always
  | 1, 28 => some .never
  | 1, 29 => some .never
  | 1, 30 => some .never
  | 2, 0 => some .optional
  | 2, 1 => some .optional
  | 2, 2 => some .optional
  | 2, 3 => some .always
  | 2, 4 => some .always
  | 2, 5 => some .optional
  | 2, 6 => some .optional
  | 2, 7 => some .optional
  | 2, 8 => some .always
  | 2, 9 => some .optional
  | 2, 10 => some .optional
  | 2, 11 => some .optional
  | 2, 12 => some .optional
  | 2, 13 => some .optional
  | 2, 14 => some .optional
  | 2, 15 => some .always
  | 2, 16 => some .always
  | 2, 17 => some .always
  | 2, 18 => some .optional
  | 2, 19 => some .optional
  | 2, 20 => some .optional
  | 2, 21 => some .optional
  | 2, 22 => some .optional
  | 2, 23 => some .optional
  | 2, 24 => some .optional
  | 2, 25 => some .optional
  | 2, 26 => some .optional
  | 2, 27 => some .optional
  | 2, 28 => some .optional
  | 2, 29 => some .optional
  | 2, 30 => some .always
  | 2, 31 => some .optional
  | 3, 0 => some .always
  | 3, 1 => some .always
  | 3, 2 => some .always
  | 3, 3 => some .optional
  | 3, 4 => some .always
  | 3, 5 => some .always
  | 3, 6 => some .always
  | 3, 7 => some .always
  | 3, 8 => some .always
  | 4, 0 => some .optional
  | 4, 1 => some .optional
  | 4, 2 => some .optional
  | 4, 3 => some .optional
  | 4, 4 => some .always
  | 4, 5 => some .always
  | 4, 6 => some .always
  | 4, 8 => some .always
  | 4, 9 => some .always
  | 4, 10 => some .always
  | 4, 11 => some .always
  | 4, 12 => some .always
  | 4, 13 => some .always
  | 4, 14 => some .always
  | 4, 15 => some .never
  | 4, 16 => some .never
  | 4, 17 => some .always
  | 4, 18 => some .never
  | 4, 19 => some .always
  | 4, 20 => some .always
  | 5, 0 => some .never
  | 5, 1 => some .never
  | 5, 2 => some .always
  | 5, 3 => some .never
  | 5, 4 => some .never
  | 6, 0 => some .always
  | 6, 1 => some .always
  | 6, 2 => some .always
  | 6, 3 => some .always
  | 6, 4 => some .always
  | 7, 0 => some .always
  | 7, 1 => some .always
  | 7, 2 => some .always
  | 7, 3 => some .always
  | 7, 4 => some .always
  | 7, 5 => some .never
  | 7, 6 => some .never
  | 7, 7 => some .always
  | 7, 8 => some .never
  | 7, 9 => some .always
  | 7, 10 => some .never
  | 7, 11 => some .always
  | 8, 0 => some .never
  | 8, 1 => some .always
  | 8, 2 => some .never
  | 8, 3 => some .always
  | 8, 4 => some .always
  | 8, 5 => some .always
  | 8, 6 => some .never
  | 9, 0 => some .always
  | 9, 1 => some .always
  | 9, 2 => some .always
  | 9, 3 => some .never
  | 9, 4 => some .never
  | 9, 5 => some .never
  | 9, 6 => some .never
  | 9, 7 => some .never
  | 10, 0 => some .always
  | 10, 1 => some .always
  | 10, 2 => some .always
  | 10, 3 => some .always
  | 10, 4 => some .always
  | 10, 5 => some .always
  | 11, 0 => some .always
  | 11, 1 => some .always
  | 11, 2 => some .always
  | 11, 3 => some .always
  | 11, 4 => some .always
  | 11, 5 => some .always
  | 12, 0 => some .always
  | 12, 1 => some .always
  | 12, 2 => some .always
  | 12, 3 => some .always
  | 12, 4 => some .always
  | 12, 5 => some .always
  | 12, 6 => some .always
  | 13, 0 => some .always
  | 13, 1 => some .always
  | 13, 2 => some .always
  | 14, 0 => some .always
  | 14, 1 => some .always
  | 14, 2 => some .always
  | 14, 3 => some .always
  | 14, 4 => some .always
  | _, _ => none

/-- Instruction words of class 1 (R114): the instruction the fields name, before any check of a value. -/
def rawClass1 (f : Fields) (x : Nat) : Except Reject Instr :=
  match f.op with
  | 0 => .ok (.add f.h f.d f.a (if f.e = 1 then .imm x else .reg f.b))
  | 1 => .ok (.sub f.h f.d f.a (if f.e = 1 then .imm x else .reg f.b))
  | 2 => .ok (.mul f.h f.d f.a (if f.e = 1 then .imm x else .reg f.b))
  | 3 => .ok (.mulh f.h f.d f.a (if f.e = 1 then .imm x else .reg f.b))
  | 4 => .ok (.mulhu f.h f.d f.a (if f.e = 1 then .imm x else .reg f.b))
  | 5 => .ok (.and f.h f.d f.a (if f.e = 1 then .imm x else .reg f.b))
  | 6 => .ok (.or f.h f.d f.a (if f.e = 1 then .imm x else .reg f.b))
  | 7 => .ok (.xor f.h f.d f.a (if f.e = 1 then .imm x else .reg f.b))
  | 8 => .ok (.andn f.h f.d f.a (if f.e = 1 then .imm x else .reg f.b))
  | 9 => .ok (.shl f.h f.d f.a (if f.e = 1 then .imm x else .reg f.b))
  | 10 => .ok (.shr f.h f.d f.a (if f.e = 1 then .imm x else .reg f.b))
  | 11 => .ok (.sra f.h f.d f.a (if f.e = 1 then .imm x else .reg f.b))
  | 12 => .ok (.min f.h f.d f.a (if f.e = 1 then .imm x else .reg f.b))
  | 13 => .ok (.max f.h f.d f.a (if f.e = 1 then .imm x else .reg f.b))
  | 14 => .ok (.minu f.h f.d f.a (if f.e = 1 then .imm x else .reg f.b))
  | 15 => .ok (.maxu f.h f.d f.a (if f.e = 1 then .imm x else .reg f.b))
  | 16 => .ok (.seq f.h f.d f.a (if f.e = 1 then .imm x else .reg f.b))
  | 17 => .ok (.slt f.h f.d f.a (if f.e = 1 then .imm x else .reg f.b))
  | 18 => .ok (.sltu f.h f.d f.a (if f.e = 1 then .imm x else .reg f.b))
  | 19 => .ok (.sel f.h f.d f.a f.b)
  | 20 => .ok (.clz f.h f.d f.a)
  | 21 => .ok (.popc f.h f.d f.a)
  | 22 => .ok (.bext f.h f.d f.a (fldB x 14) (fld x 8 6) (fld x 0 6))
  | 23 => .ok (.bins f.h f.d f.a (fld x 8 6) (fld x 0 6))
  | 24 => .ok (.lih f.h f.d f.a (fld x 0 32))
  | 26 => .ok (.div f.h f.d f.a f.b (fld x 29 3) (fldB x 0))
  | 27 => .ok (.rem f.h f.d f.a f.b (fld x 29 3) (fldB x 0))
  | 28 => .ok (.movg f.h f.d f.a)
  | 29 => .ok (.movfg f.h f.d f.a)
  | 30 => .ok (.setp f.h f.d f.a f.b)
  | _ => .error .unassignedOp

/-- Instruction words of class 2 (R114): the instruction the fields name, before any check of a value. -/
def rawClass2 (f : Fields) (x : Nat) : Except Reject Instr :=
  match f.op with
  | 0 => .ok (.vadd f.h f.d f.a f.b (if f.e = 1 then some (VExt.ofWord x) else none))
  | 1 => .ok (.vsub f.h f.d f.a f.b (if f.e = 1 then some (VExt.ofWord x) else none))
  | 2 => .ok (.vmul f.h f.d f.a f.b (if f.e = 1 then some (VExt.ofWord x) else none))
  | 3 => .ok (.vfma f.h f.d f.a f.b (VExt.ofWord x))
  | 4 => .ok (.vfms f.h f.d f.a f.b (VExt.ofWord x))
  | 5 => .ok (.vmax f.h f.d f.a f.b (if f.e = 1 then some (VExt.ofWord x) else none))
  | 6 => .ok (.vmin f.h f.d f.a f.b (if f.e = 1 then some (VExt.ofWord x) else none))
  | 7 => match f.b with
    | 0 => .ok (.vabs f.h f.d f.a (if f.e = 1 then some (VExt.ofWord x) else none))
    | 1 => .ok (.vneg f.h f.d f.a (if f.e = 1 then some (VExt.ofWord x) else none))
    | 2 => .ok (.vfloor f.h f.d f.a (if f.e = 1 then some (VExt.ofWord x) else none))
    | 3 => .ok (.vceil f.h f.d f.a (if f.e = 1 then some (VExt.ofWord x) else none))
    | 4 => .ok (.vmov f.h f.d f.a (if f.e = 1 then some (VExt.ofWord x) else none))
    | _ => .error .badModifier
  | 8 => .ok (.vcmp f.h f.d f.a f.b (VExt.ofWord x))
  | 9 => .ok (.vsel f.h f.d f.a f.b (if f.e = 1 then some (VExt.ofWord x) else none))
  | 10 => .ok (.vexp2 f.h f.d f.a (if f.e = 1 then some (VExt.ofWord x) else none))
  | 11 => .ok (.vlog2 f.h f.d f.a (if f.e = 1 then some (VExt.ofWord x) else none))
  | 12 => .ok (.vrcp f.h f.d f.a (if f.e = 1 then some (VExt.ofWord x) else none))
  | 13 => .ok (.vrsqrt f.h f.d f.a (if f.e = 1 then some (VExt.ofWord x) else none))
  | 14 => .ok (.vexpb f.h f.d f.a f.b (if f.e = 1 then some (VExt.ofWord x) else none))
  | 15 => if (VExt.ofWord x).opx % 2 = 0 then .ok (.vcvt f.h f.d f.a (VExt.ofWord x)) else .ok (.vcvtTag f.h f.d f.a (VExt.ofWord x))
  | 16 => .ok (.vpack f.h f.d f.a f.b (VExt.ofWord x))
  | 17 => .ok (.vunpk f.h f.d f.a (VExt.ofWord x))
  | 18 => .ok (.vredadd f.h f.d f.a (if f.e = 1 then some (VExt.ofWord x) else none))
  | 19 => .ok (.vredmax f.h f.d f.a (if f.e = 1 then some (VExt.ofWord x) else none))
  | 20 => .ok (.vscan f.h f.d f.a (if f.e = 1 then some (VExt.ofWord x) else none))
  | 21 => .ok (.vperm f.h f.d f.a f.b (if f.e = 1 then some (VExt.ofWord x) else none))
  | 22 => .ok (.vbcast f.h f.d f.a f.b (if f.e = 1 then some (VExt.ofWord x) else none))
  | 23 => .ok (.viadd f.h f.d f.a f.b (if f.e = 1 then some (VExt.ofWord x) else none))
  | 24 => .ok (.vimul f.h f.d f.a f.b (if f.e = 1 then some (VExt.ofWord x) else none))
  | 25 => .ok (.vand f.h f.d f.a f.b (if f.e = 1 then some (VExt.ofWord x) else none))
  | 26 => .ok (.vor f.h f.d f.a f.b (if f.e = 1 then some (VExt.ofWord x) else none))
  | 27 => .ok (.vxor f.h f.d f.a f.b (if f.e = 1 then some (VExt.ofWord x) else none))
  | 28 => .ok (.vshl f.h f.d f.a f.b (if f.e = 1 then some (VExt.ofWord x) else none))
  | 29 => .ok (.vshr f.h f.d f.a f.b (if f.e = 1 then some (VExt.ofWord x) else none))
  | 30 => .ok (.vrng f.h f.d (VExt.ofWord x))
  | 31 => if f.d = 0 then .ok (.vany f.h f.a (if f.e = 1 then some (VExt.ofWord x) else none)) else .ok (.vffs f.h f.d f.a (if f.e = 1 then some (VExt.ofWord x) else none))
  | _ => .error .unassignedOp

/-- Instruction words of class 3 (R114): the instruction the fields name, before any check of a value. -/
def rawClass3 (f : Fields) (x : Nat) : Except Reject Instr :=
  match f.op with
  | 0 => .ok (.mma f.h f.d f.a f.b (fld x 30 2) (fld x 27 3) (fld x 25 2) (fld x 21 4) (fld x 17 4))
  | 1 => .ok (.mmaz f.h f.d f.a f.b (fld x 30 2) (fld x 27 3) (fld x 25 2) (fld x 21 4) (fld x 17 4))
  | 2 => .ok (.mmat f.h f.d f.a f.b (fld x 30 2) (fld x 27 3) (fld x 25 2) (fld x 21 4) (fld x 17 4))
  | 3 => .ok (.mzero f.h f.d (if f.e = 1 then some (fld x 25 4) else none))
  | 4 => .ok (.mcvt f.h f.d f.a (fld x 25 4) (fld x 22 3) (fld x 19 3))
  | 5 => .ok (.mfmt f.h f.d f.a (fld x 25 4))
  | 6 => .ok (.mtv f.h f.d f.a (fld x 29 3) (fld x 23 6))
  | 7 => .ok (.mvt f.h f.d f.a (fld x 23 6))
  | 8 => .ok (.mcsel f.h f.d f.a f.b (fld x 30 2) (fldB x 29) (fldB x 28))
  | _ => .error .unassignedOp

/-- Instruction words of class 4 (R114): the instruction the fields name, before any check of a value. -/
def rawClass4 (f : Fields) (x : Nat) : Except Reject Instr :=
  match f.op with
  | 0 => .ok (.ldw f.h f.d f.a (if f.e = 1 then some x else none))
  | 1 => .ok (.ldd f.h f.d f.a (if f.e = 1 then some x else none))
  | 2 => .ok (.stw f.h f.d f.a (if f.e = 1 then some x else none))
  | 3 => .ok (.std f.h f.d f.a (if f.e = 1 then some x else none))
  | 4 => .ok (.vld f.h f.d f.a f.b (fld x 28 4) (fld x 0 28))
  | 5 => .ok (.vst f.h f.d f.a f.b (fld x 0 28))
  | 6 => .ok (.ldt f.h f.d f.a (fld x 28 4) (fldB x 27) (fld x 21 6) (fld x 15 6) (fld x 0 15))
  | 8 => .ok (.tld f.h f.d f.a f.b (fld x 28 4) (fld x 21 6) (fld x 15 6) (fld x 0 15))
  | 9 => .ok (.tst f.h f.d f.a f.b (fld x 21 6) (fld x 15 6) (fld x 0 15))
  | 10 => .ok (.ldg f.h f.d f.a f.b (fld x 29 3) (fld x 27 2) (fld x 25 2) (fld x 23 2) (fld x 19 4))
  | 11 => .ok (.stg f.h f.d f.a f.b (fld x 27 2) (fld x 25 2) (fld x 23 2))
  | 12 => .ok (.vgat f.h f.d f.a f.b (fld x 29 3) (fld x 25 4) (fld x 19 6))
  | 13 => .ok (.vsct f.h f.d f.a f.b (fld x 19 6))
  | 14 => .ok (.amo f.h f.d f.a f.b (fld x 29 3) (fld x 26 3) (fldB x 25) (fldB x 24) (fld x 22 2) (fld x 20 2) (fld x 14 6) (fld x 8 6))
  | 15 => .ok (.alloc f.h f.a f.b)
  | 16 => .ok (.free f.h f.a f.b)
  | 17 => .ok (.vldc f.h f.d f.a (fld x 29 3) (fld x 25 4))
  | 18 => .ok (.vstc f.h f.d f.a)
  | 19 => .ok (.pref f.h f.a f.b (fldB x 28) (fld x 16 12))
  | 20 => .ok (.inv f.h f.a f.b (fld x 16 12))
  | _ => .error .unassignedOp

/-- Instruction words of class 5 (R114): the instruction the fields name, before any check of a value. -/
def rawClass5 (f : Fields) (x : Nat) : Except Reject Instr :=
  match f.op with
  | 0 => .ok (.sbind f.h f.d f.a)
  | 1 => .ok (.sunbind f.h f.d)
  | 2 => .ok (.sflush f.h f.a (fld x 29 3) (fld x 27 2))
  | 3 => .ok (.sstat f.h f.a f.b)
  | 4 => .ok (.sskip f.h f.a f.b)
  | _ => .error .unassignedOp

/-- Instruction words of class 6 (R114): the instruction the fields name, before any check of a value. -/
def rawClass6 (f : Fields) (x : Nat) : Except Reject Instr :=
  match f.op with
  | 0 => .ok (.xcopy f.h f.d f.a f.b (fld x 29 3) (fld x 27 2))
  | 1 => .ok (.xlist f.h f.d f.a f.b (fld x 29 3) (fld x 27 2))
  | 2 => .ok (.xfill f.h f.d f.a f.b (fld x 29 3) (fld x 27 2))
  | 3 => .ok (.xred f.h f.d f.a f.b (fld x 29 3) (fld x 27 2))
  | 4 => .ok (.xstat f.h f.d f.a f.b (fld x 29 3) (fld x 27 2))
  | _ => .error .unassignedOp

/-- Instruction words of class 7 (R114): the instruction the fields name, before any check of a value. -/
def rawClass7 (f : Fields) (x : Nat) : Except Reject Instr :=
  match f.op with
  | 0 => .ok (.br f.h (fld x 16 16) (fld x 0 13))
  | 1 => .ok (.brz f.h f.a (fld x 16 16) (fld x 0 13))
  | 2 => .ok (.brnz f.h f.a (fld x 16 16) (fld x 0 13))
  | 3 => .ok (.brp f.h f.a f.b (fld x 16 16) (fld x 0 13))
  | 4 => .ok (.call f.h f.d (fld x 16 16) (fld x 0 13))
  | 5 => .ok (.ret f.h f.a)
  | 6 => .ok (.jmpr f.h f.d f.a)
  | 7 => .ok (.loop f.h f.a f.b (fld x 16 16) (fld x 0 13))
  | 8 => .ok (.exit f.h)
  | 9 => .ok (.trap f.h (fld x 0 32))
  | 10 => .ok (.nop f.h)
  | 11 => .ok (.segpf f.h (fld x 16 16))
  | _ => .error .unassignedOp

/-- Instruction words of class 8 (R114): the instruction the fields name, before any check of a value. -/
def rawClass8 (f : Fields) (x : Nat) : Except Reject Instr :=
  match f.op with
  | 0 => match fld f.b 2 2 with
    | 0 => .ok (.fence f.h f.b)
    | 1 => .ok (.fenceAll f.h (fld f.b 0 2))
    | 2 => .ok (.fenceDrain f.h)
    | _ => .error .badModifier
  | 1 => match fld x 27 2 with
    | 0 => .ok (.wait f.h f.d f.a f.b (fldB x 26) (fldB x 25) (fldB x 24) (fld x 22 2) (fld x 6 6))
    | 1 => .ok (.waitArm f.h f.d f.a f.b (fldB x 26) (fldB x 25) (fldB x 24) (fld x 22 2) (fld x 6 6))
    | 2 => .ok (.waitAny f.h f.d)
    | 3 => .ok (.waitClr f.h)
    | _ => .error .badModifier
  | 2 => .ok (.sync f.h f.a)
  | 3 => .ok (.fadd f.h f.a f.b (fld x 26 2) (fld x 6 6))
  | 4 => .ok (.fset f.h f.a f.b (fld x 26 2) (fld x 12 6) (fld x 6 6))
  | 5 => .ok (.fwait f.h f.d f.a f.b (fldB x 24) (fld x 22 2) (fld x 6 6))
  | 6 => .ok (.promote f.h f.a)
  | _ => .error .unassignedOp

/-- Instruction words of class 9 (R114): the instruction the fields name, before any check of a value. -/
def rawClass9 (f : Fields) (x : Nat) : Except Reject Instr :=
  match f.op with
  | 0 => .ok (.csrr f.h f.d (fld x 0 12))
  | 1 => .ok (.csrw f.h f.a (fld x 0 12))
  | 2 => .ok (.trn f.h f.d f.a (fld x 8 3) (fld x 0 6))
  | 3 => match f.b with
    | 0 => .ok (.hinv f.h f.d)
    | 1 => .ok (.hinvAll f.h)
    | _ => .error .badModifier
  | 4 => .ok (.commit f.h)
  | 5 => .ok (.sig f.h f.a)
  | 6 => .ok (.brk f.h f.b)
  | 7 => .ok (.tsc f.h f.d)
  | _ => .error .unassignedOp

/-- Instruction words of class 10 (R114): the instruction the fields name, before any check of a value. -/
def rawClass10 (f : Fields) (x : Nat) : Except Reject Instr :=
  match f.op with
  | 0 => .ok (.glook f.h f.d f.a f.b (fld x 29 3) (fld x 27 2))
  | 1 => .ok (.gins f.h f.d f.a f.b (fld x 29 3) (fld x 27 2))
  | 2 => .ok (.gref f.h f.d f.a f.b (fld x 29 3) (fld x 27 2))
  | 3 => .ok (.gunref f.h f.d f.a f.b (fld x 29 3) (fld x 27 2))
  | 4 => .ok (.kvapp f.h f.d f.a f.b (fld x 29 3) (fld x 27 2))
  | 5 => .ok (.kvtrunc f.h f.d f.a f.b (fld x 29 3) (fld x 27 2))
  | _ => .error .unassignedOp

/-- Instruction words of class 11 (R114): the instruction the fields name, before any check of a value. -/
def rawClass11 (f : Fields) (x : Nat) : Except Reject Instr :=
  match f.op with
  | 0 => .ok (.hla f.h f.d f.a f.b (fld x 29 3) (fld x 27 2))
  | 1 => .ok (.hrd f.h f.d f.a f.b (fld x 29 3) (fld x 27 2))
  | 2 => .ok (.hrel f.h f.d f.a f.b (fld x 29 3) (fld x 27 2))
  | 3 => .ok (.hswp f.h f.d f.a f.b (fld x 29 3) (fld x 27 2))
  | 4 => .ok (.hnode f.h f.d f.a f.b (fld x 29 3) (fld x 27 2))
  | 5 => .ok (.hcpo f.h f.d f.a f.b (fld x 29 3) (fld x 27 2))
  | _ => .error .unassignedOp

/-- Instruction words of class 12 (R114): the instruction the fields name, before any check of a value. -/
def rawClass12 (f : Fields) (x : Nat) : Except Reject Instr :=
  match f.op with
  | 0 => .ok (.publish f.h f.d f.a f.b (fld x 29 3) (fld x 27 2))
  | 1 => .ok (.adopt f.h f.d f.a f.b (fld x 29 3) (fld x 27 2) (fldB x 26))
  | 2 => .ok (.vers f.h f.d f.a f.b (fld x 29 3) (fld x 27 2))
  | 3 => .ok (.flrec f.h f.d f.a f.b (fld x 29 3) (fld x 27 2))
  | 4 => .ok (.flcommit f.h f.d f.a f.b (fld x 29 3) (fld x 27 2))
  | 5 => .ok (.fltake f.h f.d f.a f.b (fld x 29 3) (fld x 27 2))
  | 6 => .ok (.flack f.h f.d f.a f.b (fld x 29 3) (fld x 27 2))
  | _ => .error .unassignedOp

/-- Instruction words of class 13 (R114): the instruction the fields name, before any check of a value. -/
def rawClass13 (f : Fields) (x : Nat) : Except Reject Instr :=
  match f.op with
  | 0 => .ok (.nbmv f.h f.d f.a f.b (fld x 29 3) (fld x 27 2))
  | 1 => .ok (.nbmat f.h f.d f.a f.b (fld x 29 3) (fld x 27 2))
  | 2 => .ok (.nbstat f.h f.d f.a f.b (fld x 29 3) (fld x 27 2))
  | _ => .error .unassignedOp

/-- Instruction words of class 14 (R114): the instruction the fields name, before any check of a value. -/
def rawClass14 (f : Fields) (x : Nat) : Except Reject Instr :=
  match f.op with
  | 0 => .ok (.coll f.h f.d f.a f.b (fld x 29 3) (fld x 27 2))
  | 1 => .ok (.fput f.h f.d f.a f.b (fld x 29 3) (fld x 27 2))
  | 2 => .ok (.fget f.h f.d f.a f.b (fld x 29 3) (fld x 27 2))
  | 3 => .ok (.famo f.h f.d f.a f.b (fld x 29 3) (fld x 27 2))
  | 4 => .ok (.fnfetch f.h f.d f.a f.b (fld x 29 3) (fld x 27 2))
  | _ => .error .unassignedOp

/-- The instruction that the fields of a word and its extension name (R114). -/
def rawInstr (f : Fields) (x : Nat) : Except Reject Instr :=
  match f.cls with
  | 1 => rawClass1 f x
  | 2 => rawClass2 f x
  | 3 => rawClass3 f x
  | 4 => rawClass4 f x
  | 5 => rawClass5 f x
  | 6 => rawClass6 f x
  | 7 => rawClass7 f x
  | 8 => rawClass8 f x
  | 9 => rawClass9 f x
  | 10 => rawClass10 f x
  | 11 => rawClass11 f x
  | 12 => rawClass12 f x
  | 13 => rawClass13 f x
  | 14 => rawClass14 f x
  | _ => .error .unassignedOp

/-- THE ENCODER: the word of an instruction and its extension word, from the layouts of R90, R98, R112, R121-R144,
R146, R172, R186-R200, R206-R221 and R224. An event of the machine has no word. -/
def encodeNat : Instr → Option (Nat × Option Nat)
  | .sched stop pd wait waiters pf =>
    some (up 31 stop.toNat + up 22 pd + up 14 wait + up 7 waiters + up 6 pf.toNat, none)
  | .add h d a b => some (wordOf h b.isImm.toNat 1 0 d a b.regField, b.ext?)
  | .sub h d a b => some (wordOf h b.isImm.toNat 1 1 d a b.regField, b.ext?)
  | .mul h d a b => some (wordOf h b.isImm.toNat 1 2 d a b.regField, b.ext?)
  | .mulh h d a b => some (wordOf h b.isImm.toNat 1 3 d a b.regField, b.ext?)
  | .mulhu h d a b => some (wordOf h b.isImm.toNat 1 4 d a b.regField, b.ext?)
  | .and h d a b => some (wordOf h b.isImm.toNat 1 5 d a b.regField, b.ext?)
  | .or h d a b => some (wordOf h b.isImm.toNat 1 6 d a b.regField, b.ext?)
  | .xor h d a b => some (wordOf h b.isImm.toNat 1 7 d a b.regField, b.ext?)
  | .andn h d a b => some (wordOf h b.isImm.toNat 1 8 d a b.regField, b.ext?)
  | .shl h d a b => some (wordOf h b.isImm.toNat 1 9 d a b.regField, b.ext?)
  | .shr h d a b => some (wordOf h b.isImm.toNat 1 10 d a b.regField, b.ext?)
  | .sra h d a b => some (wordOf h b.isImm.toNat 1 11 d a b.regField, b.ext?)
  | .min h d a b => some (wordOf h b.isImm.toNat 1 12 d a b.regField, b.ext?)
  | .max h d a b => some (wordOf h b.isImm.toNat 1 13 d a b.regField, b.ext?)
  | .minu h d a b => some (wordOf h b.isImm.toNat 1 14 d a b.regField, b.ext?)
  | .maxu h d a b => some (wordOf h b.isImm.toNat 1 15 d a b.regField, b.ext?)
  | .seq h d a b => some (wordOf h b.isImm.toNat 1 16 d a b.regField, b.ext?)
  | .slt h d a b => some (wordOf h b.isImm.toNat 1 17 d a b.regField, b.ext?)
  | .sltu h d a b => some (wordOf h b.isImm.toNat 1 18 d a b.regField, b.ext?)
  | .sel h d a b => some (wordOf h 0 1 19 d a b, none)
  | .clz h d a => some (wordOf h 0 1 20 d a 0, none)
  | .popc h d a => some (wordOf h 0 1 21 d a 0, none)
  | .bext h d a sx lm1 pos =>
    some (wordOf h 1 1 22 d a 0, some (up 14 (sx.toNat) + up 8 lm1 + pos))
  | .bins h d a lm1 pos =>
    some (wordOf h 1 1 23 d a 0, some (up 8 lm1 + pos))
  | .lih h d a imm =>
    some (wordOf h 1 1 24 d a 0, some (imm))
  | .div h d a b k u =>
    some (wordOf h 1 1 26 d a b, some (up 29 k + u.toNat))
  | .rem h d a b k u =>
    some (wordOf h 1 1 27 d a b, some (up 29 k + u.toNat))
  | .movg h d a => some (wordOf h 0 1 28 d a 0, none)
  | .movfg h d a => some (wordOf h 0 1 29 d a 0, none)
  | .setp h cond a b => some (wordOf h 0 1 30 cond a b, none)
  | .vadd h d a b x => some (wordOf h x.isSome.toNat 2 0 d a b, x.map VExt.word)
  | .vsub h d a b x => some (wordOf h x.isSome.toNat 2 1 d a b, x.map VExt.word)
  | .vmul h d a b x => some (wordOf h x.isSome.toNat 2 2 d a b, x.map VExt.word)
  | .vfma h d a b x => some (wordOf h 1 2 3 d a b, some x.word)
  | .vfms h d a b x => some (wordOf h 1 2 4 d a b, some x.word)
  | .vmax h d a b x => some (wordOf h x.isSome.toNat 2 5 d a b, x.map VExt.word)
  | .vmin h d a b x => some (wordOf h x.isSome.toNat 2 6 d a b, x.map VExt.word)
  | .vabs h d a x => some (wordOf h x.isSome.toNat 2 7 d a 0, x.map VExt.word)
  | .vneg h d a x => some (wordOf h x.isSome.toNat 2 7 d a 1, x.map VExt.word)
  | .vfloor h d a x => some (wordOf h x.isSome.toNat 2 7 d a 2, x.map VExt.word)
  | .vceil h d a x => some (wordOf h x.isSome.toNat 2 7 d a 3, x.map VExt.word)
  | .vmov h d a x => some (wordOf h x.isSome.toNat 2 7 d a 4, x.map VExt.word)
  | .vcmp h d a b x => some (wordOf h 1 2 8 d a b, some x.word)
  | .vsel h d a b x => some (wordOf h x.isSome.toNat 2 9 d a b, x.map VExt.word)
  | .vexp2 h d a x => some (wordOf h x.isSome.toNat 2 10 d a 0, x.map VExt.word)
  | .vlog2 h d a x => some (wordOf h x.isSome.toNat 2 11 d a 0, x.map VExt.word)
  | .vrcp h d a x => some (wordOf h x.isSome.toNat 2 12 d a 0, x.map VExt.word)
  | .vrsqrt h d a x => some (wordOf h x.isSome.toNat 2 13 d a 0, x.map VExt.word)
  | .vexpb h d a b x => some (wordOf h x.isSome.toNat 2 14 d a b, x.map VExt.word)
  | .vcvt h d a x => some (wordOf h 1 2 15 d a 0, some x.word)
  | .vcvtTag h d a x => some (wordOf h 1 2 15 d a 0, some x.word)
  | .vpack h d a b x => some (wordOf h 1 2 16 d a b, some x.word)
  | .vunpk h d a x => some (wordOf h 1 2 17 d a 0, some x.word)
  | .vredadd h d a x => some (wordOf h x.isSome.toNat 2 18 d a 0, x.map VExt.word)
  | .vredmax h d a x => some (wordOf h x.isSome.toNat 2 19 d a 0, x.map VExt.word)
  | .vscan h d a x => some (wordOf h x.isSome.toNat 2 20 d a 0, x.map VExt.word)
  | .vperm h d a b x => some (wordOf h x.isSome.toNat 2 21 d a b, x.map VExt.word)
  | .vbcast h d a b x => some (wordOf h x.isSome.toNat 2 22 d a b, x.map VExt.word)
  | .viadd h d a b x => some (wordOf h x.isSome.toNat 2 23 d a b, x.map VExt.word)
  | .vimul h d a b x => some (wordOf h x.isSome.toNat 2 24 d a b, x.map VExt.word)
  | .vand h d a b x => some (wordOf h x.isSome.toNat 2 25 d a b, x.map VExt.word)
  | .vor h d a b x => some (wordOf h x.isSome.toNat 2 26 d a b, x.map VExt.word)
  | .vxor h d a b x => some (wordOf h x.isSome.toNat 2 27 d a b, x.map VExt.word)
  | .vshl h d a b x => some (wordOf h x.isSome.toNat 2 28 d a b, x.map VExt.word)
  | .vshr h d a b x => some (wordOf h x.isSome.toNat 2 29 d a b, x.map VExt.word)
  | .vrng h d x => some (wordOf h 1 2 30 d 0 0, some x.word)
  | .vffs h d a x => some (wordOf h x.isSome.toNat 2 31 d a 0, x.map VExt.word)
  | .vany h a x => some (wordOf h x.isSome.toNat 2 31 0 a 0, x.map VExt.word)
  | .mma h d a b unit cpat cop gm1 gs =>
    some (wordOf h 1 3 0 d a b, some (up 30 unit + up 27 cpat + up 25 cop + up 21 gm1 + up 17 gs))
  | .mmaz h d a b unit cpat cop gm1 gs =>
    some (wordOf h 1 3 1 d a b, some (up 30 unit + up 27 cpat + up 25 cop + up 21 gm1 + up 17 gs))
  | .mmat h d a b unit cpat cop gm1 gs =>
    some (wordOf h 1 3 2 d a b, some (up 30 unit + up 27 cpat + up 25 cop + up 21 gm1 + up 17 gs))
  | .mzero h d fmt => some (wordOf h fmt.isSome.toNat 3 3 d 0 0, fmt.map (up 25))
  | .mcvt h d a fmt rm q =>
    some (wordOf h 1 3 4 d a 0, some (up 25 fmt + up 22 rm + up 19 q))
  | .mfmt h d a fmt =>
    some (wordOf h 1 3 5 d a 0, some (up 25 fmt))
  | .mtv h d a k r =>
    some (wordOf h 1 3 6 d a 0, some (up 29 k + up 23 r))
  | .mvt h d a r =>
    some (wordOf h 1 3 7 d a 0, some (up 23 r))
  | .mcsel h d a b unit min init =>
    some (wordOf h 1 3 8 d a b, some (up 30 unit + up 29 (min.toNat) + up 28 (init.toNat)))
  | .ldw h d a off => some (wordOf h off.isSome.toNat 4 0 d a 0, off)
  | .ldd h d a off => some (wordOf h off.isSome.toNat 4 1 d a 0, off)
  | .stw h d a off => some (wordOf h off.isSome.toNat 4 2 d a 0, off)
  | .std h d a off => some (wordOf h off.isSome.toNat 4 3 d a 0, off)
  | .vld h d a b fmt off =>
    some (wordOf h 1 4 4 d a b, some (up 28 fmt + off))
  | .vst h d a b off =>
    some (wordOf h 1 4 5 d a b, some (off))
  | .ldt h d a fmt t r nrm1 sw =>
    some (wordOf h 1 4 6 d a 0, some (up 28 fmt + up 27 (t.toNat) + up 21 r + up 15 nrm1 + sw))
  | .tld h d a b fmt r nrm1 sw =>
    some (wordOf h 1 4 8 d a b, some (up 28 fmt + up 21 r + up 15 nrm1 + sw))
  | .tst h d a b r nrm1 sw =>
    some (wordOf h 1 4 9 d a b, some (up 21 r + up 15 nrm1 + sw))
  | .ldg h d a b k sz ord scope fmt =>
    some (wordOf h 1 4 10 d a b, some (up 29 k + up 27 sz + up 25 ord + up 23 scope + up 19 fmt))
  | .stg h d a b sz ord scope =>
    some (wordOf h 1 4 11 d a b, some (up 27 sz + up 25 ord + up 23 scope))
  | .vgat h d a b k fmt mv =>
    some (wordOf h 1 4 12 d a b, some (up 29 k + up 25 fmt + up 19 mv))
  | .vsct h d a b mv =>
    some (wordOf h 1 4 13 d a b, some (up 19 mv))
  | .amo h d a b k aop sz u ord scope opr cmp =>
    some (wordOf h 1 4 14 d a b, some (up 29 k + up 26 aop + up 25 (sz.toNat) + up 24 (u.toNat) + up 22 ord + up 20 scope + up 14 opr + up 8 cmp))
  | .alloc h a b => some (wordOf h 0 4 15 0 a b, none)
  | .free h a b => some (wordOf h 0 4 16 0 a b, none)
  | .vldc h d a k fmt =>
    some (wordOf h 1 4 17 d a 0, some (up 29 k + up 25 fmt))
  | .vstc h d a => some (wordOf h 0 4 18 d a 0, none)
  | .pref h a b lvl lnm1 =>
    some (wordOf h 1 4 19 0 a b, some (up 28 (lvl.toNat) + up 16 lnm1))
  | .inv h a b lnm1 =>
    some (wordOf h 1 4 20 0 a b, some (up 16 lnm1))
  | .sbind h d a => some (wordOf h 0 5 0 d a 0, none)
  | .sunbind h d => some (wordOf h 0 5 1 d 0 0, none)
  | .sflush h a k scope =>
    some (wordOf h 1 5 2 0 a 0, some (up 29 k + up 27 scope))
  | .sstat h a b => some (wordOf h 0 5 3 0 a b, none)
  | .sskip h a b => some (wordOf h 0 5 4 0 a b, none)
  | .xcopy h d g c k scope =>
    some (wordOf h 1 6 0 d g c, some (up 29 k + up 27 scope))
  | .xlist h d g c k scope =>
    some (wordOf h 1 6 1 d g c, some (up 29 k + up 27 scope))
  | .xfill h d g c k scope =>
    some (wordOf h 1 6 2 d g c, some (up 29 k + up 27 scope))
  | .xred h d g c k scope =>
    some (wordOf h 1 6 3 d g c, some (up 29 k + up 27 scope))
  | .xstat h d g c k scope =>
    some (wordOf h 1 6 4 d g c, some (up 29 k + up 27 scope))
  | .br h seg bun =>
    some (wordOf h 1 7 0 0 0 0, some (up 16 seg + bun))
  | .brz h a seg bun =>
    some (wordOf h 1 7 1 0 a 0, some (up 16 seg + bun))
  | .brnz h a seg bun =>
    some (wordOf h 1 7 2 0 a 0, some (up 16 seg + bun))
  | .brp h a b seg bun =>
    some (wordOf h 1 7 3 0 a b, some (up 16 seg + bun))
  | .call h d seg bun =>
    some (wordOf h 1 7 4 d 0 0, some (up 16 seg + bun))
  | .ret h a => some (wordOf h 0 7 5 0 a 0, none)
  | .jmpr h d a => some (wordOf h 0 7 6 d a 0, none)
  | .loop h a n seg bun =>
    some (wordOf h 1 7 7 0 a n, some (up 16 seg + bun))
  | .exit h => some (wordOf h 0 7 8 0 0 0, none)
  | .trap h code =>
    some (wordOf h 1 7 9 0 0 0, some (code))
  | .nop h => some (wordOf h 0 7 10 0 0 0, none)
  | .segpf h seg =>
    some (wordOf h 1 7 11 0 0 0, some (up 16 seg))
  | .fence h scope => some (wordOf h 0 8 0 0 0 scope, none)
  | .fenceAll h scope => some (wordOf h 0 8 0 0 0 (scope + 4), none)
  | .fenceDrain h => some (wordOf h 0 8 0 0 0 8, none)
  | .wait h d a b loc sz acq scope exp =>
    some (wordOf h 1 8 1 d a b, some (up 26 (loc.toNat) + up 25 (sz.toNat) + up 24 (acq.toNat) + up 22 scope + up 6 exp))
  | .waitArm h d a b loc sz acq scope exp =>
    some (wordOf h 1 8 1 d a b, some (up 26 (loc.toNat) + up 25 (sz.toNat) + up 24 (acq.toNat) + up 22 scope + up 6 exp + up 27 (1)))
  | .waitAny h d =>
    some (wordOf h 1 8 1 d 0 0, some (up 27 (2)))
  | .waitClr h =>
    some (wordOf h 1 8 1 0 0 0, some (up 27 (3)))
  | .sync h a => some (wordOf h 0 8 2 0 a 0, none)
  | .fadd h a b scope val =>
    some (wordOf h 1 8 3 0 a b, some (up 26 scope + up 6 val))
  | .fset h a b scope off val =>
    some (wordOf h 1 8 4 0 a b, some (up 26 scope + up 12 off + up 6 val))
  | .fwait h d a b acq scope thr =>
    some (wordOf h 1 8 5 d a b, some (up 24 (acq.toNat) + up 22 scope + up 6 thr))
  | .promote h a => some (wordOf h 0 8 6 0 a 0, none)
  | .csrr h d num =>
    some (wordOf h 1 9 0 d 0 0, some (num))
  | .csrw h a num =>
    some (wordOf h 1 9 1 0 a 0, some (num))
  | .trn h d a rights l2s =>
    some (wordOf h 1 9 2 d a 0, some (up 8 rights + l2s))
  | .hinv h d => some (wordOf h 0 9 3 d 0 0, none)
  | .hinvAll h => some (wordOf h 0 9 3 0 0 1, none)
  | .commit h => some (wordOf h 0 9 4 0 0 0, none)
  | .sig h a => some (wordOf h 0 9 5 0 a 0, none)
  | .brk h code => some (wordOf h 0 9 6 0 0 code, none)
  | .tsc h d => some (wordOf h 0 9 7 d 0 0, none)
  | .glook h d g c k scope =>
    some (wordOf h 1 10 0 d g c, some (up 29 k + up 27 scope))
  | .gins h d g c k scope =>
    some (wordOf h 1 10 1 d g c, some (up 29 k + up 27 scope))
  | .gref h d g c k scope =>
    some (wordOf h 1 10 2 d g c, some (up 29 k + up 27 scope))
  | .gunref h d g c k scope =>
    some (wordOf h 1 10 3 d g c, some (up 29 k + up 27 scope))
  | .kvapp h d g c k scope =>
    some (wordOf h 1 10 4 d g c, some (up 29 k + up 27 scope))
  | .kvtrunc h d g c k scope =>
    some (wordOf h 1 10 5 d g c, some (up 29 k + up 27 scope))
  | .hla h d g c k scope =>
    some (wordOf h 1 11 0 d g c, some (up 29 k + up 27 scope))
  | .hrd h d g c k scope =>
    some (wordOf h 1 11 1 d g c, some (up 29 k + up 27 scope))
  | .hrel h d g c k scope =>
    some (wordOf h 1 11 2 d g c, some (up 29 k + up 27 scope))
  | .hswp h d g c k scope =>
    some (wordOf h 1 11 3 d g c, some (up 29 k + up 27 scope))
  | .hnode h d g c k scope =>
    some (wordOf h 1 11 4 d g c, some (up 29 k + up 27 scope))
  | .hcpo h d g c k scope =>
    some (wordOf h 1 11 5 d g c, some (up 29 k + up 27 scope))
  | .publish h d g c k scope =>
    some (wordOf h 1 12 0 d g c, some (up 29 k + up 27 scope))
  | .adopt h d g c k scope seqb =>
    some (wordOf h 1 12 1 d g c, some (up 29 k + up 27 scope + up 26 (seqb.toNat)))
  | .vers h d g c k scope =>
    some (wordOf h 1 12 2 d g c, some (up 29 k + up 27 scope))
  | .flrec h d g c k scope =>
    some (wordOf h 1 12 3 d g c, some (up 29 k + up 27 scope))
  | .flcommit h d g c k scope =>
    some (wordOf h 1 12 4 d g c, some (up 29 k + up 27 scope))
  | .fltake h d g c k scope =>
    some (wordOf h 1 12 5 d g c, some (up 29 k + up 27 scope))
  | .flack h d g c k scope =>
    some (wordOf h 1 12 6 d g c, some (up 29 k + up 27 scope))
  | .nbmv h d g c k scope =>
    some (wordOf h 1 13 0 d g c, some (up 29 k + up 27 scope))
  | .nbmat h d g c k scope =>
    some (wordOf h 1 13 1 d g c, some (up 29 k + up 27 scope))
  | .nbstat h d g c k scope =>
    some (wordOf h 1 13 2 d g c, some (up 29 k + up 27 scope))
  | .coll h d g c k scope =>
    some (wordOf h 1 14 0 d g c, some (up 29 k + up 27 scope))
  | .fput h d g c k scope =>
    some (wordOf h 1 14 1 d g c, some (up 29 k + up 27 scope))
  | .fget h d g c k scope =>
    some (wordOf h 1 14 2 d g c, some (up 29 k + up 27 scope))
  | .famo h d g c k scope =>
    some (wordOf h 1 14 3 d g c, some (up 29 k + up 27 scope))
  | .fnfetch h d g c k scope =>
    some (wordOf h 1 14 4 d g c, some (up 29 k + up 27 scope))
  | .fixedResultLands .. => none
  | .taggedResultLands .. => none
  | .matrixResultComplete .. => none
  | .tileTransferComplete .. => none
  | .segmentExpansionDone .. => none
  | .segmentFallThrough .. => none
  | .syncArrival .. => none
  | .syncRestart .. => none
  | .monitorFire .. => none
  | .flagPush .. => none
  | .waitTimeout .. => none
  | .hangTimeout .. => none
  | .promotionArrival .. => none
  | .promotionAck .. => none
  | .streamFetch .. => none
  | .engineCommandEnd .. => none
  | .materialisationEnd .. => none
  | .adoptTimeout .. => none
  | .nbmatQueuedStart .. => none
  | .reclaimLine => none
  | .refusalRetry .. => none
  | .heldFaultPost .. => none
  | .drainComplete .. => none
  | .deadDrainComplete .. => none
  | .taskGroupEnd .. => none
  | .rerunEnd .. => none
  | .retirementCommit .. => none
  | .softError .. => none
  | .noiseHealthFail .. => none
  | .noiseSourceRestore .. => none
  | .patrolScrub .. => none
  | .healthStoreUpdate => none
  | .thermalTrip .. => none
  | .coldReset => none
  | .notifyStore .. => none
  | .scannerWake => none
  | .scannerVisit .. => none
  | .controllerFrame .. => none
  | .nopCommand .. => none
  | .launch .. => none
  | .launchPlacement .. => none
  | .graph .. => none
  | .repart .. => none
  | .badcmd .. => none
  | .repartCommit => none
  | .graphNodeLaunch .. => none
  | .activationDiscard .. => none
  | .bufferReplay .. => none
  | .sliceEnd .. => none
  | .checkpointSave .. => none
  | .contextRestore .. => none
  | .vdStop .. => none
  | .vdStopped .. => none
  | .vdResume .. => none
  | .vdDiscard .. => none
  | .invalWholeVd .. => none
  | .invalStage1Pages .. => none
  | .invalStage2Pages .. => none
  | .invalidationComplete => none
  | .pageReply .. => none
  | .mmPrqWrite .. => none
  | .mmDlogWrite .. => none
  | .mmEvqWrite .. => none
  | .mmEvqtailWrite .. => none
  | .evictionRequestService => none
  | .feQcfgWrite .. => none
  | .feSemaWrite .. => none
  | .feCebindWrite .. => none
  | .feFeatEnWrite .. => none
  | .fcRestart .. => none
  | .feNqWrite .. => none
  | .fePoolCfgWrite .. => none
  | .reLogWrite .. => none
  | .reEqWrite .. => none
  | .healthClearRequest .. => none
  | .attestationRequest .. => none
  | .connectionReset .. => none
  | .fxRqheadWrite .. => none
  | .configRegisterWrite .. => none
  | .feCfgdenyRead => none
  | .scStatRead => none
  | .fxErr0Read => none
  | .fxErr1Read => none
  | .reStatRead => none
  | .hwdErrRead => none
  | .feNqdropRead => none
  | .mmPrstatRead => none
  | .mgmtRead .. => none
  | .mgmtWrite .. => none
  | .cebRegisterRead .. => none
  | .cebRegisterWrite .. => none
  | .endpointConnectionLoss => none
  | .bamugWrite .. => none
  | .bamugReadReq .. => none
  | .bamugReadResp .. => none
  | .bamugAtomicReq .. => none
  | .bamugAtomicResp .. => none
  | .bamugAck .. => none
  | .bamugNak .. => none
  | .bamugFlagAdd .. => none
  | .bamugNameReq .. => none
  | .bamugNameResp .. => none
  | .bamugCollData .. => none
  | .bamugRetransmitTimeout .. => none
  | .roceSend .. => none
  | .roceRdmaWrite .. => none
  | .roceRdmaRead .. => none
  | .roceReadResponse .. => none
  | .roceCompareSwap .. => none
  | .roceFetchAdd .. => none
  | .roceAcknowledge .. => none
  | .roceNakReceived .. => none
  | .roceAckTimeout .. => none
  | .roceCnp .. => none
  | .roceRateRecovery .. => none
  | .pfcPause .. => none
  | .ptpMessage .. => none
  | .collStepTimeout .. => none
  | .matrixComputePhaseEnd .. => none
  | .writePerformed .. => none
  | .waitReadReturn .. => none
  | .noiseLogReadAhead .. => none
  | .quantumExpiry .. => none
  | .egressPacketTransmit .. => none
  | .portLinkChange .. => none
  | .bamugUnknownOpcode .. => none
  | .roceUnsupportedPacket .. => none
  | .mgmtMalformedRequest .. => none
  | .roceRnrRetryTimer .. => none
  | .scannerGating .. => none

/-- The first rule that is broken, of a list of rules in the order they are checked. -/
def firstBad : List (Bool × Reject) → Option Reject
  | [] => none
  | (bad, r) :: rest => if bad then some r else firstBad rest

/-- R101: a code that names no vector source. -/
def badVSrc (n : Nat) : Bool := n == 63

/-- R101: a code that names no vector destination. -/
def badVDst (n : Nat) : Bool := (48 ≤ n && n ≤ 51) || (60 ≤ n && n ≤ 62)

/-- A format code that is reserved (R60). -/
def badFmt (n : Nat) : Bool := 10 < n

/-- The codes of DX8 and DX4 (R60). -/
def isDxCode (n : Nat) : Bool := n == 6 || n == 7

/-- A rounding code that is reserved (R72). -/
def badRm (n : Nat) : Bool := n == 5 || n == 6

/-- What R146 allows in the extension of one class-2 instruction. `srcs`: the source codes; `opxMask`: the OPX bits
its entry defines; `rounds`: it has a rounding mode; `fmtUsed`: FMT names its target, or the tag of its untyped
sources (R148); `cUsed`: C is its third source. -/
structure VRule where
  srcs : List Nat
  opxMask : Nat := 0
  rounds : Bool := false
  fmtUsed : Bool := false
  cUsed : Bool := false

/-- R146, R148: FMT is the tag of untyped sources; an instruction that has sources uses it, whatever their codes are in one word
(log entry 25). -/
def fmtForUntyped (srcs : List Nat) : Bool := !srcs.isEmpty

/-- R92, R101, R146: the checks of a class-2 word that do not depend on its operation. -/
def vecChecks (x : Option VExt) (r : VRule) : List (Bool × Reject) :=
  let e := x.getD ⟨0, 0, 7, 0, 0⟩
  let has62 := r.srcs.any (· == 62)
  [ (x.isSome && e.opx % 256 != (e.opx &&& r.opxMask), .reservedField),
    (x.isSome && !r.fmtUsed && e.fmt != 0, .reservedField),
    (x.isSome && !r.rounds && e.rm != 0, .reservedField),
    (x.isSome && !r.cUsed && e.c != 0, .reservedField),
    (x.isSome && !has62 && e.xs != 0, .reservedField),
    (x.isNone && has62, .registerRange),
    (r.srcs.any badVSrc, .registerRange),
    (x.isSome && badFmt e.fmt, .badModifier),
    (x.isSome && badRm e.rm, .badModifier) ]

/-- A two-source word of class 2 whose destination is a vector. -/
def vec2 (d a b : Nat) (x : Option VExt) (rounds : Bool) (opxMask : Nat := 0) : List (Bool × Reject) :=
  vecChecks x ⟨[a, b], opxMask, rounds, fmtForUntyped [a, b], false⟩ ++ [(badVDst d, .registerRange)]

/-- A one-source word of class 2 whose destination is a vector. -/
def vec1 (d a : Nat) (x : Option VExt) (rounds : Bool) (opxMask : Nat := 0) : List (Bool × Reject) :=
  vecChecks x ⟨[a], opxMask, rounds, fmtForUntyped [a], false⟩ ++ [(badVDst d, .registerRange)]

/-- A class-2 word with three sources (R153). -/
def vec3 (d a b : Nat) (x : VExt) : List (Bool × Reject) :=
  vecChecks (some x) ⟨[a, b, x.c], 0, true, fmtForUntyped [a, b, x.c], true⟩ ++ [(badVDst d, .registerRange)]

/-- A conversion, whose FMT names the target (R160-R162). -/
def vecConv (d : Nat) (srcs : List Nat) (x : VExt) (rounds : Bool) (opxMask : Nat) : List (Bool × Reject) :=
  vecChecks (some x) ⟨srcs, opxMask, rounds, true, false⟩ ++ [(badVDst d, .registerRange)]

/-- R171: a code that names no tile register. -/
def badTile (n : Nat) : Bool := 24 ≤ n

/-- R100: a code that names no handle. -/
def badHandle (n : Nat) : Bool := 16 ≤ n

/-- R186: a code that names no main or operand vector register. -/
def badVReg (n : Nat) : Bool := 48 ≤ n

/-- R186: a code that names no vector data source of class 3 or 4. -/
def badVData (n : Nat) : Bool := 60 ≤ n

/-- The checks of the three multiply forms (R171, R172, R174). -/
def mmaChecks (d a b unit cop : Nat) : List (Bool × Reject) :=
  [ (badTile d || badTile a || badTile b, .registerRange),
    (unit == 3 || cop == 3, .badModifier),
    (d == a || d == b, .destIsSource) ]

/-- R196: a mask field that names no mask register and is not 63. -/
def badMask (mv : Nat) : Bool := badVReg mv && mv != 63

/-- R224: the checks of an engine command that reads `n` staging registers. -/
def engChecks (n g c : Nat) : List (Bool × Reject) :=
  [ (n == 0 && g != 0, .reservedField),
    (c == 63, .registerRange),
    (n != 0 && 31 < g + n - 1, .registerRange) ]

/-- R137: the numbers of the control registers. -/
def csrListed (n : Nat) : Bool :=
  n ≤ 4 || (0x10 ≤ n && n ≤ 0x13) || (0x20 ≤ n && n ≤ 0x23) || (0x30 ≤ n && n ≤ 0x35) || (0x40 ≤ n && n ≤ 0x47)

/-- R210: the checks of the two forms of `wait` that arm. -/
def waitChecks (a b : Nat) (loc acq : Bool) (scope : Nat) : List (Bool × Reject) :=
  [ (loc && b != 0, .reservedField),
    (!acq && scope != 0, .reservedField),
    (loc && acq, .badModifier),
    (!loc && badHandle a, .registerRange) ]

/-- The checks of an instruction's fields beyond their layout (R92, R100, R101, R129, R136, R140, R146, R160,
R169, R172, R174, R186-R199, R206, R210, R224): what is wrong, in the order of the reasons of R417. -/
def fieldChecks : Instr → List (Bool × Reject)
  | .movg _ d _ => [(32 ≤ d, .registerRange)]
  | .movfg _ _ a => [(32 ≤ a, .registerRange)]
  | .setp _ cond _ _ => [(6 ≤ cond, .badModifier)]
  | .vadd _ d a b x | .vsub _ d a b x | .vmul _ d a b x => vec2 d a b x true
  | .vfma _ d a b x | .vfms _ d a b x => vec3 d a b x
  | .vmax _ d a b x | .vmin _ d a b x => vec2 d a b x false
  | .vabs _ d a x | .vneg _ d a x | .vfloor _ d a x | .vceil _ d a x | .vmov _ d a x => vec1 d a x false
  | .vcmp _ d a b x => vec2 d a b (some x) false 15 ++ [(decide (8 ≤ x.opx % 16), Reject.badModifier)]
  | .vsel _ d a b x => vec2 d a b x false ++ [(badVReg d, .registerRange)]
  | .vexp2 _ d a x | .vlog2 _ d a x | .vrcp _ d a x | .vrsqrt _ d a x => vec1 d a x true
  | .vexpb _ d a b x => vec2 d a b x true 3 ++ [(decide (x.map (·.opx % 4) = some 3), Reject.badModifier)]
  | .vcvt _ d a x => vecConv d [a] x true 0
  | .vcvtTag _ d a x => vecConv d [a] x false 1 ++ [(isDxCode x.fmt, .badModifier)]
  | .vpack _ d a b x => vecConv d [a, b] x true 7
  | .vunpk _ d a x => vecConv d [a] x true 7
  | .vredadd _ d a x | .vredmax _ d a x | .vscan _ d a x => vec1 d a x false
  | .vperm _ d a b x =>
    vecChecks x ⟨[a, b], 0, false, true, false⟩ ++ [(badVDst d, .registerRange)]
  | .vbcast _ d a _ x => vec1 d a x false
  | .viadd _ d a b x => vec2 d a b x false 3
  | .vimul _ d a b x => vec2 d a b x false 2
  | .vand _ d a b x | .vor _ d a b x | .vxor _ d a b x | .vshl _ d a b x => vec2 d a b x false
  | .vshr _ d a b x => vec2 d a b x false 1
  | .vrng _ d x => vecConv d [] x false 0 ++ [(!(x.fmt == 0 || x.fmt == 1 || x.fmt == 8), .badModifier)]
  | .vffs _ _ a x | .vany _ a x => vecChecks x ⟨[a], 0, false, fmtForUntyped [a], false⟩
  | .mma _ d a b unit _ cop _ _ | .mmaz _ d a b unit _ cop _ _ | .mmat _ d a b unit _ cop _ _ =>
    mmaChecks d a b unit cop
  | .mzero _ d fmt => [(badTile d, .registerRange), (badFmt (fmt.getD 1), .badModifier)]
  | .mcvt _ d a fmt rm _ =>
    [(badTile d || badTile a, .registerRange), (badFmt fmt || badRm rm, .badModifier), (d == a, .destIsSource)]
  | .mfmt _ d a fmt => [(badTile d || badTile a, .registerRange), (badFmt fmt || isDxCode fmt, .badModifier)]
  | .mtv _ d a _ _ => [(badVReg d || badTile a, .registerRange)]
  | .mvt _ d a _ => [(badTile d || badVData a, .registerRange)]
  | .mcsel _ d a _ unit _ _ =>
    [(badTile d || badTile a, .registerRange), (unit == 3, .badModifier), (d == a, .destIsSource)]
  | .vld _ d _ b fmt _ =>
    [(!isDxCode fmt && b != 0, .reservedField), (badVReg d, .registerRange), (badFmt fmt, .badModifier)]
  | .vst _ d _ _ _ => [(badVData d, .registerRange)]
  | .ldt _ d _ fmt t r nrm1 _ =>
    [ (!t && (r != 0 || nrm1 != 0), .reservedField), (if t then badTile d else badVReg d, .registerRange),
      (badFmt fmt || isDxCode fmt || 63 < r + nrm1, .badModifier) ]
  | .tld _ d _ b fmt r nrm1 _ =>
    [ (!isDxCode fmt && b != 0, .reservedField), (badTile d, .registerRange),
      (badFmt fmt || 63 < r + nrm1, .badModifier) ]
  | .tst _ d _ _ r nrm1 _ => [(badTile d, .registerRange), (63 < r + nrm1, .badModifier)]
  | .ldg _ d a _ _ sz ord scope fmt =>
    [ ((ord == 0 && scope != 0) || (sz < 2 && fmt != 0), .reservedField),
      (badHandle a || (sz == 2 && badVReg d), .registerRange),
      (sz == 3 || 1 < ord || (sz == 2 && (badFmt fmt || isDxCode fmt)), .badModifier) ]
  | .stg _ d a _ sz ord scope =>
    [ (ord == 0 && scope != 0, .reservedField), (badHandle a || (sz == 2 && badVData d), .registerRange),
      (sz == 3 || !(ord == 0 || ord == 2), .badModifier) ]
  | .vgat _ d a b _ fmt mv =>
    [ (badVReg d || badHandle a || 62 ≤ b || badMask mv, .registerRange),
      (!(fmt == 0 || fmt == 1 || fmt == 8 || fmt == 10), .badModifier) ]
  | .vsct _ d a b mv => [(badVData d || badHandle a || 62 ≤ b || badMask mv, .registerRange)]
  | .amo _ _ a _ _ aop _ u ord scope _ cmp =>
    [ ((u && aop != 1 && aop != 2) || (ord == 0 && scope != 0) || (aop != 7 && cmp != 0), .reservedField),
      (badHandle a, .registerRange) ]
  | .vldc _ d _ _ fmt => [(badVReg d, .registerRange), (badFmt fmt || isDxCode fmt, .badModifier)]
  | .vstc _ d _ => [(badVData d, .registerRange)]
  | .pref _ a _ _ _ | .inv _ a _ _ => [(badHandle a, .registerRange)]
  | .sbind _ d a => [(8 ≤ d || 27 ≤ a, .registerRange)]
  | .sunbind _ d => [(8 ≤ d, .registerRange)]
  | .sflush _ a _ _ | .sstat _ a _ | .sskip _ a _ => [(8 ≤ a, .registerRange)]
  | .xcopy _ _ g c _ _ | .xred _ _ g c _ _ => engChecks 5 g c
  | .xlist _ _ g c _ _ => engChecks 2 g c
  | .xfill _ _ g c _ _ => engChecks 3 g c
  | .xstat _ _ g c _ _ => [(g != 0 || c != 0, .reservedField)]
  | .glook _ _ g c _ _ | .gins _ _ g c _ _ | .kvtrunc _ _ g c _ _ => engChecks 3 g c
  | .gref _ _ g c _ _ | .gunref _ _ g c _ _ => engChecks 2 g c
  | .kvapp _ _ g c _ _ => engChecks 4 g c
  | .hla _ _ g c _ _ | .hrd _ _ g c _ _ | .hrel _ _ g c _ _ | .hswp _ _ g c _ _ | .hnode _ _ g c _ _ =>
    engChecks 2 g c
  | .hcpo _ _ g c _ _ => engChecks 4 g c
  | .publish _ _ g c _ _ | .flrec _ _ g c _ _ => engChecks 2 g c
  | .adopt _ _ g c _ _ _ => engChecks 2 g c
  | .vers _ _ g c _ _ | .flack _ _ g c _ _ => engChecks 3 g c
  | .flcommit _ _ g c _ _ => engChecks 1 g c
  | .fltake _ _ g c _ _ => engChecks 4 g c
  | .nbmv _ _ g c _ _ => engChecks 4 g c
  | .nbmat _ _ g c _ _ => engChecks 1 g c
  | .nbstat _ _ g c _ _ => engChecks 3 g c
  | .coll _ _ g c _ _ | .fput _ _ g c _ _ | .fget _ _ g c _ _ | .famo _ _ g c _ _ => engChecks 4 g c
  | .fnfetch _ _ g c _ _ => engChecks 2 g c
  | .brp _ a b _ _ => [(8 ≤ a, .registerRange), (2 ≤ b, .badModifier)]
  | .loop _ _ n _ _ => [(n == 0 || 7 ≤ n, .badModifier)]
  | .wait _ _ a b loc _ acq scope _ | .waitArm _ _ a b loc _ acq scope _ => waitChecks a b loc acq scope
  | .fence _ scope => [(4 ≤ scope, .reservedField)]
  | .sync h _ => [(h.pred != 7, .badSync)]
  | .fadd _ a _ _ _ | .fset _ a _ _ _ _ => [(badHandle a, .registerRange)]
  | .fwait _ _ a _ acq scope _ => [(!acq && scope != 0, .reservedField), (badHandle a, .registerRange)]
  | .csrr _ _ num => [(!csrListed num, .registerRange)]
  | .csrw _ _ num => [(!csrListed num || num ≤ 4, .registerRange)]
  | .trn _ d _ rights l2s =>
    [(badHandle d, .registerRange), (rights == 0 || l2s < 16 || 32 < l2s, .badModifier)]
  | .hinv _ d => [(badHandle d, .registerRange)]
  | _ => []

/-- The E bit of a word is not what its entry allows (R92). -/
def badExt (r : ExtRule) (e : Nat) : Bool :=
  match r with
  | .never => e == 1
  | .always => e == 0
  | .optional => false

/-- The decoder of one instruction: `w` is its word, `x` the word after it, if there is one. The answer is the
instruction, or the first reason of R417 that makes the word ILLEGAL (log entry 12 gives the order of the reasons
within one word). -/
def decodeNat (w : Nat) (x : Option Nat) : Except Reject Instr :=
  let f := Fields.ofWord w
  if f.cls = 0 then
    if f.e = 1 ∨ fld w 0 6 ≠ 0 then .error .badScw
    else .ok (.sched f.h.stop (fld w 22 4) (fld w 14 8) (fld w 7 7) (fldB w 6))
  else
    match extRule f.cls f.op with
    | none => .error .unassignedOp
    | some r =>
      if badExt r f.e then .error .badE
      else
        match (if f.e = 1 then x else some 0) with
        | none => .error .truncated
        | some y =>
          match rawInstr f y with
          | .error e => .error e
          | .ok i =>
            if encodeNat i ≠ some (w, if f.e = 1 then some y else none) then .error .reservedField
            else
              match firstBad (fieldChecks i) with
              | some e => .error e
              | none => .ok i

/-- How many words the instruction at the head of a stream takes (R91). -/
def wordCount (w : Nat) : Nat := 1 + fld w 30 1

/-- The decoder on a stream of words: the first instruction and the words after it. -/
def decode : List W32 → Except Reject (Instr × List W32)
  | [] => .error .truncated
  | w :: rest =>
    match decodeNat w.toNat (rest.head?.map BitVec.toNat) with
    | .error e => .error e
    | .ok i => .ok (i, rest.drop (wordCount w.toNat - 1))

/-- The words of an instruction, in the order they stand in memory; none for an event. -/
def encode (i : Instr) : List W32 :=
  match encodeNat i with
  | none => []
  | some (w, none) => [BitVec.ofNat 32 w]
  | some (w, some x) => [BitVec.ofNat 32 w, BitVec.ofNat 32 x]

/-- Four bytes in the little-endian order of R4. -/
def wordOfBytes (b0 b1 b2 b3 : Byte) : W32 := b3 ++ b2 ++ b1 ++ b0

/-- The bytes of a word, lowest address first (R4). -/
def bytesOfWord (w : W32) : List Byte :=
  [w.extractLsb' 0 8, w.extractLsb' 8 8, w.extractLsb' 16 8, w.extractLsb' 24 8]

/-- The words of a byte stream; bytes at its end that make no word are passed over. -/
def wordsOfBytes : List Byte → List W32
  | b0 :: b1 :: b2 :: b3 :: rest => wordOfBytes b0 b1 b2 b3 :: wordsOfBytes rest
  | _ => []

/-- The decoder on bytes, as they stand in memory. -/
def decodeBytes (bs : List Byte) : Except Reject (Instr × List W32) := decode (wordsOfBytes bs)

/-- The words of an opcode-table word: `w` with bit 0 the least significant bit of the first word, and the second
word, if any, above it. -/
def tableWords (nbits w : Nat) : List W32 :=
  [BitVec.ofNat 32 (w % 2 ^ nbits), BitVec.ofNat 32 (w % 2 ^ nbits / 2 ^ 32)]

/-- The instruction that the decoder reads from an opcode-table word. -/
def decodeTableWord (nbits w : Nat) : Option Instr :=
  match decodeBytes ((tableWords nbits w).flatMap bytesOfWord) with
  | .ok (i, _) => some i
  | .error _ => none

end Sys2Proof
end

