-- ==== Sys2Proof/Machine/State.lean ====
section
/-!
DEFINITION. The state of the machine: everything the spec gives it, as plain data, and the state after cold reset.
`INVENTORY.md`, heading State, lists every field with the rule that names it.
-/

namespace Sys2Proof.Machine

/-- A sparse table by number, in one form: keys strictly rise, and no entry holds the table's default value. -/
abbrev SMap (α : Type) := List (Nat × α)

/-- Physical memory (R388): the bytes that are not zero, by rising address. -/
abbrev Memory := List Host.Cell

/-- The format tags of R60. -/
inductive Fmt where
  | raw | f32 | b16 | h16 | e4m3 | e5m2 | dx8 | dx4 | i32 | i8 | mask
deriving DecidableEq, Repr

/-- A vector register: 64 lanes of 32 bits, the 32-byte sidecar and the tag (R100, R70). -/
structure VReg where
  data : BitVec 2048
  side : BitVec 256
  tag : Fmt
deriving DecidableEq, Repr

/-- One row of a tile register with its sidecar bytes (R70). -/
structure Row where
  data : BitVec 2048
  side : BitVec 256
deriving DecidableEq, Repr

/-- A tile register: 64 rows and the tag (R100); rows that are all zero are not listed. -/
structure TReg where
  rows : SMap Row
  tag : Fmt
deriving DecidableEq, Repr

/-- A handle (R140), and the window that a stream captured (R476). -/
structure Handle where
  valid : Bool
  vd : Nat
  r : Bool
  w : Bool
  a : Bool
  l2s : Nat
  base : Nat
deriving DecidableEq, Repr

/-- Where a poison mark came from (R442): the tile's own storage (the unit of R417 or R455, the location of R455, the address), or
outside it. -/
inductive Origin where
  | tile (unit loc addr : Nat)
  | outside (unit : Nat)
deriving DecidableEq, Repr

/-- A register that a poison mark names (R442). -/
inductive PReg where
  | s (n : Nat) | g (n : Nat) | v (n : Nat) | t (n : Nat) | h (n : Nat) | csr (n : Nat) | preds
deriving DecidableEq, Repr

/-- One entry in the buffer of a read stream (R202). -/
structure SEntry where
  entry : Nat
  data : BitVec 2048
  poison : Option Origin
deriving DecidableEq, Repr

/-- A stream register (R200-R205, R476): the six descriptor words as snapshotted, what they say, the captured window,
and the position, buffer and marks. `gen` numbers the binding. -/
structure Stream where
  bound : Bool
  desc : List W64
  write : Bool
  fmt : Fmt
  offset : Nat
  ext : List Nat
  str : List Int
  total : Nat
  win : Handle
  pos : Nat
  ovr : Bool
  fetched : List SEntry
  next : Nat
  blocked : Bool
  gen : Nat
deriving DecidableEq, Repr

/-- The context states of R36. -/
inductive Bank where
  | idle | running | syncHeld | sleeping | draining | dead
deriving DecidableEq, Repr

/-- What a draining context goes to when its drain is complete (R36, R134, R362, R365, R414, R425, R452). -/
inductive DrainTo where
  | none
  | sleep
  | exit
  | stop
  | save (reason slot : Nat)
  | kill
  | rollback
deriving DecidableEq, Repr

/-- A bundle of a segment (R27). -/
structure Pc where
  seg : Nat
  bun : Nat
deriving DecidableEq, Repr

/-- Ordering attributes of a page (R269). -/
inductive Attr where
  | rc | so | uo
deriving DecidableEq, Repr

/-- What names an open page request (R382): virtual device, stage, cause, the two page addresses, walk read. -/
structure FKey where
  vd : Nat
  stage : Nat
  cause : Nat
  va : Nat
  ipa : Nat
  walk : Bool
deriving DecidableEq, Repr

/-- The result of a translation (R378): a physical address, or a place in an egress window (R391). `ipa` is the
stage-2 page, `cnt` the count bit of its leaf. -/
structure Xlat where
  pa : Nat
  attr : Attr
  fab : Option (Nat × Nat)
  ipa : Nat
  cnt : Bool
deriving DecidableEq, Repr

/-- How a request stands with the queue that it goes to (R283): not refused; refused so many times, to be tried again from a cycle
on; in its requester's reserved entry, to be serviced by a cycle. -/
inductive Refusal283 where
  | none
  | refused (times again : Nat)
  | reserved (by_ : Nat)
deriving DecidableEq, Repr

/-- A part of a load that lies in one page (R274): where it reads, where its bytes go in the result, and how far
it has come: its translation, the request it waits on, its bytes once the read is performed. -/
structure Piece where
  va : Nat
  len : Nat
  dst : Nat
  xl : Option Xlat
  wait : Option FKey
  freq : Option Nat
  val : Option (List Byte)
  poison : Option Origin
  tries : Refusal283 := .none
deriving DecidableEq, Repr

/-- The operation of an atomic (R197). -/
structure AmoOp where
  op : Nat
  dbl : Bool
  unsigned : Bool
  operand : W64
  compare : W64
deriving DecidableEq, Repr

/-- Where the bytes of a load go: a register, or the buffer of a read stream as its entry (R202); nowhere, where a later writer of its
slot class has written the register (R106). -/
inductive LoadDst where
  | scalar (d : Nat)
  | vector (d : Nat) (fmt : Fmt)
  | stream (q gen entry : Nat)
  | gone
deriving DecidableEq, Repr

/-- A global or mate load, or an atomic, that has issued (R194-R197, R193). `write` is the access right its
translation needs; `mask` is the completion mask of a gather. -/
structure Load where
  pieces : List Piece
  dst : LoadDst
  acq : Option Nat
  rel : Option Nat
  amo : Option AmoOp
  gather : Bool
  offsets : BitVec 2048
  vd : Nat
deriving DecidableEq, Repr

/-- A value on its way to a register of its context. `part`: the write is partial, so that a poison mark stays (R442). -/
inductive Landing where
  | sreg (n : Nat) (v : W64)
  | greg (n : Nat) (v : W64)
  | vreg (n : Nat) (v : VReg) (part : Bool)
  | last (v : VReg)
  | push (q gen vd va : Nat) (v : VReg)
  | treg (n : Nat) (v : TReg) (part : Bool)
  | p6 (b : Bool)
  | preds (v : BitVec 7)
  | window (v : BitVec 6)
  | handle (n : Nat) (h : Handle)
  | csr (n : Nat) (v : W64)
  | flags (v : W32)
deriving DecidableEq, Repr

/-- How a result in flight lands (R106, R108, R173, R185). -/
inductive FlightKind where
  | fixed | tagged | matrix | transfer
deriving DecidableEq, Repr

/-- A result that has issued and not landed: its slot, the cycles of its issue and of its bound, its tag, what
lands, the tiles it keeps read-busy and write-busy, the matrix unit with the end of its compute phase, for an
`sflush` the stream, its binding and the scope, and the bundle of its word. -/
structure Flight where
  id : Nat
  kind : FlightKind
  slot : Nat
  issued : Nat
  first : Nat
  bound : Option Nat
  tag : Option Nat
  lands : List Landing
  load : Option Load
  rd : List Nat
  wr : List Nat
  unit : Option Nat
  phaseEnd : Nat
  poison : Option Origin
  cmd : Option Nat
  flush : Option (Nat × Nat × Nat)
  word : Nat
  ext : Nat
  bundle : Nat := 0
  /-- R229: a status that lands without the tag -/
  late : Bool := false
deriving DecidableEq, Repr

/-- A word that is to issue: its context, slot and bundle, the predicates read when its bundle issued (R104), and,
for a pending word, the tags it waits on and its producer distance (R110). `begins`: it is the first word of its bundle. -/
structure IssueWord where
  ctx : Nat
  slot : Nat
  pc : Pc
  preds : BitVec 8
  wait : Nat
  pd : Nat
  pend : Bool
  begins : Bool
  bundle : Nat
  instr : Instr
deriving DecidableEq, Repr

/-- A trap that a word raises: cause, reason and detail (R416, R417). -/
structure TrapRec where
  cause : Nat
  reason : Nat
  detail : Nat
deriving DecidableEq, Repr

/-- A half of the loop buffer (R49, R50): the segment it holds or is expanding, its words and the expanded header. `bad`: the
bundle in which it holds an uncorrectable error (R441). -/
structure Half where
  seg : Nat
  ready : Bool
  fail : Option TrapRec
  wait : Option FKey
  words : List W32
  next : Nat
  issue : Nat
  sig : Nat
  est : Nat
  phaseSafe : Bool
  gstore : Bool
  bad : Option Nat := none
deriving DecidableEq, Repr

/-- A phase point (R142) with its input list of command cursors (R446). -/
structure Phase where
  s : SMap W64
  g : SMap W64
  h : SMap Handle
  p : BitVec 7
  csr : SMap W64
  pc : Pc
  count : Nat
  crc : W32
  ts : W64
deriving DecidableEq, Repr

/-- A cursor of an engine command: what is needed to issue it again (R370). -/
structure Cursor where
  cls : Nat
  op : Nat
  scope : Nat
  comp : Option (W64 × W64)
  g : List W64
  offset : Nat
  index : Nat
  step : Nat
  nonFinite : Bool
deriving DecidableEq, Repr

/-- The outcome of a rerun (R448); of a trap also its slot and SLIP bit. -/
structure Outcome where
  count : Nat
  crc : W32
  trap : Option (TrapRec × Pc)
  ue : Bool
  slot : Nat
  slip : Bool
deriving DecidableEq, Repr

/-- Rollback in progress (R447, R448): which rerun (0: still returning to the phase point for the first time; 3: no rerun, a
restored context that retirement saved from its phase point), whether it waits for the input list (`refill`), why it began, the
outcome of the first rerun, the commands of the input list, the noise position to which the log is replayed, the outcome of the
rerun that has just ended, and the passing of control that ended its pass. -/
structure Rerun where
  run : Nat
  refill : Bool
  origin : Nat
  addr : Nat
  unit : Nat
  loc : Nat
  first : Option Outcome
  cmds : List Nat
  logEnd : Nat
  ended : Option Outcome
  resume : Option (Pc × Pc × Nat)
deriving DecidableEq, Repr

/-- Why a sleeping or waiting context sleeps (R212, R214, R221): the status register, since when, whether its arming or
binding read has not come back, whether it only holds its next bundle (`wait.arm`), whether it waits on a flag, and a
status that is settled. -/
structure Sleep where
  d : Nat
  since : Nat
  arming : Bool
  held : Bool
  flag : Bool
  status : Option Nat
deriving DecidableEq, Repr

/-- A context bank (R36, R100, R137): all that belongs to the task in it. -/
structure Ctx where
  st : Bank
  s : SMap W64
  g : SMap W64
  v : SMap VReg
  t : SMap TReg
  p : BitVec 7
  h : SMap Handle
  q : SMap Stream
  csr : SMap W64
  /-- program counter, pass entry, issue count and CRC register (R27, R47, R420) -/
  pc : Pc
  entry : Nat
  count : Nat
  crc : W32
  /-- loop buffer: the half that executes and the idle half (R49) -/
  exec : Option Half
  idle : Option Half
  /-- control has passed to a segment that is not yet there: the target, the bundle that passed it, its cycle (R50), and
  how: 0 a branch, 1 falling through, 2 `tvec` -/
  jump : Option (Pc × Pc × Nat × Nat)
  /-- a bundle passed control while words were pending (R110): as `jump`, until none is -/
  leave : Option (Pc × Pc × Nat × Nat)
  /-- no bundle issues before this cycle; the cycle from which the producer distance counts, and the one from which
  HANGLIM counts; bundles issued -/
  notBefore : Nat
  lastFirst : Nat
  issuedAt : Nat
  bundles : Nat
  starve : Nat
  slotLast : SMap Nat
  flights : List Flight
  tagFree : SMap Nat
  rdFree : SMap Nat
  wrFree : SMap Nat
  unitFree : SMap Nat
  pend : List IssueWord
  /-- adopted version (R138, R253) -/
  wset : Nat
  version : Nat
  /-- R253: the cycle in which `vers` last moved, and what it read before -/
  versOld : Option (Nat × W64)
  /-- task binding: group serial, logical coordinate, incarnation (R28, R433) -/
  group : Option Nat
  lx : Nat
  ly : Nat
  incarnation : Nat
  drainTo : DrainTo
  sleep : Option Sleep
  faulted : Bool
  /-- page requests on which a read of the log, a pop, a watched word or a segment fetch waits, with its address (R84, R202) -/
  waits : List (FKey × Nat)
  arrived : Option Nat
  syncAt : Option Nat
  syncMask : Nat
  /-- the restart cycle that stands once all arrivals were there (R54), the cycle of the last restart, whether both contexts of the core
  restart together (R42), and the cycle in which the other context's sync bundle restarts (R42) -/
  restart : Option Nat
  restarted : Option Nat
  syncPair : Bool
  hush : Option Nat
  /-- the writes of its cluster with smaller numbers come before its next release (R278): they were there at its last acquire -/
  acqAt : Nat
  promoWait : Option Nat
  promoHold : Option Nat
  /-- phase point, REPLAY bit, input list and its overflow (R142, R445, R446) -/
  phase : Option Phase
  replay : Bool
  inputs : List Cursor
  nextInputs : List Cursor
  inputOver : Bool
  rerun : Option Rerun
  lastTrap : Option Nat
  trapBundle : Option Pc
  /-- REASON and DETAIL of the record of a dead context (R431) -/
  deadRec : Option (Nat × Nat)
  poison : List (PReg × Origin)
  /-- noise-log buffer: bits from the position of the last line boundary on, or read ahead (R84) -/
  logBits : List Bool
  logStart : Nat
  /-- R84: the bits of its last byte that a partial line has carried out already -/
  logTail : List Bool
  /-- first issue of a bundle since start or restore (R364); the FAULT record being completed (R373) -/
  quantumFrom : Option Nat
  quantumOver : Bool
  started : Bool
deriving DecidableEq, Repr

/-- A scratchpad line (R183, R230): pinned by bank 0 or 1, or (2) for a command whose task has left its bank (R134); held by an
engine command; its bytes. -/
structure SLine where
  pin : Option Nat
  eng : Option Nat
  data : BitVec 1024
  poison : Option Origin
deriving DecidableEq, Repr

/-- A cached line of a tile (R266, R269): its address, bytes, and for each 16-byte chunk that is dirty the bank that
last wrote it (R433) and the banks that have written it (R273): the bank, 2 for bank A, 4 for bank B. -/
structure CLine where
  tile : Nat
  line : Nat
  data : BitVec 1024
  dirty : SMap Nat
  poison : Option Origin
deriving DecidableEq, Repr

/-- A translation that a TLB holds (R380). `level` 1: of a tile; 2: of a cluster; 3: a stage-2 translation of a table
address that the walkers hold. -/
structure TlbEntry where
  level : Nat
  owner : Nat
  vd : Nat
  va : Nat
  size : Nat
  xl : Xlat
  r : Bool
  w : Bool
deriving DecidableEq, Repr

/-- What a posted request does when it is performed; the words that one `fset` writes form a group. -/
inductive PostOp where
  | write
  | flagAdd (v : W64)
  | flagSet (group : Nat)
  | sig (v : W64)
deriving DecidableEq, Repr

/-- A write that has issued and is not performed at system scope (R272, R143, R219, R203). `log`: it writes log bits
(R84), and the first byte keeps that many low bits. `tries`: its refusals (R283). `bundle`: of its word, for program order (R276).
`buf`: it has entered the cluster write buffer (R271). -/
structure Posted where
  id : Nat
  ctx : Nat
  vd : Nat
  va : Nat
  bytes : List Byte
  op : PostOp
  rel : Option Nat
  xl : Option Xlat
  wait : Option FKey
  stream : Option (Nat × Nat)
  log : Option Nat
  promoted : Bool
  bound : Nat
  tries : Refusal283 := .none
  freq : Option Nat
  bundle : Nat := 0
  buf : Bool := false
deriving DecidableEq, Repr

/-- A monitor (R211): who armed it, the word it watches, what it expects, and why it fired. `bound`: its line is known;
`arming`: its arming read has not come back; `win`: the window of its handle (R141). -/
structure Monitor where
  ctx : Nat
  scratch : Bool
  vd : Nat
  va : Nat
  addr : Nat
  dbl : Bool
  expected : W64
  acq : Option Nat
  fired : Option Nat
  bound : Bool
  arming : Bool
  win : Option Handle := none
deriving DecidableEq, Repr

/-- A flag register bound by an `fwait` (R221): the word, the threshold and the pushed values not yet delivered; where an `fset` has
pushed, the cycles from which and by which they are delivered (R56); the window of the handle (R141). -/
structure FlagBind where
  ctx : Nat
  vd : Nat
  va : Nat
  pa : Option Nat
  threshold : W64
  acq : Option Nat
  pushed : List W64
  lost : Bool
  window : Option (Nat × Nat) := none
  win : Option Handle := none
deriving DecidableEq, Repr

/-- A promotion under way (R223); `upto`: it has arrived, and waits for the owner's writes before that number. -/
structure Promotion where
  id : Nat
  promoter : Nat
  owner : Nat
  upto : Option Nat
deriving DecidableEq, Repr

/-- An engine command that has been accepted and has not ended (R224-R233). -/
structure Cmd where
  id : Nat
  ctx : Nat
  incarnation : Nat
  group : Nat
  lx : Nat
  ly : Nat
  vd : Nat
  cls : Nat
  op : Nat
  scope : Nat
  g : List W64
  gBase : Nat
  comp : Option (W64 × W64)
  handles : SMap Handle
  wset : Nat
  version : Nat
  ts : W64
  wait : Option FKey
  /-- bytes done, list index, item, and values kept between steps -/
  done : Nat
  index : Nat
  step : Nat
  flag : Bool
  target : Nat
  deadline : Nat
  stopped : Bool
  abandoned : Bool
  freqs : List Nat
  data : List Byte
  /-- a page refused to it; its ending: status, item, non-finite flag -/
  denied : Option FKey
  ending : Option (Nat × Nat × Bool)
  /-- the bundle of its word; the answers of peers that its step waits for or holds, and how many accesses to peers the step made -/
  bundle : Nat
  asks : List Nat
  peers : Nat
  /-- R298: the engine of the IOD took it -/
  iod : Bool
deriving DecidableEq, Repr

/-- An open page request (R382), or a fault held for one (R429). -/
structure PageReq where
  key : FKey
  id : Nat
  access : Nat
  source : Nat
deriving DecidableEq, Repr

/-- A request sent over the fabric for an access of this chip (R401). In `dep` a number of 4 names the task-graph scheduler and a node. -/
inductive FabUser where
  | load (ctx flight piece : Nat)
  | posted (id : Nat)
  | cmd (id : Nat) (item : Nat)
  | queue (q entry : Nat)
  | dep (fc slot n : Nat)
  | signal (source vd gid addr code : Nat)
deriving DecidableEq, Repr

/-- A fabric request: its user, connection and packet number, the data that answers it, and the status of R228 with which it
failed. -/
structure FabReq where
  id : Nat
  user : FabUser
  conn : Nat
  psn : Nat
  read : Bool
  reply : Option (List Byte)
  err : Nat
deriving DecidableEq, Repr

/-- A packet that its sender keeps until it is acknowledged (R398), for either transport. -/
structure SentPacket where
  psn : Nat
  bytes : List Byte
  times : Nat
deriving DecidableEq, Repr

/-- The state of one connection and virtual channel of the fabric (R394, R395, R398, R399, R463, R465). -/
structure Conn where
  sendPsn : Nat
  expPsn : Nat
  unacked : List SentPacket
  progressAt : Nat
  nakSent : Bool
  cache : List (Nat × W64)
  refusedPsns : List (Nat × Nat)
  failed : Bool
  rate : Nat
  cnpIn : Nat
  cnpOut : Option Nat
  rqHead : Nat
  rqTail : Nat
  retries : Nat
  rnr : Nat
  rnrTimer : Option Nat
  msg : List Byte
  writeAt : Nat
  writeKey : Nat
  lastRefusal : Option Nat
  held : Option FKey
  behind : List Instr
deriving DecidableEq, Repr

/-- A packet in an egress queue of a port (R390). -/
structure Egress where
  id : Nat
  port : Nat
  vc : Nat
  conn : Nat
  bytes : List Byte
deriving DecidableEq, Repr

/-- A COLL_DATA packet received (R397): communicator, virtual channel, step, source chip, whether it is the last of its step,
the non-finite flag, and its data. -/
structure CollPart where
  comm : Nat
  vc : Nat
  step : Nat
  src : Nat
  last : Bool
  flag : Bool
  data : List Byte
deriving DecidableEq, Repr

/-- A fabric port (R389, R390): link, paused virtual channels, deficit credits of VC1-VC3. -/
structure Port where
  up : Bool
  paused : List Nat
  credit : SMap Nat
  turn : Nat
deriving DecidableEq, Repr

/-- What an entry of a submission queue, a mailbox slot or a graph node brings to admission (R335-R337). -/
structure Command where
  queue : Nat
  vd : Nat
  bytes : List Byte
  placedAt : Nat
  node : Option Nat
deriving DecidableEq, Repr

/-- A task group (R28, R345), running or waiting for placement. `mail`: the mailbox slot of its command while it waits. -/
structure Group where
  serial : Nat
  gid : Nat
  vd : Nat
  stab : Nat
  scount : Nat
  gridX : Nat
  gridY : Nat
  learner : Bool
  mode : Nat
  prio : Nat
  args : List W64
  sigAddr : Nat
  sigVal : W64
  queuedAt : Nat
  node : Option Nat
  mail : Option (Nat × Nat)
  placed : Bool
  startTs : W64
  startedAt : Nat
  sliceAt : Nat
  exited : Nat
  error : Nat
  ending : Bool
  drainChosen : Bool
deriving DecidableEq, Repr

/-- A saved image (R365-R373): its slot, its group, its place in the order of saves, the version that it has adopted, the bundle
at which its pass was entered, the time-stamp of its phase point, and the rollback that it interrupted (R454). `foreign`: another
chip saved it, and it holds no reader here (R373). -/
structure Image where
  vd : Nat
  slot : Nat
  group : Nat
  lx : Nat
  ly : Nat
  reason : Nat
  order : Nat
  wset : Nat
  version : Nat
  entry : Nat
  phaseTs : W64
  rerun : Option Rerun
  foreign : Bool
deriving DecidableEq, Repr

/-- A node of a task graph (R349-R352). `phase`: 0 waiting, 1 launched, 2 ended, 3 to be replayed, 4 launched again. `backed`: the
intermediate pages of its buffer, each with its unit; `replayFor`: the node whose buffer its replay reproduces. -/
structure Node where
  id : Nat
  graph : Nat
  vd : Nat
  preds : List Nat
  recomp : Bool
  bufLen : Nat
  launch : Nat
  buf : Nat
  rstart : Nat
  rcount : Nat
  phase : Nat
  error : Nat
  backed : List (Nat × Nat)
  discarded : Bool
  replayFor : Option Nat
deriving DecidableEq, Repr

/-- A part of the device that waits for a page of its own access (R424): the fetch of a queue, the polling of a controller,
the completion signal of a group, a node of a task graph, the end of a task that held part of a Flume ring. -/
inductive DevUser where
  | queue (q : Nat)
  | fc (n : Nat)
  | group (n : Nat)
  | node (n : Nat)
  | task (n : Nat)
deriving DecidableEq, Repr

/-- A page request that a part of the device waits for, and whether it was answered with failure. -/
structure DevWait where
  user : DevUser
  key : FKey
  denied : Bool
deriving DecidableEq, Repr

/-- A controller of the front end (R342, R343): the mailbox slots, the counts of slots filled and consumed, its scalar registers
(and, from 64 up, its staging registers), predicates, the other control registers of R137, program counter, bundles issued and SRAMs, whether it is halted and why (R468), and the cycle in
which its frame began. -/
structure Controller where
  mailbox : List (Nat × Command)
  filled : Nat
  consumed : Nat
  regs : SMap W64
  preds : BitVec 7
  csr : SMap W64
  pc : Nat
  count : Nat
  isram : SMap W32
  dsram : SMap Byte
  halted : Bool
  cause : Nat
  frameAt : Nat
deriving DecidableEq, Repr

/-- A line of the Heartwood region (R311-R316). -/
structure HLine where
  vd : Nat
  dom : Nat
  hash : Nat
  index : Nat
  node : Bool
  data : BitVec 1024
  count : Nat
  reclaiming : Bool
deriving DecidableEq, Repr

/-- An extent of a weight set (R323-R327): 0 empty, 1 materialising, 2 ready; its version, the image bytes written, whether a count on
the version's root is held, and the root of a materialisation. -/
structure Extent where
  state : Nat
  version : Nat
  bytes : Nat
  held : Bool
  root : List Byte
deriving DecidableEq, Repr

/-- A reservation or a claim of a Flume ring (R330-R332): the ring, the task that holds it, its first index and length. -/
structure RingHold where
  vd : Nat
  ring : Nat
  owner : Option Nat
  start : Nat
  count : Nat
  claim : Bool
  cap : Nat
deriving DecidableEq, Repr

/-- A write into a Flume ring that the end of a task still owes (R332): the task, the ring, and where: bit 31 of FLAGS of a record
(`va`), COMMIT or FREE. -/
inductive RingPart where
  | void (va : Nat)
  | commit
  | free
deriving DecidableEq, Repr

/-- A write of R332 that is owed. -/
structure RingPut where
  task : Nat
  vd : Nat
  ring : Nat
  part : RingPart
deriving DecidableEq, Repr

/-- A pin on a page of a registered pool (R302): its task, the stream number or 8 for the copy engine, the virtual device,
the pool slot and the page's index. -/
structure Pin where
  group : Nat
  lx : Nat
  ly : Nat
  src : Nat
  vd : Nat
  slot : Nat
  page : Nat
deriving DecidableEq, Repr

/-- What the health store holds (R459): the counts as they stand, or one of its two copies in the flash. -/
structure Health where
  generation : Nat
  lane : SMap Nat
  subArray : SMap Nat
  unlocated : SMap Nat
  agreed : SMap Nat
  retired : List Nat
  sliceCe : SMap Nat
  sliceUe : SMap Nat
  hbmCe : SMap Nat
  hbmUe : SMap Nat
deriving DecidableEq, Repr

/-- The noise source of a tile (R80, R453). -/
structure Noise where
  failed : Bool
  failures : List Nat
deriving DecidableEq, Repr

/-- A repartition under way (R360), or a retirement (R450). -/
structure Move where
  clusters : List Nat
  newMask : Nat
  command : Option Command
  startTs : W64
  retireTile : Option Nat
  aux : Nat
deriving DecidableEq, Repr

/-- An invalidation in progress (R381): its VD, and the accesses to wait for: those with smaller numbers. -/
structure Inval where
  vd : Nat
  upto : Nat
deriving DecidableEq, Repr

/-- R304: a migration under way: the virtual device and intermediate page, the old and the new place, the leaf, the request's entry, and
the guest address of the page's count word where the page belongs to a pool. -/
structure Migration where
  vd : Nat
  ipa : Nat
  old : Nat
  new : Nat
  leaf : Nat
  entry : Nat
  count : Option Nat
deriving DecidableEq, Repr

/-- Why the machine stops. Raised only where the spec gives no effect at all. -/
inductive Fault where
  /-- Raised when the device itself (a walker, a ring, a save region, a table named by a device register) addresses
  physical memory outside the map of R388, which the spec says is absent. Safe: the machine stops. -/
  | absentPhysicalAddress (addr : Nat)
deriving DecidableEq, Repr

/-- Why an instruction has no meaning. -/
inductive Refusal where
  /-- The instruction is not modelled. Safe: the machine stops. -/
  | notModelled (mnemonic : String)
deriving DecidableEq, Repr

/-- The machine. -/
structure State where
  /-- core cycles since reset, and the time-stamp counter with its fraction and its rate (R21, R403) -/
  now : Nat
  tsc : Nat
  tscRate : Int
  ctxs : SMap Ctx
  mem : Memory
  memPoison : SMap Origin
  scratch : SMap SLine
  cache : List CLine
  tlb : List TlbEntry
  posted : List Posted
  monitors : List Monitor
  flags : List FlagBind
  promotions : List Promotion
  cmds : List Cmd
  reqs : List PageReq
  held : List PageReq
  invals : List Inval
  invSeq : SMap Nat
  invRanges : List (Nat × Nat × Nat × Nat)
  migr : Option Migration
  dev : SMap W64
  /-- front end -/
  pending : List Nat
  scanPos : Nat
  gated : Bool
  /-- R340: the cycle by which the scanner runs, where it is gated and a bit is pending -/
  wakeBy : Nat
  devWaits : List DevWait
  fcs : SMap Controller
  groups : List Group
  nodes : List Node
  pool : List Nat
  images : List Image
  moves : List Move
  vdState : SMap Nat
  gseq : Nat
  lastMgmt : Option (Nat × List Byte)
  /-- Heartwood, versions, Flume, page pools -/
  hlines : List HLine
  extents : SMap Extent
  matQueue : List (Nat × Nat)
  ringHolds : List RingHold
  ringPuts : List RingPut
  pins : List Pin
  /-- fabric -/
  conns : SMap Conn
  fabReqs : List FabReq
  egress : List Egress
  ports : SMap Port
  collIn : List CollPart
  /-- reliability; `healthCopies`: the copies in the flash, the newer first -/
  noise : SMap Noise
  health : Health
  healthCopies : List Health
  healthChanged : Bool
  healthAt : Nat
  recordSeq : Nat
  /-- R357: the least time-stamp that a source may give next -/
  stamps : SMap Nat
  thermal : Bool
  /-- the model's own fields, not the spec's (log entries 2, 3) -/
  agenda : List (Nat × Instr)
  due : List Instr
  todo : List IssueWord
  visit : Nat
  cur : IssueWord
  fresh : Nat
  serial : Nat
  /-- the firmware image in the flash (R358) -/
  firmware : SMap W32
  out : List (Nat × List Byte)
  bad : Option Fault
deriving DecidableEq, Repr

/-- R57: a vector register at task start. -/
def VReg.zero : VReg := ⟨0, 0, .raw⟩

/-- R57: a row of a tile register at task start. -/
def Row.zero : Row := ⟨0, 0⟩

/-- R57: a tile register at task start. -/
def TReg.zero : TReg := ⟨[], .raw⟩

/-- R57: an invalid handle. -/
def Handle.invalid : Handle := ⟨false, 0, false, false, false, 0, 0⟩

/-- R57: an unbound stream. -/
def Stream.unbound : Stream := ⟨false, [], false, .raw, 0, [], [], 0, Handle.invalid, 0, false, [], 0, false, 0⟩

/-- R139: the control registers that are not zero at task start: HANGLIM of `timeout`. -/
def Ctx.resetCsr : SMap W64 := [(0x23, 0x0000100000000000#64)]

/-- R25, R57: a bank after cold reset: Idle, with the values of a task start (log entry 8). -/
def Ctx.init : Ctx where
  st := .idle
  s := []
  g := []
  v := []
  t := []
  p := 0
  h := []
  q := []
  csr := Ctx.resetCsr
  pc := ⟨0, 0⟩
  entry := 0
  count := 0
  crc := 0xFFFFFFFF#32
  exec := none
  idle := none
  jump := none
  leave := none
  notBefore := 0
  lastFirst := 0
  issuedAt := 0
  bundles := 0
  starve := 0
  slotLast := []
  flights := []
  tagFree := []
  rdFree := []
  wrFree := []
  unitFree := []
  pend := []
  versOld := none
  wset := 0
  version := 0
  group := none
  lx := 0
  ly := 0
  incarnation := 0
  drainTo := .none
  sleep := none
  faulted := false
  waits := []
  arrived := none
  syncAt := none
  syncMask := 0
  restart := none
  restarted := none
  syncPair := false
  hush := none
  acqAt := 0
  promoWait := none
  promoHold := none
  phase := none
  replay := false
  inputs := []
  nextInputs := []
  inputOver := false
  rerun := none
  lastTrap := none
  trapBundle := none
  deadRec := none
  poison := []
  logBits := []
  logStart := 0
  logTail := []
  quantumFrom := none
  quantumOver := false
  started := false

/-- An unpinned scratchpad line. -/
def SLine.free : SLine := ⟨none, none, 0, none⟩

/-- R464: a connection after its reset; a RoCE v2 QP sends at line rate (800 Gb/s, in Mb/s). -/
def Conn.init : Conn where
  sendPsn := 0
  expPsn := 0
  unacked := []
  progressAt := 0
  nakSent := false
  cache := []
  refusedPsns := []
  failed := false
  rate := 800000
  cnpIn := 0
  cnpOut := none
  rqHead := 0
  rqTail := 0
  retries := 0
  rnr := 0
  rnrTimer := none
  msg := []
  writeAt := 0
  writeKey := 0
  lastRefusal := none
  held := none
  behind := []

/-- A fabric port at reset: link down, nothing paused (log entry 8). -/
def Port.init : Port := ⟨false, [], [], 1⟩

/-- A controller with empty mailbox; SRAM and registers zero (log entry 6). -/
def Controller.init : Controller := ⟨[], 0, 0, [], 0, Ctx.resetCsr, 0, 0, [], [], false, 0, 0⟩

/-- An empty extent. -/
def Extent.empty : Extent := ⟨0, 0, 0, false, []⟩

/-- A noise source in service. -/
def Noise.good : Noise := ⟨false, []⟩

/-- A health store with every count zero (log entry 6). -/
def Health.zero : Health := ⟨0, [], [], [], [], [], [], [], [], []⟩

/-- No word in hand. -/
def IssueWord.none : IssueWord := ⟨0, 7, ⟨0, 0⟩, 0x80#8, 0, 0, false, false, 0, .sched true 0 0 0 false⟩

/-- R25: the machine right after cold reset: every bank Idle, every register at its reset value, memory with nothing
listed, no translation cached, no queue in service. Registers hold no entry in `dev` while they are at their
reset value. -/
def State.reset : State where
  now := 0
  tsc := 0
  tscRate := 0
  ctxs := []
  mem := []
  memPoison := []
  scratch := []
  cache := []
  tlb := []
  posted := []
  monitors := []
  flags := []
  promotions := []
  cmds := []
  reqs := []
  held := []
  invals := []
  invSeq := []
  invRanges := []
  migr := none
  dev := []
  pending := []
  scanPos := 0
  gated := false
  wakeBy := 0
  devWaits := []
  fcs := []
  groups := []
  nodes := []
  pool := []
  images := []
  moves := []
  vdState := []
  gseq := 0
  lastMgmt := none
  hlines := []
  extents := []
  matQueue := []
  ringHolds := []
  ringPuts := []
  pins := []
  conns := []
  fabReqs := []
  egress := []
  ports := []
  collIn := []
  noise := []
  health := Health.zero
  healthCopies := [Health.zero, Health.zero]
  healthChanged := false
  healthAt := 0
  recordSeq := 0
  stamps := []
  thermal := false
  agenda := []
  due := []
  todo := []
  visit := 0
  cur := IssueWord.none
  fresh := 0
  serial := 0
  firmware := []
  out := []
  bad := none

end Sys2Proof.Machine
end

