-- ==== Sys2Proof/Machine/DevRegs.lean ====
section
/-!
DEFINITION. The device registers (R355): offsets, the fields' types (R6) and reset values, from the register tables of
the spec, and the operations that read and write one register's stored value.
-/

namespace Sys2Proof.Machine

/-- The selector through which a register is reached (R355), if any. -/
inductive Sel where
  | none | queue | nq | act | scVd | mmVd | ws | gvPool | hwdDom | rq | eq
deriving DecidableEq, Repr

/-- A register: its offset, its selector, the bits that are RW, W1C and RC, and its reset value. Every other bit is
RO. -/
structure RegSpec where
  off : Nat
  sel : Sel
  rw : Nat
  w1c : Nat
  rc : Nat
  reset : Nat
deriving DecidableEq, Repr

namespace Dev


/-- FE_STAT (R358). -/
abbrev feStat : Nat := 0x0
/-- FE_SEMA (R353). -/
abbrev feSema : Nat := 0x8
/-- FE_CFGDENY (R353). -/
abbrev feCfgdeny : Nat := 0x10
/-- FE_CEBIND (R356). -/
abbrev feCebind : Nat := 0x18
/-- FE_FEAT_SUP0 (R354). -/
abbrev feFeatSup0 : Nat := 0x20
/-- FE_FEAT_SUP1 (R354). -/
abbrev feFeatSup1 : Nat := 0x28
/-- FE_FEAT_SUP2 (R354). -/
abbrev feFeatSup2 : Nat := 0x30
/-- FE_FEAT_SUP3 (R354). -/
abbrev feFeatSup3 : Nat := 0x38
/-- FE_FEAT_EN0 (R354). -/
abbrev feFeatEn0 : Nat := 0x40
/-- FE_FEAT_EN1 (R354). -/
abbrev feFeatEn1 : Nat := 0x48
/-- FE_FEAT_EN2 (R354). -/
abbrev feFeatEn2 : Nat := 0x50
/-- FE_FEAT_EN3 (R354). -/
abbrev feFeatEn3 : Nat := 0x58
/-- FE_QSEL (R334). -/
abbrev feQsel : Nat := 0x80
/-- FE_QBASE (R334). -/
abbrev feQbase : Nat := 0x88
/-- FE_QCFG (R334). -/
abbrev feQcfg : Nat := 0x90
/-- FE_QHEAD (R334). -/
abbrev feQhead : Nat := 0x98
/-- FE_QTAIL (R334). -/
abbrev feQtail : Nat := 0xA0
/-- FE_NQSEL (R436). -/
abbrev feNqsel : Nat := 0xC0
/-- FE_NQ (R436). -/
abbrev feNq : Nat := 0xC8
/-- FE_NQHEAD (R436). -/
abbrev feNqhead : Nat := 0xD0
/-- FE_NQTAIL (R436). -/
abbrev feNqtail : Nat := 0xD8
/-- FE_NQDROP (R436). -/
abbrev feNqdrop : Nat := 0xE0
/-- FE_POOL_FREE (R351). -/
abbrev fePoolFree : Nat := 0x100
/-- FE_POOL_WM (R351). -/
abbrev fePoolWm : Nat := 0x108
/-- FE_POOL_CFG (R352). -/
abbrev fePoolCfg : Nat := 0x110
/-- FE_POOL_SIZE (R352). -/
abbrev fePoolSize : Nat := 0x118
/-- FE_ACTSEL (R352). -/
abbrev feActsel : Nat := 0x120
/-- FE_ACTWIN (R352). -/
abbrev feActwin : Nat := 0x128
/-- FE_ACTLEN (R352). -/
abbrev feActlen : Nat := 0x130
/-- FE_FCSTAT (R468). -/
abbrev feFcstat : Nat := 0x140
/-- FE_FCRST (R468). -/
abbrev feFcrst : Nat := 0x148
/-- PM_MAP (R355). -/
abbrev pmMap : Nat := 0x1000
/-- SC_DRAIN_MAX (R363). -/
abbrev scDrainMax : Nat := 0x2000
/-- SC_KILL_MIN (R363). -/
abbrev scKillMin : Nat := 0x2008
/-- SC_QMIN (R363). -/
abbrev scQmin : Nat := 0x2010
/-- SC_SLICE (R363). -/
abbrev scSlice : Nat := 0x2018
/-- SC_BW (R363). -/
abbrev scBw : Nat := 0x2020
/-- SC_STAT (R363). -/
abbrev scStat : Nat := 0x2028
/-- SC_VDSEL (R371). -/
abbrev scVdsel : Nat := 0x2040
/-- SC_VDSAVE (R371). -/
abbrev scVdsave : Nat := 0x2048
/-- SC_VDCTL (R371). -/
abbrev scVdctl : Nat := 0x2050
/-- SC_VDSTAT (R371). -/
abbrev scVdstat : Nat := 0x2058
/-- MM_VDSEL (R375). -/
abbrev mmVdsel : Nat := 0x3000
/-- MM_VDCFG (R375). -/
abbrev mmVdcfg : Nat := 0x3008
/-- MM_VDS1 (R375). -/
abbrev mmVds1 : Nat := 0x3010
/-- MM_INVAL (R381). -/
abbrev mmInval : Nat := 0x3040
/-- MM_INVALX (R381). -/
abbrev mmInvalx : Nat := 0x3048
/-- MM_PRQ (R382). -/
abbrev mmPrq : Nat := 0x3080
/-- MM_PRQHEAD (R382). -/
abbrev mmPrqhead : Nat := 0x3088
/-- MM_PRQTAIL (R382). -/
abbrev mmPrqtail : Nat := 0x3090
/-- MM_PRREPLY (R382). -/
abbrev mmPrreply : Nat := 0x3098
/-- MM_PRSTAT (R429). -/
abbrev mmPrstat : Nat := 0x30A0
/-- MM_DLOG (R385). -/
abbrev mmDlog : Nat := 0x30C0
/-- MM_DLHEAD (R385). -/
abbrev mmDlhead : Nat := 0x30C8
/-- MM_DLTAIL (R385). -/
abbrev mmDltail : Nat := 0x30D0
/-- MM_ACCFG (R386). -/
abbrev mmAccfg : Nat := 0x3100
/-- MM_ACRANGE (R386). -/
abbrev mmAcrange : Nat := 0x3108
/-- MM_ACTHR (R386). -/
abbrev mmActhr : Nat := 0x3110
/-- MM_EVQ (R387). -/
abbrev mmEvq : Nat := 0x3140
/-- MM_EVQHEAD (R387). -/
abbrev mmEvqhead : Nat := 0x3148
/-- MM_EVQTAIL (R387). -/
abbrev mmEvqtail : Nat := 0x3150
/-- RL_WSEL (R318). -/
abbrev rlWsel : Nat := 0x4000
/-- RL_WSCFG (R318). -/
abbrev rlWscfg : Nat := 0x4008
/-- RL_ADOPT0 (R318). -/
abbrev rlAdopt0 : Nat := 0x4020
/-- RL_ADOPT1 (R318). -/
abbrev rlAdopt1 : Nat := 0x4028
/-- RL_ADOPT2 (R318). -/
abbrev rlAdopt2 : Nat := 0x4030
/-- RL_ADOPT3 (R318). -/
abbrev rlAdopt3 : Nat := 0x4038
/-- GV_PSEL (R291). -/
abbrev gvPsel : Nat := 0x5000
/-- GV_PDESC (R291). -/
abbrev gvPdesc : Nat := 0x5008
/-- HWD_REGION (R308). -/
abbrev hwdRegion : Nat := 0x6000
/-- HWD_RSIZE (R308). -/
abbrev hwdRsize : Nat := 0x6008
/-- HWD_USED (R308). -/
abbrev hwdUsed : Nat := 0x6010
/-- HWD_SEL (R310). -/
abbrev hwdSel : Nat := 0x6040
/-- HWD_DCTL (R310). -/
abbrev hwdDctl : Nat := 0x6048
/-- HWD_DUSED (R310). -/
abbrev hwdDused : Nat := 0x6050
/-- HWD_DKEY0 (R310). -/
abbrev hwdDkey0 : Nat := 0x6058
/-- HWD_DKEY1 (R310). -/
abbrev hwdDkey1 : Nat := 0x6060
/-- HWD_ERR (R439). -/
abbrev hwdErr : Nat := 0x6080
/-- NB_XCFG (R323). -/
abbrev nbXcfg : Nat := 0x8000
/-- NB_XSTAT0 (R323). -/
abbrev nbXstat0 : Nat := 0x8008
/-- NB_XSTAT1 (R323). -/
abbrev nbXstat1 : Nat := 0x8010
/-- FX_CHIPID (R393). -/
abbrev fxChipid : Nat := 0x9000
/-- FX_VCMAP (R390). -/
abbrev fxVcmap : Nat := 0x9008
/-- FX_VCWT (R390). -/
abbrev fxVcwt : Nat := 0x9010
/-- FX_RTO (R393). -/
abbrev fxRto : Nat := 0x9018
/-- FX_RLIM (R464). -/
abbrev fxRlim : Nat := 0x9020
/-- FX_CTO (R464). -/
abbrev fxCto : Nat := 0x9028
/-- FX_IMP (R393). -/
abbrev fxImp : Nat := 0x9040
/-- FX_EWIN (R393). -/
abbrev fxEwin : Nat := 0x9048
/-- FX_CONN (R393). -/
abbrev fxConn : Nat := 0x9050
/-- FX_COMM (R393). -/
abbrev fxComm : Nat := 0x9058
/-- FX_CRESET (R464). -/
abbrev fxCreset : Nat := 0x9060
/-- FX_VCTX0 (R409). -/
abbrev fxVctx0 : Nat := 0x9080
/-- FX_VCTX1 (R409). -/
abbrev fxVctx1 : Nat := 0x9088
/-- FX_VCTX2 (R409). -/
abbrev fxVctx2 : Nat := 0x9090
/-- FX_VCTX3 (R409). -/
abbrev fxVctx3 : Nat := 0x9098
/-- FX_VCRX0 (R409). -/
abbrev fxVcrx0 : Nat := 0x90A0
/-- FX_VCRX1 (R409). -/
abbrev fxVcrx1 : Nat := 0x90A8
/-- FX_VCRX2 (R409). -/
abbrev fxVcrx2 : Nat := 0x90B0
/-- FX_VCRX3 (R409). -/
abbrev fxVcrx3 : Nat := 0x90B8
/-- FX_ERR0 (R464). -/
abbrev fxErr0 : Nat := 0x90C0
/-- FX_ERR1 (R464). -/
abbrev fxErr1 : Nat := 0x90C8
/-- FX_RQSEL (R395). -/
abbrev fxRqsel : Nat := 0x9100
/-- FX_RQHEAD (R395). -/
abbrev fxRqhead : Nat := 0x9108
/-- FX_RQTAIL (R395). -/
abbrev fxRqtail : Nat := 0x9110
/-- RE_CTL (R458). -/
abbrev reCtl : Nat := 0xA000
/-- RE_STAT (R458). -/
abbrev reStat : Nat := 0xA008
/-- RE_HCLR (R460). -/
abbrev reHclr : Nat := 0xA010
/-- RE_LOG (R457). -/
abbrev reLog : Nat := 0xA040
/-- RE_LOGHEAD (R457). -/
abbrev reLoghead : Nat := 0xA048
/-- RE_LOGTAIL (R457). -/
abbrev reLogtail : Nat := 0xA050
/-- RE_EQSEL (R457). -/
abbrev reEqsel : Nat := 0xA080
/-- RE_EQ (R457). -/
abbrev reEq : Nat := 0xA088
/-- RE_EQHEAD (R457). -/
abbrev reEqhead : Nat := 0xA090
/-- RE_EQTAIL (R457). -/
abbrev reEqtail : Nat := 0xA098
/-- TS_STAT (R403). -/
abbrev tsStat : Nat := 0xB000
/-- SEC_MEAS0 (R358). -/
abbrev secMeas0 : Nat := 0xC000
/-- SEC_MEAS1 (R358). -/
abbrev secMeas1 : Nat := 0xC008
/-- SEC_MEAS2 (R358). -/
abbrev secMeas2 : Nat := 0xC010
/-- SEC_MEAS3 (R358). -/
abbrev secMeas3 : Nat := 0xC018
/-- SEC_NONCE0 (R404). -/
abbrev secNonce0 : Nat := 0xC020
/-- SEC_NONCE1 (R404). -/
abbrev secNonce1 : Nat := 0xC028
/-- SEC_NONCE2 (R404). -/
abbrev secNonce2 : Nat := 0xC030
/-- SEC_NONCE3 (R404). -/
abbrev secNonce3 : Nat := 0xC038
/-- SEC_ATTADDR (R404). -/
abbrev secAttaddr : Nat := 0xC040
/-- SEC_ATTCTL (R404). -/
abbrev secAttctl : Nat := 0xC048

end Dev

/-- The registers of R355 with their fields: part 1 (the feature bits that the part supports: log entry 7). -/
def regTable1 : List RegSpec := [
  ⟨Dev.feStat, .none, 0x0, 0x0, 0x0, 0x0⟩,
  ⟨Dev.feSema, .none, 0x3, 0x0, 0x0, 0x0⟩,
  ⟨Dev.feCfgdeny, .none, 0x0, 0x0, 0xFFFFFFFFFFFFFFFF, 0x0⟩,
  ⟨Dev.feCebind, .none, 0xFFFF000FFFFF, 0x0, 0x0, 0xFFFF00000000⟩,
  ⟨Dev.feFeatSup0, .none, 0x0, 0x0, 0x0, 0x7F⟩,
  ⟨Dev.feFeatSup1, .none, 0x0, 0x0, 0x0, 0x0⟩,
  ⟨Dev.feFeatSup2, .none, 0x0, 0x0, 0x0, 0x0⟩,
  ⟨Dev.feFeatSup3, .none, 0x0, 0x0, 0x0, 0x0⟩,
  ⟨Dev.feFeatEn0, .none, 0xFFFFFFFFFFFFFFFF, 0x0, 0x0, 0x0⟩,
  ⟨Dev.feFeatEn1, .none, 0xFFFFFFFFFFFFFFFF, 0x0, 0x0, 0x0⟩,
  ⟨Dev.feFeatEn2, .none, 0xFFFFFFFFFFFFFFFF, 0x0, 0x0, 0x0⟩,
  ⟨Dev.feFeatEn3, .none, 0xFFFFFFFFFFFFFFFF, 0x0, 0x0, 0x0⟩,
  ⟨Dev.feQsel, .none, 0xFFF, 0x0, 0x0, 0x0⟩,
  ⟨Dev.feQbase, .queue, 0x7FFFFFFFFFFFC0, 0x0, 0x0, 0x0⟩,
  ⟨Dev.feQcfg, .queue, 0xBF1F000000000000, 0x0, 0x0, 0x0⟩,
  ⟨Dev.feQhead, .queue, 0x0, 0x0, 0x0, 0x0⟩,
  ⟨Dev.feQtail, .queue, 0x0, 0x0, 0x0, 0x0⟩,
  ⟨Dev.feNqsel, .none, 0x3F, 0x0, 0x0, 0x0⟩,
  ⟨Dev.feNq, .nq, 0x800FFFFFFFFFF01F, 0x4000000000000000, 0x0, 0x0⟩,
  ⟨Dev.feNqhead, .nq, 0xFFFFFFFF, 0x0, 0x0, 0x0⟩]

/-- The registers of R355 with their fields: part 2. -/
def regTable2 : List RegSpec := [
  ⟨Dev.feNqtail, .nq, 0x0, 0x0, 0x0, 0x0⟩,
  ⟨Dev.feNqdrop, .nq, 0x0, 0x0, 0xFFFFFFFFFFFF0000, 0x0⟩,
  ⟨Dev.fePoolFree, .none, 0x0, 0x0, 0x0, 0x0⟩,
  ⟨Dev.fePoolWm, .none, 0xFFFFFFFF, 0x0, 0x0, 0x0⟩,
  ⟨Dev.fePoolCfg, .none, 0x800FFFFFFFFF0000, 0x0, 0x0, 0x0⟩,
  ⟨Dev.fePoolSize, .none, 0xFFFFFFFF, 0x0, 0x0, 0x0⟩,
  ⟨Dev.feActsel, .none, 0x3F, 0x0, 0x0, 0x0⟩,
  ⟨Dev.feActwin, .act, 0x800FFFFFFFFF0000, 0x0, 0x0, 0x0⟩,
  ⟨Dev.feActlen, .act, 0xFFFFFFFF, 0x0, 0x0, 0x0⟩,
  ⟨Dev.feFcstat, .none, 0x0, 0x0, 0x0, 0x0⟩,
  ⟨Dev.feFcrst, .none, 0xF, 0x0, 0x0, 0x0⟩,
  ⟨Dev.pmMap, .none, 0x0, 0x0, 0x0, 0x0⟩,
  ⟨Dev.scDrainMax, .none, 0xFFFFFFFF, 0x0, 0x0, 0x14⟩,
  ⟨Dev.scKillMin, .none, 0xFFFF, 0x0, 0x0, 0xFFFF⟩,
  ⟨Dev.scQmin, .none, 0xFFFFFFFF, 0x0, 0x0, 0x32⟩,
  ⟨Dev.scSlice, .none, 0xFFFFFFFF, 0x0, 0x0, 0x0⟩,
  ⟨Dev.scBw, .none, 0xFFFFFFFF, 0x0, 0x0, 0xC8⟩,
  ⟨Dev.scStat, .none, 0x0, 0x0, 0xFFFFFFFFFFFFFFFF, 0x0⟩,
  ⟨Dev.scVdsel, .none, 0x3F, 0x0, 0x0, 0x0⟩,
  ⟨Dev.scVdsave, .scVd, 0x800FFFFFFFC0FFFF, 0x0, 0x0, 0x0⟩]

/-- The registers of R355 with their fields: part 3. -/
def regTable3 : List RegSpec := [
  ⟨Dev.scVdctl, .scVd, 0x3, 0x0, 0x0, 0x0⟩,
  ⟨Dev.scVdstat, .scVd, 0x0, 0x0, 0x0, 0x0⟩,
  ⟨Dev.mmVdsel, .none, 0x3F, 0x0, 0x0, 0x0⟩,
  ⟨Dev.mmVdcfg, .mmVd, 0x800FFFFFFFFF0000, 0x0, 0x0, 0x0⟩,
  ⟨Dev.mmVds1, .mmVd, 0xFFFFFFFFF0000, 0x0, 0x0, 0x0⟩,
  ⟨Dev.mmInval, .none, 0xF3FFFFFFFFFFFFFF, 0x0, 0x0, 0x0⟩,
  ⟨Dev.mmInvalx, .none, 0x7, 0x0, 0x0, 0x0⟩,
  ⟨Dev.mmPrq, .mmVd, 0x800FFFFFFFFFF01F, 0x0, 0x0, 0x0⟩,
  ⟨Dev.mmPrqhead, .mmVd, 0xFFFFFFFF, 0x0, 0x0, 0x0⟩,
  ⟨Dev.mmPrqtail, .mmVd, 0x0, 0x0, 0x0, 0x0⟩,
  ⟨Dev.mmPrreply, .mmVd, 0xFFFF000000FF, 0x0, 0x0, 0x0⟩,
  ⟨Dev.mmPrstat, .mmVd, 0x0, 0x0, 0xFFFF000000000000, 0x0⟩,
  ⟨Dev.mmDlog, .mmVd, 0x800FFFFFFFFFF01F, 0x4000000000000000, 0x0, 0x0⟩,
  ⟨Dev.mmDlhead, .mmVd, 0xFFFFFFFF, 0x0, 0x0, 0x0⟩,
  ⟨Dev.mmDltail, .mmVd, 0x0, 0x0, 0x0, 0x0⟩,
  ⟨Dev.mmAccfg, .mmVd, 0x800FFFFFFFFF0000, 0x0, 0x0, 0x0⟩,
  ⟨Dev.mmAcrange, .mmVd, 0xFFFFFF0FFFFFFFFF, 0x0, 0x0, 0x0⟩,
  ⟨Dev.mmActhr, .mmVd, 0xFFFFFFFF, 0x0, 0x0, 0x0⟩,
  ⟨Dev.mmEvq, .none, 0x800FFFFFFFFFF01F, 0x0, 0x0, 0x0⟩,
  ⟨Dev.mmEvqhead, .none, 0x0, 0x0, 0x0, 0x0⟩]

/-- The registers of R355 with their fields: part 4. -/
def regTable4 : List RegSpec := [
  ⟨Dev.mmEvqtail, .none, 0xFFFFFFFF, 0x0, 0x0, 0x0⟩,
  ⟨Dev.rlWsel, .none, 0x3F, 0x0, 0x0, 0x0⟩,
  ⟨Dev.rlWscfg, .ws, 0xFFFE03FFFFFFFFFF, 0x0, 0x0, 0x0⟩,
  ⟨Dev.rlAdopt0, .none, 0xFFFFFFFF, 0x0, 0x0, 0x0⟩,
  ⟨Dev.rlAdopt1, .none, 0xFFFFFFFF, 0x0, 0x0, 0x0⟩,
  ⟨Dev.rlAdopt2, .none, 0xFFFFFFFF, 0x0, 0x0, 0x0⟩,
  ⟨Dev.rlAdopt3, .none, 0xFFFFFFFF, 0x0, 0x0, 0x0⟩,
  ⟨Dev.gvPsel, .none, 0xFC7, 0x0, 0x0, 0x0⟩,
  ⟨Dev.gvPdesc, .gvPool, 0x807FFFFFFFFFFF80, 0x0, 0x0, 0x0⟩,
  ⟨Dev.hwdRegion, .none, 0x800FFFFFFFFF0000, 0x0, 0x0, 0x0⟩,
  ⟨Dev.hwdRsize, .none, 0xFFFFFFFF, 0x0, 0x0, 0x0⟩,
  ⟨Dev.hwdUsed, .none, 0x0, 0x0, 0x0, 0x0⟩,
  ⟨Dev.hwdSel, .none, 0x3FFF, 0x0, 0x0, 0x0⟩,
  ⟨Dev.hwdDctl, .hwdDom, 0x80000000FFFFFFFF, 0x0, 0x0, 0x0⟩,
  ⟨Dev.hwdDused, .hwdDom, 0x0, 0x0, 0x0, 0x0⟩,
  ⟨Dev.hwdDkey0, .hwdDom, 0xFFFFFFFFFFFFFFFF, 0x0, 0x0, 0x0⟩,
  ⟨Dev.hwdDkey1, .hwdDom, 0xFFFFFFFFFFFFFFFF, 0x0, 0x0, 0x0⟩,
  ⟨Dev.hwdErr, .none, 0x0, 0x0, 0xFFFFFFFFFFFFFFFF, 0x0⟩,
  ⟨Dev.nbXcfg, .ws, 0x3FFFFFFFFFFFF, 0x0, 0x0, 0x0⟩,
  ⟨Dev.nbXstat0, .ws, 0x0, 0x0, 0x0, 0x0⟩]

/-- The registers of R355 with their fields: part 5. -/
def regTable5 : List RegSpec := [
  ⟨Dev.nbXstat1, .ws, 0x0, 0x0, 0x0, 0x0⟩,
  ⟨Dev.fxChipid, .none, 0xFFFF, 0x0, 0x0, 0x0⟩,
  ⟨Dev.fxVcmap, .none, 0x7777, 0x0, 0x0, 0x3456⟩,
  ⟨Dev.fxVcwt, .none, 0xFFFFFF, 0x0, 0x0, 0x10204⟩,
  ⟨Dev.fxRto, .none, 0xFFFFFFFF, 0x0, 0x0, 0x14⟩,
  ⟨Dev.fxRlim, .none, 0xFF, 0x0, 0x0, 0x10⟩,
  ⟨Dev.fxCto, .none, 0xFFFFFFFF, 0x0, 0x0, 0x2710⟩,
  ⟨Dev.fxImp, .none, 0x800FFFFFFFFFF000, 0x0, 0x0, 0xFFF⟩,
  ⟨Dev.fxEwin, .none, 0x800FFFFFFFFFFFFF, 0x0, 0x0, 0x0⟩,
  ⟨Dev.fxConn, .none, 0x800FFFFFFFFFFFFF, 0x0, 0x0, 0x0⟩,
  ⟨Dev.fxComm, .none, 0x800FFFFFFFFFFFFF, 0x0, 0x0, 0x0⟩,
  ⟨Dev.fxCreset, .none, 0x800000000000FFFF, 0x0, 0x0, 0x0⟩,
  ⟨Dev.fxVctx0, .none, 0xFFFFFFFFFFFFFFFF, 0x0, 0x0, 0x0⟩,
  ⟨Dev.fxVctx1, .none, 0xFFFFFFFFFFFFFFFF, 0x0, 0x0, 0x0⟩,
  ⟨Dev.fxVctx2, .none, 0xFFFFFFFFFFFFFFFF, 0x0, 0x0, 0x0⟩,
  ⟨Dev.fxVctx3, .none, 0xFFFFFFFFFFFFFFFF, 0x0, 0x0, 0x0⟩,
  ⟨Dev.fxVcrx0, .none, 0xFFFFFFFFFFFFFFFF, 0x0, 0x0, 0x0⟩,
  ⟨Dev.fxVcrx1, .none, 0xFFFFFFFFFFFFFFFF, 0x0, 0x0, 0x0⟩,
  ⟨Dev.fxVcrx2, .none, 0xFFFFFFFFFFFFFFFF, 0x0, 0x0, 0x0⟩,
  ⟨Dev.fxVcrx3, .none, 0xFFFFFFFFFFFFFFFF, 0x0, 0x0, 0x0⟩]

/-- The registers of R355 with their fields: part 6. -/
def regTable6 : List RegSpec := [
  ⟨Dev.fxErr0, .none, 0x0, 0x0, 0xFFFFFFFFFFFFFFFF, 0x0⟩,
  ⟨Dev.fxErr1, .none, 0x0, 0x0, 0xFFFFFFFFFFFFFFFF, 0x0⟩,
  ⟨Dev.fxRqsel, .none, 0xFFFF, 0x0, 0x0, 0x0⟩,
  ⟨Dev.fxRqhead, .rq, 0xFFFFFFFF, 0x0, 0x0, 0x0⟩,
  ⟨Dev.fxRqtail, .rq, 0x0, 0x0, 0x0, 0x0⟩,
  ⟨Dev.reCtl, .none, 0xFFFFFFFFFFFF0001, 0x0, 0x0, 0x1800400001⟩,
  ⟨Dev.reStat, .none, 0x0, 0x0, 0xFFFFFFFFFFFFFFFF, 0x0⟩,
  ⟨Dev.reHclr, .none, 0x1, 0x0, 0x0, 0x0⟩,
  ⟨Dev.reLog, .none, 0x800FFFFFFFFFF01F, 0x4000000000000000, 0x0, 0x0⟩,
  ⟨Dev.reLoghead, .none, 0xFFFFFFFF, 0x0, 0x0, 0x0⟩,
  ⟨Dev.reLogtail, .none, 0x0, 0x0, 0x0, 0x0⟩,
  ⟨Dev.reEqsel, .none, 0x3F, 0x0, 0x0, 0x0⟩,
  ⟨Dev.reEq, .eq, 0x800FFFFFFFFFF01F, 0x4000000000000000, 0x0, 0x0⟩,
  ⟨Dev.reEqhead, .eq, 0xFFFFFFFF, 0x0, 0x0, 0x0⟩,
  ⟨Dev.reEqtail, .eq, 0x0, 0x0, 0x0, 0x0⟩,
  ⟨Dev.tsStat, .none, 0x0, 0x0, 0x0, 0x0⟩,
  ⟨Dev.secMeas0, .none, 0x0, 0x0, 0x0, 0x0⟩,
  ⟨Dev.secMeas1, .none, 0x0, 0x0, 0x0, 0x0⟩,
  ⟨Dev.secMeas2, .none, 0x0, 0x0, 0x0, 0x0⟩,
  ⟨Dev.secMeas3, .none, 0x0, 0x0, 0x0, 0x0⟩]

/-- The registers of R355 with their fields: part 7. -/
def regTable7 : List RegSpec := [
  ⟨Dev.secNonce0, .none, 0xFFFFFFFFFFFFFFFF, 0x0, 0x0, 0x0⟩,
  ⟨Dev.secNonce1, .none, 0xFFFFFFFFFFFFFFFF, 0x0, 0x0, 0x0⟩,
  ⟨Dev.secNonce2, .none, 0xFFFFFFFFFFFFFFFF, 0x0, 0x0, 0x0⟩,
  ⟨Dev.secNonce3, .none, 0xFFFFFFFFFFFFFFFF, 0x0, 0x0, 0x0⟩,
  ⟨Dev.secAttaddr, .none, 0xFFFFFFFFFFFFFFFF, 0x0, 0x0, 0x0⟩,
  ⟨Dev.secAttctl, .none, 0x1, 0x0, 0x0, 0x0⟩]

/-- R355: every device register. -/
def regTable : List RegSpec := regTable1 ++ regTable2 ++ regTable3 ++ regTable4 ++ regTable5 ++ regTable6 ++ regTable7

/-- The entry of `regTable` for an offset. -/
def regSpec (off : Nat) : Option RegSpec := regTable.find? (·.off == off)

/-- The reset value of a register. -/
def regReset (off : Nat) : W64 :=
  match regSpec off with
  | none => 0
  | some r => BitVec.ofNat 64 r.reset

/-- R355: the instances of a register behind a selector are told apart by the selector's value. -/
def devKey (off inst : Nat) : Nat := inst * 2 ^ 16 + off

end Sys2Proof.Machine
end

