-- ==== Sys2Proof/Machine/Ops.lean ====
section
/-!
DEFINITION. The named operations over memory, registers, device registers, results in flight and records, and taking
an exception (R411-R422), which every meaning shares.
-/

namespace Sys2Proof.Machine

/-! ### Sparse tables -/

/-- The value of a table at `n`, `d` where nothing is listed. -/
def SMap.get {α : Type} (d : α) : SMap α → Nat → α
  | [], _ => d
  | (k, v) :: m, n => if k = n then v else SMap.get d m n

/-- A table with no entry at `n`. -/
def SMap.del {α : Type} : SMap α → Nat → SMap α
  | [], _ => []
  | (k, w) :: m, n => if k = n then SMap.del m n else (k, w) :: SMap.del m n

/-- An entry put before the first of a larger key. -/
def SMap.ins {α : Type} : SMap α → Nat → α → SMap α
  | [], n, v => [(n, v)]
  | (k, w) :: m, n, v => if n < k then (n, v) :: (k, w) :: m else (k, w) :: SMap.ins m n v

/-- The table with `v` at `n`; a table in canonical form stays so. -/
def SMap.set {α : Type} [DecidableEq α] (d : α) (m : SMap α) (n : Nat) (v : α) : SMap α :=
  if v = d then SMap.del m n else SMap.ins (SMap.del m n) n v

/-- The keys a table lists. -/
def SMap.keys {α : Type} (m : SMap α) : List Nat := m.map (·.1)

/-- The canonical form of a table: keys strictly rise and no entry holds the default. -/
def SMap.wf {α : Type} [DecidableEq α] (d : α) : SMap α → Bool
  | [] => true
  | [(_, v)] => decide (v ≠ d)
  | (k, v) :: (k', v') :: m => decide (v ≠ d) && decide (k < k') && SMap.wf d ((k', v') :: m)

/-- The canonical form of physical memory. -/
def Memory.wf (m : Memory) : Bool := SMap.wf (0#8) m

/-! ### Bytes and bit fields -/

/-- `n` bits of a 64-bit register from bit `lo`, as a number. -/
def bitsOf (v : W64) (lo n : Nat) : Nat := fld v.toNat lo n

/-- A 64-bit register with `n` bits from `lo` replaced. -/
def setBits (v : W64) (lo n x : Nat) : W64 :=
  let mask := BitVec.ofNat 64 ((2 ^ n - 1) * 2 ^ lo)
  (v &&& ~~~mask) ||| (BitVec.ofNat 64 (x % 2 ^ n * 2 ^ lo))

/-- The little-endian value of a byte list (R4). -/
def leNat : List Byte → Nat
  | [] => 0
  | b :: bs => b.toNat + 256 * leNat bs

/-- `n` bytes of a number, little-endian (R4). -/
def toLE : Nat → Nat → List Byte
  | 0, _ => []
  | n + 1, x => BitVec.ofNat 8 x :: toLE n (x / 256)

/-- `n` zero bytes. -/
def zeros (n : Nat) : List Byte := List.replicate n 0

/-- `len` bytes of a list from `off`, zero past its end. -/
def slice (bs : List Byte) (off len : Nat) : List Byte :=
  let t := (bs.drop off).take len
  t ++ zeros (len - t.length)

/-- A number in a byte list. -/
def natAt (bs : List Byte) (off len : Nat) : Nat := leNat (slice bs off len)

/-- A byte list with another written over it at `off`. -/
def overlay (bs : List Byte) (off : Nat) (new : List Byte) : List Byte :=
  slice bs 0 off ++ new ++ bs.drop (off + new.length)

/-- The bytes of a wide bit vector, lowest first. -/
def bytesOfBits (n : Nat) {w : Nat} (v : BitVec w) : List Byte := toLE n v.toNat

/-- The bit vector of a byte list. -/
def bitsOfBytes (w : Nat) (bs : List Byte) : BitVec w := BitVec.ofNat w (leNat bs)

/-- A number read as a signed value of `w` bits. -/
def sext (w n : Nat) : Int := if n % 2 ^ w < 2 ^ (w - 1) then ((n % 2 ^ w : Nat) : Int) else ((n % 2 ^ w : Nat) : Int) - 2 ^ w

/-- A signed number modulo 2^64, as a number. -/
def wrap64 (x : Int) : Nat := (x % 2 ^ 64).toNat

/-! ### Format tags (R60) -/

/-- The tag of a format code. -/
def Fmt.ofCode : Nat → Fmt
  | 1 => .f32 | 2 => .b16 | 3 => .h16 | 4 => .e4m3 | 5 => .e5m2 | 6 => .dx8 | 7 => .dx4 | 8 => .i32 | 9 => .i8
  | 10 => .mask | _ => .raw

/-- The code of a format tag. -/
def Fmt.code : Fmt → Nat
  | .raw => 0 | .f32 => 1 | .b16 => 2 | .h16 => 3 | .e4m3 => 4 | .e5m2 => 5 | .dx8 => 6 | .dx4 => 7 | .i32 => 8
  | .i8 => 9 | .mask => 10

/-- The element width of a format, in bits. -/
def Fmt.width : Fmt → Nat
  | .b16 | .h16 => 16
  | .e4m3 | .e5m2 | .dx8 | .i8 => 8
  | .dx4 => 4
  | _ => 32

/-- The two block formats. -/
def Fmt.isDx : Fmt → Bool
  | .dx8 | .dx4 => true
  | _ => false

/-! ### Words -/

/-- The first word of an instruction, as a number; 0 for an event. -/
def wordNat (i : Instr) : Nat := ((encodeNat i).map (·.1)).getD 0

/-- The extension word of an instruction, as a number; 0 where there is none. -/
def extNat (i : Instr) : Nat := ((encodeNat i).bind (·.2)).getD 0

/-! ### Contexts and their registers -/

/-- A context bank; number 2·tile + bank (R357). -/
def State.ctx (s : State) (c : Nat) : Ctx := SMap.get Ctx.init s.ctxs c

/-- The state with a context bank replaced. -/
def State.setCtx (s : State) (c : Nat) (x : Ctx) : State := { s with ctxs := SMap.set Ctx.init s.ctxs c x }

/-- The state with a context bank changed. -/
def State.modCtx (s : State) (c : Nat) (f : Ctx → Ctx) : State := s.setCtx c (f (s.ctx c))

/-- The tile of a context. -/
def tileOf (c : Nat) : Nat := c / 2

/-- The bank of a context. -/
def bankOf (c : Nat) : Nat := c % 2

/-- R31: the cluster of a tile; tile number 12·row + column on the 12 × 8 grid of R12. -/
def clusterOf (tile : Nat) : Nat := 6 * (tile / 12 / 2) + tile % 12 / 2

/-- R12, R34: the compute die of a cluster. -/
def dieOf (cl : Nat) : Nat := if cl % 6 < 3 then 0 else 1

/-- R100: a scalar register; s0 reads zero. -/
def Ctx.sget (c : Ctx) (n : Nat) : W64 := if n = 0 then 0 else SMap.get 0 c.s n

/-- R100: a write of a scalar register; a write to s0 is discarded. -/
def Ctx.sset (c : Ctx) (n : Nat) (v : W64) : Ctx := if n = 0 then c else { c with s := SMap.set 0 c.s n v }

/-- A staging register. -/
def Ctx.gget (c : Ctx) (n : Nat) : W64 := SMap.get 0 c.g n

/-- A write of a staging register. -/
def Ctx.gset (c : Ctx) (n : Nat) (v : W64) : Ctx := { c with g := SMap.set 0 c.g n v }

/-- A vector register by its field code 0-51 (v, o, b). -/
def Ctx.vget (c : Ctx) (n : Nat) : VReg := SMap.get VReg.zero c.v n

/-- A write of a vector register. -/
def Ctx.vset (c : Ctx) (n : Nat) (v : VReg) : Ctx := { c with v := SMap.set VReg.zero c.v n v }

/-- A tile register. -/
def Ctx.tget (c : Ctx) (n : Nat) : TReg := SMap.get TReg.zero c.t n

/-- A write of a tile register. -/
def Ctx.tset (c : Ctx) (n : Nat) (v : TReg) : Ctx := { c with t := SMap.set TReg.zero c.t n v }

/-- A row of a tile register. -/
def TReg.row (t : TReg) (i : Nat) : Row := SMap.get Row.zero t.rows i

/-- A tile register with one row replaced. -/
def TReg.setRow (t : TReg) (i : Nat) (r : Row) : TReg := { t with rows := SMap.set Row.zero t.rows i r }

/-- A handle register. -/
def Ctx.hget (c : Ctx) (n : Nat) : Handle := SMap.get Handle.invalid c.h n

/-- A write of a handle register. -/
def Ctx.hset (c : Ctx) (n : Nat) (v : Handle) : Ctx := { c with h := SMap.set Handle.invalid c.h n v }

/-- A stream register. -/
def Ctx.qget (c : Ctx) (n : Nat) : Stream := SMap.get Stream.unbound c.q n

/-- A write of a stream register. -/
def Ctx.qset (c : Ctx) (n : Nat) (v : Stream) : Ctx := { c with q := SMap.set Stream.unbound c.q n v }

/-- The stored value of a writable control register. -/
def Ctx.cget (c : Ctx) (n : Nat) : W64 := SMap.get 0 c.csr n

/-- A write of the stored value of a control register. -/
def Ctx.cset (c : Ctx) (n : Nat) (v : W64) : Ctx := { c with csr := SMap.set 0 c.csr n v }

/-- R445: the phase of a context is no longer replayable. -/
def Ctx.unreplay (x : Ctx) : Ctx := { x with replay := false }

/-- R139: `preds` as software reads it; bit 7 is p7, constant 1. -/
def Ctx.preds (c : Ctx) : BitVec 8 := 1#1 ++ c.p

/-- Predicate `n` of a snapshot. -/
def predOf (p : BitVec 8) (n : Nat) : Bool := p.getLsbD n

/-- Control-register numbers (R137). -/
abbrev csrTvec : Nat := 0x10
abbrev csrTcause : Nat := 0x11
abbrev csrTinfo : Nat := 0x12
abbrev csrTloc : Nat := 0x13
abbrev csrMergePrio : Nat := 0x20
abbrev csrPreds : Nat := 0x21
abbrev csrEpi : Nat := 0x22
abbrev csrTimeout : Nat := 0x23
abbrev csrRnd : Nat := 0x30
abbrev csrVstat : Nat := 0x31
abbrev csrRngMode : Nat := 0x32
abbrev csrLogBase : Nat := 0x33
abbrev csrLogPos : Nat := 0x34
abbrev csrLogLen : Nat := 0x35
abbrev csrCpat : Nat := 0x40

/-! ### Time (R21): core cycles of 0.25 ns, LLC cycles of 0.5 ns -/

/-- Core cycles in one microsecond. -/
abbrev cyclesPerUs : Nat := 4000

/-- Core cycles in one LLC cycle. -/
abbrev cyclesPerLlc : Nat := 2

/-- The time-stamp counter in ns (R144); `tsc` counts units of 10^-8 ns, so that rates of R403 are exact. -/
def State.time (s : State) : W64 := BitVec.ofNat 64 (s.tsc / 10 ^ 8)

/-- R357: an event of a source takes a time-stamp, later than the source's last. -/
def State.stamp (s : State) (source : Nat) : State × W64 :=
  let t := Nat.max (s.tsc / 10 ^ 8) (SMap.get 0 s.stamps source)
  ({ s with stamps := SMap.set 0 s.stamps source (t + 1) }, BitVec.ofNat 64 t)

/-! ### Physical memory -/

/-- R388: the bytes of HBM. -/
abbrev hbmSize : Nat := 0xB2D05E0000

/-- R388: the aperture of the device registers. -/
abbrev apertureBase : Nat := 0xFF00000000000

/-- One byte of physical memory. -/
def memByte (m : Memory) (a : Nat) : Byte := SMap.get 0 m a

/-- `n` bytes of physical memory. -/
def memRead (m : Memory) (a : Nat) : Nat → List Byte
  | 0 => []
  | n + 1 => memByte m a :: memRead m (a + 1) n

/-- Physical memory with bytes written from `a` up. -/
def memWrite (m : Memory) (a : Nat) : List Byte → Memory
  | [] => m
  | b :: bs => memWrite (SMap.set 0 m a b) (a + 1) bs

/-- `n` bytes at a physical address. -/
def State.phys (s : State) (a n : Nat) : List Byte := memRead s.mem a n

/-- A number at a physical address. -/
def State.physNat (s : State) (a n : Nat) : Nat := leNat (s.phys a n)

/-- The device has addressed physical memory that the map of R388 does not hold (log entry 14). -/
def State.needPhys (s : State) (a n : Nat) : State :=
  if a + n ≤ hbmSize then s else { s with bad := some (.absentPhysicalAddress a) }

/-- R442: a write of a whole line clears its poison mark. -/
def clearPoison (p : SMap Origin) (a n : Nat) : SMap Origin :=
  p.filter fun (l, _) => !(a ≤ 128 * l && 128 * l + 128 ≤ a + n)

/-- R267: the home slice of a physical address. -/
def homeSlice (pa : Nat) : Nat :=
  [7, 14, 21, 28, 35, 42].foldl (fun x k => x ^^^ fld pa k 7) (fld pa 49 3)

/-! ### Device registers -/

/-- The stored value of a register's instance. -/
def State.dget (s : State) (off : Nat) (inst : Nat := 0) : W64 :=
  SMap.get (regReset off) s.dev (devKey off inst)

/-- A register's instance with a new stored value. -/
def State.dset (s : State) (off inst : Nat) (v : W64) : State :=
  { s with dev := SMap.set (regReset off) s.dev (devKey off inst) v }

/-- A field of a register's instance. -/
def State.dfld (s : State) (off inst lo n : Nat) : Nat := bitsOf (s.dget off inst) lo n

/-- A register's instance with one field replaced. -/
def State.dsetFld (s : State) (off inst lo n x : Nat) : State :=
  s.dset off inst (setBits (s.dget off inst) lo n x)

/-- R395: a write that sets V of an entry of FX_CONN puts the receive ring of its connection back to its start. -/
def State.connsAfter (s : State) (a : Nat) (bs : List Byte) : SMap Conn :=
  if s.dfld Dev.fxConn 0 63 1 = 0 then s.conns
  else
    let base := s.dfld Dev.fxConn 0 12 40 * 4096
    (s.conns.map fun (k, c) =>
      let e := base + 64 * (k / 4)
      if a ≤ e ∧ e < a + bs.length ∧ !(memByte s.mem e).getLsbD 0 ∧ (bs.getD (e - a) 0).getLsbD 0 then (k, { c with rqHead := 0, rqTail := 0 })
      else (k, c)).filter fun (_, c) => c != Conn.init

/-- R211: the monitors on lines that a write touches fire with WRITE (1), or are lost with EVICT (2). -/
def fireLine (reason a n : Nat) (m : Monitor) : Monitor :=
  if !m.scratch && m.bound && m.addr / 128 * 128 < a + n && a < m.addr / 128 * 128 + 128 && m.fired.isNone then
    { m with fired := some reason }
  else m

/-- R221: the new value of a flag word that a write touches is pushed to its bound register. -/
def pushFlag (mem : Memory) (a n : Nat) (f : FlagBind) : FlagBind :=
  match f.pa with
  | none => f
  | some pa => if pa < a + n && a < pa + 8 then { f with pushed := f.pushed ++ [BitVec.ofNat 64 (leNat (memRead mem pa 8))] } else f

/-- A write performed at the home slice, by whomever (R211, R221, R271): memory takes it, the monitors on its lines fire, and the flags
bound to its words are pushed. It takes the line's poison mark away where it covers the line. -/
def State.home (s : State) (a : Nat) (bs : List Byte) : State :=
  let mem := memWrite s.mem a bs
  { s with mem := mem, memPoison := clearPoison s.memPoison a bs.length, conns := s.connsAfter a bs
           monitors := s.monitors.map (fireLine 1 a bs.length), flags := s.flags.map (pushFlag mem a bs.length) }

/-- A write of the device itself to a physical address. -/
def State.physWrite (s : State) (a : Nat) (bs : List Byte) : State := (s.needPhys a bs.length).home a bs

/-- A counter field that saturates (R429, R439, R458, R464). -/
def State.dcount (s : State) (off inst lo n : Nat) : State :=
  let v := s.dfld off inst lo n
  if v + 1 < 2 ^ n then s.dsetFld off inst lo n (v + 1) else s

/-- A fresh serial number. -/
def State.tick (s : State) : Nat × State := (s.serial, { s with serial := s.serial + 1 })

/-- The number of the next free value taken. -/
def State.draw (s : State) : Nat × State := (s.fresh, { s with fresh := s.fresh + 1 })

/-! ### Rings in physical memory (R382, R385, R436, R457) -/

/-- The registers of a ring. -/
structure RingRegs where
  cfg : Nat
  head : Nat
  tail : Nat
  entry : Nat

/-- The ring holds no further entry: it is out of service, or it is full. -/
def State.ringFull (s : State) (r : RingRegs) (inst : Nat) : Bool :=
  let n := 2 ^ s.dfld r.cfg inst 0 5
  s.dfld r.cfg inst 63 1 == 0 || (s.dfld r.tail inst 0 32 + 2 ^ 32 - s.dfld r.head inst 0 32) % 2 ^ 32 == n

/-- An entry is written, and then TAIL advances. -/
def State.ringPut (s : State) (r : RingRegs) (inst : Nat) (bs : List Byte) : State :=
  let n := 2 ^ s.dfld r.cfg inst 0 5
  let t := s.dfld r.tail inst 0 32
  let base := s.dfld r.cfg inst 12 40 * 4096
  (s.physWrite (base + r.entry * (t % n)) bs).dset r.tail inst (BitVec.ofNat 64 ((t + 1) % 2 ^ 32))

/-- The rings of the device. -/
def ringPrq : RingRegs := ⟨Dev.mmPrq, Dev.mmPrqhead, Dev.mmPrqtail, 32⟩
def ringDlog : RingRegs := ⟨Dev.mmDlog, Dev.mmDlhead, Dev.mmDltail, 8⟩
def ringNq : RingRegs := ⟨Dev.feNq, Dev.feNqhead, Dev.feNqtail, 32⟩
def ringLog : RingRegs := ⟨Dev.reLog, Dev.reLoghead, Dev.reLogtail, 64⟩
def ringEq : RingRegs := ⟨Dev.reEq, Dev.reEqhead, Dev.reEqtail, 64⟩

/-- R348, R436, R437: a notification record of a VD. A full queue drops kinds 1-3, sets OVF and counts. -/
def State.notify (s : State) (vd kind source gid : Nat) (value : W64) (lx ly : Nat) : State :=
  if s.ringFull ringNq vd then
    let s := s.dsetFld Dev.feNq vd 62 1 1
    match kind with
    | 1 => s.dcount Dev.feNqdrop vd 48 16
    | 2 => s.dcount Dev.feNqdrop vd 32 16
    | 3 => s.dcount Dev.feNqdrop vd 16 16
    | _ => s
  else
    let (s, t) := s.stamp source
    s.ringPut ringNq vd
      (toLE 2 kind ++ toLE 2 source ++ toLE 4 gid ++ toLE 8 value.toNat ++ toLE 8 t.toNat ++ toLE 1 lx ++ toLE 1 ly ++ zeros 6)

/-- A machine error record (R455), but for its time-stamp and serial number. -/
structure Rec where
  kind : Nat
  source : Nat := 0
  gid : Nat := 0
  vd : Nat := 0xFF
  lx : Nat := 0
  ly : Nat := 0
  unit : Nat := 0
  loc : Nat := 0
  flags : Nat := 0
  tcause : Nat := 0
  tinfo : Nat := 0
  tloc : Nat := 0
  addr : Nat := 0
  aux : Nat := 0

/-- R455: the 64 bytes of a record. -/
def recBytes (r : Rec) (ts seq : Nat) : List Byte :=
  toLE 2 r.kind ++ toLE 2 r.source ++ toLE 4 r.gid ++ toLE 8 ts ++ toLE 1 r.vd ++ toLE 1 r.lx ++ toLE 1 r.ly ++
    toLE 1 r.unit ++ toLE 2 r.loc ++ toLE 2 r.flags ++ toLE 8 r.tcause ++ toLE 8 r.tinfo ++ toLE 8 r.tloc ++
    toLE 8 r.addr ++ toLE 4 r.aux ++ toLE 4 seq

/-- R457: a record goes into a ring, or is dropped with OVF set. -/
def State.logTo (s : State) (r : RingRegs) (inst : Nat) (bs : List Byte) : State :=
  if s.ringFull r inst then s.dsetFld r.cfg inst 62 1 1 else s.ringPut r inst bs

/-- R455-R457: a machine error record is posted to the device log, and to the error queue of its VD. SEQ advances
whether or not the record is dropped. -/
def State.record (s : State) (r : Rec) : State :=
  let (s, t) := s.stamp r.source
  let bs := recBytes r t.toNat (s.recordSeq % 2 ^ 32)
  let s := { s with recordSeq := s.recordSeq + 1 }
  let s := s.logTo ringLog 0 bs
  if r.vd = 0xFF then s else s.logTo ringEq r.vd bs

/-! ### Results in flight (R106-R109) -/

/-- The slots (R139): S0, S1, V, M, L, X, C, none. -/
abbrev slotV : Nat := 2
abbrev slotM : Nat := 3
abbrev slotL : Nat := 4
abbrev slotX : Nat := 5
abbrev slotC : Nat := 6

/-- A result that issues in this cycle, in the slot of the word in hand, to land within `bound` cycles. -/
def State.launchFlight (s : State) (kind : FlightKind) (bound : Option Nat) (lands : List Landing) : Flight :=
  { id := s.serial, kind := kind, slot := s.cur.slot, issued := s.now, first := s.now + 1,
    bound := bound.map (s.now + ·), tag := none, lands := lands, load := none, rd := [], wr := [], unit := none,
    phaseEnd := 0, poison := none, cmd := none, flush := none, word := 0, ext := 0, bundle := s.cur.bundle }

/-- A flight is added to the context of the word in hand. -/
def State.addFlight (s : State) (f : Flight) : State :=
  ({ s with serial := s.serial + 1 }).modCtx s.cur.ctx fun c => { c with flights := c.flights ++ [f] }

/-- A fixed-latency result (R106): it lands no later than `bound` cycles after this one. -/
def State.land (s : State) (bound : Nat) (lands : List Landing) : State :=
  s.addFlight (s.launchFlight .fixed (some bound) lands)

/-- The context of the word in hand. -/
def State.me (s : State) : Ctx := s.ctx s.cur.ctx

/-! ### Groups -/

/-- The group of a serial number. -/
def State.group (s : State) (n : Nat) : Option Group := s.groups.find? (·.serial == n)

/-- The group of a context. -/
def State.groupOf (s : State) (c : Nat) : Option Group := (s.ctx c).group.bind s.group

/-- The groups with one of them changed. -/
def State.modGroup (s : State) (n : Nat) (f : Group → Group) : State :=
  { s with groups := s.groups.map fun g => if g.serial = n then f g else g }

/-- The virtual device of a context's group. -/
def State.vdOf (s : State) (c : Nat) : Nat := ((s.groupOf c).map (·.vd)).getD 0

/-- The contexts to which a task is bound. -/
def State.bound (s : State) : List Nat := (s.ctxs.filter fun (_, c) => c.group.isSome).map (·.1)

/-- R347: of several causes the lowest nonzero code stands. -/
def worseCode (old new : Nat) : Nat := if old = 0 then new else if new = 0 then old else Nat.min old new

/-- A group ends by a cause (R347): its tasks are to stop, and it takes the lowest code. -/
def State.failGroup (s : State) (n code : Nat) : State :=
  s.modGroup n fun g => { g with error := worseCode g.error code, ending := true }

/-! ### CRC-32C (R47) -/

/-- One bit step of the reflected Castagnoli polynomial. -/
def crcBit (c : W32) : W32 := if c.getLsbD 0 then (c >>> 1) ^^^ 0x82F63B78#32 else c >>> 1

/-- The running CRC register with one byte folded in. -/
def crcByte (c : W32) (b : Byte) : W32 :=
  let x := c ^^^ b.zeroExtend 32
  crcBit (crcBit (crcBit (crcBit (crcBit (crcBit (crcBit (crcBit x)))))))

/-- The running CRC register with bytes folded in, before the final XOR. -/
def crcRun (c : W32) (bs : List Byte) : W32 := bs.foldl crcByte c

/-- The CRC-32C of bytes. -/
def crc32c (bs : List Byte) : W32 := crcRun 0xFFFFFFFF#32 bs ^^^ 0xFFFFFFFF#32

/-! ### Bundles of a segment (R45, R94) -/

/-- The words of a segment divided into bundles: an instruction word with E = 1 takes the next word, and one with
S = 1 ends its bundle. -/
def splitBundles : List W32 → List W32 → List (List W32)
  | [], acc => if acc.isEmpty then [] else [acc.reverse]
  | [w], acc => [(w :: acc).reverse]
  | w :: x :: rest, acc =>
    if w.getLsbD 30 then
      if w.getLsbD 31 then (x :: w :: acc).reverse :: splitBundles rest []
      else splitBundles rest (x :: w :: acc)
    else if w.getLsbD 31 then (w :: acc).reverse :: splitBundles (x :: rest) []
    else splitBundles (x :: rest) (w :: acc)

/-- The bundles of the segment in a half of the loop buffer. -/
def Half.bundles (h : Half) : List (List W32) := splitBundles h.words []

/-- A half that is to be filled with a segment. -/
def Half.fetching (seg : Nat) : Half := ⟨seg, false, none, none, [], 0xFFFF, 0xFFFFFFFF, 0, 0xFFFFFFFF, false, false, none⟩

/-- R49: expansion of a segment into the idle half starts, unless that half holds or is expanding it. -/
def Ctx.prefetch (c : Ctx) (seg : Nat) : Ctx :=
  if (c.idle.map (·.seg)) = some seg then c else { c with idle := some (Half.fetching seg) }

/-- A program counter in the layout of R112. -/
def Pc.target (p : Pc) : Nat := p.seg * 2 ^ 16 + p.bun

/-! ### Stopping tasks, dead contexts -/

/-- R215: a context that sleeps on a wait stops sleeping; one that is to be saved takes the status SWITCH (4). The word of a
`wait.arm`, which does not sleep, goes on. -/
def Ctx.endSleep (c : Ctx) (saved : Bool) : Ctx :=
  match c.sleep with
  | some sl =>
    if sl.held then c
    else
      let c := if saved then { (c.sset sl.d 4#64) with poison := c.poison.filter (·.1 != .s sl.d) } else c
      { c with sleep := none, waits := [], faulted := false }
  | none => c

/-- A context stops issue at its bundle boundary and drains to a target (R58). A sync arrival is withdrawn (R55). -/
def Ctx.stopTo (c : Ctx) (dest : DrainTo) : Ctx :=
  match c.st with
  | .running | .syncHeld | .sleeping =>
    let c := c.endSleep (match dest with | .save .. => true | _ => false)
    { c with st := .draining, drainTo := dest, arrived := none, syncAt := none, restart := none }
  | .draining => if c.drainTo = .sleep ∨ c.drainTo = .rollback then { c with drainTo := dest } else c
  | _ => c

/-- R448: a rerun ends with an outcome: its context drains, unless it drains already to leave its bank. -/
def Ctx.rerunEnds (c : Ctx) (r : Rerun) (o : Outcome) (resume : Option (Pc × Pc × Nat)) : Ctx :=
  let leaving := c.st = .draining ∧ c.drainTo ≠ .sleep ∧ c.drainTo ≠ .none
  { c with st := .draining, drainTo := if leaving then c.drainTo else .rollback
           rerun := some { r with ended := some o, resume := resume } }

/-- R414: the other tasks of a group stop and drain. -/
def State.stopGroup (s : State) (n : Nat) (but : Nat) : State :=
  { s with ctxs := s.ctxs.map fun (k, c) => if c.group = some n ∧ k ≠ but then (k, c.stopTo .stop) else (k, c) }

/-- The words in hand of a context are dropped. -/
def State.dropWords (s : State) (c : Nat) : State := { s with todo := s.todo.filter (·.ctx ≠ c) }

/-- R434: the dirty chunks that a dead bank last wrote go back to memory's value. -/
def CLine.discard (m : Memory) (bank : Nat) (l : CLine) : CLine :=
  let bad := (l.dirty.filter fun (_, b) => b % 2 == bank).map (·.1)
  let bs := bad.foldl (fun bs k => overlay bs (16 * k) (memRead m (128 * l.line + 16 * k) 16)) (bytesOfBits 128 l.data)
  { l with data := bitsOfBytes 1024 bs, dirty := l.dirty.filter fun (_, b) => b % 2 != bank }

/-- R233: what becomes of a dead context's commands: those that stop at a chunk boundary stop, an adoption is
abandoned, every other runs on. -/
def Cmd.dead (x : Cmd) : Cmd :=
  if x.cls = 6 || (x.cls = 14 && x.op < 3) || (x.cls = 12 && x.op = 1) then { x with stopped := true, abandoned := true }
  else { x with abandoned := true }

/-- R223: the promotions of a context that goes are over: their owners' words may issue. -/
def State.dropPromotions (s : State) (c : Nat) : State :=
  let gone := s.promotions.filter (·.promoter == c)
  { s with
    promotions := s.promotions.filter (·.promoter != c)
    ctxs := s.ctxs.map fun (k, x) =>
      (k, if gone.any fun p => x.promoHold == some p.id then { x with promoHold := none } else x) }

/-- R422, R431, R434: a context is marked dead, with the REASON and DETAIL of its record; the other tasks of its group
stop, and the group ends with DEAD. -/
def State.markDead (s : State) (c reason detail : Nat) : State :=
  let x := s.ctx c
  let s := (s.dropWords c).setCtx c
    { x with st := .dead, pend := [], leave := none, flights := [], h := [], q := [], sleep := none, arrived := none, syncAt := none,
             faulted := false, logBits := [], logTail := [], jump := none, promoWait := none, rerun := none,
             drainTo := .none, deadRec := some (reason, detail), incarnation := (x.incarnation + 1) % 16 }
  let s : State := { s with
    monitors := s.monitors.filter (·.ctx ≠ c)
    flags := s.flags.filter (·.ctx ≠ c)
    posted := s.posted.filter (·.ctx ≠ c)
    cache := s.cache.map fun l => if l.tile = tileOf c then l.discard s.mem (bankOf c) else l
    cmds := s.cmds.map fun k => if k.ctx = c ∧ x.group = some k.group ∧ x.lx = k.lx ∧ x.ly = k.ly then k.dead else k }
  let s := s.dropPromotions c
  match x.group with
  | none => s
  | some n => (s.stopGroup n c).failGroup n 6

/-- The record of an event of a context. -/
def State.ctxRec (s : State) (c kind : Nat) : Rec :=
  let x := s.ctx c
  let g := s.groupOf c
  { kind := kind, source := c, gid := (g.map (·.gid)).getD 0, vd := (g.map (·.vd)).getD 0xFF, lx := x.lx, ly := x.ly }

/-! ### Killing a phase, rollback (R420, R421, R445-R447, R452) -/

/-- R452: the phase is killed: the context drains, its group stops and ends with KILLED, a record of KIND 5. -/
def State.killPhase (s : State) (c aux : Nat) : State :=
  let x := s.ctx c
  let s := s.record { s.ctxRec c 5 with
    flags := 1, tcause := (x.cget csrTcause).toNat, tloc := x.pc.target, addr := (x.phase.map (·.ts.toNat)).getD 0,
    aux := aux }
  let s := (s.dropWords c).setCtx c { (x.stopTo .kill) with pend := [], leave := none, rerun := none }
  match x.group with
  | none => s
  | some n => (s.stopGroup n c).failGroup n 4

/-- R447: rollback starts: pending words are discarded, and the context drains to its phase point. -/
def State.rollback (s : State) (c origin addr unit loc : Nat) : State :=
  let x := s.ctx c
  let leaving := x.st = .draining ∧ x.drainTo ≠ .sleep ∧ x.drainTo ≠ .none
  (s.dropWords c).setCtx c
    { x with st := .draining, drainTo := if leaving then x.drainTo else .rollback, pend := [], jump := none, leave := none,
             sleep := none,
             rerun := some ⟨0, false, origin, addr, unit, loc, none, [], (x.cget csrLogPos).toNat, none, none⟩ }

/-- Where a failed phase goes (R420, R421, R444, R445): killed, rolled back, or neither. `mayRoll`: the failure is one
that rollback may answer. -/
inductive PhaseFate where
  | kill (aux : Nat)
  | roll
  | trap
deriving DecidableEq, Repr

/-- R420, R421, R445: the first rule that applies. -/
def State.phaseFate (s : State) (c : Nat) (mayRoll : Bool) : PhaseFate :=
  let x := s.ctx c
  let seg := x.exec
  if (seg.map (·.gstore)).getD false then .kill 1
  else if mayRoll && (seg.map (·.phaseSafe)).getD false && x.phase.isSome && s.dfld Dev.reCtl 0 0 1 == 1 then
    if x.replay then .roll else .kill 2
  else .trap

/-! ### Taking an exception (R411-R415) -/

/-- `tcause`, `tinfo` and `tloc` of a trap (R412, R416): for BRK and SIG, `tinfo` is the detail alone. -/
def Ctx.trapRegs (x : Ctx) (t : TrapRec) (slot : Nat) (slip : Bool) (loc : Pc) : Ctx :=
  let info :=
    if t.cause = 9 ∨ t.cause = 10 then t.detail % 2 ^ 64
    else slip.toNat * 2 ^ 63 + t.reason % 2 ^ 8 * 2 ^ 48 + t.detail % 2 ^ 48
  ((x.cset csrTcause (BitVec.ofNat 64 (slot * 2 ^ 8 + t.cause))).cset csrTinfo (BitVec.ofNat 64 info)).cset csrTloc
    (BitVec.ofNat 64 loc.target)

/-- A pass begins at a bundle: its count is zero and its CRC register holds the initial value (R47). -/
def Ctx.startPass (x : Ctx) (pc : Pc) : Ctx := { x with pc := pc, entry := pc.bun, count := 0, crc := 0xFFFFFFFF#32 }

/-- R414: a trap with `tvec`.V = 0, or with a `tvec` target that fails, ends the task: it drains as for `exit`, the
other tasks of its group stop, a record of KIND 1 is posted, the group ends with TRAP. `bad`: the `tvec` value and the
TARGET reason of a failed target (R413). -/
def State.trapEndsTask (s : State) (c : Nat) (bad : Option (Nat × Nat)) : State :=
  let x := s.ctx c
  let s := s.record { s.ctxRec c 1 with
    flags := 1, tcause := (x.cget csrTcause).toNat, tinfo := (x.cget csrTinfo).toNat, tloc := (x.cget csrTloc).toNat,
    addr := (bad.map (·.1)).getD 0, aux := (bad.map (·.2)).getD 0 }
  let s := s.setCtx c { x with st := .draining, drainTo := .exit, jump := none, sleep := none, arrived := none, syncAt := none }
  match x.group with
  | none => s
  | some n => (s.stopGroup n c).failGroup n 5

/-- A segment that was to be entered failed (R44, R413, R418): the trap of the bundle that passed control, with the target
as its detail; where `tvec` named it, the task ends as with `tvec`.V = 0. -/
def State.segmentFails (trap : State → TrapRec → Nat → State) (s : State) (c how : Nat) (t : TrapRec) (target : Pc) : State :=
  if how = 2 then s.trapEndsTask c (some (((s.ctx c).cget csrTvec).toNat, t.reason))
  else trap s (if t.cause = 11 then t else { t with detail := target.target }) (if how = 1 then 7 else slotC)

/-- R50: control arrives at a segment that is in the loop buffer, or waits for it. `loc` is the bundle that passed
control, in cycle `cyc`; `how`: 0 a branch, 1 falling through, 2 `tvec`. -/
def State.arriveAt (trap : State → TrapRec → Nat → State) (s : State) (c : Nat) (target loc : Pc) (cyc how : Nat) : State :=
  let x := s.ctx c
  let go (h : Half) (idle : Option Half) : State :=
    match h.fail with
    | some t => s.segmentFails trap c how t target
    | none =>
      if target.bun < h.bundles.length then
        s.setCtx c { x.startPass target with
          exec := some h, idle := idle, jump := none, notBefore := Nat.max x.notBefore (cyc + 3), lastFirst := cyc }
      else s.segmentFails trap c how ⟨3, 1, 0⟩ target
  let away : State := s.setCtx c { (x.prefetch target.seg) with jump := some (target, loc, cyc, how) }
  match x.exec, x.idle with
  | some h, some k => if h.seg = target.seg then go h x.idle else if k.seg = target.seg ∧ k.ready then go k (some h) else away
  | some h, none => if h.seg = target.seg then go h none else away
  | none, some k => if k.seg = target.seg ∧ k.ready then go k none else away
  | none, none => away

/-- R413: control passes to the handler that `tvec` names, and a new pass begins there. In the segment current at the
trap the handler issues no earlier than cycle c + 2; any other segment is fetched under R50. A draining context (R415)
stays draining with its program counter on the handler. -/
def State.vector (s : State) (c : Nat) (loc : Pc) : State :=
  let x := s.ctx c
  let tv := x.cget csrTvec
  let seg := bitsOf tv 16 16
  let bun := bitsOf tv 0 13
  let cur := (x.exec.map (·.seg)).getD x.pc.seg
  let target : Pc := ⟨if seg = 0xFFFF then cur else seg, bun⟩
  let st := if x.st = .draining ∧ x.drainTo ≠ .sleep then Bank.draining else .running
  let x := { x with st := st, trapBundle := some target, sleep := none, arrived := none, syncAt := none, jump := none }
  if target.seg = cur then
    if bun < ((x.exec.map (·.bundles.length)).getD 0) then
      s.setCtx c { x.startPass target with notBefore := s.now + 2, lastFirst := s.now }
    else s.trapEndsTask c (some (tv.toNat, 1))
  else (s.setCtx c x).arriveAt (fun s _ _ => s) c target loc s.now 2

/-- THE OPERATION OF TAKING A TRAP (R411-R416, R422): every pending word and every word in hand of the context is
dropped, the three trap registers are written, the pass ends without comparison, and control goes to the handler or the
task ends. A UE or SOFT trap repeated before any other bundle issued marks the context dead. In a rerun the trap ends
the rerun (R448). -/
def State.takeTrap (s : State) (c : Nat) (t : TrapRec) (slot : Nat) (slip : Bool) (loc : Pc) : State :=
  let x := s.ctx c
  let s := s.dropWords c
  match x.rerun with
  | some r =>
    s.setCtx c ({ x with pend := [], leave := none }.rerunEnds r ⟨x.count, x.crc, some (t, loc), false, slot, slip⟩ none)
  | none =>
    let s := s.setCtx c ({ x with pend := [], leave := none }.trapRegs t slot slip loc)
    if (t.cause = 8 ∨ t.cause = 11) ∧ x.lastTrap = some t.cause then s.markDead c 2 loc.target
    else
      let s := s.modCtx c fun x => { x with lastTrap := some t.cause }
      if bitsOf (x.cget csrTvec) 32 1 = 1 then s.vector c loc else s.trapEndsTask c none

/-- A word in hand traps. -/
def State.trapWord (s : State) (w : IssueWord) (t : TrapRec) : State := s.takeTrap w.ctx t w.slot w.pend w.pc

/-! ### Passing control between segments (R44, R47, R48, R50, R113, R420) -/

/-- R48, R420: the comparison at the end of a pass. `none`: control goes on. -/
def Ctx.passMismatch (x : Ctx) : Option Nat :=
  match x.exec with
  | none => none
  | some h =>
    if x.entry ≠ 0 ∨ h.issue = 0xFFFFFFFF then none
    else
      let badCount := x.count % 2 ^ 32 != h.issue
      let badSig := (x.crc ^^^ 0xFFFFFFFF#32).toNat != h.sig
      match badCount, badSig with
      | false, false => none
      | true, false => some 1
      | false, true => some 2
      | true, true => some 3

/-- R420: a pass that mismatches is killed, rolled back or traps SOFT. -/
def State.passFails (s : State) (c reason : Nat) (loc : Pc) : State :=
  let x := s.ctx c
  match s.phaseFate c true with
  | .kill aux => s.killPhase c aux
  | .roll => s.rollback c 1 0 0 0xFFFF
  | .trap =>
    s.takeTrap c ⟨8, reason, x.count % 2 ^ 16 * 2 ^ 32 + (x.crc ^^^ 0xFFFFFFFF#32).toNat⟩ 7 false loc

/-- R50: control passes to a segment; a failure traps. -/
def State.enterSegment (s : State) (c : Nat) (target loc : Pc) (cyc how : Nat) : State :=
  s.arriveAt (fun s t slot => s.takeTrap c t slot false loc) c target loc cyc how

/-- R47, R48, R420, R448: a pass ends in the bundle `loc`, and control passes to `target`. In a rerun the end of the
pass ends the rerun. -/
def State.endPass (s : State) (c : Nat) (target loc : Pc) (cyc how : Nat) : State :=
  let x := s.ctx c
  match x.rerun with
  | some r =>
    s.setCtx c (x.rerunEnds r ⟨x.count, x.crc, none, false, 7, false⟩ (some (target, loc, how)))
  | none =>
    match x.passMismatch with
    | some reason => s.passFails c reason loc
    | none => s.enterSegment c target loc cyc how

/-- R112, R113, R130: a taken branch of the word in hand to a target. SEG = 0xFFFF stays in the pass; any other SEG ends
it, once no word of the context is pending (R110). -/
def State.branchTo (s : State) (w : IssueWord) (seg bun : Nat) : State :=
  let x := s.ctx w.ctx
  if seg = 0xFFFF then s.setCtx w.ctx { x with pc := ⟨w.pc.seg, bun⟩ }
  else if x.pend.isEmpty then s.endPass w.ctx ⟨seg, bun⟩ w.pc s.now 0
  else s.setCtx w.ctx { x with leave := some (⟨seg, bun⟩, w.pc, s.now, 0) }

end Sys2Proof.Machine
end

