-- ==== Sys2Proof/Machine/Num.lean ====
section
/-!
DEFINITION. The number formats (R60-R70), exact arithmetic on their values, the one rounding of a result (R63-R67,
R72-R76), the dual-exponent encoder (R77) and the functions of R158 and R159.
-/

namespace Sys2Proof.Machine

/-- The exact value of an element: a NaN (its sign, and whether it signals), an infinity, or a finite number
(-1)^neg · m · 2^e. With `st` the value lies strictly between m and m + 1 times 2^e; only a function of R158 or R159
gives such a value. -/
inductive Num where
  | nan (neg sig : Bool)
  | inf (neg : Bool)
  | fin (neg : Bool) (m : Nat) (e : Int) (st : Bool)
deriving DecidableEq, Repr

/-- The sticky flags of R78, as bits of `vstat`. -/
abbrev flInvalid : Nat := 1
abbrev flDivzero : Nat := 2
abbrev flOverflow : Nat := 4
abbrev flUnderflow : Nat := 8
abbrev flInexact : Nat := 16
abbrev flRange : Nat := 32
abbrev flRlog : Nat := 64

/-- The rounding modes of R72. -/
abbrev rmRNE : Nat := 0
abbrev rmRZ : Nat := 1
abbrev rmRU : Nat := 2
abbrev rmRD : Nat := 3
abbrev rmSR : Nat := 4

/-- A floating format (R64, R67): precision with the hidden bit, exponent bits, exponents of the smallest normal and
of the largest binade, the largest significand there, and whether an overflow gives an infinity (R75). -/
structure FF where
  p : Nat
  eb : Nat
  emin : Int
  emax : Int
  maxM : Nat
  inf : Bool
  nan : Nat

/-- The five floating formats. -/
def Fmt.ff : Fmt → Option FF
  | .f32 => some ⟨24, 8, -126, 127, 2 ^ 24 - 1, true, 0x7FC00000⟩
  | .b16 => some ⟨8, 8, -126, 127, 2 ^ 8 - 1, true, 0x7FC0⟩
  | .h16 => some ⟨11, 5, -14, 15, 2 ^ 11 - 1, true, 0x7E00⟩
  | .e4m3 => some ⟨4, 4, -6, 8, 14, false, 0x7F⟩
  | .e5m2 => some ⟨3, 5, -14, 15, 7, false, 0x7E⟩
  | _ => none

/-- The three IEEE formats, "float" in R151. -/
def Fmt.isFloat : Fmt → Bool
  | .f32 | .b16 | .h16 => true
  | _ => false

/-- The two integer formats. -/
def Fmt.isInt : Fmt → Bool
  | .i32 | .i8 => true
  | _ => false

/-! ### Elements (R62) -/

/-- `n` elements of `w` bits of a register, in element order. -/
def elemsOf (w n v : Nat) : List Nat := (List.range n).map fun i => v / 2 ^ (w * i) % 2 ^ w

/-- The register that holds elements of `w` bits. -/
def packElems (w : Nat) : List Nat → Nat
  | [] => 0
  | c :: cs => c % 2 ^ w + 2 ^ w * packElems w cs

/-- The elements of 2048 bits in a format. -/
def Fmt.elems (t : Fmt) (v : BitVec 2048) : List Nat := elemsOf t.width (2048 / t.width) v.toNat

/-- The 2048 bits of elements in a format. -/
def Fmt.pack (t : Fmt) (es : List Nat) : BitVec 2048 := BitVec.ofNat 2048 (packElems t.width es)

/-- 2^i for a signed exponent that is not negative. -/
def pow2 (i : Int) : Nat := 2 ^ i.toNat

/-- floor(log2 of m · 2^e), for m ≠ 0. -/
def expOf (m : Nat) (e : Int) : Int := (Nat.log2 m : Int) + e

/-- The exponent of the unit in the last place of a floating format at magnitude 2^x. -/
def FF.ulp (f : FF) (x : Int) : Int := max x f.emin - ((f.p : Int) - 1)

/-- The value of a floating code (R64, R65, R67). For a format with infinities the top fraction bit of a NaN is its quiet
bit, so that S.11111.01 of E5M2 signals; the one NaN of E4M3 does not (the model's choice, log entry 27). -/
def FF.decode (f : FF) (c : Nat) : Num :=
  let fr := c % 2 ^ (f.p - 1)
  let ef := fld c (f.p - 1) f.eb
  let neg := fldB c (f.p - 1 + f.eb)
  if f.p = 4 ∧ ef = 15 ∧ fr = 7 then .nan neg false
  else if f.p ≠ 4 ∧ ef = 2 ^ f.eb - 1 then
    if fr = 0 then .inf neg else .nan neg (fr < 2 ^ (f.p - 2))
  else if ef = 0 then .fin neg fr (f.emin - ((f.p : Int) - 1)) false
  else .fin neg (2 ^ (f.p - 1) + fr) (f.emin - ((f.p : Int) - 1) + ((ef : Int) - 1)) false

/-- R68, R69: the value of a DX element code under the block's exponents, and the exponent of its last place. -/
def dxDecode (t : Fmt) (e0 e1 c : Nat) : Num × Int :=
  let ex := fun (sel : Bool) => (Nat.min (if sel then e1 else e0) 254 : Int) - 127
  if t = .dx4 then
    let m := c % 4
    let e := ex (fldB c 3)
    (.fin (fldB c 2 && m != 0) m e false, e)
  else
    let le := fld c 4 2
    let m := if le = 0 then c % 16 else 16 + c % 16
    let e := ex (fldB c 7) + (if le = 0 then -4 else (le : Int) - 5)
    (.fin (fldB c 6 && m != 0) m e false, e)

/-- The value of an element code, and the exponent of its unit in the last place (R74). -/
def Fmt.decode (t : Fmt) (c : Nat) : Num × Int :=
  match t.ff with
  | some f =>
    match f.decode c with
    | .fin n m e st => (.fin n m e st, if m = 0 then e else f.ulp (expOf m e))
    | x => (x, 0)
  | none =>
    let v := sext t.width c
    (.fin (v < 0) v.natAbs 0 false, 0)

/-- The values of a register's elements; DX blocks take their exponents from the sidecar (R70). -/
def Fmt.values (t : Fmt) (data : BitVec 2048) (side : BitVec 256) : List (Num × Int) :=
  if t.isDx then
    (t.elems data).zipIdx.map fun (c, i) =>
      dxDecode t (fld side.toNat (16 * (i / 32)) 8) (fld side.toNat (16 * (i / 32) + 8) 8) c
  else (t.elems data).map t.decode

/-! ### Exact arithmetic (R65) -/

/-- The opposite of a value. -/
def Num.neg : Num → Num
  | .nan n s => .nan (!n) s
  | .inf n => .inf !n
  | .fin n m e st => .fin (!n) m e st

/-- A signalling NaN. -/
def Num.sig : Num → Bool
  | .nan _ s => s
  | _ => false

/-- A NaN. -/
def Num.isNan : Num → Bool
  | .nan .. => true
  | _ => false

/-- The default NaN, with invalid where the operands give rise to it. -/
def nanResult (inv : Bool) : Num × Nat := (.nan false false, if inv then flInvalid else 0)

/-- A finite value as an integer multiple of 2^c. -/
def Num.at (neg : Bool) (m : Nat) (e c : Int) : Int :=
  let v : Int := (m * pow2 (e - c) : Nat)
  if neg then -v else v

/-- The exact sum of two finite values: a zero from operands of opposite signs is +0, and −0 under RD (R152). -/
def addFin (rm : Nat) (na : Bool) (ma : Nat) (ea : Int) (nb : Bool) (mb : Nat) (eb : Int) : Num :=
  let c := min ea eb
  let t := Num.at na ma ea c + Num.at nb mb eb c
  if t = 0 then
    .fin (if ma = 0 ∧ mb = 0 ∧ na = nb then na else rm == rmRD) 0 c false
  else .fin (t < 0) t.natAbs c false

/-- The exact sum, with invalid under R65. -/
def addNum (rm : Nat) : Num → Num → Num × Nat
  | .nan _ a, b => nanResult (a || b.sig)
  | a, .nan _ b => nanResult (a.sig || b)
  | .inf a, .inf b => if a = b then (.inf a, 0) else nanResult true
  | .inf a, .fin .. => (.inf a, 0)
  | .fin .., .inf b => (.inf b, 0)
  | .fin na ma ea _, .fin nb mb eb _ => (addFin rm na ma ea nb mb eb, 0)

/-- The exact product, with invalid under R65. -/
def mulNum : Num → Num → Num × Nat
  | .nan _ a, b => nanResult (a || b.sig)
  | a, .nan _ b => nanResult (a.sig || b)
  | .inf a, .inf b => (.inf (a != b), 0)
  | .inf a, .fin nb mb _ _ => if mb = 0 then nanResult true else (.inf (a != nb), 0)
  | .fin na ma _ _, .inf b => if ma = 0 then nanResult true else (.inf (na != b), 0)
  | .fin na ma ea _, .fin nb mb eb _ => (.fin (na != nb) (ma * mb) (ea + eb) false, 0)

/-- R153: the exact a·b + c; infinity times zero is invalid even when c is NaN. -/
def fmaNum (rm : Nat) (a b c : Num) : Num × Nat :=
  let (p, f) := mulNum a b
  if p.isNan then (p, f ||| (if c.sig then flInvalid else 0))
  else addNum rm p c

/-- R65: the order of two values that are not NaN, with +0 above −0. -/
def numLe : Num → Num → Bool
  | .inf a, .inf b => a || !b
  | .inf a, _ => a
  | _, .inf b => !b
  | .fin na ma ea _, .fin nb mb eb _ =>
    let c := min ea eb
    let x := Num.at na ma ea c
    let y := Num.at nb mb eb c
    if x = y then na || !nb else x < y
  | _, _ => false

/-- R65: Max, or Min; the default NaN if either operand is NaN. -/
def maxNum (smaller : Bool) (a b : Num) : Num × Nat :=
  if a.isNan || b.isNan then nanResult (a.sig || b.sig)
  else ((if smaller then (if numLe a b then a else b) else if numLe a b then b else a), 0)

/-! ### Rounding (R63, R66, R72-R76) -/

/-- Rounding of the magnitude m·2^e to a multiple of 2^q: the multiple, and whether it differs. `n` holds the `w` noise
bits of R74. -/
def roundMag (rm : Nat) (neg : Bool) (m : Nat) (e : Int) (st : Bool) (q : Int) (w n : Nat) : Nat × Bool :=
  if q ≤ e then (m * pow2 (e - q), st)
  else
    let sh := (q - e).toNat
    let r := m / 2 ^ sh
    let rem := m % 2 ^ sh
    let inex := rem != 0 || st
    let up :=
      match rm with
      | 0 => 2 ^ sh < 2 * rem || (2 * rem == 2 ^ sh && (st || r % 2 == 1))
      | 2 => inex && !neg
      | 3 => inex && neg
      | 4 => w != 0 && 2 ^ w ≤ (if w ≤ sh then rem / 2 ^ (sh - w) else rem * 2 ^ (w - sh)) + n
      | _ => false
    (if up then r + 1 else r, inex)

/-- a·2^x is greater than b·2^y. -/
def magGt (a : Nat) (x : Int) (b : Nat) (y : Int) : Bool :=
  let c := min x y
  b * pow2 (y - c) < a * pow2 (x - c)

/-- The code of a finite value k·2^q that the format holds. -/
def FF.encode (f : FF) (neg : Bool) (k : Nat) (q : Int) : Nat :=
  let sign := neg.toNat * 2 ^ (f.p - 1 + f.eb)
  if k = 0 then sign
  else
    let x := expOf k q
    if x < f.emin then sign + k * pow2 (q - (f.emin - ((f.p : Int) - 1)))
    else
      let l := Nat.log2 k
      let full := if l < f.p then k * 2 ^ (f.p - 1 - l) else k / 2 ^ (l + 1 - f.p)
      sign + (x - f.emin + 1).toNat * 2 ^ (f.p - 1) + (full - 2 ^ (f.p - 1))

/-- The code of the largest finite value. -/
def FF.maxCode (f : FF) (neg : Bool) : Nat := f.encode neg f.maxM (f.emax - ((f.p : Int) - 1))

/-- The code of an infinity. -/
def FF.infCode (f : FF) (neg : Bool) : Nat := neg.toNat * 2 ^ (f.p - 1 + f.eb) + (2 ^ f.eb - 1) * 2 ^ (f.p - 1)

/-- R75: the code that an overflow gives. -/
def FF.overflow (f : FF) (rm : Nat) (neg : Bool) : Nat :=
  if f.inf && (rm == rmRNE || rm == rmSR || (rm == rmRU && !neg) || (rm == rmRD && neg)) then f.infCode neg
  else f.maxCode neg

/-- One result element: how many noise bits it takes, and its code and flags once they are taken. -/
structure Elem where
  w : Nat
  out : Nat → Nat × Nat

/-- An element that takes no noise. -/
def Elem.const (c fl : Nat) : Elem := ⟨0, fun _ => (c, fl)⟩

/-- R74: SrWidth: 16 for an unrounded result, else the source bits below the destination's last place `q`. -/
def srWidth (rm : Nat) (q : Int) (ulp : Option Int) : Nat :=
  if rm ≠ rmSR then 0
  else
    match ulp with
    | none => 16
    | some u => Nat.min 16 (q - u).toNat

/-- R66: the result of magnitude k·2^q is tiny. -/
def FF.tiny (f : FF) (rm : Nat) (neg : Bool) (m : Nat) (e : Int) (st : Bool) (k : Nat) (q : Int) : Bool :=
  if rm = rmSR then magGt 1 f.emin k q
  else
    let qu := expOf m e - ((f.p : Int) - 1)
    let (ku, _) := roundMag rm neg m e st qu 0 0
    magGt 1 f.emin ku qu

/-- RoundTo of a value to a floating format (R63-R67, R74, R75). `fl` are flags the value brings. Beyond the largest
finite value lo stays that value, whose binade gives the last place of R74. -/
def FF.round (f : FF) (rm : Nat) (x : Num) (ulp : Option Int) (fl : Nat) : Elem :=
  match x with
  | .nan _ s => Elem.const f.nan (fl ||| if s then flInvalid else 0)
  | .inf n =>
    if f.p = 4 then Elem.const (f.maxCode n) (fl ||| flOverflow ||| flInexact) else Elem.const (f.infCode n) fl
  | .fin neg m e st =>
    if m = 0 && !st then Elem.const (f.encode neg 0 0) fl
    else
      let qx := f.emax - ((f.p : Int) - 1)
      if rm == rmSR && !f.inf && magGt m e f.maxM qx then
        Elem.const (f.maxCode neg) (fl ||| flOverflow ||| flInexact)
      else
        let q := f.ulp (expOf m e)
        let w := srWidth rm (min q qx) ulp
        ⟨w, fun n =>
          let (k, inex) := roundMag rm neg m e st q w n
          if magGt k q f.maxM qx then (f.overflow rm neg, fl ||| flOverflow ||| flInexact)
          else
            (f.encode neg k q,
              fl ||| (if inex then flInexact else 0) |||
                (if inex && f.tiny rm neg m e st k q then flUnderflow else 0))⟩

/-- RoundTo of a value to a two's-complement format of `w` bits (R75, R76): a value out of range gives the range end,
which differs from it, with invalid and inexact; a NaN, which no number equals or misses, gives 0 and invalid
(log entry 27). -/
def roundInt (width rm : Nat) (x : Num) (ulp : Option Int) (fl : Nat) : Elem :=
  let hi := 2 ^ (width - 1)
  let ends := fun (neg : Bool) => Elem.const (if neg then hi else hi - 1) (fl ||| flInvalid ||| flInexact)
  match x with
  | .nan .. => Elem.const 0 (fl ||| flInvalid)
  | .inf n => ends n
  | .fin neg m e st =>
    if m = 0 && !st then Elem.const 0 fl
    else if rm == rmSR && magGt m e (hi - 1 + neg.toNat) 0 then ends neg
    else
      let w := srWidth rm 0 ulp
      ⟨w, fun n =>
        let (k, inex) := roundMag rm neg m e st 0 w n
        if hi - 1 + neg.toNat < k then (ends neg).out 0
        else ((if neg then 2 ^ width - k else k) % 2 ^ width, fl ||| if inex then flInexact else 0)⟩

/-- RoundTo of a value to a format that is not a block format. -/
def Fmt.round (t : Fmt) (rm : Nat) (x : Num) (ulp : Option Int) (fl : Nat) : Elem :=
  match t.ff with
  | some f => f.round rm x ulp fl
  | none => roundInt t.width rm x ulp fl

/-- RoundF32 under RNE (R86, R87, R89): the value and its flags. -/
def roundF32 (x : Num) : Num × Nat :=
  match Fmt.ff .f32 with
  | some f =>
    let (c, fl) := (f.round rmRNE x none 0).out 0
    (f.decode c, fl)
  | none => (x, 0)

/-! ### Block exponents (R68, R77) -/

/-- The parameters of a block format: F of R77, the exponent of the unit of M, and Mmax in that unit. -/
def dxPar (t : Fmt) : Nat × Int × Nat := if t = .dx4 then (1, 0, 3) else (2, -4, 124)

/-- The exponent of the step of M at the magnitude m·2^e (R74). -/
def dxStep (t : Fmt) (m : Nat) (e : Int) : Int :=
  if t = .dx4 then 0 else if expOf m e < 1 then -4 else if expOf m e = 1 then -3 else -2

/-- M of the magnitude m·2^e in units of R68, rounded and saturated: the units, inexact, saturated. -/
def dxQuant (t : Fmt) (rm : Nat) (neg : Bool) (m : Nat) (e : Int) (st : Bool) (w n : Nat) : Nat × Bool × Bool :=
  let (_, u, top) := dxPar t
  let q := dxStep t m e
  let (k, inex) := roundMag rm neg m e st q w n
  let units := k * pow2 (q - u)
  if top < units then (top, true, true) else (units, inex, false)

/-- The element code of selector, sign and M. -/
def dxCode (t : Fmt) (sel neg : Bool) (units : Nat) : Nat :=
  let s := neg && units != 0
  if t = .dx4 then sel.toNat * 8 + s.toNat * 4 + units
  else
    let body :=
      if units < 16 then units
      else
        let le := Nat.log2 units - 3
        le * 16 + (units / 2 ^ (le - 1) - 16)
    sel.toNat * 128 + s.toNat * 64 + body

/-- The error of a finite value at a block exponent (R77 Err), in units of 2^z; RNE. -/
def dxErr (t : Fmt) (m : Nat) (e z : Int) (be : Nat) : Nat :=
  let (_, u, _) := dxPar t
  let (k, _, _) := dxQuant t rmRNE false m (e + 127 - be) false 0 0
  ((m * pow2 (e - z) : Nat) - (k * pow2 (u + be - 127 - z) : Nat) : Int).natAbs

/-- R77 step 1: the exponent an element needs. -/
def dxNeed (t : Fmt) : Num → Option Nat
  | .fin _ m e st =>
    if m = 0 && !st then none else some (Nat.min 254 (expOf m e - (dxPar t).1 + 127).toNat)
  | _ => some 254

/-- R77: the two exponents of a block, and its elements. -/
def dxEncode (t : Fmt) (rm : Nat) (xs : List (Num × Option Int)) : Nat × Nat × List Elem :=
  let e0 := (xs.filterMap fun (x, _) => dxNeed t x).foldl Nat.max 0
  let fins := xs.filterMap fun (x, _) => match x with | .fin _ m e _ => if m = 0 then none else some (m, e) | _ => none
  let z := fins.foldl (fun z (_, e) => min z e) (-140 : Int)
  let base := fins.map fun (m, e) => dxErr t m e z e0
  let cost := fun d => ((fins.map fun (m, e) => dxErr t m e z (e0 - d)).zip base).foldl (fun c (a, b) => c + Nat.min a b) 0
  let (best, _) := (List.range (Nat.min 16 (e0 + 1))).foldl
    (fun (p : Nat × Option Nat) d =>
      let c := cost d
      match p.2 with
      | none => (d, some c)
      | some k => if c < k then (d, some c) else p) (0, none)
  let e1 := e0 - best
  let top := (dxPar t).2.2
  let u := (dxPar t).2.1
  (e0, e1, xs.map fun (x, ulp) =>
    match x with
    | .nan n _ => Elem.const (dxCode t false n top) flInvalid
    | .inf n => Elem.const (dxCode t false n top) flInexact
    | .fin neg m e st =>
      if m = 0 then Elem.const 0 0
      else
        let sel := decide (dxErr t m e z e1 < dxErr t m e z e0)
        let be := if sel then e1 else e0
        let es := e + 127 - (be : Int)
        let past := rm == rmSR && magGt m es top u
        let w := if past then 0 else srWidth rm (dxStep t m es + be - 127) ulp
        ⟨w, fun n =>
          let (k, inex, sat) := dxQuant t rm neg m es st w n
          (dxCode t sel neg k,
            (if inex then flInexact else 0) ||| (if k = 0 then flUnderflow else 0) |||
              (if (sat || past) && be == 254 then flOverflow else 0))⟩)

/-! ### Functions of R158 and R159 -/

/-- Fraction bits of the fixed-point approximations. -/
abbrev fxP : Nat := 192

/-- Σ over odd k of z^k / k, doubled; `fuel` bounds the terms. -/
def atanhSum (zz : Nat) : Nat → Nat → Nat → Nat
  | 0, _, _ => 0
  | fuel + 1, term, k => if term = 0 then 0 else term / k + atanhSum zz fuel (term * zz / 2 ^ fxP) (k + 2)

/-- ln((1 + z) / (1 − z)) in fixed point, z ≤ 1/3. -/
def lnRatio (z : Nat) : Nat := 2 * atanhSum (z * z / 2 ^ fxP) 100 z 1

/-- ln 2 in fixed point. -/
def fxLn2 : Nat := lnRatio (2 ^ fxP / 3)

/-- Σ y^k / k! in fixed point. -/
def expSum (y : Nat) : Nat → Nat → Nat → Nat
  | 0, _, _ => 0
  | fuel + 1, term, k => if term = 0 then 0 else term + expSum y fuel (term * y / 2 ^ fxP / k) (k + 1)

/-- A magnitude known to within 2^28 units of 2^e, cut to multiples of 2^100 units, a grid finer than every rounding
boundary of every mode; and whether the interval lies within one of its steps, which fixes the one rounding (log
entry 13). -/
def settle (neg : Bool) (r : Nat) (e : Int) : Num × Bool :=
  let lo := (r - 2 ^ 28) / 2 ^ 100
  (.fin neg lo (e + 100) true, lo == (r + 2 ^ 28) / 2 ^ 100)

/-- 2^x, or e^x, of a finite value that is not zero, and whether its rounding is decided. -/
def powNum (natural neg : Bool) (m : Nat) (e : Int) : Num × Bool :=
  let fine : Int := min e (-120)
  if 12 ≤ expOf m e then (.fin false 3 (if neg then -5000 else 5000) true, true)
  else if !natural && (0 ≤ e || m % pow2 (-e) == 0) then
    let n : Int := (if 0 ≤ e then m * pow2 e else m / pow2 (-e) : Nat)
    (.fin false 1 (if neg then -n else n) false, true)
  else if natural && 2 * (expOf m e + 1) ≤ fine then
    -- 1 + x < e^x < 1 + x + x^2, and x^2 is less than the unit 2^fine
    let k := m * pow2 (e - fine)
    (.fin false (if neg then pow2 (-fine) - k else pow2 (-fine) + k) fine true, true)
  else
    let mag := if 0 ≤ e + fxP then m * pow2 (e + fxP) else m / pow2 (-(e + fxP))
    let y : Int := if neg then -(mag : Int) else mag
    let y := if natural then y * (2 ^ fxP : Nat) / (fxLn2 : Int) else y
    let n := y / (2 ^ fxP : Nat)
    let f := (y - n * (2 ^ fxP : Nat)).toNat
    settle false (expSum (f * fxLn2 / 2 ^ fxP) 100 (2 ^ fxP) 1) (n - fxP)

/-- log2 of a positive finite value, and whether its rounding is decided. -/
def log2Num (m : Nat) (e : Int) : Num × Bool :=
  let l := Nat.log2 m
  let x : Int := expOf m e
  if m = 2 ^ l then (.fin (x < 0) x.natAbs 0 false, true)
  else
    let t := if l ≤ fxP then m * 2 ^ (fxP - l) else m / 2 ^ (l - fxP)
    let ln := lnRatio ((t - 2 ^ fxP) * 2 ^ fxP / (t + 2 ^ fxP))
    let r : Int := x * (2 ^ fxP : Nat) + (ln * 2 ^ fxP / fxLn2 : Nat)
    settle (r < 0) r.natAbs (-(fxP : Int))

/-- 1/x of a finite value that is not zero; the quotient is exact above its last bit. -/
def rcpNum (neg : Bool) (m : Nat) (e : Int) : Num :=
  let k := fxP + Nat.log2 m
  .fin neg (2 ^ k / m) (-(k : Int) - e) (2 ^ k % m != 0)

/-- The integer square root, bit by bit. -/
def isqrt (n : Nat) : Nat → Nat → Nat
  | 0, r => r
  | i + 1, r => if (r + 2 ^ i) * (r + 2 ^ i) ≤ n then isqrt n i (r + 2 ^ i) else isqrt n i r

/-- 1/√x of a positive finite value; exact above its last bit. -/
def rsqrtNum (m : Nat) (e : Int) : Num :=
  let m' := if e % 2 = 0 then m else 2 * m
  let h := (if e % 2 = 0 then e else e - 1) / 2
  let k := fxP + Nat.log2 m'
  let q := 2 ^ (2 * k) / m'
  let r := isqrt q (fxP + Nat.log2 m' + 1) 0
  .fin false r (-(k : Int) - h) (r * r * m' != 2 ^ (2 * k))

/-- The functions of R158, and e^x of R159. -/
inductive Fn where
  | exp2 | log2 | rcp | rsqrt | exp
deriving DecidableEq, Repr

/-- The number of a function, for a result the intervals do not decide. -/
def Fn.code : Fn → Nat
  | .exp2 => 0 | .log2 => 1 | .rcp => 2 | .rsqrt => 3 | .exp => 4

/-- R158, R159: the value of a function as far as its one rounding needs it, whether it is decided, and its flags. -/
def Fn.eval (fn : Fn) (x : Num) : (Num × Bool) × Nat :=
  match fn, x with
  | _, .nan _ s => ((.nan false false, true), if s then flInvalid else 0)
  | .exp2, .inf n | .exp, .inf n => ((if n then .fin false 0 0 false else .inf false, true), 0)
  | .log2, .inf n => if n then ((.nan false false, true), flInvalid) else ((.inf false, true), 0)
  | .rcp, .inf n => ((.fin n 0 0 false, true), 0)
  | .rsqrt, .inf n => if n then ((.nan false false, true), flInvalid) else ((.fin false 0 0 false, true), 0)
  | .exp2, .fin n m e _ => (if m = 0 then (.fin false 1 0 false, true) else powNum false n m e, 0)
  | .exp, .fin n m e _ => (if m = 0 then (.fin false 1 0 false, true) else powNum true n m e, 0)
  | .log2, .fin n m e _ =>
    if m = 0 then ((.inf true, true), flDivzero) else if n then ((.nan false false, true), flInvalid)
    else (log2Num m e, 0)
  | .rcp, .fin n m e _ => if m = 0 then ((.inf n, true), flDivzero) else ((rcpNum n m e, true), 0)
  | .rsqrt, .fin n m e _ =>
    if m = 0 then ((.inf n, true), flDivzero) else if n then ((.nan false false, true), flInvalid)
    else ((rsqrtNum m e, true), 0)

/-- The rounded result of a function. Where the enclosure crosses a step of the grid, the code is free and the flags
stand (log entry 13). -/
def Fn.round (fn : Fn) (t : Fmt) (rm code : Nat) (x : Num) (fl : Nat) : Elem :=
  let ((v, sure), f) := fn.eval x
  let el := t.round rm v none (fl ||| f)
  if sure then el else ⟨el.w, fun n => (Config.undecided fn.code code rm % 2 ^ t.width, (el.out n).2)⟩

end Sys2Proof.Machine
end

