-- ==== Sys2Proof/Machine/Accum.lean ====
section
/-!
DEFINITION. Accumulation: the group rule and the chain rule of matrix operations (R86, R87) and the fixed orders of
reductions (R89).
-/

namespace Sys2Proof.Machine

/-- R86: one product, or difference, of a group, for cell operation MAD 0, ADA 1, CSX 2, CSN 3; `none` where it is a NaN
that operands which are not NaN give. -/
def cellTerm (op : Nat) (a b : Num) : Option Num :=
  let (p, _) := if op = 1 then addNum rmRNE a b.neg else mulNum a b
  match p with
  | .nan .. => none
  | .inf n => some (.inf (n && op != 1))
  | .fin n m e st => some (.fin (n && op != 1) m e st)

/-- R86: the largest or the smallest of the terms. -/
def extremum (smaller : Bool) : List Num → Num
  | [] => .inf (!smaller)
  | p :: ps => ps.foldl (fun a b => (maxNum smaller a b).1) p

/-- R86: GroupValue over up to 32 pairs, as an F32 value with invalid and overflow. -/
def groupValue (op : Nat) (as bs : List Num) : Num × Nat :=
  if as.any Num.isNan || bs.any Num.isNan then nanResult (as.any Num.sig || bs.any Num.sig)
  else
    let ps := (as.zip bs).map fun (a, b) => cellTerm op a b
    if ps.contains none then nanResult true
    else
      let ps := ps.filterMap id
      let pos := ps.contains (.inf false)
      let neg := ps.contains (.inf true)
      if pos && neg then nanResult true
      else if pos then (.inf false, 0)
      else if neg then (.inf true, 0)
      else if op = 2 then roundF32 (extremum false ps)
      else if op = 3 then roundF32 (extremum true ps)
      else
        let nz := ps.filterMap fun p => match p with | .fin n m e _ => if m = 0 then none else some (n, m, e) | _ => none
        match nz with
        | [] => (.fin (ps.all fun p => match p with | .fin n _ _ _ => n | _ => false) 0 0 false, 0)
        | (_, m0, e0) :: rest =>
          let emax := rest.foldl (fun x (_, m, e) => max x (expOf m e)) (expOf m0 e0)
          let sh := emax - 30
          let sum : Int := nz.foldl (fun (t : Int) (n, m, e) =>
            let v : Nat := if sh ≤ e then m * pow2 (e - sh) else m / pow2 (sh - e)
            if n then t - v else t + v) 0
          roundF32 (.fin (sum < 0) sum.natAbs sh false)

/-- RoundF32 of a sum under RNE, with flags. -/
def sumF32 (a b : Num) : Num × Nat :=
  let (x, f) := addNum rmRNE a b
  let (v, g) := roundF32 x
  (v, f ||| g)

/-- R87: the identity of a combining operation: add 0, max 1, min 2. -/
def chainIdent (cop : Nat) : Num :=
  if cop = 1 then .inf true else if cop = 2 then .inf false else .fin false 0 0 false

/-- R87: the two chains over the groups' operations and values. -/
def chainRun : Bool → List (Nat × Num) → Num → Num → Nat → Num × Num × Nat
  | _, [], e, o, f => (e, o, f)
  | odd, (op, g) :: rest, e, o, f =>
    let x := if odd then o else e
    let (y, f') :=
      match op with
      | 2 => maxNum false x g
      | 3 => maxNum true x g
      | _ => sumF32 x g
    if odd then chainRun false rest e y (f ||| f') else chainRun true rest y o (f ||| f')

/-- R87: the chain rule over groups, with the old accumulator or the identity; only invalid and overflow are kept
(R79). -/
def chain (cop : Nat) (groups : List (Nat × Num × Nat)) (start : Option Num) : Num × Nat :=
  let id := chainIdent cop
  let f0 := groups.foldl (fun f (_, _, g) => f ||| g) 0
  let (e, o, f) := chainRun false (groups.map fun (op, g, _) => (op, g)) (start.getD id) id f0
  let (c, f') :=
    match cop with
    | 1 => maxNum false e o
    | 2 => maxNum true e o
    | _ => sumF32 e o
  (c, (f ||| f') &&& (flInvalid ||| flOverflow))

/-- A list divided into groups of 32. -/
def groups32 (fuel : Nat) (xs : List Num) : List (List Num) :=
  match fuel with
  | 0 => []
  | n + 1 => if xs.isEmpty then [] else xs.take 32 :: groups32 n (xs.drop 32)

/-- R89: one level of the pairwise tree, with its flags. -/
def pairSums : List Num → List Num × Nat
  | a :: b :: rest =>
    let (v, f) := sumF32 a b
    let (vs, g) := pairSums rest
    (v :: vs, f ||| g)
  | xs => (xs, 0)

/-- R89: the levels of the pairwise tree, from the lanes up, with the flags of the node additions. -/
def treeLevels : Nat → List Num → List (List Num) × Nat
  | 0, xs => ([xs], 0)
  | k + 1, xs =>
    let (ys, f) := pairSums xs
    let (ls, g) := treeLevels k ys
    (xs :: ls, f ||| g)

/-- R89: the inclusive scan at lane i: the nodes of the largest aligned blocks of lanes 0..i, added left to right. -/
def scanAt (levels : List (List Num)) : Nat → Nat → Nat → Option Num → Nat → Num × Nat
  | 0, _, _, acc, f => (acc.getD (.fin false 0 0 false), f)
  | k + 1, n, pos, acc, f =>
    if n / 2 ^ k % 2 = 1 then
      let node := (levels.getD k []).getD (pos / 2 ^ k) (.fin false 0 0 false)
      match acc with
      | none => scanAt levels k n (pos + 2 ^ k) (some node) f
      | some a =>
        let (v, g) := sumF32 a node
        scanAt levels k n (pos + 2 ^ k) (some v) (f ||| g)
    else scanAt levels k n pos acc f

/-- The code of an F32 value. -/
def f32Code (x : Num) : Nat := (((Fmt.f32).round rmRNE x none 0).out 0).1

end Sys2Proof.Machine
end

