-- ==== Sys2Proof/Machine/Translate.lean ====
section
/-!
DEFINITION. Two-stage translation (R375-R380), dirty tracking (R384, R385), page requests (R382, R426, R429) and
egress windows (R391).
-/

namespace Sys2Proof.Machine

/-- How a walk ends when it does not complete (R379), or cannot yet, because its page is being migrated (R304). Stage 0 stands for a VD out of service. -/
inductive WalkErr where
  | miss (stage : Nat) (ipa : Nat) (walk : Bool)
  | perm (stage : Nat) (ipa : Nat) (walk : Bool)
  | malformed (stage : Nat)
  | forbidden (stage : Nat)
  | heartwood (stage : Nat)
  | busy
deriving DecidableEq, Repr

/-- A leaf that a walk of one stage reaches: its output address, page size (log2), rights, attribute and the stage-2
fields; `at` is the physical address of a stage-2 leaf. -/
structure Leaf where
  oa : Nat
  size : Nat
  r : Bool
  w : Bool
  ord : Nat
  dirty : Bool
  cnt : Bool
  fab : Bool
  slot : Nat
deriving DecidableEq, Repr

/-- R377: a table descriptor is malformed when bits 15:2 or 63:52 are not zero. -/
def badTableDesc (d : Nat) : Bool := fld d 2 14 != 0 || fld d 52 12 != 0

/-- R377: a leaf descriptor is malformed. -/
def badLeafDesc (stage level d : Nat) : Bool :=
  fld d 52 12 != 0 || fld d 10 6 != 0 || fld d 4 2 == 3 || (stage == 1 && fld d 7 3 != 0) ||
    (fldB d 9 && fld d 48 4 != 0) || (level == 1 && !fldB d 9 && fld d 16 13 != 0)

/-- R377: the fields of a leaf. -/
def Leaf.ofDesc (level d slot : Nat) : Leaf :=
  ⟨fld d 16 36 * 2 ^ 16, if level = 1 then 29 else 16, fldB d 2, fldB d 3, fld d 4 2, fldB d 7, fldB d 8, fldB d 9, slot⟩

/-- R309: a physical address lies in the Heartwood region. -/
def State.inHeartwood (s : State) (pa : Nat) : Bool :=
  let base := s.dfld Dev.hwdRegion 0 16 36 * 2 ^ 16
  s.dfld Dev.hwdRegion 0 63 1 == 1 && base ≤ pa && pa < base + s.dfld Dev.hwdRsize 0 0 32 * 2 ^ 16

/-- R388: a physical address lies in the map. -/
def inMap (pa : Nat) : Bool := pa < hbmSize || (apertureBase ≤ pa && pa < apertureBase + 2 ^ 32)

/-- R376: the index of an address at a level. -/
def levelIndex (addr level : Nat) : Nat := fld addr (42 - 13 * level) 13

/-- R376-R379: the walk of stage 2 from a table down; `fuel` counts the levels left. -/
def State.walkStage2 (s : State) (ipa : Nat) : Nat → Nat → Nat → Except WalkErr Leaf
  | 0, _, _ => .error (.malformed 2)
  | fuel + 1, level, table =>
    let slot := table + 8 * levelIndex ipa level
    if !decide (slot + 8 ≤ hbmSize) then .error (.forbidden 2)
    else if s.inHeartwood slot then .error (.heartwood 2)
    else
      let d := s.physNat slot 8
      match d % 4 with
      | 0 => .error (.miss 2 (ipa / 2 ^ 16 * 2 ^ 16) false)
      | 1 =>
        if badTableDesc d || level == 2 then .error (.malformed 2)
        else s.walkStage2 ipa fuel (level + 1) (fld d 16 36 * 2 ^ 16)
      | 2 => if level == 0 || badLeafDesc 2 level d then .error (.malformed 2) else .ok (Leaf.ofDesc level d slot)
      | _ => .error (.malformed 2)

/-- R304: a page is being migrated. -/
def State.migrating (s : State) (vd ipa : Nat) : Bool := (s.migr.map fun m => m.vd == vd && m.ipa / 2 ^ 16 == ipa / 2 ^ 16).getD false

/-- R304: what stands for the migration under way, where a packet waits for it (of no cause, and so no request). -/
def State.migrKey (s : State) : FKey := (s.migr.map fun m => (⟨m.vd, 0, 0, 0, m.ipa, false⟩ : FKey)).getD ⟨0, 0, 0, 0, 0, false⟩

/-- R304: the machine as the device itself finds it while a page is being migrated: the page at its old place. -/
def State.throughMigration (s : State) : State := { s with migr := none }

/-- R375, R379: stage 2 of a VD's intermediate address. -/
def State.stage2 (s : State) (vd ipa : Nat) : Except WalkErr Leaf :=
  if s.dfld Dev.mmVdcfg vd 63 1 = 0 then .error (.forbidden 0)
  else if s.migrating vd ipa then .error .busy
  else s.walkStage2 ipa 3 0 (s.dfld Dev.mmVdcfg vd 16 36 * 2 ^ 16)

/-- The physical address of an intermediate one under a stage-2 leaf. -/
def Leaf.place (l : Leaf) (addr : Nat) : Nat := l.oa + addr % 2 ^ l.size

/-- R380: the TLB entries of one level and owner that cover an address. -/
def State.tlbFind (s : State) (level owner vd va : Nat) : Option TlbEntry :=
  s.tlb.find? fun e => e.level == level && e.owner == owner && e.vd == vd && e.va / 2 ^ e.size == va / 2 ^ e.size

/-- R380: an entry is filled, newest first; the oldest of its level and owner goes when the level is full (log
entry 10). -/
def State.tlbFill (s : State) (e : TlbEntry) (cap : Nat) : State :=
  let same := fun (x : TlbEntry) => x.level == e.level && x.owner == e.owner
  let rest := s.tlb.filter fun x => !(same x && x.vd == e.vd && x.va == e.va && x.size == e.size)
  let keep := (rest.filter same).take (cap - 1)
  { s with tlb := e :: keep ++ rest.filter (fun x => !same x) }

/-- R378: the physical address of a stage-1 descriptor, through a held translation or a walk of stage 2. -/
def State.tableAddr (s : State) (vd ipa : Nat) : State × Except WalkErr Nat :=
  match s.tlbFind 3 0 vd ipa with
  | some e => (s, .ok (e.xl.pa + ipa % 2 ^ e.size))
  | none =>
    match s.stage2 vd ipa with
    | .error (.miss st i _) => (s, .error (.miss st i true))
    | .error e => (s, .error e)
    | .ok l =>
      if l.fab || !decide (l.place ipa + 8 ≤ hbmSize) then (s, .error (.forbidden 2))
      else if s.inHeartwood (l.place ipa) then (s, .error (.heartwood 2))
      else if !l.r then (s, .error (.perm 2 (ipa / 2 ^ 16 * 2 ^ 16) true))
      else
        (s.tlbFill ⟨3, 0, vd, ipa / 2 ^ l.size * 2 ^ l.size, l.size, ⟨l.oa, .rc, none, ipa, false⟩, true, false⟩ 1024,
          .ok (l.place ipa))

/-- R378: the walk of stage 1 from a table down. -/
def State.walkStage1 (vd va : Nat) : Nat → Nat → Nat → State → State × Except WalkErr Leaf
  | 0, _, _, s => (s, .error (.malformed 1))
  | fuel + 1, level, table, s =>
    match s.tableAddr vd ((table + 8 * levelIndex va level) % 2 ^ 52) with
    | (s, .error e) => (s, .error e)
    | (s, .ok pa) =>
      let d := s.physNat pa 8
      match d % 4 with
      | 0 => (s, .error (.miss 1 0 false))
      | 1 =>
        if badTableDesc d || level == 2 then (s, .error (.malformed 1))
        else s.walkStage1 vd va fuel (level + 1) (fld d 16 36 * 2 ^ 16)
      | 2 =>
        if level == 0 || badLeafDesc 1 level d then (s, .error (.malformed 1))
        else (s, .ok (Leaf.ofDesc level d pa))
      | _ => (s, .error (.malformed 1))

/-- R270, R378: the stronger of two attributes, SO over RC over UO. -/
def strongerOrd (a b : Nat) : Attr := if a = 1 ∨ b = 1 then .so else if a = 0 ∨ b = 0 then .rc else .uo

/-- R391: the place in an egress window of a fabric leaf's page, or `none` where the window has no such page. The
answer is the window number and the remote offset. -/
def State.egressWindow (s : State) (oa off : Nat) : Option (Nat × Nat) :=
  let ewin := fld oa 36 12
  let page := fld oa 16 20
  let base := s.dfld Dev.fxEwin 0 12 40 * 4096 + 32 * ewin
  if s.dfld Dev.fxEwin 0 63 1 = 1 ∧ ewin ≤ s.dfld Dev.fxEwin 0 0 12 ∧ fldB (s.physNat base 1) 0 ∧
      page * 2 ^ 16 < s.physNat (base + 0x10) 8 then some (ewin, page * 2 ^ 16 + off)
  else none

/-- R354, R384, R385: the first write through a clean leaf sets DIRTY at the descriptor's home slice and appends to the dirty
log, in one step. -/
def State.markDirty (s : State) (vd ipa : Nat) (l : Leaf) : State :=
  if l.dirty then s
  else
    let d := s.physNat l.slot 8
    let s := s.home l.slot (toLE 8 (d ||| 0x80))
    if s.dfld Dev.mmDlog vd 63 1 = 0 ∨ s.dfld Dev.feFeatEn0 0 6 1 = 0 then s
    else if s.ringFull ringDlog vd then s.dsetFld Dev.mmDlog vd 62 1 1
    else s.ringPut ringDlog vd (toLE 8 (fld ipa 16 36 + if l.size = 29 then 2 ^ 62 else 0))

/-- What a translation that fails asks for (R379): a page request, or the failure of the access with the REASON of
R431 and the stage; or that it waits for a migration to commit (R304). -/
inductive XlErr where
  | request (k : FKey)
  | fail (reason stage : Nat)
  | later
deriving DecidableEq, Repr

/-- R379, R382: the class of a failed walk. -/
def WalkErr.toXl (vd va : Nat) : WalkErr → XlErr
  | .miss st ipa walk => .request ⟨vd, st, 1, if walk then 0 else va / 2 ^ 16 * 2 ^ 16, ipa, walk⟩
  | .perm st ipa walk => .request ⟨vd, st, 2, if walk then 0 else va / 2 ^ 16 * 2 ^ 16, ipa, walk⟩
  | .malformed st => .fail 4 st
  | .forbidden st => .fail 5 st
  | .heartwood st => .fail 6 st
  | .busy => .later

/-- R378: the combined walk of a guest virtual address, for a read, a write or both. -/
def State.walk (s : State) (vd va : Nat) (r w : Bool) : State × Except WalkErr (TlbEntry) :=
  if s.dfld Dev.mmVdcfg vd 63 1 = 0 then (s, .error (.forbidden 0))
  else
    match s.walkStage1 vd va 3 0 (s.dfld Dev.mmVds1 vd 16 36 * 2 ^ 16) with
    | (s, .error e) => (s, .error e)
    | (s, .ok l1) =>
      let ipa := l1.place va % 2 ^ 52
      let page := ipa / 2 ^ 16 * 2 ^ 16
      match s.stage2 vd ipa with
      | .error e => (s, .error e)
      | .ok l2 =>
        if (r && !l1.r) || (w && !l1.w) then (s, .error (.perm 1 0 false))
        else if (r && !l2.r) || (w && !l2.w) then (s, .error (.perm 2 page false))
        else
          let size := Nat.min l1.size l2.size
          let attr := strongerOrd l1.ord l2.ord
          if l2.fab then
            match s.egressWindow (l2.place ipa / 2 ^ 16 * 2 ^ 16) 0 with
            | none => (s, .error (.forbidden 2))
            | some (e, o) =>
              let s := if w then s.markDirty vd ipa l2 else s
              (s, .ok ⟨1, 0, vd, va / 2 ^ 16 * 2 ^ 16, 16, ⟨0, attr, some (e, o), page, l2.cnt⟩, l1.r && l2.r,
                l1.w && l2.w && (l2.dirty || w)⟩)
          else
            let pa := l2.place ipa
            if s.inHeartwood pa then (s, .error (.heartwood 2))
            else if !inMap pa then (s, .error (.forbidden 2))
            else
              let s := if w then s.markDirty vd ipa l2 else s
              let base := va / 2 ^ size * 2 ^ size
              (s, .ok ⟨1, 0, vd, base, size, ⟨pa - va % 2 ^ size, if apertureBase ≤ pa then .so else attr, none,
                ipa - va % 2 ^ size, l2.cnt⟩, l1.r && l2.r, l1.w && l2.w && (l2.dirty || w)⟩)

/-- The translation that an entry gives for an address inside its page. -/
def TlbEntry.at (e : TlbEntry) (va : Nat) : Xlat :=
  let o := va % 2 ^ e.size
  { e.xl with pa := e.xl.pa + o, fab := e.xl.fab.map fun (w, b) => (w, b + o), ipa := (e.xl.ipa + o) / 2 ^ 16 * 2 ^ 16 }

/-- R378, R380: the translation of an access: an entry of the tile's TLB that admits it, an entry of its cluster's, or
a walk that fills both. An engine or the front end (`tile` none) walks. -/
def State.translate (s : State) (tile : Option Nat) (vd va : Nat) (r w : Bool) : State × Except XlErr Xlat :=
  let ok := fun (e : TlbEntry) => (!r || e.r) && (!w || e.w)
  let walked : State × Except XlErr Xlat :=
    match s.walk vd va r w with
    | (s, .error e) => (s, .error (e.toXl vd va))
    | (s, .ok e) =>
      match tile with
      | none => (s, .ok (e.at va))
      | some t =>
        ((s.tlbFill { e with owner := t } 384).tlbFill { e with level := 2, owner := clusterOf t } 8192, .ok (e.at va))
  -- R309: a held translation to the Heartwood region is refused as a walk to it is
  let held (s : State) (e : TlbEntry) : State × Except XlErr Xlat :=
    if (e.at va).fab.isNone && s.inHeartwood (e.at va).pa then (s, .error (.fail 6 2)) else (s, .ok (e.at va))
  match tile with
  | none => walked
  | some t =>
    match s.tlbFind 1 t vd va with
    | some e => if ok e then held s e else walked
    | none =>
      match s.tlbFind 2 (clusterOf t) vd va with
      | some e => if ok e then held (s.tlbFill { e with level := 1, owner := t } 384) e else walked
      | none => walked

/-! ### Page requests (R382, R426, R429) -/

/-- The open requests of a VD. -/
def State.openReqs (s : State) (vd : Nat) : List PageReq := s.reqs.filter (·.key.vd == vd)

/-- R382: the 32 bytes of a request's entry. -/
def PageReq.bytes (r : PageReq) (ts : Nat) : List Byte :=
  toLE 2 r.id ++ toLE 1 r.key.cause ++ toLE 1 r.key.stage ++ toLE 1 r.access ++ zeros 3 ++ toLE 8 r.key.va ++
    toLE 8 r.key.ipa ++ toLE 2 r.source ++ toLE 6 ts

/-- The lowest request number that no open request of the VD has (R426). -/
def State.freeReqId (s : State) (vd : Nat) : Option Nat :=
  (List.range 256).find? fun i => !(s.openReqs vd).any (·.id == i)

/-- A request is posted in the ring of its VD, under the lowest free number. -/
def State.postReq (s : State) (r : PageReq) : State :=
  match s.freeReqId r.key.vd with
  | none => { s with held := s.held ++ [r] }
  | some i =>
    if s.ringFull ringPrq r.key.vd then { s with held := s.held ++ [r] }
    else
      let r := { r with id := i }
      ({ s with reqs := s.reqs ++ [r] }).ringPut ringPrq r.key.vd (r.bytes s.time.toNat)

/-- R382, R426: an access asks for a page. It joins an open or held request of the same page, stage and cause, or posts
one; `write` and `engine` go into ACCESS. -/
def State.request (s : State) (k : FKey) (write engine : Bool) (source : Nat) : State :=
  if s.reqs.any (·.key == k) || s.held.any (·.key == k) then s
  else s.postReq ⟨k, 0, write.toNat + 2 * engine.toNat + 4 * k.walk.toNat, source⟩

end Sys2Proof.Machine
end

