-- ==== Sys2Proof/Machine/RegOps.lean ====
section
/-!
DEFINITION. Reading a device register (R6, R355): stored fields, the fields that other state gives, and fields that
clear when read; the notify words (R338).
-/

namespace Sys2Proof.Machine

/-- R355: the instance that a selector names. -/
def State.selected (s : State) : Sel → Nat
  | .none => 0
  | .queue => s.dfld Dev.feQsel 0 0 12
  | .nq => s.dfld Dev.feNqsel 0 0 6
  | .act => s.dfld Dev.feActsel 0 0 6
  | .scVd => s.dfld Dev.scVdsel 0 0 6
  | .mmVd => s.dfld Dev.mmVdsel 0 0 6
  | .ws => s.dfld Dev.rlWsel 0 0 6
  | .gvPool => s.dfld Dev.gvPsel 0 6 6 * 8 + s.dfld Dev.gvPsel 0 0 3
  | .hwdDom => s.dfld Dev.hwdSel 0 0 14
  | .rq => s.dfld Dev.fxRqsel 0 0 16
  | .eq => s.dfld Dev.reEqsel 0 0 6

/-- The state of a connection and virtual channel (R396). -/
def connKey (conn vc : Nat) : Nat := conn * 4 + vc

/-- The state of a connection's virtual channel. -/
def State.conn (s : State) (k : Nat) : Conn := SMap.get Conn.init s.conns k

/-- A connection's virtual channel changed. -/
def State.setConn (s : State) (k : Nat) (c : Conn) : State := { s with conns := SMap.set Conn.init s.conns k c }

/-- A front-end controller. -/
def State.fc (s : State) (n : Nat) : Controller := SMap.get Controller.init s.fcs n

/-- A front-end controller changed. -/
def State.setFc (s : State) (n : Nat) (c : Controller) : State := { s with fcs := SMap.set Controller.init s.fcs n c }

/-- An extent of a weight set; key 2·ws + x. -/
def State.extent (s : State) (ws x : Nat) : Extent := SMap.get Extent.empty s.extents (2 * ws + x)

/-- An extent changed. -/
def State.setExtent (s : State) (ws x : Nat) (e : Extent) : State :=
  { s with extents := SMap.set Extent.empty s.extents (2 * ws + x) e }

/-- R371: the physical address of a slot of a VD's save region. -/
def State.slotBase (s : State) (vd slot : Nat) : Nat := s.dfld Dev.scVdsave vd 22 30 * 2 ^ 22 + slot * 2 ^ 22

/-- R371: a slot holds an image. -/
def State.slotHolds (s : State) (vd slot : Nat) : Bool := s.physNat (s.slotBase vd slot) 4 == 0x4153435A

/-- R371: the slots of a VD's save region; a region with V = 0 has none. -/
def State.slots (s : State) (vd : Nat) : List Nat :=
  if s.dfld Dev.scVdsave vd 63 1 = 1 then List.range (s.dfld Dev.scVdsave vd 0 16) else []

/-- The value of a register as a read returns it: the stored value with the fields that other state gives
(R308, R310, R323, R351, R371, R395, R429, R468). -/
def State.regValue (s : State) (off inst : Nat) : W64 :=
  let v := s.dget off inst
  if off = Dev.hwdUsed then BitVec.ofNat 64 (s.hlines.length % 2 ^ 32)
  else if off = Dev.hwdDused then
    BitVec.ofNat 64 ((s.hlines.filter fun l => l.vd == fld inst 8 6 && l.dom == fld inst 0 8).length % 2 ^ 32)
  else if off = Dev.fePoolFree then BitVec.ofNat 64 s.pool.length
  else if off = Dev.scVdstat then
    let nodes := (s.nodes.filter fun n => n.vd == inst && n.phase < 2).length
    let images := ((s.slots inst).filter (s.slotHolds inst)).length
    BitVec.ofNat 64 (nodes % 2 ^ 16 * 2 ^ 32 + images % 2 ^ 16 * 2 ^ 16 + SMap.get 0 s.vdState inst)
  else if off = Dev.mmPrstat then
    let held := (s.held.filter (·.key.vd == inst)).length
    setBits (setBits v 16 16 held) 0 9 (s.openReqs inst).length
  else if off = Dev.nbXstat0 then
    BitVec.ofNat 64 ((s.extent inst 0).state * 2 ^ 32 + (s.extent inst 0).version)
  else if off = Dev.nbXstat1 then
    BitVec.ofNat 64 ((s.extent inst 1).state * 2 ^ 32 + (s.extent inst 1).version)
  else if off = Dev.fxRqhead then BitVec.ofNat 64 (s.conn (connKey inst 0)).rqHead
  else if off = Dev.fxRqtail then BitVec.ofNat 64 (s.conn (connKey inst 0)).rqTail
  else if off = Dev.feFcstat then
    BitVec.ofNat 64 ((List.range 4).foldl
      (fun x n => x + ((s.fc n).halted.toNat * 128 + (s.fc n).cause) * 2 ^ (8 * n)) 0)
  else v

/-- R6, R355: an 8-byte read of the register at an offset; RC fields are returned and then cleared. An offset that names
no register reads zeros. What a notify word returns when it is read, the spec does not state: a free value (log
entry 23). -/
def State.regRead (s : State) (off : Nat) : State × W64 :=
  if 0x100000 ≤ off ∧ off < 0x108000 then
    let (n, s) := s.draw
    (s, Config.freeWord n)
  else
    match regSpec off with
    | none => (s, 0)
    | some r =>
      let inst := s.selected r.sel
      let v := s.regValue off inst
      if r.rc = 0 then (s, v)
      else (s.dset off inst (s.dget off inst &&& ~~~(BitVec.ofNat 64 r.rc)), v)

/-- R6: a write of a register: RW fields take it, a W1C bit written 1 clears, every other bit stays. -/
def State.storeReg (s : State) (off inst val : Nat) : State :=
  match regSpec off with
  | none => s
  | some r =>
    let v := BitVec.ofNat 64 val
    let rw := BitVec.ofNat 64 r.rw
    s.dset off inst ((((s.dget off inst) &&& ~~~rw) ||| (v &&& rw)) &&& ~~~(v &&& BitVec.ofNat 64 r.w1c))

/-- R382, R385, R387, R436, R457: a write of a ring's register: one that puts it in service sets HEAD and TAIL to 0, and is
ignored whole where LOG2N lies outside its limits. -/
def State.ringSetup (s : State) (r : RingRegs) (inst lo hi val : Nat) : State :=
  if !fldB val 63 then s.storeReg r.cfg inst val
  else if fld val 0 5 < lo || hi < fld val 0 5 then s
  else ((s.storeReg r.cfg inst val).dset r.head inst 0).dset r.tail inst 0

/-- R358: the front end is in service. -/
def State.ready (s : State) : Bool := s.dfld Dev.feStat 0 0 1 == 1

/-- R353, R358: a configuration write performed for the holder of FE_SEMA; one that comes while no one holds it is refused and
counted, and before READY, or after a thermal trip (R24), it is ignored (log entry 22). -/
def State.configWrite (s : State) (f : State → State) : State :=
  if !s.ready || s.thermal then s
  else if s.dfld Dev.feSema 0 0 2 = 0 then s.dset Dev.feCfgdeny 0 (s.dget Dev.feCfgdeny 0 + 1)
  else f s

/-- R334: what a queue has asked of a peer, and the page that it waits for, are forgotten. -/
def State.forgetQueue (s : State) (q : Nat) : State :=
  { s with
    fabReqs := s.fabReqs.filter fun (r : FabReq) => match r.user with | .queue p _ => p != q | _ => true
    devWaits := s.devWaits.filter fun (w : DevWait) => w.user != .queue q }

/-- R470: a queue stops with ERR, and a record of KIND 19 gives the reason. -/
def State.stopQueue (s : State) (q reason : Nat) : State :=
  ((s.forgetQueue q).dsetFld Dev.feQcfg q 62 1 1).record
    { kind := 19, source := 0x0104, vd := s.dfld Dev.feQcfg q 56 6, addr := q, aux := reason }

/-- R340: the scanner runs within 12 µs of a notify that finds it gated. -/
abbrev wakeLimit : Nat := 12 * cyclesPerUs

/-- The pending bit of a queue is set (R338). -/
def State.setPending (s : State) (q : Nat) : State :=
  if s.pending.contains q then s
  else { s with pending := q :: s.pending, wakeBy := if s.pending.isEmpty then s.now + wakeLimit else s.wakeBy }

/-- R353: CE-B has lost its connection, if this is it: its hold on FE_SEMA ends. -/
def State.cebGone (s : State) (conn : Nat) : State :=
  if s.dfld Dev.feSema 0 0 2 = 2 ∧ s.dfld Dev.feCebind 0 32 16 = conn then s.dsetFld Dev.feSema 0 0 2 0 else s

/-- R338: a store to the notify word of queue `q`. A stopped queue's notifies are ignored (R470), and so are all before
READY (R358). -/
def State.notifyStore (s : State) (q v : Nat) : State :=
  let cfg := s.dget Dev.feQcfg q
  if !s.ready || s.thermal || bitsOf cfg 63 1 == 0 || bitsOf cfg 62 1 == 1 then s
  else
    let n := 2 ^ bitsOf cfg 48 5
    let head := s.dfld Dev.feQhead q 0 32
    let tail := s.dfld Dev.feQtail q 0 32
    let t := v % 2 ^ 32
    let d := (t + 2 ^ 32 - head) % 2 ^ 32
    if 2 ^ 32 ≤ v then s.stopQueue q 2
    else if n < d then s.stopQueue q 1
    else if (tail + 2 ^ 32 - head) % 2 ^ 32 < d then (s.dset Dev.feQtail q (BitVec.ofNat 64 t)).setPending q
    else s.setPending q

end Sys2Proof.Machine
end

