-- ==== Sys2Proof/Machine/Memory.lean ====
section
/-!
DEFINITION. The memory hierarchy (R264-R275): the local-memory cache, the cluster write buffer, performing a write,
monitors and flag pushes that writes cause, scratchpad lines.
-/

namespace Sys2Proof.Machine

/-! ### Writes at the home slice -/

/-- A write is performed at its home slice (R271). A write to the register aperture is a notify store, or a write of no endpoint, which FE_CFGDENY
counts (R338, R353, R356). -/
def State.perform (s : State) (a : Nat) (bs : List Byte) : State :=
  if apertureBase ≤ a then
    let off := a - apertureBase
    if bs.length ≠ 8 ∨ off % 8 ≠ 0 then s
    else if 0x100000 ≤ off ∧ off < 0x108000 then s.notifyStore ((off - 0x100000) / 8) (leNat bs)
    else if ((regSpec off).map (·.rw)).getD 0 = 0 then s
    else s.dset Dev.feCfgdeny 0 (s.dget Dev.feCfgdeny 0 + 1)
  else s.home a bs

/-! ### The cache of a tile's local memory (R266, R269) -/

/-- R443: the origin of poison that a line of memory carries. -/
def State.linePoison (s : State) (line : Nat) : Option Origin := (s.memPoison.find? (·.1 == line)).map (·.2)

/-- The poison mark of a line of memory is set. -/
def State.poisonLine (s : State) (line : Nat) (o : Origin) : State :=
  { s with memPoison := (line, o) :: s.memPoison.filter (·.1 != line) }

/-- The bytes of one line of memory that is in a byte list's reach are overlaid with a write. -/
def overlayAt (base : Nat) (bs : List Byte) (a : Nat) (new : List Byte) : List Byte :=
  let lo := Nat.max base a
  let hi := Nat.min (base + bs.length) (a + new.length)
  if lo < hi then overlay bs (lo - base) (slice new (lo - a) (hi - lo)) else bs

/-- R276: a load, gather, atomic or mate load whose result has not landed. -/
def Flight.isRead (f : Flight) : Bool := f.kind == .tagged && f.slot == slotL && (f.load.isSome || !f.lands.isEmpty)

/-- A translation to an RC page of this chip. -/
def Xlat.isRc (x : Xlat) : Bool := x.attr == .rc && x.fab.isNone

/-- A result in flight that is pushed to a stream. -/
def Flight.pushes (f : Flight) : Bool := f.lands.any fun l => match l with | .push .. => true | _ => false

/-- Program order between two accesses of a context: by the bundles of their words, then by their issue (R276). -/
def programBefore (b1 i1 b2 i2 : Nat) : Bool := decide (b1 < b2) || (b1 == b2 && decide (i1 < i2))

/-- R276: a pending word may make a global access: it is one of the L slot, or it may push to a stream. -/
def IssueWord.accesses (w : IssueWord) : Bool :=
  w.slot == slotL || ((w.slot == slotV || w.slot == slotM) && (let d := fld (wordNat w.instr) 12 6; decide (52 ≤ d ∧ d ≤ 59)))

/-- R269: a posted write that goes through the cluster write buffer. One of log bits merges with its first byte at the home slice, and
goes there by itself. -/
def Posted.isRcWrite (p : Posted) : Bool := p.op == .write && p.log.isNone && (p.xl.map Xlat.isRc).getD false

/-- One number for the place that a translation names: on the chip, or in an egress window. -/
def Xlat.place (x : Xlat) : Nat :=
  match x.fab with
  | none => x.pa
  | some (w, o) => 2 ^ 64 + w * 2 ^ 52 + o

/-- R274: two ranges share a 16-byte chunk. -/
def sameChunk (a n b m : Nat) : Bool := decide (a / 16 ≤ (b + m - 1) / 16) && decide (b / 16 ≤ (a + n - 1) / 16)

/-- A posted write's length in bytes. -/
def Posted.len (p : Posted) : Nat :=
  match p.op with
  | .flagAdd _ => 8
  | _ => p.bytes.length

/-- A posted write touches a chunk of a range. -/
def Posted.touches (p : Posted) (a n : Nat) : Bool :=
  match p.xl with
  | some x => sameChunk x.place p.len a n
  | none => false

/-- A piece touches a chunk of a range; one that has no translation yet by its guest address. -/
def Piece.touches (p : Piece) (va a n : Nat) : Bool :=
  match p.xl with
  | some x => sameChunk x.place p.len a n
  | none => sameChunk p.va p.len va n

/-- The open pieces of a context's loads that come before an access in program order. -/
def Ctx.openPieces (x : Ctx) (bundle id : Nat) : List Piece :=
  (x.flights.filter fun f => programBefore f.bundle f.id bundle id).flatMap fun f =>
    match f.load with
    | some l => l.pieces.filter fun p => p.val.isNone
    | none => []

/-- R275: a result in flight of a context that is pushed to a chunk of a guest range, and comes before an access in program order. -/
def Ctx.pushing (x : Ctx) (bundle id vd va n : Nat) : Bool :=
  x.flights.any fun f => programBefore f.bundle f.id bundle id &&
    f.lands.any fun l => match l with | .push _ _ d a _ => d == vd && sameChunk a 256 va n | _ => false

/-- The posted writes that come before one: their list is in coherence order for each cluster (R275). -/
def State.before (s : State) (p : Posted) : List Posted := s.posted.takeWhile (·.id != p.id)

/-- The posted writes that come after one. -/
def State.behind (s : State) (p : Posted) : List Posted := (s.posted.dropWhile (·.id != p.id)).drop 1

/-- R207, R276, R278: what a release waits for has come about at its scope: earlier reads have landed, earlier pushes are posted, no
earlier word of the L slot is pending, and earlier writes are performed; at chip or system scope also the writes that its cluster's
buffer held at the context's last acquire. -/
def State.releaseReady (s : State) (p : Posted) : Bool :=
  match p.rel with
  | none => true
  | some scope =>
    let x := s.ctx p.ctx
    !(x.flights.any fun f => (f.isRead || f.pushes) && programBefore f.bundle f.id p.bundle p.id) &&
      !(x.pend.any fun w => w.accesses && decide (w.bundle < p.bundle)) &&
      s.posted.all fun q =>
        if q.ctx = p.ctx then
          !programBefore q.bundle q.id p.bundle p.id || q.log.isSome ||
            (decide (scope < 2) && !p.promoted && q.isRcWrite && q.buf)
        else
          !((decide (2 ≤ scope) || p.promoted) && clusterOf (tileOf q.ctx) == clusterOf (tileOf p.ctx) && q.buf &&
            decide (q.id < Nat.min x.acqAt p.id))

/-- R13: a tile holds 3,072 line requests at once, for its core, its streams and its copy engine: whether a request that comes after those
with smaller numbers finds room. -/
def State.lineRoom (s : State) (tile id : Nat) : Bool :=
  let lines (n : Nat) : Nat := n / 128 + 1
  let writes : List Nat := (s.posted.filter fun q => tileOf q.ctx == tile && decide (q.id < id)).map fun q => lines q.len
  let reads : List Nat := [2 * tile, 2 * tile + 1].flatMap fun c => ((s.ctx c).flights.filter fun f => decide (f.id < id)).flatMap fun f =>
    match f.load with
    | some l => (l.pieces.filter fun p => p.val.isNone).map fun p => lines p.len
    | none => []
  decide ((writes ++ reads).foldl Nat.add 0 < 3072)

/-- R275, R276: nothing of its own context holds a posted write back: it is translated, its release is ready, no earlier read of its
chunks is open and no earlier push to them is in flight, and for a stream's entry no earlier acquire is. -/
def State.unheld (s : State) (p : Posted) : Bool :=
  let x := s.ctx p.ctx
  match p.xl with
  | none => false
  | some xl =>
    p.wait.isNone && s.releaseReady p && !((x.openPieces p.bundle p.id).any fun q => q.touches p.va xl.place p.len) &&
      !x.pushing p.bundle p.id p.vd p.va p.len && s.lineRoom (tileOf p.ctx) p.id &&
      (p.stream.isNone || !x.flights.any fun f => (f.load.map (·.acq.isSome)).getD false && programBefore f.bundle f.id p.bundle p.id)

/-- R271, R272: a posted write may enter the cluster write buffer: it goes to an RC page, nothing holds it back, and the earlier writes of
its tile to its chunks have entered. -/
def State.mayEnter (s : State) (p : Posted) : Bool :=
  match p.xl with
  | none => false
  | some xl =>
    p.isRcWrite && s.unheld p &&
      !(s.before p).any fun q => tileOf q.ctx == tileOf p.ctx && !q.buf && q.isRcWrite && q.touches xl.place p.len

/-- R271, R272: a write has entered the cluster write buffer, or may. -/
def State.entered (s : State) (p : Posted) : Bool := p.buf || s.mayEnter p

/-- R275: memory's bytes under the posted writes that a reader finds, in their coherence order, which in a cluster is the order of their
list. -/
def State.under (s : State) (found : Posted → Bool) (a n : Nat) : List Byte :=
  (s.posted.filter fun p => p.isRcWrite && found p).foldl
    (fun bs p => match p.xl with
      | some x => overlayAt a bs x.pa p.bytes
      | none => bs)
    (s.phys a n)

/-- R272: memory as a tile finds it past local memory: the home slice's bytes under the writes that the write buffer of
its cluster holds. -/
def State.clusterView (s : State) (tile a n : Nat) : List Byte :=
  s.under (fun p => p.buf && clusterOf (tileOf p.ctx) == clusterOf tile) a n

/-- The cached copy of a line in a tile. -/
def State.cached (s : State) (tile line : Nat) : Option CLine := s.cache.find? fun l => l.tile == tile && l.line == line

/-- A tile's cache without a line. -/
def State.uncache (s : State) (tile line : Nat) : State :=
  { s with cache := s.cache.filter fun l => !(l.tile == tile && l.line == line) }

/-- R266: the dirty chunks of a line are written back to their home slice; a poisoned line stays marked (R441). -/
def State.writeBack (s : State) (l : CLine) : State :=
  let s := l.dirty.foldl (fun s (k, _) =>
    s.perform (128 * l.line + 16 * k) (slice (bytesOfBits 128 l.data) (16 * k) 16)) s
  match l.poison with
  | some o => if l.dirty.isEmpty then s else s.poisonLine l.line o
  | none => s

/-- Ways of a set that pinned lines take (R191, R266). -/
def State.pinnedWays (s : State) (tile set : Nat) : Nat :=
  (s.scratch.filter fun (k, l) => k / 2 ^ 15 == tile && k % 2048 == set && l.pin.isSome).length

/-- R266: a line is put first in its set of a tile, and the least recently used lines beyond the set's free ways are written
back and dropped (log entry 11). -/
def State.install (s : State) (l : CLine) : State :=
  let s := s.uncache l.tile l.line
  let set := l.line % 2048
  let same := fun (x : CLine) => x.tile == l.tile && x.line % 2048 == set
  let room := 16 - s.pinnedWays l.tile set
  let out := (s.cache.filter same).drop (room - 1)
  let s := out.foldl (fun s x => (s.writeBack x).uncache x.tile x.line) s
  { s with cache := l :: s.cache }

/-- A line comes into a tile's local memory. -/
def State.fillLine (s : State) (tile line : Nat) : State × CLine :=
  let l : CLine := ⟨tile, line, bitsOfBytes 1024 (s.clusterView tile (128 * line) 128), [], s.linePoison line⟩
  (s.install l, l)

/-- A clean copy that a tile holds of a line is dropped. -/
def State.dropCopy (s : State) (tile line : Nat) : State :=
  { s with cache := s.cache.filter fun l => !(l.tile == tile && l.line == line && l.dirty.isEmpty) }

/-- A line of an RC or UO page as a tile reads it: its cached copy, which a tile may drop at any time while it is clean (log
entry 11), or a fill. -/
def State.fetchLine (s : State) (tile line : Nat) : State × CLine :=
  match s.cached tile line with
  | some l =>
    if l.dirty.isEmpty && Config.happens 42 line s.now then s.fillLine tile line else (s.install l, l)
  | none => s.fillLine tile line

/-- R386: an access that misses the LLC adds to the page's counter; whether it misses is open (log entry 17). -/
def State.countAccess (s : State) (vd : Nat) (x : Xlat) : State :=
  if !x.cnt || s.dfld Dev.mmAccfg vd 63 1 == 0 then s
  else
    let (n, s) := s.draw
    let page := x.ipa / 2 ^ 16
    let lo := s.dfld Dev.mmAcrange vd 0 36
    if Config.llcMiss n && lo ≤ page && page < lo + s.dfld Dev.mmAcrange vd 40 24 then
      let a := s.dfld Dev.mmAccfg vd 16 36 * 2 ^ 16 + 4 * (page - lo)
      let w := s.physNat a 4
      let count := Nat.min (w % 2 ^ 28 + 1) (2 ^ 28 - 1)
      let thr := s.dfld Dev.mmActhr vd 0 32
      if thr ≠ 0 && count == thr && !fldB w 31 then
        (s.physWrite a (toLE 4 (count + 2 ^ 31))).notify vd 2 (0x0280 + homeSlice a) 0 (BitVec.ofNat 64 page) 0 0
      else s.physWrite a (toLE 4 (count + 2 ^ 31 * (fldB w 31).toNat))
    else s

/-- The bytes of a cached or home read that starts in one line and runs over the next ones. -/
def State.readLines (s : State) (tile a : Nat) : Nat → Nat → State × List Byte × Option Origin
  | 0, _ => (s, [], none)
  | fuel + 1, n =>
    if n = 0 then (s, [], none)
    else
      let k := Nat.min n (128 - a % 128)
      let (s, l) := s.fetchLine tile (a / 128)
      let (s, rest, p) := s.readLines tile (a + k) fuel (n - k)
      (s, slice (bytesOfBits 128 l.data) (a % 128) k ++ rest, l.poison.orElse fun _ => p)

/-- The poison mark of any line of a range. -/
def State.rangePoison (s : State) (a n : Nat) : Option Origin :=
  (s.memPoison.find? fun (l, _) => 128 * l < a + n && a < 128 * l + 128).map (·.2)

/-- R269, R271: a read of a tile is performed: SO pages at the home slice, RC and UO pages through local memory, the
aperture at its register (R356). Poison that comes from memory has outside origin (R442). -/
def State.readAt (s : State) (tile vd : Nat) (x : Xlat) (n : Nat) : State × List Byte × Option Origin :=
  if apertureBase ≤ x.pa then
    if n = 8 ∧ x.pa % 8 = 0 then
      let (s, v) := s.regRead (x.pa - apertureBase)
      (s, toLE 8 v.toNat, none)
    else (s, zeros n, none)
  else
    let s := s.countAccess vd x
    match x.attr with
    | .so => (s, s.phys x.pa n, s.rangePoison x.pa n)
    | _ => s.readLines tile x.pa (n / 128 + 2) n

/-- R273, R433: the mark of a dirty chunk after a write by a bank. -/
def dirtyBy (old bank : Nat) : Nat := bank + 2 * ((old / 2) ||| 2 ^ bank)

/-- R273: a line holds a dirty chunk that a bank has written. -/
def CLine.dirtyOf (l : CLine) (bank : Nat) : Bool := l.dirty.any fun (_, b) => fldB b (bank + 1)

/-- R269: a UO write goes into the tile's local memory, dirty, chunk by chunk, with the bank that wrote it (R433). -/
def State.writeUo (s : State) (ctx a : Nat) : Nat → List Byte → State
  | 0, _ => s
  | fuel + 1, bs =>
    if bs.isEmpty then s
    else
      let k := Nat.min bs.length (128 - a % 128)
      let (s, l) := s.fetchLine (tileOf ctx) (a / 128)
      let data := bitsOfBytes 1024 (overlay (bytesOfBits 128 l.data) (a % 128) (bs.take k))
      let dirty := (List.range 8).foldl (fun d c =>
        if 16 * c < a % 128 + k && a % 128 < 16 * c + 16 then
          ((d.filter fun (x : Nat × Nat) => x.1 < c) ++ [(c, dirtyBy (SMap.get 0 d c) (bankOf ctx))] ++ d.filter fun (x : Nat × Nat) => c < x.1) else d) l.dirty
      let s := s.install { l with data := data, dirty := dirty, poison := if k = 128 then none else l.poison }
      s.writeUo ctx (a + k) fuel (bs.drop k)

/-- R269: an RC write updates the local copies of its tile. -/
def State.updateCopies (s : State) (tile a : Nat) (bs : List Byte) : State :=
  { s with cache := s.cache.map fun l =>
      if l.tile = tile then { l with data := bitsOfBytes 1024 (overlayAt (128 * l.line) (bytesOfBits 128 l.data) a bs) }
      else l }

/-- The clean copies that a tile holds of the lines of a range are dropped. -/
def State.dropCleanIn (s : State) (tile a n : Nat) : State :=
  { s with cache := s.cache.filter fun l => !(l.tile == tile && l.dirty.isEmpty && 128 * l.line < a + n && a < 128 * l.line + 128) }

/-- R269, R272: a posted write enters the cluster write buffer: the copies of its tile take it, or are dropped where a later write to its
chunks has entered before it. -/
def State.enter (s : State) (p : Posted) : State :=
  let s : State := { s with posted := s.posted.map fun q => if q.id = p.id then { q with buf := true } else q }
  match p.xl with
  | none => s
  | some x =>
    if (s.behind p).any fun q => q.buf && q.touches x.place p.len then s.dropCleanIn (tileOf p.ctx) x.pa p.len
    else s.updateCopies (tileOf p.ctx) x.pa p.bytes

/-- The posted writes of a cluster that may enter its write buffer do. -/
def State.settleWrites (s : State) (cluster : Nat) : State :=
  (s.posted.filter fun p => !p.buf && p.isRcWrite && clusterOf (tileOf p.ctx) == cluster).foldl (fun s p => if s.mayEnter p then s.enter p else s) s

/-- R269, R275: a read of a context, which comes at a place of its program order: as any read of its tile, and where earlier writes of
the context are still to enter the write buffer, with them. -/
def State.readFor (s : State) (c bundle id vd : Nat) (x : Xlat) (n : Nat) : State × List Byte × Option Origin :=
  let s := s.settleWrites (clusterOf (tileOf c))
  let own (p : Posted) : Bool := p.ctx == c && !p.buf && programBefore p.bundle p.id bundle id
  if x.isRc && decide (x.pa < apertureBase) && s.posted.any fun p => p.isRcWrite && own p && p.touches x.place n then
    let s := (s.countAccess vd x).dropCleanIn (tileOf c) x.pa n
    (s, s.under (fun p => own p || (p.buf && clusterOf (tileOf p.ctx) == clusterOf (tileOf c))) x.pa n, s.rangePoison x.pa n)
  else s.readAt (tileOf c) vd x n

/-- The copies that a tile holds of the lines of a range are written back where they are dirty, and dropped. -/
def State.dropCopies (s : State) (tile a n : Nat) : State :=
  let hit := s.cache.filter fun l => l.tile == tile && 128 * l.line < a + n && a < 128 * l.line + 128
  hit.foldl (fun s l => (s.writeBack l).uncache l.tile l.line) s

/-- A write performed at the home slice by an atomic or an engine: the copies of its line that the issuing tile holds are written back
and dropped first, so that the context reads its own write, and its dirty bytes do not come after it (R270, R275). -/
def State.performFor (s : State) (tile a : Nat) (bs : List Byte) : State := (s.dropCopies tile a bs.length).perform a bs

/-- R271: an acquire at cluster scope or wider drops the clean copies of RC lines; a copy of a UO line that is clean may go
with them (log entry 11). -/
def State.dropClean (s : State) (tile : Nat) : State :=
  { s with cache := s.cache.filter fun l => !(l.tile == tile && l.dirty.isEmpty) }

/-- R272, R273: the dirty UO chunks that a context wrote are written back. -/
def State.flushUo (s : State) (ctx : Nat) : State :=
  let mine := s.cache.filter fun l => l.tile == tileOf ctx && l.dirtyOf (bankOf ctx)
  mine.foldl (fun s l =>
    let s := s.writeBack l
    { s with cache := s.cache.map fun x => if x.tile = l.tile ∧ x.line = l.line then { x with dirty := [] } else x }) s

/-! ### Scratchpad (R183, R191, R230) -/

/-- The number of a tile's scratchpad line. -/
def scrKey (tile addr : Nat) : Nat := tile * 2 ^ 15 + addr / 128 % 2 ^ 15

/-- A scratchpad line. -/
def State.sline (s : State) (tile addr : Nat) : SLine := SMap.get SLine.free s.scratch (scrKey tile addr)

/-- A scratchpad line replaced. -/
def State.setSline (s : State) (tile addr : Nat) (l : SLine) : State :=
  { s with scratch := SMap.set SLine.free s.scratch (scrKey tile addr) l }

/-- The bytes of a scratchpad range; `fuel` counts its lines. -/
def State.scrRead (s : State) (tile a : Nat) : Nat → Nat → List Byte
  | 0, _ => []
  | fuel + 1, n =>
    if n = 0 then []
    else
      let k := Nat.min n (128 - a % 128)
      slice (bytesOfBits 128 (s.sline tile a).data) (a % 128) k ++ s.scrRead tile (a + k) fuel (n - k)

/-- The bytes of a scratchpad range. -/
def State.scr (s : State) (tile a n : Nat) : List Byte := s.scrRead tile a (n / 128 + 2) n

/-- The poison of a scratchpad range. -/
def State.scrPoison (s : State) (tile a n : Nat) : Option Origin :=
  (List.range ((a % 128 + n + 127) / 128)).findSome? fun i => (s.sline tile (a + 128 * i)).poison

/-- R211: the monitors on a scratchpad line fire. -/
def fireScr (reason tile a n : Nat) (m : Monitor) : Monitor :=
  if m.scratch && tileOf m.ctx == tile && m.addr / 128 * 128 < a + n && a < m.addr / 128 * 128 + 128 && m.fired.isNone then
    { m with fired := some reason }
  else m

/-- A write of scratchpad bytes; `fuel` counts the lines. A write of a whole line clears its poison (R442). -/
def State.scrWriteAux (s : State) (tile a : Nat) : Nat → List Byte → State
  | 0, _ => s
  | fuel + 1, bs =>
    if bs.isEmpty then s
    else
      let k := Nat.min bs.length (128 - a % 128)
      let l := s.sline tile a
      let s := s.setSline tile a
        { l with data := bitsOfBytes 1024 (overlay (bytesOfBits 128 l.data) (a % 128) (bs.take k)),
                 poison := if k = 128 then none else l.poison }
      s.scrWriteAux tile (a + k) fuel (bs.drop k)

/-- A write of scratchpad bytes, which fires the monitors on its lines. -/
def State.scrWrite (s : State) (tile a : Nat) (bs : List Byte) : State :=
  let s := s.scrWriteAux tile a (bs.length / 128 + 2) bs
  { s with monitors := s.monitors.map (fireScr 1 tile a bs.length) }

/-- R183: why a core access of a context to a scratchpad range traps OWN: the reason, and the address. -/
def State.ownCheck (s : State) (ctx a n : Nat) : Option TrapRec :=
  (List.range ((a % 128 + n + 127) / 128)).findSome? fun i =>
    let l := s.sline (tileOf ctx) (a + 128 * i)
    if l.pin ≠ some (bankOf ctx) then some ⟨5, 1, a⟩ else if l.eng.isSome then some ⟨5, 2, a⟩ else none

/-- R183, R184: the checks of a scratchpad access of `n` bytes: range and alignment, then ownership. -/
def State.scrCheck (s : State) (ctx a n align : Nat) : Option TrapRec :=
  if 2 ^ 22 < a + n then some ⟨7, 2, a⟩
  else if a % align ≠ 0 then some ⟨7, 1, a⟩
  else s.ownCheck ctx a n

end Sys2Proof.Machine
end

