-- ==== Sys2Proof/Machine/Flags.lean ====
section
/-!
DEFINITION. The sticky flags of `vstat` (R78), the noise source and its log (R80-R84), and the rounding of a word's
elements with the noise bits they take (R74, R82).
-/

namespace Sys2Proof.Machine

/-- R78: flags are ORed into `vstat`. -/
def Ctx.raise (x : Ctx) (fl : W32) : Ctx := x.cset csrVstat (x.cget csrVstat ||| fl.zeroExtend 64)

/-- The landing of flags, where there are any. -/
def flagLanding (fl : Nat) : List Landing := if fl = 0 then [] else [.flags (BitVec.ofNat 32 fl)]

/-! ### The noise log (R81-R84) -/

/-- The number of bits of a list, lowest first. -/
def bitsNat : List Bool → Nat
  | [] => 0
  | b :: bs => b.toNat + 2 * bitsNat bs

/-- The bytes of a list of bits, the last filled up with zeros. -/
def bitBytes : Nat → List Bool → List Byte
  | 0, _ => []
  | fuel + 1, bs => if bs.isEmpty then [] else BitVec.ofNat 8 (bitsNat (bs.take 8)) :: bitBytes fuel (bs.drop 8)

/-- R83, R448: the log positions from which a context replays: below this position bits come from the log. -/
def Ctx.replayEnd (x : Ctx) : Nat :=
  let len := (x.cget csrLogLen).toNat
  match bitsOf (x.cget csrRngMode) 0 2 with
  | 2 => len
  | 1 =>
    match x.rerun with
    | some r => Nat.min len r.logEnd
    | none => 0
  | _ => 0

/-- The context is reading its log ahead. -/
def Ctx.replaying (x : Ctx) : Bool := (x.cget csrLogPos).toNat < x.replayEnd || bitsOf (x.cget csrRngMode) 0 2 == 2

/-- R84: the bits of the byte of `start` that a partial line has carried out already, where they are known. -/
def Ctx.logOld (x : Ctx) (start : Nat) : List Bool := if x.logTail.length = start % 8 then x.logTail else []

/-- R84: a write of logged bits [start, start + n), in one 128-byte line, is posted: bytes that hold a logged bit, and no
other; the first has its bits below `start` again, or keeps those that memory holds, and the last has zeros above. -/
def State.postLog (s : State) (c start : Nat) (bs : List Bool) : State :=
  let x := s.ctx c
  let old := x.logOld start
  let pad := start % 8 - old.length
  let p : Posted := {
    id := s.serial, ctx := c, vd := s.vdOf c, va := ((x.cget csrLogBase).toNat + start / 8) % 2 ^ 55,
    bytes := bitBytes (bs.length + 8) (List.replicate pad false ++ old ++ bs), op := .write, rel := none, xl := none,
    wait := none, stream := none, log := some pad, promoted := false, bound := s.now + 8192, freq := none, bundle := x.bundles }
  { s with serial := s.serial + 1, posted := s.posted ++ [p] }

/-- R84: whole lines of logged bits leave the buffer. -/
def State.drainLog (s : State) (c : Nat) : Nat → State
  | 0 => s
  | fuel + 1 =>
    let x := s.ctx c
    let k := 1024 - x.logStart % 1024
    if x.logBits.length < k then s
    else
      let s := s.postLog c x.logStart (x.logBits.take k)
      (s.setCtx c { x with logBits := x.logBits.drop k, logStart := x.logStart + k, logTail := [] }).drainLog c fuel

/-- R84: the partial line is written out: at `exit`, at pre-emption, on `fence.drain`, on a `csrw` of a log register. -/
def State.flushLog (s : State) (c : Nat) : State :=
  let x := s.ctx c
  if x.logBits.isEmpty || x.replaying then s
  else
    let all := x.logOld x.logStart ++ x.logBits
    let stop := x.logStart + x.logBits.length
    (s.postLog c x.logStart x.logBits).setCtx c { x with logBits := [], logStart := stop, logTail := all.drop (all.length - stop % 8) }

/-- `n` live noise bits (R80); each is a free value (log entry 3). -/
def State.liveBits (s : State) (n : Nat) : State × List Bool :=
  ({ s with fresh := s.fresh + n }, (List.range n).map fun i => Config.noiseBit (s.fresh + i))

/-- R83: the context of the word in hand takes `n` bits; whether rlog is set. Bits taken in mode 0 clear REPLAY
(R445). -/
def State.takeBits (s : State) (n : Nat) : State × List Bool × Bool :=
  if n = 0 then (s, [], false)
  else
    let c := s.cur.ctx
    let x := s.ctx c
    let pos := (x.cget csrLogPos).toNat
    let len := (x.cget csrLogLen).toNat
    let stop := if len ≤ pos then pos else Nat.min (pos + n) len
    match bitsOf (x.cget csrRngMode) 0 2 with
    | 0 =>
      let (s, bs) := s.liveBits n
      (s.modCtx c Ctx.unreplay, bs, false)
    | 2 =>
      let bs := (List.range n).map fun i => decide (pos + i < len) && x.logBits.getD (pos + i - x.logStart) false
      let drop := (stop - x.logStart) / 1024 * 1024
      (s.setCtx c { (x.cset csrLogPos (BitVec.ofNat 64 stop)) with
        logBits := x.logBits.drop drop, logStart := x.logStart + drop }, bs, len < pos + n)
    | _ =>
      let fromLog := Nat.min n (x.replayEnd - pos)
      let old := (List.range fromLog).map fun i => x.logBits.getD (pos + i - x.logStart) false
      let (s, live) := s.liveBits (n - fromLog)
      let logged := live.take (stop - (pos + fromLog))
      let y := x.cset csrLogPos (BitVec.ofNat 64 stop)
      let y :=
        if fromLog = 0 then { y with logBits := if x.logBits.isEmpty then logged else x.logBits ++ logged,
                                     logStart := if x.logBits.isEmpty then pos else x.logStart }
        else if fromLog = n then y
        else { y with logBits := logged, logStart := pos + fromLog, logTail := [] }
      ((s.setCtx c y).drainLog c (logged.length / 1024 + 1), old ++ live, len < pos + n)

/-- R84: bits that a context has logged, and that are not yet written. -/
def State.logWaiting (s : State) (c : Nat) : Nat :=
  (s.posted.filter fun p => p.ctx == c && p.log.isSome).foldl (fun n p => n + 8 * p.bytes.length) 0

/-- R84: the buffer of 2 KiB has room for `n` bits more in mode 1. One that holds no line on its way has room for any word: a word that takes
more bits than the buffer holds issues then (log entry 26). -/
def State.logRoom (s : State) (c n : Nat) : Bool :=
  let x := s.ctx c
  let w := s.logWaiting c
  bitsOf (x.cget csrRngMode) 0 2 != 1 || w == 0 || decide ((if x.replaying then 0 else x.logBits.length) + w + n ≤ 16384)

/-- R84, R453: whether the bits that a word may take are there: in modes 0 and 1 the tile's source is in service; bits
that are replayed are in the buffer; those that are logged have room in it. -/
def State.noiseReady (s : State) (c n : Nat) : Bool :=
  if n = 0 then true
  else
    let x := s.ctx c
    let pos := (x.cget csrLogPos).toNat
    let need := Nat.min (pos + n) x.replayEnd
    let have_ := need ≤ pos || (x.logStart ≤ pos && need ≤ x.logStart + x.logBits.length)
    have_ && s.logRoom c n && (bitsOf (x.cget csrRngMode) 0 2 == 2 || !(SMap.get Noise.good s.noise (tileOf c)).failed)

/-! ### Rounding the elements of a word -/

/-- R74, R82: elements take their bits in order; their codes and the flags of all. -/
def splitElems : List Elem → List Bool → List Nat × Nat
  | [], _ => ([], 0)
  | e :: es, bits =>
    let (c, f) := e.out (bitsNat (bits.take e.w))
    let (cs, g) := splitElems es (bits.drop e.w)
    (c :: cs, f ||| g)

/-- The elements of a word rounded, with the noise bits they take: codes and flags. -/
def State.roundAll (s : State) (es : List Elem) : State × List Nat × Nat :=
  let (s, bits, rlog) := s.takeBits (es.foldl (fun n e => n + e.w) 0)
  let (cs, fl) := splitElems es bits
  (s, cs, fl ||| if rlog then flRlog else 0)

end Sys2Proof.Machine
end

