-- ==== Sys2Proof/Machine/Operands.lean ====
section
/-!
DEFINITION. The operand forms: what a word reads and where its result goes (R100-R105), vector operand specifiers with
their tags and stream pops and pushes (R101, R148-R150), and the frame in which every word runs: its predicate, its checks
(R96, R184), poison (R421, R442-R445), its effect.
-/

namespace Sys2Proof.Machine

/-! ### Words -/

/-- The slot of a class (R94): S 0 (S0 or S1), V, M, L, X, C, none 7. -/
def slotOfClass (cls : Nat) : Nat :=
  match cls with
  | 1 => 0 | 2 => slotV | 3 => slotM | 4 => slotL | 5 => slotL | 7 => slotC | 8 => slotC | 9 => slotC
  | 6 => slotX | 10 => slotX | 11 => slotX | 12 => slotX | 13 => slotX | 14 => slotX | _ => 7

/-- R108: a word of this class and operation allocates a tag. Every word of classes 6 and 10 to 14 counts as allocating one, that of an
unassigned operation too (log entry 27). -/
def allocatesTag (cls op : Nat) : Bool :=
  match cls with
  | 1 => op == 26 || op == 27
  | 3 => op == 6
  | 4 => op == 10 || op == 12 || op == 14 || op == 17
  | 5 => op == 2
  | 6 => true | 10 => true | 11 => true | 12 => true | 13 => true | 14 => true
  | _ => false

/-- The tag that a word with its extension allocates (R93). -/
def tagOf (w x : Nat) : Option Nat := if allocatesTag (fld w 26 4) (fld w 21 5) then some (fld x 29 3) else none

/-- What a word does: when it is ready beside the common conditions of R38, the operand and format checks that it may
fail (R96, R184), the registers it reads (R442), the poison of the stream entries it pops, the vector source codes that
pop, the noise bits it may take (R84), whether it makes its phase not replayable (R445), its effect, and what it brings
about while it is not ready (R208). -/
structure WordSem where
  ready : State → Bool := fun _ => true
  chk : State → Option TrapRec := fun _ => none
  srcs : List PReg := []
  popped : State → Option Origin := fun _ => none
  pops : List Nat := []
  takes : State → Nat := fun _ => 0
  once : State → Bool := fun _ => false
  prep : State → Option State := fun _ => none
  eff : State → State

/-- The mark of a poisoned register. -/
def Ctx.poisonOf (x : Ctx) (r : PReg) : Option Origin := (x.poison.find? (·.1 == r)).map (·.2)

/-- R421, R444, R445: a word consumes poison, and does not issue: the phase is killed or rolled back, or UE is raised. -/
def State.consume (s : State) (o : Origin) : State :=
  let w := s.cur
  let (unit, own, loc, addr) := match o with | .tile u l a => (u, true, l, a) | .outside u => (u, false, 0xFFFF, 0)
  let x := s.ctx w.ctx
  match x.rerun with
  | some r =>
    (s.dropWords w.ctx).setCtx w.ctx ({ x with pend := [], leave := none }.rerunEnds r ⟨x.count, x.crc, none, true, 7, false⟩ none)
  | none =>
    match s.phaseFate w.ctx own with
    | .kill aux => s.killPhase w.ctx aux
    | .roll => s.rollback w.ctx 2 addr unit loc
    | .trap => s.trapWord w ⟨11, 1, if unit = 8 then 3 else unit⟩

/-- The poison of the predicates that a word's predicate field reads. -/
def State.predPoison (s : State) (h : Hdr) : Option Origin := if h.pred = 7 then none else s.me.poisonOf .preds

/-- The state after a word comes to issue (R104, R411, R421): nothing with a false predicate; else its trap, or what its
poison brings, or its effect. -/
def WordSem.run (m : WordSem) (h : Hdr) (s : State) : State :=
  if !predOf s.cur.preds h.pred && (s.predPoison h).isNone then s
  else
    match m.chk s with
    | some t => s.trapWord s.cur t
    | none =>
      match ((s.predPoison h).orElse fun _ => m.srcs.findSome? fun r => s.me.poisonOf r).orElse fun _ => m.popped s with
      | some o => s.consume o
      | none => m.eff (if m.once s then s.modCtx s.cur.ctx Ctx.unreplay else s)

/-- A word's step: the machine goes on. -/
def runWord (h : Hdr) (m : WordSem) (s : State) : Host.Outcome State Fault Refusal := .next (m.run h s)

/-! ### Results in flight -/

/-- A tagged result that is issued (R108): it lands at some later cycle. -/
def State.launchTagged (s : State) (tag first : Nat) (bound : Option Nat) (lands : List Landing) : State :=
  s.addFlight { s.launchFlight .tagged bound lands with tag := some tag, first := s.now + first }

/-- R109: a tile is write-busy in a cycle. -/
def Ctx.wrBusy (x : Ctx) (now t : Nat) : Bool := x.flights.any (·.wr.contains t) || now < SMap.get 0 x.wrFree t

/-- R109: a tile is read-busy in a cycle. -/
def Ctx.rdBusy (x : Ctx) (now t : Nat) : Bool := x.flights.any (·.rd.contains t) || now < SMap.get 0 x.rdFree t

/-- R108, R99: a tag is allocated, or was released in this cycle. -/
def Ctx.tagBusy (x : Ctx) (now k : Nat) : Bool := x.flights.any (·.tag == some k) || now < SMap.get 0 x.tagFree k

/-- R109: no tile that a word reads is write-busy, and none that it writes is busy. -/
def State.tilesFree (s : State) (reads writes : List Nat) : Bool :=
  let x := s.me
  (reads.all fun t => !x.wrBusy s.now t) && writes.all fun t => !x.wrBusy s.now t && !x.rdBusy s.now t

/-! ### Streams as operands (R149, R200-R202, R476) -/

/-- The window offset of an entry (R200). -/
def Stream.entryOff (q : Stream) (p : Nat) : Nat :=
  let idx := (q.ext.zip q.str).foldl (fun (acc : Int × Nat) (e, st) => (acc.1 + (acc.2 % e : Nat) * st, acc.2 / e))
    ((q.offset : Int), p)
  idx.1.toNat

/-- The guest address of an entry in the window the stream captured. -/
def Stream.entryVa (q : Stream) (p : Nat) : Nat := (q.win.base + q.entryOff p) % 2 ^ 55

/-- The entry that the `nth` pop of a word takes: its buffer entry, if it is there. -/
def Stream.popAt (q : Stream) (nth : Nat) : Option SEntry := q.fetched.find? (·.entry == q.pos + nth)

/-- R202: the 2048 bits that the `nth` pop of a word reads; beyond the last entry, zeros. -/
def Stream.popData (q : Stream) (nth : Nat) : BitVec 2048 :=
  if q.total ≤ q.pos + nth then 0 else ((q.popAt nth).map (·.data)).getD 0

/-- R149, R476: the `nth` pop is ready: its entry is there, or lies beyond the last, or can never come. -/
def Stream.popReady (q : Stream) (nth : Nat) : Bool :=
  !q.bound || q.write || decide (q.total ≤ q.pos + nth) || (q.popAt nth).isSome || !q.win.valid

/-- R202: the `nth` pop would take, or come after, the entry whose fetch faulted. -/
def Stream.popFaulted (q : Stream) (nth : Nat) : Bool :=
  q.bound && !q.write && q.blocked && !q.popReady nth && decide (q.next ≤ q.pos + nth)

/-- R476: the `nth` pop traps HANDLE: its entry was not fetched before the window became invalid. -/
def Stream.popHandle (q : Stream) (nth : Nat) : Option TrapRec :=
  if q.pos + nth < q.total ∧ (q.popAt nth).isNone ∧ !q.win.valid then some ⟨6, 1, q.entryOff (q.pos + nth) % 2 ^ 48⟩
  else none

/-- R202, R205: `n` pops; a fault of an entry that they pass is pending no longer. -/
def Stream.pop (q : Stream) (n : Nat) : Stream :=
  let p := Nat.min (q.pos + n) q.total
  { q with pos := p, ovr := q.ovr || decide (q.total < q.pos + n), fetched := q.fetched.filter (p ≤ ·.entry),
           next := Nat.max q.next p, blocked := q.blocked && decide (p ≤ q.next) }

/-- The write-stream entries that are taken (R149): reserved by a push that has not landed, or pushed and not yet
performed. -/
def State.taken (s : State) (c q gen : Nat) : Nat :=
  let inFlight := (s.ctx c).flights.foldl (fun n f => n + (f.lands.filter fun l =>
    match l with | .push q' g _ _ _ => q' == q && g == gen | _ => false).length) 0
  -- R274: an entry that crosses a page boundary is posted in two parts, with numbers that follow one another
  let second (p : Posted) : Bool := p.bytes.length < 256 && p.va % 2 ^ 16 == 0 && s.posted.any fun o => o.ctx == c && o.id + 1 == p.id && o.stream == p.stream && o.bytes.length < 256
  inFlight + (s.posted.filter fun p => p.ctx == c && p.stream == some (q, gen) && !second p).length

/-! ### Vector operands (R101, R148) -/

/-- A vector source as it is read; codes 60 and 62 carry no tag of their own. -/
structure VSrc where
  data : BitVec 2048
  side : BitVec 256
  tag : Option Fmt

/-- A 32-bit value in every lane. -/
def splat (v : Nat) : BitVec 2048 := BitVec.ofNat 2048 (packElems 32 (List.replicate 64 v))

/-- R101: the stream number of a vector code 52-59. -/
def streamCode (code : Nat) : Option Nat := if 52 ≤ code ∧ code ≤ 59 then some (code - 52) else none

/-- R101: a vector source; `nth` counts the earlier pops of the same stream in this word. -/
def Ctx.vsrc (x : Ctx) (code xs nth : Nat) : VSrc :=
  match streamCode code with
  | some q => ⟨(x.qget q).popData nth, 0, some (x.qget q).fmt⟩
  | none =>
    if code = 60 then ⟨0, 0, none⟩
    else if code = 61 then ⟨BitVec.ofNat 2048 (packElems 32 (List.range 64)), 0, some .i32⟩
    else if code = 62 then ⟨splat ((x.sget xs).toNat % 2 ^ 32), 0, none⟩
    else
      let r := x.vget code
      ⟨r.data, r.side, some r.tag⟩

/-- For each code of a word's vector sources, how many earlier ones name the same stream. -/
def popIndex (codes : List Nat) : List (Nat × Nat) :=
  codes.zipIdx.map fun (c, i) => (c, if (streamCode c).isSome then ((codes.take i).filter (· == c)).length else 0)

/-- The vector sources of a word. -/
def Ctx.vsrcs (x : Ctx) (xs : Nat) (codes : List Nat) : List VSrc := (popIndex codes).map fun (c, n) => x.vsrc c xs n

/-- R149: the streams that the sources of a word pop are ready. -/
def Ctx.popsReady (x : Ctx) (codes : List Nat) : Bool :=
  (popIndex codes).all fun (c, n) => match streamCode c with | some q => (x.qget q).popReady n | none => true

/-- R149: a source names an unbound stream or a write stream: ILLEGAL, reason 8. -/
def Ctx.popsIllegal (x : Ctx) (word : Nat) (codes : List Nat) : Option TrapRec :=
  codes.findSome? fun c =>
    match streamCode c with
    | some q => if !(x.qget q).bound || (x.qget q).write then some ⟨1, 8, word⟩ else none
    | none => none

/-- R476: what the stream pops of a word trap for their windows. -/
def Ctx.popsHandle (x : Ctx) (codes : List Nat) : Option TrapRec :=
  (popIndex codes).findSome? fun (c, n) => match streamCode c with | some q => (x.qget q).popHandle n | none => none

/-- R149: the pops of a word are made, in the order of its sources. -/
def Ctx.popAll (x : Ctx) (codes : List Nat) : Ctx :=
  codes.foldl (fun x c => match streamCode c with | some q => x.qset q ((x.qget q).pop 1) | none => x) x

/-- R442: the poison of the entries a word pops. -/
def Ctx.popPoison (x : Ctx) (codes : List Nat) : Option Origin :=
  (popIndex codes).findSome? fun (c, n) =>
    match streamCode c with | some q => ((x.qget q).popAt n).bind (·.poison) | none => none

/-- The registers that vector source codes read (R442). -/
def vregSrcs (xs : Nat) (codes : List Nat) : List PReg :=
  codes.filterMap fun c => if c < 52 then some (.v c) else if c = 62 then some (.s xs) else none

/-- A list of accepted tag combinations: for each operand, the tags it may carry. -/
abbrev Combos := List (List (List Fmt))

/-- R61: the first operand at which no combination is left: its place in the list. -/
def badOperand (combos : Combos) (tags : List Fmt) : Option Nat :=
  (List.range tags.length).find? fun n =>
    !combos.any fun cb => ((tags.zip cb).take (n + 1)).all fun (t, ok) => ok.contains t

/-- FORMAT detail: operand, tag found, word (R417). -/
def fmtTrap (reason opnd : Nat) (tag : Fmt) (word : Nat) : TrapRec :=
  ⟨4, reason, opnd * 2 ^ 40 + tag.code * 2 ^ 36 + word⟩

/-- R148: the tags of a word's sources: untyped ones take I32 where the instruction fixes it (`fixed`, a place), else the
tag of the first typed source, else FMT. -/
def resolveTags (fixed : Option Nat) (fmt : Nat) (srcs : List VSrc) : List Fmt :=
  let dflt := ((srcs.filterMap (·.tag)).head?).getD (Fmt.ofCode fmt)
  srcs.zipIdx.map fun (v, i) => v.tag.getD (if fixed = some i then .i32 else dflt)

/-- R148: the tag checks of a word's sources, whose operand numbers are `nums`; `old` is the previous d of `vsel`. -/
def tagChk (word : Nat) (fixed : Option Nat) (fmt : Nat) (typedOnly : Bool) (combos : Combos) (nums : List Nat)
    (srcs : List VSrc) (old : Option Fmt) : Option TrapRec :=
  let tags := resolveTags fixed fmt srcs
  let untyped := (srcs.zip tags).zipIdx.findSome? fun ((v, t), i) =>
    if v.tag.isNone && (typedOnly || t.isDx) then some (fmtTrap 1 (nums.getD i 0) t word) else none
  match untyped with
  | some t => some t
  | none =>
    let all := tags ++ old.toList
    (badOperand combos all).map fun n => fmtTrap 1 ((nums ++ [4]).getD n 0) (all.getD n .raw) word

/-! ### Vector destinations (R101, R149, R150) -/

/-- R149: a destination names an unbound stream or a read stream: ILLEGAL, reason 8. -/
def Ctx.pushIllegal (x : Ctx) (word d : Nat) : Option TrapRec :=
  match streamCode d with
  | some q => if !(x.qget q).bound || !(x.qget q).write then some ⟨1, 8, word⟩ else none
  | none => none

/-- R149: the tag of a result is not the format of its stream: FORMAT, reason 2. -/
def Ctx.pushFormat (x : Ctx) (word d : Nat) (tag : Fmt) : Option TrapRec :=
  match streamCode d with
  | some q => if (x.qget q).fmt ≠ tag then some (fmtTrap 2 5 tag word) else none
  | none => none

/-- R476: a push to a stream whose window is invalid: HANDLE, reason 1. -/
def Ctx.pushHandle (x : Ctx) (d : Nat) : Option TrapRec :=
  match streamCode d with
  | some q => let st := x.qget q; if !st.win.valid then some ⟨6, 1, st.entryOff st.pos % 2 ^ 48⟩ else none
  | none => none

/-- The first of several checks that fails. -/
def firstTrap (l : List (Option TrapRec)) : Option TrapRec := l.findSome? id

/-- R149: a stream destination has room. -/
def State.pushReady (s : State) (d : Nat) : Bool :=
  match streamCode d with
  | none => true
  | some q =>
    let st := s.me.qget q
    !st.bound || !st.write || !st.win.valid || s.taken s.cur.ctx q st.gen < 16

/-- R201, R203: a push reserves its entry: the stream moves on, and beyond the last entry OVR is set. -/
def Stream.reserve (q : Stream) : Stream :=
  if q.total ≤ q.pos then { q with ovr := true } else { q with pos := q.pos + 1 }

/-- R102, R150: a vector result lands in its destination, or is pushed to its stream, and then goes into b0; beside it its
flags. `bound` is that of R107; `part`: the write is partial. -/
def State.landVector (s : State) (bound d : Nat) (v : VReg) (fl : Nat) (part : Bool := false) : State :=
  let lands (l : List Landing) := l ++ [.last v] ++ flagLanding fl
  match streamCode d with
  | some q =>
    let st := s.me.qget q
    let s := s.modCtx s.cur.ctx fun x => x.qset q st.reserve
    s.land bound (lands (if st.total ≤ st.pos then [] else [.push q st.gen st.win.vd (st.entryVa st.pos) v]))
  | none => s.land bound (lands (if d = 63 then [] else [.vreg d v part]))

end Sys2Proof.Machine
end

