-- ==== Sys2Proof/Machine/Vector.lean ====
section
/-!
DEFINITION. The vector instructions, class 2 (R145-R170).
-/

namespace Sys2Proof.Machine

/-- R147: the extension of a word without one. -/
def vext (x : Option VExt) : VExt := x.getD ⟨0, 0, 7, 0, 0⟩

/-- R72, R147: the rounding mode a word uses: DYN is what `rnd` holds when the word issues. -/
def State.mode (s : State) (rm : Nat) : Nat := if rm = 7 then bitsOf (s.me.cget csrRnd) 0 3 else rm

/-- What a vector word computes: the elements that are rounded, the register that their codes make, and flags that the
codes bring. -/
structure VOut where
  elems : List Elem := []
  fin : List Nat → VReg
  fl : List Nat → Nat := fun _ => 0

/-- A word of class 2 that writes a vector destination: its source codes with their operand numbers, the modifiers, the
tags it accepts and gives, its bound, the most elements it can round, and what it computes. -/
structure VecWord where
  w : Nat
  d : Nat
  codes : List Nat
  nums : List Nat
  xs : Nat
  fmt : Nat := 0
  rm : Option Nat := none
  fixed : Option Nat := none
  typedOnly : Bool := false
  combos : Combos
  readsD : Bool := false
  maskD : Bool := false
  extra : List Fmt → Option TrapRec := fun _ => none
  tag : List Fmt → Fmt
  bound : Nat
  rounded : List Fmt → Nat := fun _ => 0
  part : List Fmt → Bool := fun _ => false
  run : Nat → List VReg → VReg → VOut

/-- The sources of a vector word as the context holds them. -/
def VecWord.srcs (v : VecWord) (x : Ctx) : List VSrc := x.vsrcs v.xs v.codes

/-- Their tags (R148). -/
def VecWord.tags (v : VecWord) (x : Ctx) : List Fmt := resolveTags v.fixed v.fmt (v.srcs x)

/-- The bits a word may take (R84, R169). -/
def VecWord.mayTake (v : VecWord) (s : State) : Nat :=
  match v.rm with
  | none => 0
  | some rm => if s.mode rm = rmSR then 16 * v.rounded (v.tags s.me) else 0

/-- The state after a vector word issues (R148-R150). The old bits and the old tag of its destination are those at issue (R161; log entry
27). -/
def VecWord.eff (v : VecWord) (s : State) : State :=
  let x := s.me
  let regs := ((v.srcs x).zip (v.tags x)).map fun (src, t) => (⟨src.data, src.side, t⟩ : VReg)
  let out := v.run (s.mode (v.rm.getD 0)) regs (x.vget v.d)
  let s := s.modCtx s.cur.ctx fun x => x.popAll v.codes
  let (s, cs, fl) := s.roundAll out.elems
  s.landVector v.bound v.d (out.fin cs) (fl ||| out.fl cs) (v.part (v.tags x))

/-- The word of a vector operation. -/
def VecWord.sem (v : VecWord) : WordSem where
  ready s := s.me.popsReady v.codes && s.pushReady v.d
  chk s :=
    let x := s.me
    let srcs := v.srcs x
    let tags := v.tags x
    firstTrap [x.popsIllegal v.w v.codes, x.pushIllegal v.w v.d,
      tagChk v.w v.fixed v.fmt v.typedOnly v.combos v.nums srcs (if v.maskD then some (x.vget v.d).tag else none),
      v.extra tags, x.pushFormat v.w v.d (v.tag tags), x.popsHandle v.codes, x.pushHandle v.d]
  srcs := vregSrcs v.xs v.codes ++ (if v.readsD then [.v v.d] else []) ++ (if v.rm = some 7 then [.csr csrRnd] else [])
  popped s := s.me.popPoison v.codes
  pops := v.codes
  takes s := v.mayTake s
  once _ := (streamCode v.d).isSome
  eff s := v.eff s

/-- The tags of R60. -/
def allTags : List Fmt := [.raw, .f32, .b16, .h16, .e4m3, .e5m2, .dx8, .dx4, .i32, .i8, .mask]

/-- Every tag but the block formats. -/
def plainTags : List Fmt := allTags.filter fun t => !t.isDx

/-- The IEEE formats of R151. -/
def floatTags : List Fmt := [.f32, .b16, .h16]

/-- `n` operands alike, in one of the tags. -/
def alike (tags : List Fmt) (n : Nat) : Combos := tags.map fun t => List.replicate n [t]

/-- The tag of the first source. -/
def firstTag (ts : List Fmt) : Fmt := ts.headD .raw

/-- The number of elements of a register in a format. -/
def countOf (t : Fmt) : Nat := 2048 / t.width

/-- A register with a tag and a zero sidecar from element codes. -/
def regOf (t : Fmt) (cs : List Nat) : VReg := ⟨t.pack cs, 0, t⟩

/-- A word that rounds nothing: the register and its flags. -/
def plainOut (v : VReg) (fl : Nat := 0) : VOut := { fin := fun _ => v, fl := fun _ => fl }

/-- A word whose every element is rounded. -/
def elemOut (t : Fmt) (es : List Elem) : VOut := { elems := es, fin := regOf t }

/-- A source register of a word. -/
def srcAt (rs : List VReg) (i : Nat) : VReg := rs.getD i VReg.zero

/-- The values of a source. -/
def VReg.vals (r : VReg) : List Num := (r.tag.values r.data r.side).map (·.1)

/-- The 32-bit lanes of a source. -/
def VReg.lanes (r : VReg) : List Nat := elemsOf 32 64 r.data.toNat

/-- The element codes of a source. -/
def VReg.codes (r : VReg) : List Nat := r.tag.elems r.data

/-! ### Arithmetic (R152-R155) -/

/-- R152, R153: elements paired, computed exactly and rounded once. -/
def floatWord (w d : Nat) (codes nums : List Nat) (x : VExt) (bound : Nat)
    (f : Nat → List Num → Num × Nat) : VecWord where
  w := w
  d := d
  codes := codes
  nums := nums
  xs := x.xs
  fmt := x.fmt
  rm := some x.rm
  combos := alike floatTags codes.length
  tag := firstTag
  bound := bound
  rounded ts := countOf (firstTag ts)
  run rm rs _ :=
    let t := (srcAt rs 0).tag
    let vals := rs.map VReg.vals
    elemOut t ((List.range (countOf t)).map fun i =>
      let (v, fl) := f rm (vals.map fun vs => vs.getD i (.fin false 0 0 false))
      t.round rm v none fl)

/-- An operand of an element. -/
def opnd (vs : List Num) (i : Nat) : Num := vs.getD i (.fin false 0 0 false)

/-- R155: a code in which NaN becomes the default NaN, with invalid for a signalling one; else `f` of the code and its value. -/
def unaryCode (t : Fmt) (f : Nat → Num → Nat) (c : Nat) : Elem :=
  let v := (t.decode c).1
  if v.isNan then t.round rmRNE v none 0 else Elem.const (f c v) 0

/-- R155: the largest integral value not above x, or the smallest not below it. -/
def integral (up : Bool) : Num → Num
  | .fin neg m e st =>
    if 0 ≤ e then .fin neg m e st
    else
      let q := m / pow2 (-e)
      .fin neg (if m % pow2 (-e) != 0 && neg != up then q + 1 else q) 0 false
  | v => v

/-- A word of the unary group (R155). -/
def unaryWord (w d a : Nat) (x : VExt) (tags : List Fmt) (f : Fmt → Nat → Elem) : VecWord where
  w := w
  d := d
  codes := [a]
  nums := [0]
  xs := x.xs
  fmt := x.fmt
  combos := alike tags 1
  tag := firstTag
  bound := 2
  run _ rs _ := let r := srcAt rs 0; elemOut r.tag (r.codes.map (f r.tag))

/-- R155: an integer code by its signed value. -/
def intCode (t : Fmt) (f : Int → Int) (c : Nat) : Elem :=
  Elem.const ((f (sext t.width c) % 2 ^ t.width).toNat) 0

/-- Float, I32 and I8. -/
def numTags : List Fmt := floatTags ++ [.i32, .i8]

def semVadd (w d a b : Nat) (x : Option VExt) : WordSem :=
  (floatWord w d [a, b] [0, 1] (vext x) 2 fun rm v => addNum rm (opnd v 0) (opnd v 1)).sem

def semVsub (w d a b : Nat) (x : Option VExt) : WordSem :=
  (floatWord w d [a, b] [0, 1] (vext x) 2 fun rm v => addNum rm (opnd v 0) (opnd v 1).neg).sem

def semVmul (w d a b : Nat) (x : Option VExt) : WordSem :=
  (floatWord w d [a, b] [0, 1] (vext x) 4 fun _ v => mulNum (opnd v 0) (opnd v 1)).sem

def semVfma (w d a b : Nat) (x : VExt) : WordSem :=
  (floatWord w d [a, b, x.c] [0, 1, 2] x 4 fun rm v => fmaNum rm (opnd v 0) (opnd v 1) (opnd v 2)).sem

def semVfms (w d a b : Nat) (x : VExt) : WordSem :=
  (floatWord w d [a, b, x.c] [0, 1, 2] x 4 fun rm v => fmaNum rm (opnd v 0) (opnd v 1) (opnd v 2).neg).sem

/-- R154: the larger, or the smaller, of two elements. -/
def extremeWord (smaller : Bool) (w d a b : Nat) (x : VExt) : VecWord where
  w := w
  d := d
  codes := [a, b]
  nums := [0, 1]
  xs := x.xs
  fmt := x.fmt
  combos := alike numTags 2
  tag := firstTag
  bound := 2
  run _ rs _ :=
    let t := (srcAt rs 0).tag
    elemOut t (((srcAt rs 0).codes.zip (srcAt rs 1).codes).map fun (p, q) =>
      if t.isInt then
        let le := decide (sext t.width p ≤ sext t.width q)
        Elem.const (if smaller then (if le then p else q) else if le then q else p) 0
      else
        let (v, fl) := maxNum smaller (t.decode p).1 (t.decode q).1
        t.round rmRNE v none fl)

def semVmax (w d a b : Nat) (x : Option VExt) : WordSem := (extremeWord false w d a b (vext x)).sem
def semVmin (w d a b : Nat) (x : Option VExt) : WordSem := (extremeWord true w d a b (vext x)).sem

def semVabs (w d a : Nat) (x : Option VExt) : WordSem :=
  (unaryWord w d a (vext x) numTags fun t c =>
    if t.isInt then intCode t (fun v => (v.natAbs : Int)) c else unaryCode t (fun c _ => c % 2 ^ (t.width - 1)) c).sem

def semVneg (w d a : Nat) (x : Option VExt) : WordSem :=
  (unaryWord w d a (vext x) numTags fun t c =>
    if t.isInt then intCode t (fun v => -v) c else unaryCode t (fun c _ => c ^^^ 2 ^ (t.width - 1)) c).sem

def semVfloor (w d a : Nat) (x : Option VExt) : WordSem :=
  (unaryWord w d a (vext x) floatTags fun t c =>
    unaryCode t (fun _ v => ((t.round rmRNE (integral false v) none 0).out 0).1) c).sem

def semVceil (w d a : Nat) (x : Option VExt) : WordSem :=
  (unaryWord w d a (vext x) floatTags fun t c =>
    unaryCode t (fun _ v => ((t.round rmRNE (integral true v) none 0).out 0).1) c).sem

def semVmov (w d a : Nat) (x : Option VExt) : WordSem :=
  ({ unaryWord w d a (vext x) allTags (fun _ c => Elem.const c 0) with
      run := fun _ rs _ => plainOut (srcAt rs 0) } : VecWord).sem

/-! ### Comparison and selection (R156, R157) -/

/-- R156: a condition of `vcmp` on I32 lanes. -/
def cmpInt (cond p q : Nat) : Bool :=
  let a := sext 32 p
  let b := sext 32 q
  match cond with
  | 0 => p == q
  | 1 => p != q
  | 2 => a < b
  | 3 => a ≤ b
  | 4 => b < a
  | 5 => b ≤ a
  | 6 => p < q
  | _ => q ≤ p

/-- The value +0 for a zero, for comparisons in which +0 = −0. -/
def Num.unsignZero : Num → Num
  | .fin n m e st => .fin (n && m != 0) m e st
  | v => v

/-- R156: a condition of `vcmp` on F32 values, and invalid. -/
def cmpFloat (cond : Nat) (p q : Num) : Bool × Bool :=
  if p.isNan || q.isNan then (cond == 1, (2 ≤ cond && cond ≤ 5) || p.sig || q.sig)
  else
    let a := p.unsignZero
    let b := q.unsignZero
    let le := numLe a b
    let ge := numLe b a
    (match cond with
      | 0 => le && ge
      | 1 => !(le && ge)
      | 2 => !ge
      | 3 => le
      | 4 => !le
      | _ => ge, false)

def semVcmp (w d a b : Nat) (x : VExt) : WordSem :=
  ({ w := w, d := d, codes := [a, b], nums := [0, 1], xs := x.xs, fmt := x.fmt,
     combos := alike (if x.opx % 16 < 6 then [.f32, .i32] else [.i32]) 2,
     tag := fun _ => .mask, bound := 2,
     run := fun _ rs _ =>
       let cond := x.opx % 16
       let pairs := (srcAt rs 0).lanes.zip (srcAt rs 1).lanes
       if (srcAt rs 0).tag = .i32 then plainOut (regOf .mask (pairs.map fun (p, q) => (cmpInt cond p q).toNat))
       else
         let res := pairs.map fun (p, q) => cmpFloat cond (Fmt.f32.decode p).1 (Fmt.f32.decode q).1
         plainOut (regOf .mask (res.map fun r => r.1.toNat)) (if res.any (·.2) then flInvalid else 0) } : VecWord).sem

def semVsel (w d a b : Nat) (x : Option VExt) : WordSem :=
  ({ w := w, d := d, codes := [a, b], nums := [0, 1], xs := (vext x).xs, fmt := (vext x).fmt,
     combos := plainTags.map fun t => [[t], [t], [.mask]],
     readsD := true, maskD := true, tag := firstTag, bound := 2,
     run := fun _ rs prev =>
       let lanes := (prev.lanes.zip ((srcAt rs 0).lanes.zip (srcAt rs 1).lanes)).map fun (m, p, q) =>
         if m % 2 = 1 then p else q
       plainOut ⟨BitVec.ofNat 2048 (packElems 32 lanes), 0, (srcAt rs 0).tag⟩ } : VecWord).sem

/-! ### Functions (R158, R159) -/

/-- R158: a function of each element, rounded once. -/
def fnWord (fn : Fn) (w d a : Nat) (x : VExt) : VecWord where
  w := w
  d := d
  codes := [a]
  nums := [0]
  xs := x.xs
  fmt := x.fmt
  rm := some x.rm
  combos := alike floatTags 1
  tag := firstTag
  bound := 8
  rounded ts := countOf (firstTag ts)
  run rm rs _ :=
    let r := srcAt rs 0
    elemOut r.tag (r.codes.map fun c => fn.round r.tag rm c (r.tag.decode c).1 0)

def semVexp2 (w d a : Nat) (x : Option VExt) : WordSem := (fnWord .exp2 w d a (vext x)).sem
def semVlog2 (w d a : Nat) (x : Option VExt) : WordSem := (fnWord .log2 w d a (vext x)).sem
def semVrcp (w d a : Nat) (x : Option VExt) : WordSem := (fnWord .rcp w d a (vext x)).sem
def semVrsqrt (w d a : Nat) (x : Option VExt) : WordSem := (fnWord .rsqrt w d a (vext x)).sem

/-- R159: a difference is above zero or NaN. -/
def aboveBound : Num → Bool
  | .nan .. => true
  | .inf n => !n
  | .fin n m _ _ => !n && m != 0

/-- R159: the rows of lanes that `vexpb` looks at: whether some row violates its bound or has lost its precision. -/
def rangeLost (rows : Nat) (xs : List Num) (cs : List Nat) : Bool :=
  let per := 64 / 2 ^ rows
  (List.range (2 ^ rows)).any fun r =>
    ((xs.drop (r * per)).take per).any aboveBound ||
      (((cs.drop (r * per)).take per).all fun c => (Fmt.f32.decode c).1.isNan || decide (c < 0x33800000))

def semVexpb (w d a b : Nat) (x : Option VExt) : WordSem :=
  ({ w := w, d := d, codes := [a, b], nums := [0, 1], xs := (vext x).xs, fmt := (vext x).fmt, rm := some (vext x).rm,
     combos := alike [.f32] 2, tag := fun _ => .f32, bound := 8, rounded := fun _ => 64,
     run := fun rm rs _ =>
       let diffs := ((srcAt rs 0).lanes.zip (srcAt rs 1).lanes).map fun (p, q) =>
         (p, q, addNum rmRNE (Fmt.f32.decode p).1 (Fmt.f32.decode q).1.neg)
       { elems := diffs.map fun (p, q, v, fl) => Fn.exp.round .f32 rm (p * 2 ^ 32 + q) v fl,
         fin := regOf .f32,
         fl := fun cs => if rangeLost ((vext x).opx % 4) (diffs.map fun (_, _, v, _) => v) cs then flRange else 0 } } :
    VecWord).sem

/-! ### Conversion (R160-R162) -/

/-- A list cut into runs of `n`; `fuel` bounds their number. -/
def runsOf {α : Type} (n : Nat) : Nat → List α → List (List α)
  | 0, _ => []
  | fuel + 1, xs => if xs.isEmpty then [] else xs.take n :: runsOf n fuel (xs.drop n)

/-- Values converted to a format: the elements, and for a block format the exponent bytes (R76, R77). -/
def encodeAll (t : Fmt) (rm : Nat) (vals : List (Num × Option Int)) : List Elem × List Nat :=
  if t.isDx then
    let blocks := (runsOf 32 (vals.length / 32 + 1) vals).map fun b => dxEncode t rm b
    (blocks.flatMap fun (_, _, es) => es, blocks.flatMap fun (e0, e1, _) => [e0, e1])
  else (vals.map fun (v, u) => t.round rm v u 0, [])

/-- The values of a source with the ulp of each (R74). -/
def VReg.valsUlp (r : VReg) : List (Num × Option Int) := (r.tag.values r.data r.side).map fun (v, u) => (v, some u)

/-- R160: the accepted pairs of `vcvt`. -/
def cvtTags : Fmt → List Fmt
  | .i32 => [.f32, .mask]
  | .f32 => [.i32]
  | .mask => [.i32]
  | .h16 => [.b16]
  | .b16 => [.h16]
  | .e5m2 => [.e4m3, .dx8]
  | .e4m3 => [.e5m2, .dx8]
  | .dx8 => [.e4m3, .e5m2]
  | _ => []

def semVcvt (w d a : Nat) (x : VExt) : WordSem :=
  let t := Fmt.ofCode x.fmt
  ({ w := w, d := d, codes := [a], nums := [0], xs := x.xs, fmt := x.fmt, rm := some x.rm, typedOnly := true,
     combos := (cvtTags t).map fun s => [[s]], tag := fun _ => t, bound := 4, rounded := fun _ => countOf t,
     run := fun rm rs _ =>
       let r := srcAt rs 0
       if r.tag = .mask then plainOut (regOf .i32 (r.lanes.map (· % 2)))
       else if t = .mask then plainOut (regOf .mask (r.lanes.map fun l => (l != 0).toNat))
       else
         let (es, exps) := encodeAll t rm r.valsUlp
         { elems := es, fin := fun cs => ⟨t.pack cs, BitVec.ofNat 256 (packElems 8 exps), t⟩ } } : VecWord).sem

def semVcvtTag (w d a : Nat) (x : VExt) : WordSem :=
  ({ w := w, d := d, codes := [a], nums := [0], xs := x.xs, fmt := x.fmt, typedOnly := true,
     combos := [[plainTags]], tag := fun _ => Fmt.ofCode x.fmt, bound := 4,
     run := fun _ rs _ => plainOut ⟨(srcAt rs 0).data, 0, Fmt.ofCode x.fmt⟩ } : VecWord).sem

/-- R161: the accepted sources of `vpack` for a target. -/
def packTags : Fmt → List Fmt
  | .b16 => [.f32]
  | .h16 => [.f32]
  | .e4m3 => [.f32, .b16, .h16]
  | .e5m2 => [.f32, .b16, .h16]
  | .dx8 => [.f32, .b16, .h16]
  | .dx4 => [.f32, .b16, .h16, .e4m3, .e5m2, .dx8]
  | .i8 => [.i32]
  | _ => []

/-- R161: the parts of a target that a pack from a source has. -/
def packParts (src dst : Fmt) : Nat := Nat.max 1 (src.width / dst.width / 2)

/-- R161, R177: part `q` of a register or row replaced: elements outside it stay where the old tag is the target's, and
are zeros with zero sidecar bytes otherwise. -/
def packInto (t : Fmt) (q : Nat) (old : VReg) (cs exps : List Nat) : VReg :=
  let n := cs.length
  let keep := decide (old.tag = t)
  let base := if keep then t.elems old.data else List.replicate (countOf t) 0
  let codes := base.take (q * n) ++ cs ++ base.drop (q * n + n)
  let side := if keep && t.isDx then elemsOf 8 32 old.side.toNat else List.replicate 32 0
  let at_ := q * exps.length
  let side := side.take at_ ++ exps ++ side.drop (at_ + exps.length)
  let side := if t = .dx8 then side.take 16 ++ List.replicate 16 0 else side
  ⟨t.pack codes, if t.isDx then BitVec.ofNat 256 (packElems 8 side) else 0, t⟩

/-- R161: the values of I32 elements brought into the range of I8. -/
def satI8 (c : Nat) : Nat :=
  let v := sext 32 c
  ((if v < -128 then -128 else if 127 < v then 127 else v) % 256).toNat

def semVpack (w d a b : Nat) (x : VExt) : WordSem :=
  let t := Fmt.ofCode x.fmt
  let q := x.opx % 8
  ({ w := w, d := d, codes := [a, b], nums := [0, 1], xs := x.xs, fmt := x.fmt, rm := some x.rm, typedOnly := true,
     combos := alike (packTags t) 2, tag := fun _ => t, bound := 4, part := fun ts => 1 < packParts (firstTag ts) t,
     extra := fun ts =>
       let n := packParts (firstTag ts) t
       if 1 < n && 48 ≤ d then some ⟨1, 4, w⟩ else if n ≤ q then some ⟨4, 3, w⟩ else none,
     rounded := fun ts => 2 * countOf (firstTag ts),
     run := fun rm rs prev =>
       let s := (srcAt rs 0).tag
       let old := if 1 < packParts s t then prev else VReg.zero
       if s = .i32 then plainOut (packInto t q old (((srcAt rs 0).codes ++ (srcAt rs 1).codes).map satI8) [])
       else
         let (es, exps) := encodeAll t rm ((srcAt rs 0).valsUlp ++ (srcAt rs 1).valsUlp)
         { elems := es, fin := fun cs => packInto t q old cs exps } } : VecWord).sem

/-- R162: the accepted sources of `vunpk` for a target. -/
def unpkTags : Fmt → List Fmt
  | .f32 => [.b16, .h16, .e4m3, .e5m2, .dx8, .dx4, .i8]
  | .b16 => [.e4m3, .e5m2, .dx8, .dx4, .i8]
  | .h16 => [.e4m3, .e5m2, .dx8, .dx4, .i8]
  | .i32 => [.i8]
  | _ => []

def semVunpk (w d a : Nat) (x : VExt) : WordSem :=
  let t := Fmt.ofCode x.fmt
  let q := x.opx % 8
  ({ w := w, d := d, codes := [a], nums := [0], xs := x.xs, fmt := x.fmt, rm := some x.rm, typedOnly := true,
     combos := (unpkTags t).map fun s => [[s]], tag := fun _ => t, bound := 4,
     extra := fun ts => if t.width / (firstTag ts).width ≤ q then some ⟨4, 3, w⟩ else none,
     rounded := fun _ => countOf t,
     run := fun rm rs _ =>
       let n := countOf t
       elemOut t ((((srcAt rs 0).valsUlp.drop (q * n)).take n).map fun (v, u) => t.round rm v u 0) } : VecWord).sem

/-! ### Reductions and lane movement (R163-R165) -/

/-- R163: a word over all lanes of F32 or I32: `f` on the values, with flags, and `g` on signed lanes. -/
def reduceWord (w d a : Nat) (x : VExt) (f : List Num → List Num × Nat) (g : List Int → List Int) : VecWord where
  w := w
  d := d
  codes := [a]
  nums := [0]
  xs := x.xs
  fmt := x.fmt
  combos := alike [.f32, .i32] 1
  tag := firstTag
  bound := 6
  run _ rs _ :=
    let r := srcAt rs 0
    if r.tag = .i32 then plainOut (regOf .i32 ((g (r.lanes.map (sext 32))).map fun v => (v % 2 ^ 32).toNat))
    else
      let (vs, fl) := f r.vals
      plainOut (regOf .f32 (vs.map f32Code)) fl

/-- The sums of the first one, two, … values. -/
def prefixSums : Int → List Int → List Int
  | _, [] => []
  | acc, v :: vs => (acc + v) :: prefixSums (acc + v) vs

def semVredadd (w d a : Nat) (x : Option VExt) : WordSem :=
  (reduceWord w d a (vext x)
    (fun vs =>
      let (ls, fl) := treeLevels 6 vs
      (List.replicate 64 ((ls.getD 6 []).getD 0 (.fin false 0 0 false)), fl))
    (fun vs => List.replicate 64 (vs.foldl (· + ·) 0))).sem

def semVredmax (w d a : Nat) (x : Option VExt) : WordSem :=
  (reduceWord w d a (vext x)
    (fun vs => (List.replicate 64 (extremum false vs), if vs.any Num.sig then flInvalid else 0))
    (fun vs => List.replicate 64 (vs.foldl max (vs.headD 0)))).sem

def semVscan (w d a : Nat) (x : Option VExt) : WordSem :=
  (reduceWord w d a (vext x)
    (fun vs =>
      let (ls, fl) := treeLevels 6 vs
      let res := (List.range 64).map fun i => scanAt ls 7 (i + 1) 0 none 0
      (res.map (·.1), res.foldl (fun f r => f ||| r.2) fl))
    (prefixSums 0)).sem

def semVperm (w d a b : Nat) (x : Option VExt) : WordSem :=
  ({ w := w, d := d, codes := [a, b], nums := [0, 1], xs := (vext x).xs, fmt := (vext x).fmt, fixed := some 1,
     combos := [[plainTags, [.i32]]], tag := firstTag, bound := 3,
     run := fun _ rs _ =>
       let src := (srcAt rs 0).lanes
       plainOut ⟨BitVec.ofNat 2048 (packElems 32 ((srcAt rs 1).lanes.map fun i => src.getD (i % 64) 0)), 0,
         (srcAt rs 0).tag⟩ } : VecWord).sem

def semVbcast (w d a b : Nat) (x : Option VExt) : WordSem :=
  ({ w := w, d := d, codes := [a], nums := [0], xs := (vext x).xs, fmt := (vext x).fmt,
     combos := [[plainTags]], tag := firstTag, bound := 3,
     run := fun _ rs _ => plainOut ⟨splat ((srcAt rs 0).lanes.getD b 0), 0, (srcAt rs 0).tag⟩ } : VecWord).sem

/-! ### Integer and bit operations (R166-R168) -/

/-- R166: an exact integer result that wraps, or saturates. -/
def intResult (t : Fmt) (sat : Bool) (v : Int) : Nat :=
  let hi : Int := 2 ^ (t.width - 1)
  let v := if sat then (if v < -hi then -hi else if hi ≤ v then hi - 1 else v) else v
  (v % 2 ^ t.width).toNat

/-- R166: a word on integer elements. -/
def intWord (w d a b : Nat) (x : VExt) (bound : Nat) (f : Int → Int → Int) : VecWord where
  w := w
  d := d
  codes := [a, b]
  nums := [0, 1]
  xs := x.xs
  fmt := x.fmt
  combos := alike [.i32, .i8] 2
  tag := firstTag
  bound := bound
  run _ rs _ :=
    let t := (srcAt rs 0).tag
    plainOut (regOf t (((srcAt rs 0).codes.zip (srcAt rs 1).codes).map fun (p, q) =>
      intResult t (fldB x.opx 1) (f (sext t.width p) (sext t.width q))))

/-- The OPX of a word that has no extension is 0. -/
def vext0 (x : Option VExt) : VExt := x.getD ⟨0, 0, 0, 0, 0⟩

def semViadd (w d a b : Nat) (x : Option VExt) : WordSem :=
  (intWord w d a b (vext0 x) 2 fun p q => if fldB (vext0 x).opx 0 then p - q else p + q).sem

def semVimul (w d a b : Nat) (x : Option VExt) : WordSem := (intWord w d a b (vext0 x) 4 fun p q => p * q).sem

/-- R167: the tag of a bitwise result. -/
def bitTag (ts : List Fmt) : Fmt := if firstTag ts = .raw then ts.getD 1 .raw else firstTag ts

/-- R167: a bitwise word. -/
def bitWord (w d a b : Nat) (x : VExt) (f : BitVec 2048 → BitVec 2048 → BitVec 2048) : VecWord where
  w := w
  d := d
  codes := [a, b]
  nums := [0, 1]
  xs := x.xs
  fmt := x.fmt
  combos := alike plainTags 2 ++ [[[.raw], plainTags], [plainTags, [.raw]]]
  tag := bitTag
  bound := 2
  run _ rs _ :=
    let t := bitTag (rs.map (·.tag))
    let v := f (srcAt rs 0).data (srcAt rs 1).data
    plainOut ⟨if t = .mask then v &&& splat 1 else v, 0, t⟩

def semVand (w d a b : Nat) (x : Option VExt) : WordSem := (bitWord w d a b (vext0 x) (· &&& ·)).sem
def semVor (w d a b : Nat) (x : Option VExt) : WordSem := (bitWord w d a b (vext0 x) (· ||| ·)).sem
def semVxor (w d a b : Nat) (x : Option VExt) : WordSem := (bitWord w d a b (vext0 x) (· ^^^ ·)).sem

/-- R168: a shift of 32-bit lanes. -/
def shiftWord (w d a b : Nat) (x : VExt) (f : BitVec 32 → Nat → BitVec 32) : VecWord where
  w := w
  d := d
  codes := [a, b]
  nums := [0, 1]
  xs := x.xs
  fmt := x.fmt
  fixed := some 1
  combos := [[[.i32, .raw], [.i32]]]
  tag := firstTag
  bound := 2
  run _ rs _ :=
    plainOut (regOf (srcAt rs 0).tag (((srcAt rs 0).lanes.zip (srcAt rs 1).lanes).map fun (p, q) =>
      (f (BitVec.ofNat 32 p) (q % 32)).toNat))

def semVshl (w d a b : Nat) (x : Option VExt) : WordSem := (shiftWord w d a b (vext0 x) fun p n => p <<< n).sem

def semVshr (w d a b : Nat) (x : Option VExt) : WordSem :=
  (shiftWord w d a b (vext0 x) fun p n => if fldB (vext0 x).opx 0 then p.sshiftRight n else p >>> n).sem

/-! ### Noise and lane search (R169, R170) -/

/-- R169: one lane of `vrng`. -/
def rngElem (t : Fmt) : Elem :=
  if t = .f32 then ⟨24, fun n => (f32Code (.fin false n (-24) false), 0)⟩ else ⟨32, fun n => (n, 0)⟩

def semVrng (w d : Nat) (x : VExt) : WordSem :=
  let t := Fmt.ofCode x.fmt
  let m := ({ w := w, d := d, codes := [], nums := [], xs := x.xs, fmt := x.fmt, combos := [[]], tag := fun _ => t,
              bound := 3, run := fun _ _ _ => elemOut t (List.replicate 64 (rngElem t)) } : VecWord).sem
  { m with takes := fun _ => 64 * (rngElem t).w }

/-- R170: the checks of a word that reads one MASK and writes a scalar or p6. -/
def maskSem (w a : Nat) (x : VExt) (eff : List Nat → State → State) : WordSem where
  ready s := s.me.popsReady [a]
  chk s :=
    firstTrap [s.me.popsIllegal w [a], tagChk w none x.fmt false [[[.mask]]] [0] (s.me.vsrcs x.xs [a]) none,
      s.me.popsHandle [a]]
  srcs := vregSrcs x.xs [a]
  popped s := s.me.popPoison [a]
  pops := [a]
  eff s :=
    let lanes := (s.me.vsrcs x.xs [a]).flatMap fun v => elemsOf 32 64 v.data.toNat
    eff lanes (s.modCtx s.cur.ctx fun x => x.popAll [a])

def semVffs (w d a : Nat) (x : Option VExt) : WordSem :=
  maskSem w a (vext0 x) fun lanes s => s.land 6 [.sreg d (BitVec.ofNat 64 (lanes.findIdx fun l => l % 2 == 1))]

def semVany (w a : Nat) (x : Option VExt) : WordSem :=
  maskSem w a (vext0 x) fun lanes s => s.land 1 [.p6 (lanes.any fun l => l % 2 == 1)]

/-! ### The instructions -/

/-- R152. Adds float vectors element by element, rounded once. -/
def execVadd (h : Hdr) (d a b : Nat) (x : Option VExt) (s : State) :
    Host.Outcome State Fault Refusal :=
  runWord h (semVadd (wordNat (.vadd h d a b x)) d a b x) s

/-- R152. Subtracts float vectors element by element. -/
def execVsub (h : Hdr) (d a b : Nat) (x : Option VExt) (s : State) :
    Host.Outcome State Fault Refusal :=
  runWord h (semVsub (wordNat (.vsub h d a b x)) d a b x) s

/-- R152. Multiplies float vectors element by element. -/
def execVmul (h : Hdr) (d a b : Nat) (x : Option VExt) (s : State) :
    Host.Outcome State Fault Refusal :=
  runWord h (semVmul (wordNat (.vmul h d a b x)) d a b x) s

/-- R153. Fused multiply-add a·b + c with one rounding. -/
def execVfma (h : Hdr) (d a b : Nat) (x : VExt) (s : State) :
    Host.Outcome State Fault Refusal :=
  runWord h (semVfma (wordNat (.vfma h d a b x)) d a b x) s

/-- R153. Fused multiply-subtract a·b − c with one rounding. -/
def execVfms (h : Hdr) (d a b : Nat) (x : VExt) (s : State) :
    Host.Outcome State Fault Refusal :=
  runWord h (semVfms (wordNat (.vfms h d a b x)) d a b x) s

/-- R154. Element-wise maximum of float or integer vectors. -/
def execVmax (h : Hdr) (d a b : Nat) (x : Option VExt) (s : State) :
    Host.Outcome State Fault Refusal :=
  runWord h (semVmax (wordNat (.vmax h d a b x)) d a b x) s

/-- R154. Element-wise minimum of float or integer vectors. -/
def execVmin (h : Hdr) (d a b : Nat) (x : Option VExt) (s : State) :
    Host.Outcome State Fault Refusal :=
  runWord h (semVmin (wordNat (.vmin h d a b x)) d a b x) s

/-- R155. Element-wise absolute value. -/
def execVabs (h : Hdr) (d a : Nat) (x : Option VExt) (s : State) :
    Host.Outcome State Fault Refusal :=
  runWord h (semVabs (wordNat (.vabs h d a x)) d a x) s

/-- R155. Element-wise negation. -/
def execVneg (h : Hdr) (d a : Nat) (x : Option VExt) (s : State) :
    Host.Outcome State Fault Refusal :=
  runWord h (semVneg (wordNat (.vneg h d a x)) d a x) s

/-- R155. Element-wise floor in the same float format. -/
def execVfloor (h : Hdr) (d a : Nat) (x : Option VExt) (s : State) :
    Host.Outcome State Fault Refusal :=
  runWord h (semVfloor (wordNat (.vfloor h d a x)) d a x) s

/-- R155. Element-wise ceiling in the same float format. -/
def execVceil (h : Hdr) (d a : Nat) (x : Option VExt) (s : State) :
    Host.Outcome State Fault Refusal :=
  runWord h (semVceil (wordNat (.vceil h d a x)) d a x) s

/-- R155. Copies bits, tag and sidecar of a vector. -/
def execVmov (h : Hdr) (d a : Nat) (x : Option VExt) (s : State) :
    Host.Outcome State Fault Refusal :=
  runWord h (semVmov (wordNat (.vmov h d a x)) d a x) s

/-- R156. Compares F32 or I32 lanes and writes a MASK. -/
def execVcmp (h : Hdr) (d a b : Nat) (x : VExt) (s : State) :
    Host.Outcome State Fault Refusal :=
  runWord h (semVcmp (wordNat (.vcmp h d a b x)) d a b x) s

/-- R157. Selects whole lanes of a or b by the MASK in the old d. -/
def execVsel (h : Hdr) (d a b : Nat) (x : Option VExt) (s : State) :
    Host.Outcome State Fault Refusal :=
  runWord h (semVsel (wordNat (.vsel h d a b x)) d a b x) s

/-- R158. Correctly rounded 2^x per element. -/
def execVexp2 (h : Hdr) (d a : Nat) (x : Option VExt) (s : State) :
    Host.Outcome State Fault Refusal :=
  runWord h (semVexp2 (wordNat (.vexp2 h d a x)) d a x) s

/-- R158. Correctly rounded log2 per element. -/
def execVlog2 (h : Hdr) (d a : Nat) (x : Option VExt) (s : State) :
    Host.Outcome State Fault Refusal :=
  runWord h (semVlog2 (wordNat (.vlog2 h d a x)) d a x) s

/-- R158. Correctly rounded reciprocal per element. -/
def execVrcp (h : Hdr) (d a : Nat) (x : Option VExt) (s : State) :
    Host.Outcome State Fault Refusal :=
  runWord h (semVrcp (wordNat (.vrcp h d a x)) d a x) s

/-- R158. Correctly rounded reciprocal square root per element. -/
def execVrsqrt (h : Hdr) (d a : Nat) (x : Option VExt) (s : State) :
    Host.Outcome State Fault Refusal :=
  runWord h (semVrsqrt (wordNat (.vrsqrt h d a x)) d a x) s

/-- R159. Bound-offset exponent e^(s − B) per lane; sets vstat.range on bound violation or loss of precision. -/
def execVexpb (h : Hdr) (d a b : Nat) (x : Option VExt) (s : State) :
    Host.Outcome State Fault Refusal :=
  runWord h (semVexpb (wordNat (.vexpb h d a b x)) d a b x) s

/-- R160. Converts between formats of equal element width. -/
def execVcvt (h : Hdr) (d a : Nat) (x : VExt) (s : State) :
    Host.Outcome State Fault Refusal :=
  runWord h (semVcvt (wordNat (.vcvt h d a x)) d a x) s

/-- R160. Re-tags a vector to FMT without changing its bits (T = 1). -/
def execVcvtTag (h : Hdr) (d a : Nat) (x : VExt) (s : State) :
    Host.Outcome State Fault Refusal :=
  runWord h (semVcvtTag (wordNat (.vcvtTag h d a x)) d a x) s

/-- R161. Narrows the elements of a and b into part q of d. -/
def execVpack (h : Hdr) (d a b : Nat) (x : VExt) (s : State) :
    Host.Outcome State Fault Refusal :=
  runWord h (semVpack (wordNat (.vpack h d a b x)) d a b x) s

/-- R162. Widens part q of a into the whole of d. -/
def execVunpk (h : Hdr) (d a : Nat) (x : VExt) (s : State) :
    Host.Outcome State Fault Refusal :=
  runWord h (semVunpk (wordNat (.vunpk h d a x)) d a x) s

/-- R163. Pairwise-tree sum of the 64 lanes, written to every lane. -/
def execVredadd (h : Hdr) (d a : Nat) (x : Option VExt) (s : State) :
    Host.Outcome State Fault Refusal :=
  runWord h (semVredadd (wordNat (.vredadd h d a x)) d a x) s

/-- R163. Maximum of the 64 lanes, written to every lane. -/
def execVredmax (h : Hdr) (d a : Nat) (x : Option VExt) (s : State) :
    Host.Outcome State Fault Refusal :=
  runWord h (semVredmax (wordNat (.vredmax h d a x)) d a x) s

/-- R163. Inclusive prefix sum in the fixed tree order. -/
def execVscan (h : Hdr) (d a : Nat) (x : Option VExt) (s : State) :
    Host.Outcome State Fault Refusal :=
  runWord h (semVscan (wordNat (.vscan h d a x)) d a x) s

/-- R164. Routes lanes of a by the index lanes of b. -/
def execVperm (h : Hdr) (d a b : Nat) (x : Option VExt) (s : State) :
    Host.Outcome State Fault Refusal :=
  runWord h (semVperm (wordNat (.vperm h d a b x)) d a b x) s

/-- R165. Broadcasts one lane of a to every lane. -/
def execVbcast (h : Hdr) (d a b : Nat) (x : Option VExt) (s : State) :
    Host.Outcome State Fault Refusal :=
  runWord h (semVbcast (wordNat (.vbcast h d a b x)) d a b x) s

/-- R166. Integer add or subtract per element, wrapping or saturating. -/
def execViadd (h : Hdr) (d a b : Nat) (x : Option VExt) (s : State) :
    Host.Outcome State Fault Refusal :=
  runWord h (semViadd (wordNat (.viadd h d a b x)) d a b x) s

/-- R166. Integer multiply per element, low bits or saturating. -/
def execVimul (h : Hdr) (d a b : Nat) (x : Option VExt) (s : State) :
    Host.Outcome State Fault Refusal :=
  runWord h (semVimul (wordNat (.vimul h d a b x)) d a b x) s

/-- R167. Bitwise AND of lanes. -/
def execVand (h : Hdr) (d a b : Nat) (x : Option VExt) (s : State) :
    Host.Outcome State Fault Refusal :=
  runWord h (semVand (wordNat (.vand h d a b x)) d a b x) s

/-- R167. Bitwise OR of lanes. -/
def execVor (h : Hdr) (d a b : Nat) (x : Option VExt) (s : State) :
    Host.Outcome State Fault Refusal :=
  runWord h (semVor (wordNat (.vor h d a b x)) d a b x) s

/-- R167. Bitwise XOR of lanes. -/
def execVxor (h : Hdr) (d a b : Nat) (x : Option VExt) (s : State) :
    Host.Outcome State Fault Refusal :=
  runWord h (semVxor (wordNat (.vxor h d a b x)) d a b x) s

/-- R168. Shifts each lane left. -/
def execVshl (h : Hdr) (d a b : Nat) (x : Option VExt) (s : State) :
    Host.Outcome State Fault Refusal :=
  runWord h (semVshl (wordNat (.vshl h d a b x)) d a b x) s

/-- R168. Shifts each lane right, logically or arithmetically. -/
def execVshr (h : Hdr) (d a b : Nat) (x : Option VExt) (s : State) :
    Host.Outcome State Fault Refusal :=
  runWord h (semVshr (wordNat (.vshr h d a b x)) d a b x) s

/-- R169. Fills a vector from the noise source or from the log in replay. -/
def execVrng (h : Hdr) (d : Nat) (x : VExt) (s : State) :
    Host.Outcome State Fault Refusal :=
  runWord h (semVrng (wordNat (.vrng h d x)) d x) s

/-- R170. Writes the lowest true lane of a MASK to a scalar, or 64. -/
def execVffs (h : Hdr) (d a : Nat) (x : Option VExt) (s : State) :
    Host.Outcome State Fault Refusal :=
  runWord h (semVffs (wordNat (.vffs h d a x)) d a x) s

/-- R170. Sets p6 if any lane of a MASK is true. -/
def execVany (h : Hdr) (a : Nat) (x : Option VExt) (s : State) :
    Host.Outcome State Fault Refusal :=
  runWord h (semVany (wordNat (.vany h a x)) a x) s

end Sys2Proof.Machine
end

