-- ==== Sys2Proof/Machine/Matrix.lean ====
section
/-!
DEFINITION. The matrix instructions, class 3 (R171-R182).
-/

namespace Sys2Proof.Machine

/-! ### Tiles as operands -/

/-- The 64 rows of a tile register. -/
def TReg.all (t : TReg) : List Row := (List.range 64).map t.row

/-- A tile register from its rows. -/
def TReg.ofRows (tag : Fmt) (rs : List Row) : TReg :=
  ⟨rs.zipIdx.filterMap fun (r, i) => if r = Row.zero then none else some (i, r), tag⟩

/-- A row of F32 codes, with a zero sidecar. -/
def rowOf (cs : List Nat) : Row := ⟨BitVec.ofNat 2048 (packElems 32 cs), 0⟩

/-- The values of a row in a format. -/
def Row.vals (t : Fmt) (r : Row) : List Num := (t.values r.data r.side).map (·.1)

/-- A tile instruction's result in flight (R109, R173): it completes within `bound` cycles, or at exactly that cycle
where `exact` is set; `unit` is its unit with the length of its compute phase. -/
def State.launchTile (s : State) (bound : Nat) (exact : Bool) (unit : Option (Nat × Nat)) (rd wr : List Nat)
    (lands : List Landing) : State :=
  s.addFlight { s.launchFlight .matrix (some bound) lands with
    first := if exact then s.now + bound else s.now + 1, rd := rd, wr := wr, unit := unit.map (·.1),
    phaseEnd := s.now + ((unit.map (·.2)).getD 1) - 1 }

/-- R173: the unit of a tile is in no compute phase of either context. -/
def State.unitIdle (s : State) (u : Nat) : Bool :=
  let tile := tileOf s.cur.ctx
  [2 * tile, 2 * tile + 1].all fun c =>
    !((s.ctx c).flights.any fun f => f.unit == some u) && SMap.get 0 (s.ctx c).unitFree u ≤ s.now

/-! ### Multiply-accumulate (R173-R175) -/

/-- R174: the 8-bit formats. -/
def bytesTags : List Fmt := [.e4m3, .e5m2, .dx8]

/-- R174: the accepted tags of tiles A, B and C; `t`: the transposed form. -/
def mmaTags (z t : Bool) : Combos :=
  let c := if z then allTags else [.f32]
  let noDx (l : List Fmt) := if t then l.filter fun f => !f.isDx else l
  [[noDx bytesTags, bytesTags, c], [noDx [.dx4], [.dx4], c], [[.b16], [.b16], c], [[.h16], [.h16], c]]

/-- R173: the compute cycles of a group. -/
def mmaCycles (t : Fmt) : Nat := if t.width = 16 then 32 else if t = .dx4 then 8 else 16

/-- R175: the elements of tile A that meet row i, from group `gs` on; `t`: the transposed form. -/
def mmaA (t : Bool) (a : TReg) (gs g i : Nat) : List Num :=
  if t then
    (List.range (32 * g)).map fun k' =>
      let k := 32 * gs + k'
      ((a.row (k % 64)).vals a.tag).getD (64 * (k / 64) + i) (.fin false 0 0 false)
  else (((a.row i).vals a.tag).drop (32 * gs)).take (32 * g)

/-- R86, R88: the groups of one cell with their operations. -/
def cellGroups (pattern : W64) (as bs : List Num) : List (Nat × Num × Nat) :=
  ((groups32 64 as).zip (groups32 64 bs)).zipIdx.map fun ((x, y), n) =>
    let op := bitsOf pattern (2 * (n % 16)) 2
    (op, groupValue op x y)

/-- R175: the result tile and its flags. -/
def mmaResult (z t : Bool) (pattern : W64) (cop gs g : Nat) (c a b : TReg) : TReg × Nat :=
  let bs := (List.range 64).map fun j => (((b.row j).vals b.tag).drop (32 * gs)).take (32 * g)
  let cells := (List.range 64).map fun i =>
    let as := mmaA t a gs g i
    let old := (c.row i).vals .f32
    bs.zipIdx.map fun (bv, j) =>
      chain cop (cellGroups pattern as bv) (if z then none else some (opnd old j))
  (TReg.ofRows .f32 (cells.map fun r => rowOf (r.map fun x => f32Code x.1)),
    cells.foldl (fun f r => r.foldl (fun f x => f ||| x.2) f) 0)

/-- The word of `mma`, `mmaz` (`z`) and `mmat` (`t`). -/
def mmaSem (z t : Bool) (w d a b unit cpat cop gm1 gs : Nat) : WordSem where
  ready s := s.tilesFree [a, b] [d] && s.unitIdle unit
  chk s :=
    let x := s.me
    let ta := (x.tget a).tag
    let tags := [ta, (x.tget b).tag, (x.tget d).tag]
    match badOperand (mmaTags z t) tags with
    | some n => some (fmtTrap 1 n (tags.getD n .raw) w)
    | none => if countOf ta / 32 < gs + gm1 + 1 then some (fmtTrap 4 0 ta w) else none
  srcs := [.t a, .t b, .csr (csrCpat + cpat)] ++ if z then [] else [.t d]
  eff s :=
    let x := s.me
    let (v, fl) := mmaResult z t (x.cget (csrCpat + cpat)) cop gs (gm1 + 1) (x.tget d) (x.tget a) (x.tget b)
    let cyc := mmaCycles (x.tget a).tag * (gm1 + 1)
    s.launchTile (12 + cyc) true (some (unit, cyc)) (if z then [a, b] else [a, b, d]) [d]
      (.treg d v false :: flagLanding fl)

def semMma (w d a b unit cpat cop gm1 gs : Nat) : WordSem := mmaSem false false w d a b unit cpat cop gm1 gs
def semMmaz (w d a b unit cpat cop gm1 gs : Nat) : WordSem := mmaSem true false w d a b unit cpat cop gm1 gs
def semMmat (w d a b unit cpat cop gm1 gs : Nat) : WordSem := mmaSem false true w d a b unit cpat cop gm1 gs

/-! ### Writing, narrowing and retagging tiles (R176-R178) -/

/-- R176: FMT is F32 where the word has no extension. -/
def semMzero (d : Nat) (fmt : Option Nat) : WordSem where
  ready s := s.tilesFree [] [d]
  eff s := s.launchTile 4 false none [] [d] [.treg d ⟨[], Fmt.ofCode (fmt.getD 1)⟩ false]

/-- R177: the accepted sources of `mcvt` for a target. -/
def mcvtTags : Fmt → List Fmt
  | .b16 => [.f32]
  | .h16 => [.f32]
  | .e4m3 => [.f32, .b16, .h16]
  | .e5m2 => [.f32, .b16, .h16]
  | .dx8 => [.f32, .b16, .h16]
  | .dx4 => [.f32, .b16, .h16]
  | _ => []

/-- R177: the narrowed rows: their elements in order, with each row's exponents. -/
def mcvtElems (t : Fmt) (rm : Nat) (a : TReg) : List Elem × List (List Nat) :=
  let rows := a.all.map fun r => encodeAll t rm ((a.tag.values r.data r.side).map fun (v, u) => (v, some u))
  (rows.flatMap (·.1), rows.map (·.2))

def semMcvt (w d a fmt rm q : Nat) : WordSem :=
  let t := Fmt.ofCode fmt
  { ready := fun s => s.tilesFree [a] [d]
    chk := fun s =>
      let ta := (s.me.tget a).tag
      if !(mcvtTags t).contains ta then some (fmtTrap 1 0 ta w)
      else if ta.width / t.width ≤ q then some ⟨4, 3, w⟩
      else none
    srcs := .t a :: if rm = 7 then [.csr csrRnd] else []
    takes := fun s => if s.mode rm = rmSR then 16 * 64 * countOf (s.me.tget a).tag else 0
    eff := fun s =>
      let x := s.me
      let ta := x.tget a
      let old := x.tget d
      let se := countOf ta.tag
      let (es, exps) := mcvtElems t (s.mode rm) ta
      let (s, cs, fl) := s.roundAll es
      let rows := (List.range 64).map fun i =>
        let o := old.row i
        let v := packInto t q ⟨o.data, o.side, old.tag⟩ ((cs.drop (se * i)).take se) (exps.getD i [])
        (⟨v.data, v.side⟩ : Row)
      s.launchTile 16 false none [a] [d]
        (.treg d (TReg.ofRows t rows) true :: flagLanding (fl &&& (flInvalid ||| flOverflow ||| flRlog))) }

/-- R178: the group of a tag. -/
def mfmtGroup : Fmt → Nat
  | .b16 | .h16 => 1
  | .e4m3 | .e5m2 | .i8 => 2
  | .dx8 | .dx4 => 3
  | _ => 0

def semMfmt (w d a fmt : Nat) : WordSem where
  ready s := s.tilesFree [a] [d]
  chk s :=
    let ta := (s.me.tget a).tag
    if mfmtGroup ta = mfmtGroup (Fmt.ofCode fmt) then none else some (fmtTrap 1 0 ta w)
  srcs := [.t a]
  eff s :=
    let t := s.me.tget a
    s.launchTile 4 false none [a] [d]
      [.treg d (TReg.ofRows (Fmt.ofCode fmt) (t.all.map fun r => { r with side := 0 })) false]

/-! ### Rows (R179, R180) -/

def semMtv (d a k r : Nat) : WordSem where
  ready s := s.tilesFree [a] [] && !s.me.tagBusy s.now k
  srcs := [.t a]
  eff s :=
    let t := s.me.tget a
    let v : VReg := ⟨(t.row r).data, (t.row r).side, t.tag⟩
    s.addFlight { s.launchFlight .tagged (some 24) [.vreg d v false] with tag := some k, first := s.now + 8, rd := [a] }

def semMvt (w d a r : Nat) : WordSem where
  ready s := s.tilesFree [] [d] && s.me.popsReady [a]
  chk s := firstTrap [s.me.popsIllegal w [a], s.me.popsHandle [a]]
  srcs := vregSrcs 0 [a]
  popped s := s.me.popPoison [a]
  pops := [a]
  eff s :=
    let x := s.me
    let src := x.vsrc a 0 0
    let tag := src.tag.getD .raw
    let old := x.tget d
    let base : TReg := if old.tag = tag then old else ⟨[], tag⟩
    (s.modCtx s.cur.ctx fun x => x.popAll [a]).launchTile 4 false none [] [d]
      [.treg d (base.setRow r ⟨src.data, src.side⟩) true]

/-! ### Compare-select (R181) -/

/-- R181: `v` beats `bv`; +0 is greater than −0. -/
def beats (min : Bool) (v bv : Num) : Bool :=
  let le (a b : Num) : Bool :=
    match a, b with
    | .fin n 0 _ _, .fin n' 0 _ _ => n || !n'
    | _, _ => numLe a b
  if min then !le bv v else !le v bv

/-- R181: two values are identical, with the sign of zero. -/
def identical (v bv : Num) : Bool := !beats false v bv && !beats false bv v

/-- R181: the pass over one row: the best value and its index. -/
def mcselRow (min : Bool) (base : Nat) (vs : List Num) (best : Num × Nat) : Num × Nat :=
  vs.zipIdx.foldl (fun (bv, bx) (v, j) =>
    let x := (base + j) % 2 ^ 24
    if v.isNan then (bv, bx)
    else if bv.isNan || beats min v bv || (identical v bv && x < bx) then (v, x)
    else (bv, bx)) best

/-- R181: the number of indexes below a stored one: `x < bx` holds for the x below it, whatever F32 value is stored. -/
def indexOf : Num → Nat
  | .fin neg m e _ => if neg then 0 else if 0 ≤ e then m * pow2 e else (m + pow2 (-e) - 1) / pow2 (-e)
  | .inf neg => if neg then 0 else 2 ^ 32
  | .nan .. => 0

/-- R181: one row of the result. -/
def mcselOut (min init : Bool) (base : Nat) (old a : Row) : Row :=
  let ov := old.vals .f32
  let best := if init then (Num.inf (!min), 16777215) else (opnd ov 0, indexOf (opnd ov 1))
  let (v, x) := mcselRow min base (a.vals .f32) best
  let code0 := if init || decide ((v, x) ≠ best) then f32Code v else (elemsOf 32 64 old.data.toNat).getD 0 0
  let code1 := if init || decide ((v, x) ≠ best) then f32Code (.fin false x 0 false)
    else (elemsOf 32 64 old.data.toNat).getD 1 0
  rowOf (code0 :: code1 :: List.replicate 62 0)

def semMcsel (w d a b unit : Nat) (min init : Bool) : WordSem where
  ready s := s.tilesFree [a] [d] && s.unitIdle unit
  chk s :=
    let tags := [(s.me.tget a).tag, (s.me.tget d).tag]
    (badOperand [[[.f32], if init then allTags else [.f32]]] tags).map fun n =>
      fmtTrap 1 (if n = 0 then 0 else 4) (tags.getD n .raw) w
  srcs := [.t a, .s b] ++ if init then [] else [.t d]
  eff s :=
    let x := s.me
    let base := (x.sget b).toNat
    let rows := (List.range 64).map fun i => mcselOut min init base ((x.tget d).row i) ((x.tget a).row i)
    s.launchTile 20 true (some (unit, 8)) (if init then [a] else [a, d]) [d] [.treg d (TReg.ofRows .f32 rows) false]

/-! ### The instructions -/

/-- R175. Accumulating tile matrix product on a matrix unit under the group and chain rules. -/
def execMma (h : Hdr) (d a b unit cpat cop gm1 gs : Nat) (s : State) :
    Host.Outcome State Fault Refusal :=
  runWord h (semMma (wordNat (.mma h d a b unit cpat cop gm1 gs)) d a b unit cpat cop gm1 gs) s

/-- R175. Tile matrix product starting from the identity. -/
def execMmaz (h : Hdr) (d a b unit cpat cop gm1 gs : Nat) (s : State) :
    Host.Outcome State Fault Refusal :=
  runWord h (semMmaz (wordNat (.mmaz h d a b unit cpat cop gm1 gs)) d a b unit cpat cop gm1 gs) s

/-- R175. Accumulating tile matrix product with tile A read transposed. -/
def execMmat (h : Hdr) (d a b unit cpat cop gm1 gs : Nat) (s : State) :
    Host.Outcome State Fault Refusal :=
  runWord h (semMmat (wordNat (.mmat h d a b unit cpat cop gm1 gs)) d a b unit cpat cop gm1 gs) s

/-- R176. Zeroes a tile and sets its tag. -/
def execMzero (h : Hdr) (d : Nat) (fmt : Option Nat) (s : State) :
    Host.Outcome State Fault Refusal :=
  runWord h (semMzero d fmt) s

/-- R177. Narrows each tile row into part q of the destination. -/
def execMcvt (h : Hdr) (d a fmt rm q : Nat) (s : State) :
    Host.Outcome State Fault Refusal :=
  runWord h (semMcvt (wordNat (.mcvt h d a fmt rm q)) d a fmt rm q) s

/-- R178. Copies a tile and re-tags it within a format group. -/
def execMfmt (h : Hdr) (d a fmt : Nat) (s : State) :
    Host.Outcome State Fault Refusal :=
  runWord h (semMfmt (wordNat (.mfmt h d a fmt)) d a fmt) s

/-- R179. Copies one tile row to a vector register, tagged. -/
def execMtv (h : Hdr) (d a k r : Nat) (s : State) : Host.Outcome State Fault Refusal := runWord h (semMtv d a k r) s

/-- R180. Writes a vector to one tile row. -/
def execMvt (h : Hdr) (d a r : Nat) (s : State) :
    Host.Outcome State Fault Refusal :=
  runWord h (semMvt (wordNat (.mvt h d a r)) d a r) s

/-- R181. One compare-select pass keeping the best score and index per row. -/
def execMcsel (h : Hdr) (d a b unit : Nat) (min init : Bool) (s : State) :
    Host.Outcome State Fault Refusal :=
  runWord h (semMcsel (wordNat (.mcsel h d a b unit min init)) d a b unit min init) s

end Sys2Proof.Machine
end

