-- ==== Sys2Proof/Machine/Fabric.lean ====
section
/-!
DEFINITION. The fabric's tables (R391-R393), Bamug packets as bytes (R396, R397), and sending a request (R390, R398, R401).
-/

namespace Sys2Proof.Machine

/-! ### Tables -/

/-- An entry of the connection table that is in service (R393). -/
def State.connEntry (s : State) (n : Nat) : Option (List Byte) :=
  if s.dfld Dev.fxConn 0 63 1 = 1 ∧ n ≤ s.dfld Dev.fxConn 0 0 12 then
    let e := s.phys (s.dfld Dev.fxConn 0 12 40 * 4096 + 64 * n) 64
    if fldB (natAt e 0 1) 0 then some e else none
  else none

/-- The connection speaks RoCE v2. -/
def connRoce (e : List Byte) : Bool := fldB (natAt e 0 1) 1

/-- R391: an entry of the egress window table; whether it is in service was found when its page was translated. -/
structure Ewin where
  roce : Bool
  conn : Nat
  key : Nat
  rbase : Nat

/-- The egress window of a number. -/
def State.ewin (s : State) (n : Nat) : Ewin :=
  let a := s.dfld Dev.fxEwin 0 12 40 * 4096 + 32 * n
  ⟨fldB (s.physNat a 1) 1, s.physNat (a + 2) 2, s.physNat (a + 4) 4, s.physNat (a + 8) 8⟩

/-! ### Bamug packets (R396, R397) -/

/-- The fields of a Bamug packet; `addr` is the address block: key, domain, window offset. -/
structure Pkt where
  opc : Nat
  flags : Nat := 0
  vc : Nat
  src : Nat
  dst : Nat
  conn : Nat
  psn : Nat
  apsn : Nat := 0
  nak : Nat := 0
  addr : Option (Nat × Nat × Nat) := none
  payload : List Byte := []

/-- R396: the bytes of a packet from its header to its CRC. -/
def Pkt.bytes (p : Pkt) : List Byte :=
  let head := [1] ++ toLE 1 p.opc ++ toLE 2 p.flags ++ toLE 1 p.vc ++ zeros 1 ++ toLE 2 p.src ++ toLE 2 p.dst ++ zeros 2 ++
    toLE 4 p.conn ++ toLE 4 p.psn ++ toLE 4 p.payload.length ++ toLE 4 p.apsn ++ toLE 1 p.nak ++ zeros 3
  let block := match p.addr with
    | none => []
    | some (key, dom, off) => toLE 4 key ++ toLE 1 dom ++ zeros 3 ++ toLE 8 off
  let body := head ++ block ++ p.payload
  body ++ toLE 4 (crc32c body).toNat

/-- A flag of R396: ACKREQ 0, LAST 1, ACKV 2, ECE 3. -/
abbrev fAckReq : Nat := 1
abbrev fLast : Nat := 2
abbrev fAckV : Nat := 4

/-- A packet goes into the egress queue of its port and channel. -/
def State.enqueue (s : State) (port vc conn : Nat) (bs : List Byte) : State :=
  { s with serial := s.serial + 1, egress := s.egress ++ [⟨s.serial, port, vc, conn, bs⟩] }

/-- R354: the Bamug transport is there; where it is not, its packets are neither sent nor taken (log entry 28). -/
def State.bamugOn (s : State) : Bool := s.dfld Dev.feFeatEn0 0 5 1 == 1

/-- R396, R398: a packet that takes the next PSN and is kept until it is acknowledged. -/
def State.sendSeq (s : State) (conn vc : Nat) (e : List Byte) (opc flags apsn : Nat) (addr : Option (Nat × Nat × Nat))
    (payload : List Byte) : State :=
  let k := connKey conn vc
  let c := s.conn k
  let p : Pkt := { opc := opc, flags := flags, vc := vc, src := s.dfld Dev.fxChipid 0 0 16, dst := natAt e 2 2, conn := conn,
                   psn := c.sendPsn, apsn := apsn, addr := addr, payload := payload }
  let c := { c with
    sendPsn := (c.sendPsn + 1) % 2 ^ 24, unacked := c.unacked ++ [⟨c.sendPsn, p.bytes, 1⟩],
    progressAt := if c.unacked.isEmpty then s.now else c.progressAt }
  if s.bamugOn then (s.setConn k c).enqueue (natAt e 1 1) vc conn p.bytes else s

/-- An ACK or NAK (R398, R462): it takes no PSN; `psn` is that of the packet it refuses, `apsn` the last one applied. -/
def State.sendCtl (s : State) (conn vc : Nat) (e : List Byte) (opc psn apsn nak : Nat) : State :=
  let p : Pkt := { opc := opc, flags := fAckV, vc := vc, src := s.dfld Dev.fxChipid 0 0 16, dst := natAt e 2 2, conn := conn,
                   psn := psn, apsn := apsn, nak := nak }
  s.enqueue (natAt e 1 1) vc conn p.bytes

/-! ### RoCE v2 packets (R394): the fields of an IBTA packet in the model's own order (log entry 20) -/

/-- The codes of the model's RoCE v2 packets. -/
abbrev roWrite : Nat := 1
abbrev roRead : Nat := 2
abbrev roResp : Nat := 3
abbrev roCas : Nat := 4
abbrev roAdd : Nat := 5
abbrev roAck : Nat := 6
abbrev roNak : Nat := 7
abbrev roCnp : Nat := 8

/-- The bytes of a RoCE v2 packet. -/
def roceBytes (code qpn psn va key len : Nat) (operand compare : W64) (payload : List Byte) : List Byte :=
  [0x52] ++ toLE 1 code ++ toLE 3 qpn ++ toLE 3 psn ++ toLE 8 va ++ toLE 4 key ++ toLE 4 len ++ toLE 8 operand.toNat ++
    toLE 8 compare.toNat ++ payload

/-- A RoCE v2 request takes the next PSN of its QP, a read one for each packet of its answer, and is kept until it is acknowledged. -/
def State.sendRoce (s : State) (conn : Nat) (e : List Byte) (vc code va key len : Nat) (operand compare : W64)
    (payload : List Byte) : State :=
  let k := connKey conn 0
  let c := s.conn k
  let bs := roceBytes code (natAt e 8 3) c.sendPsn va key len operand compare payload
  let c := { c with
    sendPsn := (c.sendPsn + (if code = roRead then Nat.max 1 ((len + 4095) / 4096) else 1)) % 2 ^ 24,
    unacked := c.unacked ++ [⟨c.sendPsn, bs, 1⟩],
    progressAt := if c.unacked.isEmpty then s.now else c.progressAt }
  (s.setConn k c).enqueue (natAt e 1 1) vc conn bs

/-! ### Requests of this chip (R401) -/

/-- What a request asks of the peer. -/
inductive FabOp where
  | read (n : Nat)
  | write (bs : List Byte)
  | atomic (a : AmoOp)
  | flagAdd (v : W64)
  | names (dom : Nat) (ns : List Byte)

/-- R401: RoCE v2 carries the request. -/
def FabOp.onRoce : FabOp → Bool
  | .atomic a => a.dbl && (a.op == 0 || a.op == 7)
  | .names .. => false
  | _ => true

/-- The request is answered with data. -/
def FabOp.wantsData : FabOp → Bool
  | .read _ | .atomic _ | .names .. => true
  | _ => false

/-- R397: the operand block of an ATOMIC_REQ. -/
def atomicPayload (a : AmoOp) : List Byte :=
  let n := if a.dbl then 8 else 4
  toLE 1 a.op ++ toLE 1 (a.dbl.toNat + 2 * a.unsigned.toNat) ++ zeros 6 ++ slice (toLE n a.operand.toNat) 0 8 ++
    (if a.op = 7 then slice (toLE n a.compare.toNat) 0 8 else zeros 8)

/-- R398, R401, R463: a request is sent over the connection of a window, or refused at issue because its connection is out
of service or Failed. Bamug keeps one connection state per channel; RoCE v2 one per QP. The answer is the number of the
request. -/
def State.fabSend (s : State) (user : FabUser) (vc ewin off : Nat) (op : FabOp) : State × Option Nat :=
  let w := s.ewin ewin
  match s.connEntry w.conn with
  | none => (s, none)
  | some e =>
    let k := connKey w.conn (if w.roce then 0 else vc)
    let c := s.conn k
    if c.failed || !(w.roce || s.bamugOn) then (s, none)
    else
      let req : FabReq := ⟨s.serial, user, k, c.sendPsn, op.wantsData, none, 0⟩
      let s := { s with serial := s.serial + 1, fabReqs := s.fabReqs ++ [req] }
      let s :=
        if w.roce then
          let va := (w.rbase + off) % 2 ^ 64
          match op with
          | .read n => s.sendRoce w.conn e vc roRead va w.key n 0 0 []
          | .write bs => s.sendRoce w.conn e vc roWrite va w.key bs.length 0 0 bs
          | .atomic a => s.sendRoce w.conn e vc (if a.op = 7 then roCas else roAdd) va w.key 8 a.operand a.compare []
          | .flagAdd v => s.sendRoce w.conn e vc roAdd va w.key 8 v 0 []
          | .names .. => s
        else
          match op with
          | .read n => s.sendSeq w.conn vc e 0x02 fAckReq 0 (some (w.key, 0, off)) (toLE 4 n)
          | .write bs => s.sendSeq w.conn vc e 0x01 fAckReq 0 (some (w.key, 0, off)) bs
          | .atomic a => s.sendSeq w.conn vc e 0x04 fAckReq 0 (some (w.key, 0, off)) (atomicPayload a)
          | .flagAdd v => s.sendSeq w.conn vc e 0x08 fAckReq 0 (some (w.key, 0, off)) (toLE 8 v.toNat)
          | .names dom ns => s.sendSeq w.conn vc e 0x09 fAckReq 0 (some (w.key, dom, off)) ns
      (s, some req.id)

/-- R399: a sender holds at most 256 atomics that are not acknowledged. -/
def State.atomicRoom (s : State) (vc ewin : Nat) : Bool :=
  let w := s.ewin ewin
  w.roce || decide (((s.conn (connKey w.conn vc)).unacked.filter fun p => natAt p.bytes 1 1 == 4).length < 256)

/-- A request with its number. -/
def State.fabReq (s : State) (id : Nat) : Option FabReq := s.fabReqs.find? (·.id == id)

/-- A request is forgotten. -/
def State.dropReq (s : State) (id : Nat) : State := { s with fabReqs := s.fabReqs.filter (·.id != id) }

end Sys2Proof.Machine
end

