-- ==== Sys2Proof/Machine/Pools.lean ====
section
/-!
DEFINITION. Pools of pages: descriptors, count words (R288-R292), and the pins of streams and copy commands (R302).
-/

namespace Sys2Proof.Machine

/-- R289: a pool descriptor. -/
structure Pool where
  va : Nat
  npages : Nat
  pbase : Nat
  cbase : Nat
  freehd : Nat
  freecnt : Nat

/-- R289: a descriptor from its bytes, or `none` where it breaks a limit. -/
def Pool.ofBytes (va : Nat) (bs : List Byte) : Option Pool :=
  let p : Pool := ⟨va, natAt bs 4 4, natAt bs 8 8, natAt bs 0x10 8, natAt bs 0x18 8, natAt bs 0x20 4⟩
  if natAt bs 0 4 ≠ 0x4B56504C ∨ p.npages = 0 ∨ 2 ^ 24 < p.npages ∨ p.pbase = 0 ∨ p.pbase % 2 ^ 16 ≠ 0 ∨
      p.cbase % 128 ≠ 0 ∨ natAt bs 0x24 92 ≠ 0 ∨ va % 128 ≠ 0 then none
  else some p

/-- R289: the index of a page number. -/
def Pool.index (p : Pool) (pn : Nat) : Option Nat :=
  if p.pbase / 2 ^ 16 ≤ pn ∧ pn < p.pbase / 2 ^ 16 + p.npages then some (pn - p.pbase / 2 ^ 16) else none

/-- A count word (R290). -/
structure Count where
  ref : Nat
  pin : Nat
  free : Bool
  migrating : Bool
  link : Nat
  /-- the reserved bits 61:39 -/
  rsv : Nat

/-- R290: a count word from its bytes. -/
def Count.ofBytes (bs : List Byte) : Count :=
  let l := natAt bs 8 8
  ⟨natAt bs 0 4, natAt bs 4 4, fldB l 63, fldB l 62, l % 2 ^ 39, fld l 39 23⟩

/-- R290: the bytes of a count word. -/
def Count.bytes (c : Count) : List Byte :=
  toLE 4 c.ref ++ toLE 4 c.pin ++
    toLE 8 (c.free.toNat * 2 ^ 63 + c.migrating.toNat * 2 ^ 62 + c.rsv % 2 ^ 23 * 2 ^ 39 + c.link % 2 ^ 39)

/-- A guest range of a VD as it stands at its home slices, where every page of it translates. -/
def State.peek (s : State) (vd : Nat) : Nat → Nat → Nat → Option (List Byte)
  | 0, _, _ => some []
  | fuel + 1, va, n =>
    if n = 0 then some []
    else
      let k := Nat.min n (2 ^ 16 - va % 2 ^ 16)
      match (s.throughMigration.translate none vd va true false).2 with
      | .ok x =>
        if x.fab.isSome || decide (hbmSize < x.pa + k) then none
        else (s.peek vd fuel (va + k) (n - k)).map fun rest => s.phys x.pa k ++ rest
      | .error _ => none

/-- A write of the device to guest memory, where the page translates. -/
def State.poke (s : State) (vd va : Nat) (bs : List Byte) : State :=
  match s.throughMigration.translate none vd va false true with
  | (t, .ok x) =>
    let t : State := { t with migr := s.migr }
    if x.fab.isSome || decide (hbmSize < x.pa + bs.length) then t else t.perform x.pa bs
  | (_, .error _) => s

/-- R291: the pool of a slot of a VD. -/
def State.poolSlot (s : State) (vd slot : Nat) : Option Pool :=
  let v := s.dget Dev.gvPdesc (vd * 8 + slot)
  if bitsOf v 63 1 = 0 then none
  else
    let va := bitsOf v 7 48 * 128
    (s.peek vd 2 va 128).bind (Pool.ofBytes va)

/-- R290, R292: a page with REF and PIN zero goes back to its pool. -/
def State.poolReturn (s : State) (vd : Nat) (p : Pool) (n : Nat) (c : Count) : State :=
  let s := s.poke vd (p.cbase + 16 * n) ({ c with free := true, link := p.freehd }).bytes
  let s := s.poke vd (p.va + 0x18) (toLE 8 (p.pbase / 2 ^ 16 + n))
  s.poke vd (p.va + 0x20) (toLE 4 (p.freecnt + 1))

/-- R290, R302: a pin of a page is released. Where the page's count word cannot be reached, the release stays (source 256) until it can
(log entry 26). -/
def State.dropPin (s : State) (p : Pin) : State :=
  let later : State := { s with pins := s.pins.map fun q => if q = p then { p with src := 256 } else q }
  match s.poolSlot p.vd p.slot with
  | none => { s with pins := s.pins.erase p }
  | some q =>
    match s.peek p.vd 2 (q.cbase + 16 * p.page) 16 with
    | none => later
    | some bs =>
      let s := { s with pins := s.pins.erase p }
      let c := Count.ofBytes bs
      let c := { c with pin := c.pin - 1 }
      if c.free then s
      else if c.ref = 0 ∧ c.pin = 0 ∧ !c.migrating then s.poolReturn p.vd q p.page c
      else s.poke p.vd (q.cbase + 16 * p.page) c.bytes

/-- R302: every pin of a stream or of the copy engine of a task is released. -/
def State.dropPins (s : State) (group lx ly src : Nat) : State :=
  (s.pins.filter fun p => p.group == group && p.lx == lx && p.ly == ly && p.src == src).foldl State.dropPin s

/-- R302: releases of pins that waited are tried again. -/
def State.retryPins (s : State) : State := (s.pins.filter (·.src == 256)).foldl State.dropPin s

/-- R302: every access to the page of a pin has been performed: those of a stream; a copy command performs the accesses of its step at
once. -/
def State.pinIdle (s : State) (p : Pin) : Bool :=
  let inPage (va n : Nat) : Bool :=
    match s.poolSlot p.vd p.slot with
    | some q => (q.index (va / 2 ^ 16) == some p.page) || (q.index ((va + n - 1) / 2 ^ 16) == some p.page)
    | none => false
  let mine (c : Nat) : Bool := let x := s.ctx c; x.group == some p.group && x.lx == p.lx && x.ly == p.ly
  !(s.posted.any fun w => (w.stream.map (·.1)) == some p.src && mine w.ctx && w.vd == p.vd && inPage w.va w.bytes.length) &&
    !s.ctxs.any fun (c, x) => mine c && x.flights.any fun f => match f.load with
      | some l => (match l.dst with | .stream q _ _ => q == p.src | _ => false) && l.vd == p.vd && l.pieces.any fun y => y.val.isNone && inPage y.va y.len
      | none => false

/-- R290, R302: the page of an address is pinned by a stream or the copy engine, if it belongs to a registered pool and is not
pinned by it already; beyond 64 pins the earliest of a page whose accesses have all been performed goes first. -/
def State.pinPage (s : State) (group lx ly src vd va : Nat) : State :=
  let hit := (List.range 8).findSome? fun slot =>
    (s.poolSlot vd slot).bind fun p => (p.index (va / 2 ^ 16)).map fun n => (slot, p, n)
  match hit with
  | none => s
  | some (slot, p, n) =>
    let pin : Pin := ⟨group, lx, ly, src, vd, slot, n⟩
    if s.pins.contains pin then s
    else
      let mine := s.pins.filter fun q => q.group == group && q.lx == lx && q.ly == ly && q.src == src
      match s.peek vd 2 (p.cbase + 16 * n) 16 with
      | none => s
      | some bs =>
        let c := Count.ofBytes bs
        let out := if mine.length < 64 then none else mine.find? s.pinIdle
        if c.free || c.migrating || c.pin + 1 == 2 ^ 32 || (decide (64 ≤ mine.length) && out.isNone) then s
        else
          let s := (out.map s.dropPin).getD s
          { s.poke vd (p.cbase + 16 * n) ({ c with pin := c.pin + 1 }).bytes with pins := s.pins ++ [pin] }

end Sys2Proof.Machine
end

