-- ==== Sys2Proof/Machine/Posting.lean ====
section
/-!
DEFINITION. Accesses on their way: the faults of core accesses (R424-R431), posted writes and the orders that hold them
back (R269-R279, R283), and the reads of loads.
-/

namespace Sys2Proof.Machine

/-! ### Translation of core accesses and their faults (R424, R425, R431) -/

/-- R431: the DETAIL of a failed access. -/
def failDetail (va stage : Nat) (w : Bool) : Nat := fld va 16 39 + stage * 2 ^ 40 + w.toNat * 2 ^ 42

/-- R431: an access of a context fails. -/
def State.accessDead (s : State) (c reason va stage : Nat) (w : Bool) : State :=
  s.markDead c reason (failDetail va stage w)

/-- R425: a context whose access faults stops issue, and is to sleep. -/
def Ctx.faultStop (x : Ctx) : Ctx :=
  match x.st with
  | .running => { x with st := .draining, drainTo := .sleep, faulted := true }
  | _ => { x with faulted := true }

/-- R425, R426: an access of a context asks for a page. -/
def State.accessWaits (s : State) (c : Nat) (k : FKey) (w : Bool) : State :=
  (s.request k w false c).modCtx c Ctx.faultStop

/-- A translation of a core access: its result, the request it waits on, the context's death, or that it is to be tried again (R304). -/
inductive CoreXl where
  | ok (x : Xlat)
  | waits (k : FKey)
  | dead
  | later

/-- R378, R379, R424: a core access of a context is translated. `late`: the request is not made here. -/
def State.coreXl (s : State) (c vd va : Nat) (r w : Bool) : State × CoreXl :=
  match s.translate (some (tileOf c)) vd (va % 2 ^ 55) r w with
  | (s, .ok x) => (s, .ok x)
  | (s, .error (.request k)) => (s.accessWaits c k w, .waits k)
  | (s, .error (.fail reason stage)) => (s.accessDead c reason va stage w, .dead)
  | (s, .error .later) => (s, .later)

/-- A context still runs its group's task: it is not marked dead. -/
def State.alive (s : State) (c : Nat) : Bool := (s.ctx c).st != .dead

/-- R276: no acquire of the context holds later global words back. -/
def Ctx.noAcquire (x : Ctx) : Bool := x.flights.all fun f => (f.load.map fun l => l.acq.isNone).getD true

/-! ### Requests and the queues that they go to (R283) -/

/-- A posted request writes memory. -/
def PostOp.isWrite : PostOp → Bool
  | .sig _ => false
  | _ => true

/-- R140: the translation of a posted write needs the right to read: that of a flag-add. -/
def PostOp.reads : PostOp → Bool
  | .flagAdd _ => true
  | _ => false

/-- A posted write goes to a page with an attribute. -/
def Posted.attr (p : Posted) (t : Attr) : Bool := (p.xl.map fun x => x.attr == t).getD false

/-- A piece reads an SO page. -/
def Piece.isSo (p : Piece) : Bool := (p.xl.map fun x => x.attr == .so).getD false

/-- R283: the request queue that an access of a tile goes to: that of an LLC slice, or that of a fabric port. -/
def State.queueOf (s : State) (x : Xlat) : Nat :=
  match x.fab with
  | none => homeSlice x.pa
  | some (w, _) => 128 + ((s.connEntry (s.ewin w).conn).map fun e => natAt e 1 1).getD 0

/-- How the requests of a tile to a queue stand. -/
def State.triesAt (s : State) (tile queue : Nat) : List Refusal283 :=
  let there (x : Option Xlat) : Bool := (x.map fun y => s.queueOf y == queue).getD false
  ((s.posted.filter fun p => tileOf p.ctx == tile && p.tries != .none && there p.xl).map (·.tries)) ++
    [2 * tile, 2 * tile + 1].flatMap fun c => (s.ctx c).flights.flatMap fun f =>
      match f.load with
      | some l => (l.pieces.filter fun p => p.tries != .none && p.val.isNone && p.freq.isNone && there p.xl).map (·.tries)
      | none => []

/-- A request is refused, and is to be tried again. -/
def Refusal283.isRefused : Refusal283 → Bool
  | .refused .. => true
  | _ => false

/-- A request stands in a reserved entry. -/
def Refusal283.isReserved : Refusal283 → Bool
  | .reserved _ => true
  | _ => false

/-- R283: what comes of a request that comes to its queue, or is tried again: it is serviced; or it is refused, and tried again 64 LLC
cycles later; or a retry finds its tile's reserved entry free, and is serviced from there within 448 LLC cycles. Whether a queue refuses
a first try is open (log entry 2). `none`: it is not its turn. -/
def State.comesTo (s : State) (tile queue id : Nat) (t : Refusal283) : Option Refusal283 :=
  match t with
  | .none =>
    if (s.triesAt tile queue).any Refusal283.isRefused then none
    else if Config.happens 40 id s.now then some (.refused 1 (s.now + 64 * cyclesPerLlc))
    else some .none
  | .refused n again =>
    if s.now < again then none
    else if (s.triesAt tile queue).any Refusal283.isReserved then some (.refused (n + 1) (s.now + 64 * cyclesPerLlc))
    else some (.reserved (s.now + 448 * cyclesPerLlc))
  | .reserved _ => some .none

/-! ### When a posted write may be performed (R272, R276-R283) -/

/-- Two writes of one `fset`, which are not ordered (R220). -/
def PostOp.sameGroup : PostOp → PostOp → Bool
  | .flagSet a, .flagSet b => a == b
  | _, _ => false

/-- The orders that hold a posted write back: its translation and its release (R276), the SO order of its context (R278),
the coherence order of its chunks within its cluster (R275); a write to an RC page has entered the write buffer (R272). -/
def State.mayPerform (s : State) (p : Posted) : Bool :=
  let x := s.ctx p.ctx
  let before := s.before p
  match p.op with
  | .sig _ => s.releaseReady p
  | _ =>
    match p.xl with
    | none => false
    | some xl =>
      p.freq.isNone && (if p.isRcWrite then s.entered p else s.unheld p) &&
        (xl.attr != .so ||
          (!(before.any fun q => q.ctx == p.ctx && q.attr .so && q.freq.isNone && xl.fab.isSome) &&
            !(before.any fun q => q.ctx == p.ctx && q.attr .so && xl.fab.isNone) &&
            !((x.openPieces p.bundle p.id).any Piece.isSo))) &&
        !(before.any fun q => clusterOf (tileOf q.ctx) == clusterOf (tileOf p.ctx) && q.touches xl.place p.len && !q.op.sameGroup p.op)

/-- A posted write is taken off the list. -/
def State.unpost (s : State) (id : Nat) : State := { s with posted := s.posted.filter (·.id != id) }

/-- A posted write changed. -/
def State.modPosted (s : State) (id : Nat) (f : Posted → Posted) : State :=
  { s with posted := s.posted.map fun p => if p.id = id then f p else p }

/-- R84: the bytes of a log write, whose first keeps the low bits that memory holds there. -/
def logBytes (pad : Nat) (old : Byte) (bs : List Byte) : List Byte :=
  match bs with
  | [] => []
  | b :: rest => (b ||| (old &&& BitVec.ofNat 8 (2 ^ pad - 1))) :: rest

/-- R56: the values that an `fset` pushes come to the flag registers of one die within 64 cycles of one another, and of both within 256:
the cycles in which those of a tile come. How much later those of the other die come is open (log entry 26). -/
def pushWindow (now writer ctx : Nat) : Nat × Nat :=
  let far : Bool := tileOf ctx / 48 != tileOf writer / 48
  let start := now + 1 + (if far && Config.happens 43 writer now then 192 else 0)
  (start, start + 63)

/-- R56: the flag registers to which one write of an `fset` has pushed are given the cycles in which it comes. -/
def State.openWindows (s : State) (writer pa : Nat) : State :=
  { s with flags := s.flags.map fun f => if f.pa = some pa ∧ f.window = none then { f with window := some (pushWindow s.now writer f.ctx) } else f }

/-- R143, R219, R220, R272: a posted write is performed at its home slice, or sent to the peer (R401). -/
def State.performPosted (s : State) (p : Posted) : State :=
  match p.op with
  | .sig v =>
    let x := s.ctx p.ctx
    (s.unpost p.id).notify p.vd 1 p.ctx (((s.groupOf p.ctx).map (·.gid)).getD 0) v x.lx x.ly
  | op =>
    match p.xl with
    | none => s
    | some xl =>
      match xl.fab with
      | some (w, o) =>
        let fop : FabOp := match op with | .flagAdd v => .flagAdd v | _ => .write p.bytes
        match s.fabSend (.posted p.id) 0 w o fop with
        | (s, some n) => s.modPosted p.id fun p => { p with freq := some n }
        | (s, none) => s.accessDead p.ctx 3 p.va 2 true
      | none =>
        match op with
        | .flagAdd v =>
          let s := (s.unpost p.id).dropCopies (tileOf p.ctx) xl.pa 8
          s.perform xl.pa (toLE 8 (s.physNat xl.pa 8 + v.toNat))
        | .flagSet _ => ((s.unpost p.id).performFor (tileOf p.ctx) xl.pa p.bytes).openWindows p.ctx xl.pa
        | _ =>
          match p.log with
          | some pad =>
            let s := (s.unpost p.id).dropCopies (tileOf p.ctx) xl.pa p.bytes.length
            s.perform xl.pa (logBytes pad (memByte s.mem xl.pa) p.bytes)
          | none => (s.unpost p.id).perform xl.pa p.bytes

/-- R220: the writes of one `fset` on the chip are performed together, once each may be (log entry 26). -/
def State.performGroup (s : State) (p : Posted) : State :=
  let mine := s.posted.filter fun q => q.op.sameGroup p.op && (match q.xl with | some x => x.fab.isNone | none => true)
  if mine.all s.mayPerform then mine.foldl State.performPosted s else s

/-- R283: a posted write that may be performed comes to its queue, which takes it or refuses it. -/
def State.tryPosted (s : State) (p : Posted) : State :=
  match p.op, p.xl with
  | .flagSet _, some xl => if xl.fab.isSome then s.performPosted p else s.performGroup p
  | _, some xl =>
    match s.comesTo (tileOf p.ctx) (s.queueOf xl) p.id p.tries with
    | none => s
    | some .none => s.performPosted p
    | some t => s.modPosted p.id fun p => { p with tries := t }
  | _, none => s.performPosted p

/-! ### Reads of loads (R194-R197) -/

/-- The orders that hold the read of a piece back: earlier reads and atomics of its context to its chunks (R275), the SO
order (R278), earlier writes to the same chunks that are not translated, that no copy holds, or to the peer that are not sent; earlier
pushes to them; for an atomic, the writes to its chunk that its cluster's write buffer holds (R275). -/
def State.mayRead (s : State) (c bundle id : Nat) (amo : Bool) (vd : Nat) (p : Piece) : Bool :=
  let x := s.ctx c
  match p.xl with
  | none => false
  | some xl =>
    let earlier (q : Posted) : Bool := q.ctx == c && programBefore q.bundle q.id bundle id
    let before := s.posted.filter earlier
    p.val.isNone && p.freq.isNone && p.wait.isNone && s.lineRoom (tileOf c) id &&
      (!amo || (match xl.fab with | some (w, _) => s.atomicRoom 0 w | none => true)) &&
      !((x.openPieces bundle id).any fun q => q.touches p.va xl.place p.len) &&
      !x.pushing bundle id vd p.va p.len &&
      !(before.any fun q => !q.isRcWrite && q.freq.isNone && q.touches xl.place p.len) &&
      !(before.any fun q => q.xl.isNone && q.op.isWrite && sameChunk q.va q.len p.va p.len) &&
      (!amo || !(s.posted.any fun q => clusterOf (tileOf q.ctx) == clusterOf (tileOf c) && q.touches xl.place p.len && (earlier q || q.buf))) &&
      (xl.attr != .so || (!(before.any fun q => q.attr .so && (xl.fab.isNone || q.freq.isNone)) &&
        !((x.openPieces bundle id).any Piece.isSo))) &&
      (xl.fab.isNone || !(before.any fun q => (q.xl.map fun y => y.fab.isSome).getD false && q.freq.isNone))

/-- R442: poison that memory, a mate or the fabric brings is of outside origin. -/
def Origin.away : Origin → Origin
  | .tile u _ _ => .outside u
  | o => o

/-- A piece of a flight of a context changed. -/
def Ctx.modPiece (x : Ctx) (id i : Nat) (f : Piece → Piece) : Ctx :=
  { x with flights := x.flights.map fun fl =>
      if fl.id = id then
        { fl with load := fl.load.map fun l => { l with pieces := l.pieces.zipIdx.map fun (p, j) => if j = i then f p else p } }
      else fl }

/-- R197: the value that an atomic leaves. -/
def amoNew (a : AmoOp) (old : Nat) : Nat :=
  let w := if a.dbl then 64 else 32
  let m := 2 ^ w
  let x := a.operand.toNat % m
  match a.op with
  | 0 => (old + x) % m
  | 1 => if a.unsigned then Nat.min old x else if sext w old ≤ sext w x then old else x
  | 2 => if a.unsigned then Nat.max old x else if sext w old ≤ sext w x then x else old
  | 3 => old &&& x
  | 4 => old ||| x
  | 5 => old ^^^ x
  | 6 => x
  | _ => if old = a.compare.toNat % m then x else old

/-- R197, R270, R275: an atomic is performed at its home slice; the tile's copies of its line go first. -/
def State.amoAt (s : State) (tile pa : Nat) (a : AmoOp) : State × Nat :=
  let n := if a.dbl then 8 else 4
  let s := s.dropCopies tile pa n
  let old := s.physNat pa n
  (s.perform pa (toLE n (amoNew a old)), old)

/-- R269, R397: the read of a piece is performed, or its request is sent to the peer. -/
def State.readPiece (s : State) (c : Nat) (f : Flight) (l : Load) (i : Nat) (p : Piece) : State :=
  match p.xl with
  | none => s
  | some xl =>
    match xl.fab with
    | some (w, o) =>
      let op : FabOp := match l.amo with | some a => .atomic a | none => .read p.len
      match s.fabSend (.load c f.id i) 0 w o op with
      | (s, some n) => s.modCtx c fun x => x.modPiece f.id i fun p => { p with freq := some n }
      | (s, none) => s.accessDead c 3 p.va 2 l.amo.isSome
    | none =>
      match l.amo with
      | some a =>
        let (s, old) := s.amoAt (tileOf c) xl.pa a
        s.modCtx c fun x => x.modPiece f.id i fun p => { p with val := some (toLE p.len old) }
      | none =>
        let (s, bs, po) := s.readFor c f.bundle f.id l.vd xl p.len
        s.modCtx c fun x => x.modPiece f.id i fun p => { p with val := some bs, poison := po.map Origin.away }

/-- A read is answered in the tile's local memory, and goes to no queue. -/
def State.hitsLocal (s : State) (c : Nat) (l : Load) (x : Xlat) (n : Nat) : Bool :=
  l.amo.isNone && x.fab.isNone && x.attr != .so &&
    (List.range ((x.pa % 128 + n + 127) / 128)).all fun i => (s.cached (tileOf c) (x.pa / 128 + i)).isSome

/-- R283: a piece that may be read is read in local memory, or comes to its queue. -/
def State.tryPiece (s : State) (c : Nat) (f : Flight) (l : Load) (i : Nat) (p : Piece) : State :=
  match p.xl with
  | none => s
  | some xl =>
    if s.hitsLocal c l xl p.len && p.tries == .none then s.readPiece c f l i p
    else
      match s.comesTo (tileOf c) (s.queueOf xl) (64 * f.id + i) p.tries with
      | none => s
      | some .none => s.readPiece c f l i p
      | some t => s.modCtx c fun x => x.modPiece f.id i fun p => { p with tries := t }

/-- R207: the release of an atomic holds its read back. -/
def State.amoReady (s : State) (c : Nat) (f : Flight) (l : Load) : Bool :=
  match l.rel with
  | none => true
  | some scope =>
    s.releaseReady { id := f.id, ctx := c, vd := l.vd, va := 0, bytes := [], op := .write, rel := some scope
                     xl := none, wait := none, stream := none, log := none, promoted := false, bound := 0
                     freq := none, bundle := f.bundle }

/-- The pieces of a load that may be performed are performed, in order. -/
def State.readPieces (s : State) (c : Nat) (f : Flight) (l : Load) : State :=
  if !s.amoReady c f l then s
  else l.pieces.zipIdx.foldl (fun s (p, i) =>
    if s.alive c && s.mayRead c f.bundle f.id l.amo.isSome l.vd p then s.tryPiece c f l i p else s) s

/-! ### Posting (R195, R203, R219) -/

/-- What a write of a context is, but for its translation; `bundle`: that of its word, or of the word in hand. -/
structure Write where
  va : Nat
  bytes : List Byte
  op : PostOp := .write
  rel : Option Nat := none
  stream : Option (Nat × Nat) := none
  log : Option Nat := none
  bundle : Option Nat := none

/-- R275: a write takes its place: behind those that its cluster has, but before the later ones of its own context. -/
def State.post (s : State) (p : Posted) : State :=
  let later (q : Posted) : Bool := q.ctx == p.ctx && decide (p.bundle < q.bundle) && !q.buf && q.freq.isNone
  { s with posted := s.posted.takeWhile (fun q => !later q) ++ p :: s.posted.dropWhile fun q => !later q }

/-- A write to a UO page of this chip, which stays in local memory (R269). -/
def Posted.isUoWrite (p : Posted) : Bool :=
  p.op == .write && p.log.isNone && (p.xl.map fun x => x.attr == .uo && x.fab.isNone && decide (x.pa < apertureBase)).getD false

/-- R269, R275: a write to a UO page goes into local memory once nothing of its context holds it back. -/
def State.landUo (s : State) (p : Posted) : State :=
  match p.xl with
  | none => s
  | some x =>
    if s.unheld p && !(s.before p).any fun q => q.ctx == p.ctx && q.touches x.place p.len then
      (s.unpost p.id).writeUo p.ctx x.pa (p.bytes.length / 128 + 2) p.bytes
    else s

/-- A posted write's first steps: one to a UO page goes into local memory, one to an RC page into the write buffer, if nothing holds it
back. -/
def State.settlePosted (s : State) (p : Posted) : State :=
  if p.isUoWrite then s.landUo p else s.settleWrites (clusterOf (tileOf p.ctx))

/-- R302: the first write of a stream to a page of a registered pool pins it. -/
def State.pinPosted (s : State) (p : Posted) : State :=
  let x := s.ctx p.ctx
  match p.stream with
  | some (q, gen) => if (x.qget q).gen = gen then s.pinPage (x.group.getD 0) x.lx x.ly q p.vd p.va else s
  | none => s

/-- A write of a context is translated and posted, and takes its first steps. -/
def State.postWrite (s : State) (c vd : Nat) (w : Write) : State :=
  match s.coreXl c vd w.va w.op.reads true with
  | (s, .dead) => s
  | (s, r) =>
    let (xl, wait) := match r with | .ok x => (some x, none) | .waits k => (none, some k) | .dead | .later => (none, none)
    let p : Posted := {
      id := s.serial, ctx := c, vd := vd, va := w.va, bytes := w.bytes, op := w.op, rel := w.rel, xl := xl,
      wait := wait, stream := w.stream, log := w.log, promoted := false, bound := s.now + 8192, freq := none
      bundle := w.bundle.getD s.cur.bundle }
    let s : State := { s with serial := s.serial + 1 }
    ((if xl.isSome then s.pinPosted p else s).post p).settlePosted p

/-- R274: an access split at page boundaries: address, length and place in the access of each part. -/
def splitPages : Nat → Nat → Nat → Nat → List (Nat × Nat × Nat)
  | 0, _, _, _ => []
  | fuel + 1, va, n, dst =>
    if n = 0 then []
    else
      let k := Nat.min n (2 ^ 16 - va % 2 ^ 16)
      (va, k, dst) :: splitPages fuel (va + k) (n - k) (dst + k)

/-- R195, R274: a store, in its parts; the parts that a death cuts off are dropped. -/
def State.postStore (s : State) (c vd : Nat) (w : Write) : State :=
  (splitPages (w.bytes.length / 2 ^ 16 + 2) w.va w.bytes.length 0).foldl
    (fun s (va, n, off) => if s.alive c then s.postWrite c vd { w with va := va, bytes := slice w.bytes off n } else s) s

end Sys2Proof.Machine
end

