-- ==== Sys2Proof/Machine/Local.lean ====
section
/-!
DEFINITION. The scratchpad instructions of class 4 (R183-R193): loads and stores, transposing loads, tile transfers,
pinning, and access to a cluster mate.
-/

namespace Sys2Proof.Machine

/-! ### Checks and interlocks (R183-R185) -/

/-- R183, R184: the checks of a word's scratchpad ranges (address, length, alignment): first range and alignment of each,
then ownership of each. -/
def State.scrChecks (s : State) (rs : List (Nat × Nat × Nat)) : Option TrapRec :=
  (rs.findSome? fun (a, n, al) =>
      if 2 ^ 22 < a + n then some (⟨7, 2, a⟩ : TrapRec) else if a % al ≠ 0 then some ⟨7, 1, a⟩ else none).orElse fun _ =>
    rs.findSome? fun (a, n, _) => s.ownCheck s.cur.ctx a n

/-- R185: the tile transfers of a context that are under way; two at once are a limit of the context (log entry 27). -/
def Ctx.transfers (x : Ctx) : List Flight := x.flights.filter fun f => f.kind == .transfer

/-- R185: a word that writes scratchpad waits for the transfers that read it. -/
def State.scrWritable (s : State) : Bool := s.me.transfers.all fun f => f.wr.isEmpty

/-- R185: a word that reads scratchpad waits for the transfers that write it. -/
def State.scrReadable (s : State) : Bool := s.me.transfers.all fun f => f.rd.isEmpty

/-- R185: a tile transfer of `n` rows. -/
def State.launchTransfer (s : State) (n : Nat) (rd wr : List Nat) (lands : List Landing) (p : Option Origin) : State :=
  s.addFlight { s.launchFlight .transfer (some (6 + (n + 3) / 4)) lands with rd := rd, wr := wr, poison := p }

/-- The tile of the word in hand. -/
def State.tile (s : State) : Nat := tileOf s.cur.ctx

/-- A result that carries the poison of what it read. -/
def State.landPoison (s : State) (bound : Nat) (lands : List Landing) (p : Option Origin) : State :=
  s.addFlight { s.launchFlight .fixed (some bound) lands with poison := p }

/-! ### Scalar loads and stores (R187) -/

/-- R187: EA = s[a] + sext(ext). -/
def Ctx.ea32 (x : Ctx) (a : Nat) (off : Option Nat) : Nat :=
  (x.sget a + (BitVec.ofNat 32 (off.getD 0)).signExtend 64).toNat

/-- `ldw` and `ldd`, of `n` bytes. -/
def loadSem (n d a : Nat) (off : Option Nat) : WordSem where
  ready s := s.scrReadable
  chk s := s.scrChecks [(s.me.ea32 a off, n, n)]
  srcs := [.s a]
  eff s :=
    let ea := s.me.ea32 a off
    s.landPoison 6 [.sreg d (bitsOfBytes 64 (s.scr s.tile ea n))] (s.scrPoison s.tile ea n)

/-- `stw` and `std`, of `n` bytes. -/
def storeSem (n d a : Nat) (off : Option Nat) : WordSem where
  ready s := s.scrWritable
  chk s := s.scrChecks [(s.me.ea32 a off, n, n)]
  srcs := [.s a, .s d]
  eff s := s.scrWrite s.tile (s.me.ea32 a off) (toLE n (s.me.sget d).toNat)

def semLdw (d a : Nat) (off : Option Nat) : WordSem := loadSem 4 d a off
def semLdd (d a : Nat) (off : Option Nat) : WordSem := loadSem 8 d a off
def semStw (d a : Nat) (off : Option Nat) : WordSem := storeSem 4 d a off
def semStd (d a : Nat) (off : Option Nat) : WordSem := storeSem 8 d a off

/-! ### Vector loads and stores (R188) -/

/-- R188: EA = s[a] + sext(ext[27:0]). -/
def Ctx.ea28 (x : Ctx) (a off : Nat) : Nat := (x.sget a + (BitVec.ofNat 28 off).signExtend 64).toNat

/-- R71: the exponent bytes of a row or vector in a format. -/
def expBytes (t : Fmt) : Nat := if t = .dx8 then 16 else if t = .dx4 then 32 else 0

/-- The ranges of a 256-byte access and of its exponents. -/
def rangesDx (t : Fmt) (ea eb : Nat) : List (Nat × Nat × Nat) :=
  (ea, 256, 16) :: if t.isDx then [(eb, expBytes t, 16)] else []

/-- The 256 bytes at an address with the exponent bytes at another. -/
def State.scrVec (s : State) (t : Fmt) (ea eb : Nat) : BitVec 2048 × BitVec 256 × Option Origin :=
  let n := expBytes t
  (bitsOfBytes 2048 (s.scr s.tile ea 256), if n = 0 then 0 else bitsOfBytes 256 (s.scr s.tile eb n),
    (s.scrPoison s.tile ea 256).orElse fun _ => if n = 0 then none else s.scrPoison s.tile eb n)

/-- A row is stored, with its exponents where it has them. -/
def State.scrPut (s : State) (t : Fmt) (ea eb : Nat) (data : BitVec 2048) (side : BitVec 256) : State :=
  let s := s.scrWrite s.tile ea (bytesOfBits 256 data)
  if t.isDx then s.scrWrite s.tile eb (bytesOfBits (expBytes t) side) else s

def semVld (d a b fmt off : Nat) : WordSem :=
  let t := Fmt.ofCode fmt
  { ready := fun s => s.scrReadable
    chk := fun s => s.scrChecks (rangesDx t (s.me.ea28 a off) (s.me.sget b).toNat)
    srcs := .s a :: if t.isDx then [.s b] else []
    eff := fun s =>
      let (data, side, p) := s.scrVec t (s.me.ea28 a off) (s.me.sget b).toNat
      s.landPoison 6 [.vreg d ⟨data, side, t⟩ false] p }

/-- R188: the tag of a vector source, for which a stream gives its format. -/
def State.srcTag (s : State) (d : Nat) : Fmt := ((s.me.vsrc d 0 0).tag).getD .raw

def semVst (w d a b off : Nat) : WordSem where
  ready s := s.scrWritable && s.me.popsReady [d]
  chk s :=
    firstTrap [s.me.popsIllegal w [d], s.me.popsHandle [d],
      s.scrChecks (rangesDx (s.srcTag d) (s.me.ea28 a off) (s.me.sget b).toNat)]
  srcs := .s a :: vregSrcs 0 [d]
  popped s := (s.me.popPoison [d]).orElse fun _ => if (s.srcTag d).isDx then s.me.poisonOf (.s b) else none
  pops := [d]
  eff s :=
    let x := s.me
    let v := x.vsrc d 0 0
    (s.modCtx s.cur.ctx fun x => x.popAll [d]).scrPut (v.tag.getD .raw) (x.ea28 a off) (x.sget b).toNat v.data v.side

/-! ### Transposing loads (R189) -/

/-- R189: the 16-byte memory rows of a transposing load of `n` blocks of rows. -/
def ldtRanges (base sw n : Nat) : List (Nat × Nat × Nat) :=
  (List.range (16 * n)).map fun r => (base + r * 16 * sw, 16, 16)

/-- R189: element 16·m + r of the result is element m of memory row r, from row `first` on. -/
def State.ldtRow (s : State) (t : Fmt) (base sw first : Nat) : BitVec 2048 :=
  let w := t.width
  let rows := (List.range 16).map fun r => elemsOf w (128 / w) (leNat (s.scr s.tile (base + (first + r) * 16 * sw) 16))
  BitVec.ofNat 2048 (packElems w ((List.range (128 / w)).flatMap fun m => rows.map fun row => row.getD m 0))

/-- The poison that a list of ranges carries. -/
def State.rangesPoison (s : State) (rs : List (Nat × Nat × Nat)) : Option Origin :=
  rs.findSome? fun (a, n, _) => s.scrPoison s.tile a n

/-- R180, R189, R190: the tile that rows are put into: the old one where it has the tag, else zeros. -/
def TReg.taking (old : TReg) (tag : Fmt) : TReg := if old.tag = tag then old else ⟨[], tag⟩

/-- Rows put into a tile from row `r` on. -/
def TReg.putRows (t : TReg) (r : Nat) (rows : List Row) : TReg :=
  rows.zipIdx.foldl (fun t (row, j) => t.setRow (r + j) row) t

def semLdt (d a fmt : Nat) (t : Bool) (r nrm1 sw : Nat) : WordSem :=
  let f := Fmt.ofCode fmt
  let n := nrm1 + 1
  { ready := fun s => s.scrReadable && (!t || (s.tilesFree [] [d] && s.me.transfers.length < 2))
    chk := fun s => s.scrChecks (ldtRanges (s.me.sget a).toNat sw (if t then n else 1))
    srcs := [.s a]
    eff := fun s =>
      let base := (s.me.sget a).toNat
      let p := s.rangesPoison (ldtRanges base sw (if t then n else 1))
      if t then
        let rows := (List.range n).map fun j => (⟨s.ldtRow f base sw (16 * j), 0⟩ : Row)
        s.launchTransfer n [] [d] [.treg d (((s.me.tget d).taking f).putRows r rows) true] p
      else s.landPoison 8 [.vreg d ⟨s.ldtRow f base sw 0, 0, f⟩ false] p }

/-! ### Tile transfers (R190) -/

/-- R190: the ranges of a tile transfer. -/
def tileRanges (t : Fmt) (base eb sw n : Nat) : List (Nat × Nat × Nat) :=
  ((List.range n).map fun j => (base + 16 * sw * j, 256, 16)) ++
    if t.isDx then (List.range n).map fun j => (eb + 32 * j, expBytes t, 16) else []

def semTld (d a b fmt r nrm1 sw : Nat) : WordSem :=
  let f := Fmt.ofCode fmt
  let n := nrm1 + 1
  { ready := fun s => s.scrReadable && s.tilesFree [] [d] && s.me.transfers.length < 2
    chk := fun s => s.scrChecks (tileRanges f (s.me.sget a).toNat (s.me.sget b).toNat sw n)
    srcs := .s a :: if f.isDx then [.s b] else []
    eff := fun s =>
      let base := (s.me.sget a).toNat
      let eb := (s.me.sget b).toNat
      let rows := (List.range n).map fun j =>
        let (data, side, _) := s.scrVec f (base + 16 * sw * j) (eb + 32 * j)
        (⟨data, side⟩ : Row)
      s.launchTransfer n [] [d] [.treg d (((s.me.tget d).taking f).putRows r rows) true]
        (s.rangesPoison (tileRanges f base eb sw n)) }

def semTst (d a b r nrm1 sw : Nat) : WordSem :=
  let n := nrm1 + 1
  { ready := fun s => s.scrWritable && s.tilesFree [d] [] && s.me.transfers.length < 2
    chk := fun s => s.scrChecks (tileRanges (s.me.tget d).tag (s.me.sget a).toNat (s.me.sget b).toNat sw n)
    srcs := [.s a, .t d]
    popped := fun s => if (s.me.tget d).tag.isDx then s.me.poisonOf (.s b) else none
    eff := fun s =>
      let t := s.me.tget d
      let base := (s.me.sget a).toNat
      let eb := (s.me.sget b).toNat
      ((List.range n).foldl (fun s j =>
        s.scrPut t.tag (base + 16 * sw * j) (eb + 32 * j) (t.row (r + j)).data (t.row (r + j)).side) s).launchTransfer n
        [d] [] [] none }

/-! ### Pinning (R191, R192) -/

/-- R191, R192: the ALIGN checks of a range of lines. -/
def lineChk (a n : Nat) : Option TrapRec :=
  if 2 ^ 22 < a + n then some ⟨7, 2, a⟩
  else if a % 128 ≠ 0 then some ⟨7, 1, a⟩
  else if n % 128 ≠ 0 ∨ n = 0 then some ⟨7, 1, n⟩
  else none

/-- The addresses of the lines of a range. -/
def linesOf (a n : Nat) : List Nat := (List.range (n / 128)).map fun i => a + 128 * i

/-- R266: the least recently used lines of a set beyond its free ways are written back and dropped. -/
def State.trimSet (s : State) (tile set : Nat) : State :=
  let out := (s.cache.filter fun (x : CLine) => x.tile == tile && x.line % 2048 == set).drop (16 - s.pinnedWays tile set)
  out.foldl (fun s x => (s.writeBack x).uncache x.tile x.line) s

/-- R191: one line is pinned by a bank; a line that it holds stays as it is. -/
def State.pinLine (s : State) (tile bank a : Nat) : State :=
  if (s.sline tile a).pin = some bank then s
  else (s.setSline tile a { SLine.free with pin := some bank }).trimSet tile (a / 128 % 2048)

/-- R191: why a range cannot be pinned: a line of the other context, or a set with more than 14 pinned lines. -/
def State.pinFails (s : State) (tile bank : Nat) (as : List Nat) : Bool :=
  let new := as.filter fun a => (s.sline tile a).pin != some bank
  (new.any fun a => (s.sline tile a).pin.isSome) ||
    new.any fun a => 14 < s.pinnedWays tile (a / 128 % 2048) + (new.filter fun b => b / 128 % 2048 == a / 128 % 2048).length

def semAlloc (a b : Nat) : WordSem where
  ready s := s.scrWritable && s.scrReadable
  chk s := lineChk (s.me.sget a).toNat (s.me.sget b).toNat
  srcs := [.s a, .s b]
  eff s :=
    let as := linesOf (s.me.sget a).toNat (s.me.sget b).toNat
    let bank := bankOf s.cur.ctx
    if s.pinFails s.tile bank as then s.land 1 [.p6 false]
    else (as.foldl (fun s a => s.pinLine s.tile bank a) s).land 1 [.p6 true]

def semFree (a b : Nat) : WordSem where
  ready s := s.scrWritable && s.scrReadable
  chk s :=
    firstTrap [lineChk (s.me.sget a).toNat (s.me.sget b).toNat,
      (linesOf (s.me.sget a).toNat (s.me.sget b).toNat).findSome? fun l =>
        if (s.sline s.tile l).eng.isSome then some ⟨5, 2, l⟩ else none]
  srcs := [.s a, .s b]
  eff s :=
    (linesOf (s.me.sget a).toNat (s.me.sget b).toNat).foldl (fun s l =>
      if (s.sline s.tile l).pin = some (bankOf s.cur.ctx) then s.setSline s.tile l SLine.free else s) s

/-! ### Cluster mates (R32, R193) -/

/-- R32, R193: the context at a block position: the word's own, another of its group, or none. -/
def State.mate (s : State) (a : Nat) : Option Nat :=
  let x := s.me
  let lx := x.lx / 2 * 2 + fld a 22 1
  let ly := x.ly / 2 * 2 + fld a 23 1
  if lx = x.lx ∧ ly = x.ly then some s.cur.ctx
  else (s.ctxs.find? fun (_, y) => y.group.isSome && y.group == x.group && y.lx == lx && y.ly == ly && y.st != .idle).map (·.1)

/-- R193: the checks of an access to a mate. -/
def State.mateChk (s : State) (a : Nat) : Option TrapRec :=
  let lo := a % 2 ^ 22
  if 2 ^ 24 ≤ a || 2 ^ 22 < lo + 256 then some ⟨7, 2, a⟩
  else if a % 16 ≠ 0 then some ⟨7, 1, a⟩
  else
    match s.mate a with
    | none => none
    | some m =>
      if m = s.cur.ctx then s.ownCheck m lo 256
      else if (s.ownCheck m lo 256).isSome then some ⟨5, 3, a⟩
      else none

/-- R193: the access to the mate is performed when the word issues (log entry 19). -/
def semVldc (d a k fmt : Nat) : WordSem where
  ready s := s.scrReadable && !s.me.tagBusy s.now k && s.me.noAcquire
  chk s := s.mateChk (s.me.sget a).toNat
  srcs := [.s a]
  eff s :=
    let ea := (s.me.sget a).toNat
    let f := s.launchFlight .tagged none []
    let go (data : BitVec 2048) (p : Option Origin) :=
      s.addFlight { f with tag := some k, poison := p, lands := [.vreg d ⟨data, 0, Fmt.ofCode fmt⟩ false] }
    match s.mate ea with
    | none => go 0 none
    | some m =>
      let lo := ea % 2 ^ 22
      let p := s.scrPoison (tileOf m) lo 256
      go (bitsOfBytes 2048 (s.scr (tileOf m) lo 256)) (if m = s.cur.ctx then p else p.map Origin.away)

def semVstc (w d a : Nat) : WordSem where
  ready s := s.scrWritable && s.me.popsReady [d] && s.me.noAcquire
  chk s := firstTrap [s.me.popsIllegal w [d], s.me.popsHandle [d], s.mateChk (s.me.sget a).toNat]
  srcs := .s a :: vregSrcs 0 [d]
  popped s := s.me.popPoison [d]
  pops := [d]
  eff s :=
    let ea := (s.me.sget a).toNat
    let data := (s.me.vsrc d 0 0).data
    let m := s.mate ea
    let s := s.modCtx s.cur.ctx fun x => x.popAll [d]
    match m with
    | none => s
    | some m => s.scrWrite (tileOf m) (ea % 2 ^ 22) (bytesOfBits 256 data)

/-! ### The instructions -/

/-- R187. Loads 4 scratchpad bytes into a scalar. -/
def execLdw (h : Hdr) (d a : Nat) (off : Option Nat) (s : State) :
    Host.Outcome State Fault Refusal :=
  runWord h (semLdw d a off) s

/-- R187. Loads 8 scratchpad bytes into a scalar. -/
def execLdd (h : Hdr) (d a : Nat) (off : Option Nat) (s : State) :
    Host.Outcome State Fault Refusal :=
  runWord h (semLdd d a off) s

/-- R187. Stores 4 bytes to scratchpad. -/
def execStw (h : Hdr) (d a : Nat) (off : Option Nat) (s : State) :
    Host.Outcome State Fault Refusal :=
  runWord h (semStw d a off) s

/-- R187. Stores 8 bytes to scratchpad. -/
def execStd (h : Hdr) (d a : Nat) (off : Option Nat) (s : State) :
    Host.Outcome State Fault Refusal :=
  runWord h (semStd d a off) s

/-- R188. Loads 256 B of scratchpad into a vector with a tag. -/
def execVld (h : Hdr) (d a b fmt off : Nat) (s : State) :
    Host.Outcome State Fault Refusal :=
  runWord h (semVld d a b fmt off) s

/-- R188. Stores a vector and any DX exponents to scratchpad. -/
def execVst (h : Hdr) (d a b off : Nat) (s : State) :
    Host.Outcome State Fault Refusal :=
  runWord h (semVst (wordNat (.vst h d a b off)) d a b off) s

/-- R189. Loads from scratchpad with transpose into a vector or tile rows. -/
def execLdt (h : Hdr) (d a fmt : Nat) (t : Bool) (r nrm1 sw : Nat) (s : State) :
    Host.Outcome State Fault Refusal :=
  runWord h (semLdt d a fmt t r nrm1 sw) s

/-- R190. Loads tile rows from scratchpad. -/
def execTld (h : Hdr) (d a b fmt r nrm1 sw : Nat) (s : State) :
    Host.Outcome State Fault Refusal :=
  runWord h (semTld d a b fmt r nrm1 sw) s

/-- R190. Stores tile rows to scratchpad. -/
def execTst (h : Hdr) (d a b r nrm1 sw : Nat) (s : State) :
    Host.Outcome State Fault Refusal :=
  runWord h (semTst d a b r nrm1 sw) s

/-- R191. Pins scratchpad lines and sets p6 on success. -/
def execAlloc (h : Hdr) (a b : Nat) (s : State) : Host.Outcome State Fault Refusal := runWord h (semAlloc a b) s

/-- R192. Unpins the context's scratchpad lines in a range. -/
def execFree (h : Hdr) (a b : Nat) (s : State) : Host.Outcome State Fault Refusal := runWord h (semFree a b) s

/-- R193. Tagged load of 256 B from a cluster mate's scratchpad. -/
def execVldc (h : Hdr) (d a k fmt : Nat) (s : State) :
    Host.Outcome State Fault Refusal :=
  runWord h (semVldc d a k fmt) s

/-- R193. Stores 256 B to a cluster mate's scratchpad. -/
def execVstc (h : Hdr) (d a : Nat) (s : State) :
    Host.Outcome State Fault Refusal :=
  runWord h (semVstc (wordNat (.vstc h d a)) d a) s

end Sys2Proof.Machine
end

