-- ==== Sys2Proof/Machine/Global.lean ====
section
/-!
DEFINITION. The global-memory instructions of class 4 (R194-R198).
-/

namespace Sys2Proof.Machine

/-! ### Handles (R140, R194) -/

/-- R194: an access of `n` bytes through a handle: validity, right, bounds. -/
def Handle.chk (h : Handle) (right : Bool) (off n : Nat) : Option TrapRec :=
  if !h.valid then some ⟨6, 1, off⟩
  else if !right then some ⟨6, 2, off⟩
  else if 2 ^ h.l2s < off + n then some ⟨6, 3, off⟩
  else none

/-- The guest address of an offset. -/
def Handle.va (h : Handle) (off : Nat) : Nat := (h.base + off) % 2 ^ 55

/-- R184: HANDLE, then ALIGN. -/
def Handle.access (h : Handle) (right : Bool) (off n align : Nat) : Option TrapRec :=
  firstTrap [h.chk right off n, if off % align = 0 then none else some ⟨7, 1, off⟩]

/-! ### Loads (R195-R197, R425, R426) -/

/-- A piece that is not translated yet. -/
def Piece.init (va len dst : Nat) : Piece := ⟨va, len, dst, none, none, none, none, none, .none⟩

/-- R401: an atomic that the transport of its window does not carry. -/
def State.uncarried (s : State) (l : Load) (x : Xlat) : Bool :=
  match l.amo, x.fab with
  | some a, some (w, _) => (s.ewin w).roce && !(FabOp.atomic a).onRoce
  | _, _ => false

/-- R378, R424, R431: a piece of a load is translated, or waits on its page, or its context dies. -/
def State.translatePiece (s : State) (c id : Nat) (l : Load) (i : Nat) (p : Piece) : State :=
  match s.coreXl c l.vd p.va true l.amo.isSome with
  | (s, .dead) | (s, .later) => s
  | (s, .waits k) => s.modCtx c fun x => x.modPiece id i fun p => { p with xl := none, wait := some k }
  | (s, .ok xl) =>
    if s.uncarried l xl then s.accessDead c 7 p.va 2 true
    else s.modCtx c fun x => x.modPiece id i fun p => { p with xl := some xl, wait := none }

/-- R108, R195: a load issues: its tag is allocated and its pieces are translated, in order. -/
def State.issueLoad (s : State) (tag : Nat) (l : Load) : State :=
  let c := s.cur.ctx
  let id := s.serial
  let s := s.addFlight { s.launchFlight .tagged none [] with
    tag := some tag, load := some l, word := wordNat s.cur.instr, ext := extNat s.cur.instr }
  l.pieces.zipIdx.foldl (fun s (p, i) => if s.alive c then s.translatePiece c id l i p else s) s

/-- R195: the acquire and release scopes of an ORD field. -/
def acqOf (ord scope : Nat) : Option Nat := if ord = 1 ∨ ord = 3 then some scope else none
def relOf (ord scope : Nat) : Option Nat := if ord = 2 ∨ ord = 3 then some scope else none

/-- R195: bytes of an access by SZ. -/
def sizeOf3 (sz : Nat) : Nat := if sz = 0 then 4 else if sz = 1 then 8 else 256

def semLdg (d a b k sz ord scope fmt : Nat) : WordSem where
  ready s := !s.me.tagBusy s.now k && s.me.noAcquire
  chk s :=
    let h := s.me.hget a
    let n := sizeOf3 sz
    h.access h.r (s.me.sget b).toNat n (Nat.min n 16)
  srcs := [.s b, .h a]
  eff s :=
    let h := s.me.hget a
    s.issueLoad k {
      pieces := (splitPages 3 (h.va (s.me.sget b).toNat) (sizeOf3 sz) 0).map fun (va, n, dst) => Piece.init va n dst
      dst := if sz = 2 then .vector d (Fmt.ofCode fmt) else .scalar d
      acq := acqOf ord scope, rel := none, amo := none, gather := false, offsets := 0, vd := h.vd }

def semAmo (d a b k aop : Nat) (sz u : Bool) (ord scope opr cmp : Nat) : WordSem where
  ready s := !s.me.tagBusy s.now k && s.me.noAcquire
  chk s :=
    let h := s.me.hget a
    let n := if sz then 8 else 4
    h.access h.a (s.me.sget b).toNat n n
  srcs := [.s b, .h a, .s opr] ++ if aop = 7 then [.s cmp] else []
  once _ := true
  eff s :=
    let h := s.me.hget a
    s.issueLoad k {
      pieces := [Piece.init (h.va (s.me.sget b).toNat) (if sz then 8 else 4) 0]
      dst := .scalar d, acq := acqOf ord scope, rel := relOf ord scope
      amo := some ⟨aop, sz, u, s.me.sget opr, s.me.sget cmp⟩, gather := false, offsets := 0, vd := h.vd }

/-! ### Gathers and scatters (R196) -/

/-- R196: the active lanes under a mask register, or all. -/
def Ctx.activeLanes (x : Ctx) (mv : Nat) : List Nat :=
  (List.range 64).filter fun i => mv == 63 || (x.vget mv).data.getLsbD (32 * i)

/-- R61, R196: the tag checks of offsets and mask. -/
def gatChk (w mv : Nat) (x : Ctx) (offs : VSrc) : Option TrapRec :=
  let t := offs.tag.getD .i32
  if t ≠ .i32 then some (fmtTrap 1 1 t w)
  else if mv ≠ 63 ∧ (x.vget mv).tag ≠ .mask then some (fmtTrap 1 3 (x.vget mv).tag w)
  else none

/-- R184, R194, R196: the checks of the active lanes, HANDLE before ALIGN, the lowest failing lane first. -/
def laneChk (h : Handle) (right : Bool) (offs : List Nat) : Option TrapRec :=
  firstTrap [offs.findSome? fun o => h.chk right o 4, offs.findSome? fun o => if o % 4 = 0 then none else some ⟨7, 1, o⟩]

/-- The offsets of the active lanes, with their lanes. -/
def laneOffsets (x : Ctx) (mv : Nat) (offs : BitVec 2048) : List (Nat × Nat) :=
  (x.activeLanes mv).map fun i => (i, offs.toNat / 2 ^ (32 * i) % 2 ^ 32)

/-- The registers that a mask field reads. -/
def maskReg (mv : Nat) : List PReg := if mv = 63 then [] else [.v mv]

def semVgat (w d a b k fmt mv : Nat) : WordSem where
  ready s := !s.me.tagBusy s.now k && s.me.noAcquire && s.me.popsReady [b]
  chk s :=
    let x := s.me
    let offs := x.vsrc b 0 0
    firstTrap [x.popsIllegal w [b], gatChk w mv x offs, x.popsHandle [b],
      laneChk (x.hget a) (x.hget a).r ((laneOffsets x mv offs.data).map (·.2))]
  srcs := vregSrcs 0 [b] ++ .h a :: maskReg mv
  popped s := s.me.popPoison [b]
  pops := [b]
  eff s :=
    let x := s.me
    let h := x.hget a
    let offs := (x.vsrc b 0 0).data
    (s.modCtx s.cur.ctx fun x => x.popAll [b]).issueLoad k {
      pieces := (laneOffsets x mv offs).map fun (i, o) => Piece.init (h.va o) 4 (4 * i)
      dst := .vector d (Fmt.ofCode fmt), acq := none, rel := none, amo := none, gather := true, offsets := offs, vd := h.vd }

def semVsct (w d a b mv : Nat) : WordSem where
  ready s := s.me.noAcquire && s.me.popsReady [d, b]
  chk s :=
    let x := s.me
    match x.vsrcs 0 [d, b] with
    | [_, offs] =>
      firstTrap [x.popsIllegal w [d, b], gatChk w mv x offs, x.popsHandle [d, b],
        laneChk (x.hget a) (x.hget a).w ((laneOffsets x mv offs.data).map (·.2))]
    | _ => none
  srcs := vregSrcs 0 [d, b] ++ .h a :: maskReg mv
  popped s := s.me.popPoison [d, b]
  pops := [d, b]
  once _ := true
  eff s :=
    let x := s.me
    let c := s.cur.ctx
    let h := x.hget a
    match x.vsrcs 0 [d, b] with
    | [data, offs] =>
      (laneOffsets x mv offs.data).foldl (fun s (i, o) =>
          if s.alive c then
            s.postWrite c h.vd { va := h.va o, bytes := toLE 4 (data.data.toNat / 2 ^ (32 * i)) }
          else s)
        (s.modCtx c fun x => x.popAll [d, b])
    | _ => s

/-! ### Stores (R195) -/

def semStg (w d a b sz ord scope : Nat) : WordSem where
  ready s := s.me.noAcquire && (sz != 2 || s.me.popsReady [d])
  chk s :=
    let x := s.me
    let h := x.hget a
    let n := sizeOf3 sz
    firstTrap [if sz = 2 then x.popsIllegal w [d] else none, if sz = 2 then x.popsHandle [d] else none,
      h.access h.w (x.sget b).toNat n (Nat.min n 16)]
  srcs := [.s b, .h a] ++ if sz = 2 then vregSrcs 0 [d] else [.s d]
  popped s := if sz = 2 then s.me.popPoison [d] else none
  pops := if sz = 2 then [d] else []
  once _ := true
  eff s :=
    let x := s.me
    let h := x.hget a
    let bytes := if sz = 2 then bytesOfBits 256 (x.vsrc d 0 0).data else toLE (sizeOf3 sz) (x.sget d).toNat
    let s := if sz = 2 then s.modCtx s.cur.ctx fun x => x.popAll [d] else s
    s.postStore s.cur.ctx h.vd { va := h.va (x.sget b).toNat, bytes := bytes, rel := relOf ord scope }

/-! ### Prefetch and invalidate (R198) -/

/-- R198: the lines of a range that lie in the window. -/
def Handle.lines (h : Handle) (off n : Nat) : List Nat :=
  ((List.range n).map fun i => off / 128 * 128 + 128 * i).filter fun o => o < 2 ^ h.l2s

/-- R198: validity alone is checked. -/
def Ctx.validChk (x : Ctx) (a b : Nat) : Option TrapRec :=
  if (x.hget a).valid then none else some ⟨6, 1, (x.sget b).toNat⟩

/-- R198: a line is brought into local memory; one whose translation does not complete, or that is not cached there, is
dropped. -/
def State.prefetchLine (s : State) (vd va : Nat) : State :=
  match s.translate (some s.tile) vd va true false with
  | (s, .ok x) =>
    if x.fab.isSome || x.attr == .so || decide (apertureBase ≤ x.pa) then s else (s.fetchLine s.tile (x.pa / 128)).1
  | (_, .error _) => s

/-- `pref`: with LVL 1 nothing of the tile changes. -/
def semPref (a b : Nat) (lvl : Bool) (lnm1 : Nat) : WordSem where
  chk s := s.me.validChk a b
  srcs := [.s b, .h a]
  eff s :=
    let h := s.me.hget a
    if lvl then s
    else (h.lines (s.me.sget b).toNat (lnm1 + 1)).foldl (fun s o => s.prefetchLine h.vd (h.va o)) s

/-- `inv`: the tile's copies of a line are written back where they are dirty, and dropped. -/
def State.invLine (s : State) (vd va : Nat) : State :=
  match s.translate (some s.tile) vd va false false with
  | (s, .ok x) => if x.fab.isSome || x.attr == .so then s else s.dropCopies s.tile x.pa 128
  | (_, .error _) => s

def semInv (a b lnm1 : Nat) : WordSem where
  ready s := s.me.noAcquire
  chk s := s.me.validChk a b
  srcs := [.s b, .h a]
  eff s :=
    let h := s.me.hget a
    (h.lines (s.me.sget b).toNat (lnm1 + 1)).foldl (fun s o => s.invLine h.vd (h.va o)) s

/-! ### The instructions -/

/-- R195. Tagged global load through a handle, plain or acquire. -/
def execLdg (h : Hdr) (d a b k sz ord scope fmt : Nat) (s : State) :
    Host.Outcome State Fault Refusal :=
  runWord h (semLdg d a b k sz ord scope fmt) s

/-- R197. Atomic read-modify-write at the home slice. -/
def execAmo (h : Hdr) (d a b k aop : Nat) (sz u : Bool) (ord scope opr cmp : Nat) (s : State) :
    Host.Outcome State Fault Refusal :=
  runWord h (semAmo d a b k aop sz u ord scope opr cmp) s

/-- R196. Tagged gather of one element per active lane. -/
def execVgat (h : Hdr) (d a b k fmt mv : Nat) (s : State) :
    Host.Outcome State Fault Refusal :=
  runWord h (semVgat (wordNat (.vgat h d a b k fmt mv)) d a b k fmt mv) s

/-- R196. Scatter of one element per active lane. -/
def execVsct (h : Hdr) (d a b mv : Nat) (s : State) :
    Host.Outcome State Fault Refusal :=
  runWord h (semVsct (wordNat (.vsct h d a b mv)) d a b mv) s

/-- R195. Global store through a handle, plain or release. -/
def execStg (h : Hdr) (d a b sz ord scope : Nat) (s : State) :
    Host.Outcome State Fault Refusal :=
  runWord h (semStg (wordNat (.stg h d a b sz ord scope)) d a b sz ord scope) s

/-- R198. Prefetches lines of a window into local memory or the LLC. -/
def execPref (h : Hdr) (a b : Nat) (lvl : Bool) (lnm1 : Nat) (s : State) :
    Host.Outcome State Fault Refusal :=
  runWord h (semPref a b lvl lnm1) s

/-- R198. Drops locally cached copies of lines, writing back dirty bytes. -/
def execInv (h : Hdr) (a b lnm1 : Nat) (s : State) :
    Host.Outcome State Fault Refusal :=
  runWord h (semInv a b lnm1) s

end Sys2Proof.Machine
end

