-- ==== Sys2Proof/Machine/Engine.lean ====
section
/-!
DEFINITION. What the engine commands share (R224-R233, R432, R472, R473): addresses, checks at acceptance, engine-owned
lines, the steps of a command and its end.
-/

namespace Sys2Proof.Machine

/-! ### Engine addresses (R226) -/

/-- An engine address: scratchpad, or a handle with an offset. -/
inductive EAddr where
  | scr (a : Nat)
  | win (h off : Nat)
deriving DecidableEq, Repr

/-- R226: the address of a value. -/
def eaddr (v : W64) : EAddr :=
  if v.getLsbD 63 then .win (bitsOf v 59 4) (bitsOf v 0 48) else .scr (bitsOf v 0 22)

/-- R226: a bit of the value that must be zero is set. -/
def badEaddr (v : W64) : Bool := if v.getLsbD 63 then bitsOf v 48 11 != 0 else bitsOf v 22 41 != 0

/-- A value that must be an address in handle form. -/
def badHaddr (v : W64) : Bool := !v.getLsbD 63 || badEaddr v

/-- What a command does with an address: the value, the bytes from its lowest to its highest byte relative to it, the
scratchpad rows it names, its alignment and the rights it needs. -/
structure Use where
  v : W64
  lo : Int := 0
  hi : Int
  rows : List (Int × Nat)
  align : Nat := 16
  r : Bool := false
  w : Bool := false
  a : Bool := false
  take : Bool := true

/-- A use of `n` bytes from an address on. -/
def Use.flat (v : W64) (n : Nat) (align : Nat) (r w : Bool) : Use :=
  { v := v, hi := n, rows := [(0, n)], align := align, r := r, w := w }

/-- The scratchpad lines of a range; an empty one has none. -/
def linesIn (a n : Nat) : List Nat :=
  if n = 0 then [] else (List.range ((a % 128 + n + 127) / 128)).map fun i => a / 128 * 128 + 128 * i

/-- The scratchpad lines that a use names. -/
def Use.lines (u : Use) : List Nat :=
  match eaddr u.v with
  | .scr a => (u.rows.flatMap fun (o, n) => linesIn ((a : Int) + o).toNat n).eraseDups
  | .win .. => []

/-- R229, R230: the check of one address: HANDLE, ALIGN, OWN. -/
def Use.chk (s : State) (u : Use) : Option TrapRec :=
  let x := s.me
  match eaddr u.v with
  | .win n off =>
    let h := x.hget n
    if !h.valid then some ⟨6, 1, off⟩
    else if (u.r && !h.r) || (u.w && !h.w) || (u.a && !h.a) then some ⟨6, 2, off⟩
    else if (off : Int) + u.lo < 0 || ((2 ^ h.l2s : Nat) : Int) < off + u.hi then some ⟨6, 3, off⟩
    else if off % u.align ≠ 0 then some ⟨7, 1, off⟩
    else none
  | .scr a =>
    if (a : Int) + u.lo < 0 || (2 ^ 22 : Int) < a + u.hi then some ⟨7, 2, u.v.toNat % 2 ^ 48⟩
    else if a % u.align ≠ 0 then some ⟨7, 1, a⟩
    else if u.lines.any fun l =>
        let y := s.sline (tileOf s.cur.ctx) l
        y.pin != some (bankOf s.cur.ctx) || y.eng.isSome then some ⟨5, 4, a⟩
    else none

/-- R230: the check of a completion address, whose line is not taken. -/
def compChk (s : State) (v : W64) : Option TrapRec :=
  match eaddr v with
  | .win .. => ({ Use.flat v 8 8 false true with take := false }).chk s
  | .scr a =>
    if 2 ^ 22 < a + 8 then some ⟨7, 2, a⟩
    else if a % 8 ≠ 0 then some ⟨7, 1, a⟩
    else
      let y := s.sline (tileOf s.cur.ctx) a
      if y.pin ≠ some (bankOf s.cur.ctx) then some ⟨5, 1, a⟩ else if y.eng.isSome then some ⟨5, 2, a⟩ else none

/-! ### Acceptance (R224-R232) -/

/-- What a command is at acceptance: its staging count, the reasons for RANGE, the addresses it names, and its fate where
that is decided at acceptance: a status with the staging registers it writes. -/
structure EngSpec where
  cls : Nat
  op : Nat
  n : Nat
  bad : State → List W64 → Bool := fun _ _ => false
  uses : State → List W64 → List Use := fun _ _ => []
  early : State → List W64 → Option (Nat × List (Nat × W64)) := fun _ _ => none
  /-- the tag is released only when the command ends; the immediate status, where it is known at acceptance -/
  late : Bool := false
  status : Option Nat := none
  /-- R232: what the word waits for before it is accepted -/
  turn : State → Bool := fun _ => true
  /-- what the accepting step does besides, to a command that goes on and to one that has ended -/
  start : Cmd → State → State := fun _ s => s
  atOnce : Cmd → State → State := fun _ s => s

/-- The staging snapshot of a command. -/
def Ctx.staging (x : Ctx) (g n : Nat) : List W64 := (List.range n).map fun i => x.gget (g + i)

/-- R224: the completion pair of the word in hand. -/
def Ctx.compPair (x : Ctx) (c : Nat) : Option (W64 × W64) := if c = 0 then none else some (x.sget c, x.sget (c + 1))

/-- R229: immediate status RANGE. -/
def EngSpec.range (m : EngSpec) (s : State) (g c : Nat) : Bool :=
  m.bad s (s.me.staging g m.n) || ((s.me.compPair c).map fun p => badEaddr p.1).getD false

/-- R354: the feature bit of the engine commands of a class; `fnfetch` is a Heartwood command. -/
def EngSpec.feature (m : EngSpec) : Option Nat :=
  match m.cls, m.op with
  | 10, _ => some 1
  | 11, _ => some 2
  | 12, _ => some 3
  | 13, _ => some 4
  | 14, 4 => some 2
  | _, _ => none

/-- R354: the feature of a command is not enabled, so that the command is absent and ends with UNSUPPORTED. -/
def EngSpec.absent (m : EngSpec) (s : State) : Bool :=
  match m.feature with
  | some n => s.dfld Dev.feFeatEn0 0 n 1 == 0
  | none => false

/-- The compute die of a context. -/
def dieOfCtx (c : Nat) : Nat := dieOf (clusterOf (tileOf c))

/-- R298: the Grove engine of a die has its 64 commands, so that the engine of the IOD takes the next. -/
def State.groveFull (s : State) (c : Nat) : Bool :=
  decide (64 ≤ (s.cmds.filter fun k => k.cls == 10 && !k.iod && dieOfCtx k.ctx == dieOfCtx c).length)

/-- The word in hand, issued by a context in a group, as a command. -/
def State.newCmd (s : State) (m : EngSpec) (g c scope : Nat) : Cmd :=
  let x := s.me
  { id := s.serial, ctx := s.cur.ctx, incarnation := x.incarnation, group := x.group.getD 0, lx := x.lx, ly := x.ly,
    vd := s.vdOf s.cur.ctx, cls := m.cls, op := m.op, scope := scope, g := x.staging g m.n, gBase := g,
    comp := x.compPair c, handles := x.h, wset := x.wset, version := x.version, ts := s.time, wait := none, done := 0,
    index := 0, step := 0, flag := false, target := 0, deadline := 0, stopped := false, abandoned := false,
    freqs := [], data := [], denied := none, ending := none,
    bundle := x.bundles, asks := [], peers := 0, iod := m.cls == 10 && s.groveFull s.cur.ctx }

/-- R230: scratchpad lines pass to a command, and the monitors on them fire with EVICT. -/
def State.takeLines (s : State) (tile id : Nat) (ls : List Nat) : State :=
  ls.foldl (fun s a =>
    let s := s.setSline tile a { s.sline tile a with eng := some id }
    { s with monitors := s.monitors.map (fireScr 2 tile a 128) }) s

/-- R228, R229: the immediate status lands between 4 and 64 cycles after issue, and releases the tag; `cmd`: the command
whose completion word it follows within that bound (log entry 28). -/
def State.landStatus (s : State) (k : Nat) (cmd : Option Nat) (lands : List Landing) : State :=
  s.addFlight { s.launchFlight .tagged (some 64) lands with tag := some k, first := s.now + 4, cmd := cmd }

/-- R229: the status of a command whose tag stays until its staging results have landed; a status known at acceptance lands within
64 cycles, and another comes from the command (log entry 28). -/
def State.landLate (s : State) (k cmd d : Nat) (status : Option Nat) : State :=
  s.addFlight { s.launchFlight .tagged (some 64) (match status with | some n => [.sreg d (BitVec.ofNat 64 n)] | none => []) with
    tag := some k, first := s.now + 4, cmd := some cmd, word := d, late := true }

/-- The landings of a status and of staging registers. -/
def statusLands (d status : Nat) (gs : List (Nat × W64)) : List Landing :=
  .sreg d (BitVec.ofNat 64 status) :: gs.map fun (n, v) => .greg n v

/-- R446: an accepted class-6 command with a scratchpad destination goes into the list of the phase. -/
def Ctx.noteInput (x : Ctx) (k : Cmd) : Ctx :=
  let dst := match k.op with
    | 0 | 3 => (k.g[1]?).map eaddr
    | 2 => (k.g[0]?).map eaddr
    | _ => none
  let scr := match dst with | some (.scr _) => true | _ => k.op == 1
  if k.cls ≠ 6 ∨ k.op = 3 ∨ !scr then x
  else
    let l := x.nextInputs ++ [⟨6, k.op, k.scope, k.comp, k.g, 0, 0, 0, false⟩]
    { x with nextInputs := l.drop (l.length - 16), inputOver := x.inputOver || decide (16 < l.length) }

/-- A command changed. -/
def State.setCmd (s : State) (k : Cmd) : State := { s with cmds := s.cmds.map fun c => if c.id = k.id then k else c }

/-- R228-R230, R354: the word in hand is accepted, or ends at once. -/
def State.accept (s : State) (m : EngSpec) (d g c k scope : Nat) : State :=
  let gs := s.me.staging g m.n
  if m.absent s then s.landStatus k none (statusLands d 16 [])
  else if m.range s g c then s.landStatus k none (statusLands d 2 [])
  else
    match m.early s gs with
    | some (code, ws) =>
      let lands := statusLands d code (ws.map fun (i, v) => (g + i, v))
      let s := m.atOnce (s.newCmd m g c scope) s
      if code = 0 && (s.me.compPair c).isSome then
        let cmd := { s.newCmd m g c scope with ending := some (0, 0xFFFF, false) }
        ({ s with serial := s.serial + 1, cmds := s.cmds ++ [cmd] }).landStatus k (some cmd.id) lands
      else s.landStatus k none lands
    | none =>
      let cmd := s.newCmd m g c scope
      let ls := ((m.uses s gs).filter (·.take)).flatMap Use.lines
      let s := { s with serial := s.serial + 1, cmds := s.cmds ++ [cmd] }
      let s := m.start cmd ((s.takeLines (tileOf cmd.ctx) cmd.id ls).modCtx cmd.ctx fun x => x.noteInput cmd)
      if m.late then s.landLate k cmd.id d m.status else s.landStatus k none (statusLands d 1 [])

/-- The handles that the addresses of a command name. -/
def handlesOf (vs : List W64) : List PReg :=
  vs.filterMap fun v => match eaddr v with | .win n _ => some (.h n) | .scr _ => none

/-- R224-R232: the word of an engine command. -/
def engSem (m : EngSpec) (once : State → Bool) (d g c k scope : Nat) : WordSem where
  ready s := !s.me.tagBusy s.now k && s.me.noAcquire && m.turn s &&
    decide ((s.cmds.filter fun x => x.ctx == s.cur.ctx && x.cls == m.cls && !x.abandoned && some x.group == s.me.group).length < 16)
  chk s :=
    if m.absent s || m.range s g c then none
    else
      let us := m.uses s (s.me.staging g m.n)
      (us.findSome? fun u => u.chk s).orElse fun _ => (s.me.compPair c).bind fun p => compChk s p.1
  srcs := ((List.range m.n).map fun i => .g (g + i)) ++ if c = 0 then [] else [.s c, .s (c + 1)]
  popped s := (handlesOf ((s.me.staging g m.n) ++ ((s.me.compPair c).map (·.1)).toList)).findSome? s.me.poisonOf
  once := once
  eff s := s.accept m d g c k scope

/-! ### The work of an engine -/

/-- Why the work of an engine stops: it waits (for a migration to commit, R304, or for a peer), a page is asked for, a peer is asked, or
the command fails with a status at an item. -/
inductive EngErr where
  | later
  | page (k : FKey) (write : Bool)
  | ask (idx item vc w o : Nat) (op : FabOp)
  | fail (code idx : Nat)

/-- The work of an engine on the machine. -/
abbrev Eng (α : Type) := EStateM EngErr State α

/-- The command fails. -/
def engFail {α : Type} (code idx : Nat) : Eng α := throw (.fail code idx)

/-- The command fails where a condition holds. -/
def failIf (c : Bool) (code idx : Nat) : Eng Unit := if c then engFail code idx else pure ()

/-- R424, R432: a translation of a command. -/
def engXlat (k : Cmd) (idx va : Nat) (r w : Bool) : Eng Xlat := do
  let s ← get
  match s.translate none k.vd (va % 2 ^ 55) r w with
  | (s, .ok x) => set s; pure x
  | (_, .error (.request key)) => if k.denied = some key then engFail 15 idx else throw (.page key w)
  | (_, .error (.fail _ _)) => engFail 15 idx
  | (_, .error .later) => throw .later

/-- R390: the virtual channel of a command's accesses to peers: bulk for class 6, that of the command for `coll`, `fput` and `fget`,
control for every other (log entry 28). -/
def Cmd.vc (k : Cmd) : Nat :=
  match k.cls, k.op with
  | 6, _ => 3
  | 14, 0 => bitsOf (k.g.getD 0 0) 20 2
  | 14, 1 | 14, 2 => bitsOf (k.g.getD 2 0) 32 2
  | _, _ => 0

/-- R226, R401: an access of an engine to a peer's window. A step that needs one asks for it and is tried again once the peer has
answered; the answers it got stand until the step is done. `code` tells the accesses of one place apart. -/
def engPeer (k : Cmd) (idx va w o code : Nat) (op : FabOp) : Eng (List Byte) := do
  let s ← get
  let i := ((s.cmds.find? (·.id == k.id)).map (·.peers)).getD 0
  let item := 2 ^ 64 * (1 + i + 2 ^ 32 * (va + 2 ^ 64 * code))
  set { s with cmds := s.cmds.map fun (c : Cmd) => if c.id = k.id then { c with peers := i + 1 } else c }
  match s.fabReqs.find? fun q => q.user == .cmd k.id item with
  | none => throw (.ask idx item k.vc w o op)
  | some q =>
    if q.err ≠ 0 then engFail q.err idx
    else
      match q.reply with
      | some bs => pure bs
      | none => throw .later

/-- R226, R231, R442: bytes that an engine interprets, of this chip or a peer; a poisoned line ends the command. -/
def engPart (k : Cmd) (idx va n : Nat) (w : Bool) : Eng (List Byte) := do
  let x ← engXlat k idx va true w
  match x.fab with
  | some (w, o) => do
    let bs ← engPeer k idx va w o (2 * n) (.read n)
    pure (slice bs 0 n)
  | none => do
    let s ← get
    if apertureBase ≤ x.pa then
      let (s, bs, _) := s.readAt 0 k.vd x n
      set s
      pure bs
    else
      if (s.rangePoison x.pa n).isSome then engFail 15 idx
      pure (s.phys x.pa n)

/-- A guest range that an engine interprets. -/
def engRead (k : Cmd) (idx va n : Nat) (w : Bool := false) : Eng (List Byte) :=
  (splitPages (n / 2 ^ 16 + 2) va n 0).foldlM (fun acc (a, m, _) => do
    let bs ← engPart k idx a m w
    pure (acc ++ bs)) []

/-- R397: bytes in packets of at most 4,096, each with its offset. -/
def packets : Nat → Nat → List Byte → List (Nat × List Byte)
  | 0, _, _ => []
  | fuel + 1, off, bs => if bs.isEmpty then [] else (off, bs.take 4096) :: packets fuel (off + 4096) (bs.drop 4096)

/-- R397, R401: bytes that an engine writes at a peer. A WRITE carries 16-byte chunks, 4 or 8 bytes; others go with what their chunks
hold. -/
def engSendBytes (k : Cmd) (idx va w o : Nat) (bs : List Byte) : Eng Unit := do
  let n := bs.length
  let whole := n == 4 || n == 8 || (n % 16 == 0 && o % 16 == 0)
  let head := if whole then 0 else o % 16
  let len := if whole then n else (head + n + 15) / 16 * 16
  let data ← if whole then pure bs
    else do
      let old ← engPeer k idx (va - head) w (o - head) (2 * len) (.read len)
      pure (overlay (slice old 0 len) head bs)
  (packets (len / 4096 + 1) 0 data).forM fun (off, b) => do
    let _ ← engPeer k idx (va - head + off) w (o - head + off) (2 * natAt b 0 b.length + 1) (.write b)
    pure ()

/-- R226, R231: a guest range that an engine writes, on this chip or at a peer. -/
def engWrite (k : Cmd) (idx va : Nat) (bs : List Byte) : Eng Unit :=
  (splitPages (bs.length / 2 ^ 16 + 2) va bs.length 0).forM fun (a, m, off) => do
    let x ← engXlat k idx a false true
    match x.fab with
    | some (w, o) => engSendBytes k idx a w o (slice bs off m)
    | none => modify fun s => s.performFor (tileOf k.ctx) x.pa (slice bs off m)

/-- A handle of a command. -/
def Cmd.handle (k : Cmd) (n : Nat) : Handle := SMap.get Handle.invalid k.handles n

/-- The guest address of a value in handle form. -/
def Cmd.va (k : Cmd) (v : W64) : Nat :=
  match eaddr v with
  | .win n off => (k.handle n).va off
  | .scr a => a

/-- A staging word of a command. -/
def Cmd.gw (k : Cmd) (i : Nat) : W64 := k.g.getD i 0

/-- Scratchpad bytes that an engine interprets. -/
def engScr (k : Cmd) (idx a n : Nat) : Eng (List Byte) := do
  let s ← get
  if (s.scrPoison (tileOf k.ctx) a n).isSome then engFail 15 idx
  pure (s.scr (tileOf k.ctx) a n)

/-- Scratchpad bytes that an engine writes. -/
def engScrPut (k : Cmd) (a : Nat) (bs : List Byte) : Eng Unit := modify fun s => s.scrWrite (tileOf k.ctx) a bs

/-- R230: scratchpad lines that a command names by data pass to it, or it ends with RANGE. -/
def engTake (k : Cmd) (idx a n : Nat) : Eng Unit := do
  let s ← get
  failIf (decide (2 ^ 22 < a + n)) 2 idx
  let ls := (linesIn a n).filter fun l => (s.sline (tileOf k.ctx) l).eng != some k.id
  failIf (ls.any fun l => let y := s.sline (tileOf k.ctx) l; y.pin != some (bankOf k.ctx) || y.eng.isSome) 2 idx
  set (s.takeLines (tileOf k.ctx) k.id ls)

/-- How far a step of a command has brought it. -/
inductive Prog where
  | more (k : Cmd)
  | ended (k : Cmd) (code idx : Nat) (flag : Bool)

/-- The command has ended well. -/
def Prog.ok (k : Cmd) : Prog := .ended k 0 0xFFFF false

/-! ### The end of a command (R227, R230, R472) -/

/-- R227: the value of a completion word. -/
def compValue (v : W64) (cls op code idx : Nat) (flag : Bool) : W64 :=
  if code = 0 ∨ code = 17 then
    if cls = 14 ∧ op = 0 then setBits v 62 1 flag.toNat else v
  else BitVec.ofNat 64 (2 ^ 63 + code * 2 ^ 48 + idx % 2 ^ 16 * 2 ^ 32 + v.toNat % 2 ^ 32)

/-- R324, R325: the stack that holds the row at which an `nbmv` stands, in the extent of its version; stack 0, which holds the header, for
another command of class 13. -/
def State.nbStack (s : State) (k : Cmd) : Nat :=
  let ws := bitsOf (k.gw 0) 58 6
  let nc := bitsOf (k.gw 1) 0 32
  match [0, 1].find? fun x => (s.extent ws x).state == 2 && (s.extent ws x).version == k.version with
  | some x =>
    if k.op ≠ 0 then 0
    else
      let fmt := s.physNat (s.dfld Dev.nbXcfg ws (16 + 17 * x) 17 * 2 ^ 23 + 4) 1
      (bitsOf (k.gw 0) 0 48 + k.index * (if fmt = 4 then nc else nc / 2)) / 4096 % 8
  | none => 0

/-- R357: the engine that ends a command. The home-slice logic is that of the structure named by its first staging word. -/
def State.cmdSource (s : State) (k : Cmd) : Nat :=
  match k.cls with
  | 6 => 0x200 + tileOf k.ctx
  | 10 => if k.iod then 0x262 else 0x260 + dieOfCtx k.ctx
  | 13 => 0x268 + s.nbStack k
  | 14 => 0x264
  | _ =>
    let name := (natAt (s.scr (tileOf k.ctx) (bitsOf (k.gw (if k.cls = 12 ∧ k.op = 0 then 1 else 0)) 0 22) 1) 0 1) % 128
    if k.cls = 11 ∧ k.op ≠ 3 then 0x280 + name
    else if k.cls = 12 ∧ k.op < 3 then
      0x280 + homeSlice (s.dfld Dev.rlWscfg (bitsOf (k.gw 0) 0 6) 0 42 * 1024)
    else
      match (s.translate none k.vd (k.va (k.gw 0)) true false).2 with
      | .ok x => 0x280 + homeSlice x.pa
      | .error _ => 0x280

/-- R472: a record of KIND 24. -/
def State.cmdRecord (s : State) (k : Cmd) (code idx : Nat) : State :=
  s.record {
    kind := 24, source := s.cmdSource k, gid := ((s.group k.group).map (·.gid)).getD 0, vd := k.vd, lx := k.lx, ly := k.ly,
    addr := k.cls * 2 ^ 56 + k.op * 2 ^ 48 + idx % 2 ^ 16, aux := code }

/-- The task of a command still runs in the bank that issued it. -/
def State.stillRuns (s : State) (k : Cmd) : Bool :=
  let x := s.ctx k.ctx
  x.group == some k.group && x.lx == k.lx && x.ly == k.ly && x.st != .idle && x.st != .dead && x.incarnation == k.incarnation

/-- R230, R134, R434: the lines that a command holds return to the core, or are unpinned where its task is gone. -/
def State.returnLines (s : State) (k : Cmd) : State :=
  let keep := s.stillRuns k
  (s.scratch.filter fun (n, y) => n / 2 ^ 15 == tileOf k.ctx && y.eng == some k.id).foldl (fun s (n, y) =>
    { s with scratch := SMap.set SLine.free s.scratch n (if keep then { y with eng := none } else SLine.free) }) s

/-- A command is gone: its pins and lines return, and a tag that waited for it may be released. -/
def State.retire (s : State) (k : Cmd) : State :=
  let s := if k.cls = 6 then s.dropPins k.group k.lx k.ly 8 else s
  let s := { s.returnLines k with cmds := s.cmds.filter (·.id != k.id) }
  s.modCtx k.ctx fun x => { x with
    flights := x.flights.map fun f =>
      if f.cmd = some k.id then { f with cmd := none, first := Nat.max f.first (s.now + 1), bound := some (Nat.max f.first (s.now + 1)) }
      else f }

/-! ### Saved images (R367) -/

/-- The saved image of a task. -/
def State.imageOf (s : State) (group lx ly : Nat) : Option Image :=
  s.images.find? fun i => i.group == group && i.lx == lx && i.ly == ly

/-- R367: the CRC of an image of `n` bytes. -/
def State.imageCrc (s : State) (base n : Nat) : W32 := crc32c (s.phys base 0x70 ++ zeros 4 ++ s.phys (base + 0x74) (n - 0x74))

/-- A change of an image, with its CRC. -/
def State.imagePut (s : State) (base off : Nat) (bs : List Byte) : State :=
  let s := s.physWrite (base + off) bs
  s.physWrite (base + 0x70) (toLE 4 (s.imageCrc base (s.physNat (base + 0x68) 8)).toNat)

/-- R368: the offset in an image of a scratchpad address on a pinned line. -/
def State.imageScr (s : State) (base a : Nat) : Option Nat :=
  let sect := s.physNat (base + 0x80 + 8 * 10) 4
  let bit (j : Nat) : Bool := fldB (s.physNat (base + sect + j / 8) 1) (j % 8)
  if bit (a / 128) then some (sect + 8192 + 128 * ((List.range (a / 128)).filter bit).length + a % 128) else none

/-- R230, R253: a completion word in scratchpad is written where the task is: in its bank, in its saved image, or nowhere. -/
def State.compScratch (s : State) (k : Cmd) (a : Nat) (bs : List Byte) : State :=
  let x := s.ctx k.ctx
  if x.group == some k.group && x.lx == k.lx && x.ly == k.ly && x.st != .idle then s.scrWrite (tileOf k.ctx) a bs
  else
    match s.imageOf k.group k.lx k.ly with
    | none => s
    | some i =>
      let base := s.slotBase i.vd i.slot
      match s.imageScr base a with
      | some o => s.imagePut base o bs
      | none => s

/-- R227, R432: the completion word is written, and the command is gone. One at a peer is sent first; `step` 1000 says so. -/
def engComplete (k : Cmd) (code idx : Nat) (flag : Bool) : Eng Unit := do
  match k.comp with
  | none =>
    if code ≠ 0 ∧ code ≠ 17 then modify fun s => s.cmdRecord k code idx
    modify fun s => s.retire k
  | some (a, v) =>
    let bs := toLE 8 (compValue v k.cls k.op code idx flag).toNat
    match eaddr a with
    | .scr a =>
      modify fun s => (s.compScratch k a bs).retire k
    | .win n off =>
      let va := (k.handle n).va off
      if k.step = 1000 then modify fun s => s.retire k
      else
        let s ← get
        match s.translate none k.vd va false true with
        | (s, .ok x) =>
          match x.fab with
          | none => set ((s.performFor (tileOf k.ctx) x.pa bs).retire k)
          | some (w, o) =>
            match s.fabSend (.cmd k.id 0) k.vc w o (.write bs) with
            | (s, some r) =>
              set { s with cmds := s.cmds.map fun (c : Cmd) =>
                if c.id = k.id then { k with step := 1000, freqs := [r], ending := some (code, idx, flag) } else c }
            | (s, none) => set ((s.cmdRecord k 15 0xFFFF).retire k)
        | (s, .error (.request key)) =>
          if k.denied = some key then set ((s.cmdRecord k 15 0xFFFF).retire k) else throw (.page key true)
        | (s, .error (.fail _ _)) => set ((s.cmdRecord k 15 0xFFFF).retire k)
        | (_, .error .later) => throw .later

/-! ### One step of a command (R231, R232) -/

/-- R232: an earlier command of the task of a command in its class. -/
def Cmd.precedes (x k : Cmd) : Bool :=
  decide (x.id < k.id) && x.cls == k.cls && x.group == k.group && x.lx == k.lx && x.ly == k.ly && x.abandoned == k.abandoned

/-- R232: a command that moves data of class 14: `coll`, `fput` or `fget`. -/
def Cmd.moves (k : Cmd) : Bool := k.cls == 14 && decide (k.op < 3)

/-- The addresses in global memory that a command of class 14 may write. -/
def Cmd.target14 (k : Cmd) : Nat × Nat :=
  let v := k.gw (if k.op = 0 then 2 else 1)
  if v.getLsbD 63 then
    (k.va v, k.va v + if k.op = 0 then 4 * bitsOf (k.gw 3) 0 32 else bitsOf (k.gw 2) 0 32)
  else (0, 0)

/-- R232, R260: the transfers of two commands may overlap: they write no common chunk. -/
def Cmd.besides (x k : Cmd) : Bool :=
  x.moves && k.moves &&
    (let (a, b) := x.target14
     let (c, d) := k.target14
     decide (b ≤ c) || decide (d ≤ a))

/-- R13: a request of a tile's copy engine finds room among the tile's line requests. -/
def State.copyRoom (s : State) (k : Cmd) : Bool := k.cls != 6 || s.lineRoom (tileOf k.ctx) s.serial

/-- R231, R232: a command may take its next step: the earlier ones of its task in its class have ended, or move data beside it; it waits
for no page and no peer, and the releases before it are performed. -/
def State.cmdMay (s : State) (k : Cmd) : Bool :=
  k.wait.isNone && s.copyRoom k &&
    !(s.cmds.any fun x => x.precedes k && (k.ending.isSome || !x.besides k)) &&
    ((k.freqs ++ k.asks).all fun r => match s.fabReq r with | some q => q.reply.isSome || q.err != 0 | none => true) &&
    !(s.posted.any fun p => p.ctx == k.ctx && p.id < k.id && p.rel.isSome && s.stillRuns k) &&
    !((s.ctx k.ctx).flights.any fun f => s.stillRuns k && f.id < k.id && (f.load.map fun l => l.rel.isSome).getD false)

/-- The status with which a request of the command failed, or 0. -/
def State.reqErr (s : State) (k : Cmd) : Nat :=
  (k.freqs.findSome? fun r => (s.fabReq r).bind fun q => if q.err = 0 then none else some q.err).getD 0

/-- R432, R382: the work of a command is tried: what it does stands, or nothing of it does, and it waits for a page. -/
def State.attempt (s : State) (k : Cmd) (m : Eng Unit) : State :=
  match m.run s with
  | .ok _ t => t
  | .error (.page key write) _ =>
    let s := s.request key write true (s.cmdSource k)
    { s with cmds := s.cmds.map fun c => if c.id = k.id then { c with wait := some key } else c }
  | .error (.fail _ _) t => t
  | .error .later _ | .error (.ask ..) _ => s

/-- R207, R227, R249, R252, R255, R276: the release of a command at a scope may be performed. -/
def State.cmdReleased (s : State) (k : Cmd) (scope : Nat) : Bool :=
  !s.stillRuns k || s.releaseReady {
    id := k.id, ctx := k.ctx, vd := k.vd, va := 0, bytes := [], op := .write, rel := some scope, xl := none,
    wait := none, stream := none, log := none, promoted := false, bound := 0, freq := none, bundle := k.bundle }

/-- R227, R232: the completion of a command may be written: those before it are, and a word in global memory is written by a release at
its scope. -/
def State.completes (s : State) (k : Cmd) : Bool :=
  !(s.cmds.any fun x => x.precedes k) &&
  match k.comp with
  | some (a, _) => !a.getLsbD 63 || s.cmdReleased k k.scope
  | none => true

/-- The answers of peers to a step of a command are forgotten. -/
def State.dropAsks (s : State) (k : Cmd) : State := k.asks.foldl State.dropReq s

/-- One step of a command whose work is `body`. A failure ends it with what it has done. -/
def State.cmdStep (s : State) (k : Cmd) (body : Cmd → Eng Prog) : State :=
  match k.ending with
  | some (code, idx, flag) =>
    if k.step = 1000 && s.reqErr k != 0 then (s.cmdRecord k 15 0xFFFF).retire k
    else s.attempt k (engComplete k code idx flag)
  | none =>
    let close (t : State) (q : Cmd) (code idx : Nat) (flag : Bool) : State :=
      let q := { q with ending := some (code, idx, flag), freqs := [], asks := [], data := [], step := 0 }
      let t := (t.dropAsks k).setCmd q
      if t.completes q then t.attempt q (engComplete q code idx flag) else t
    match (body k).run (s.setCmd { k with peers := 0 }) with
    | .ok (.more q) t => (t.dropAsks k).setCmd { q with asks := [] }
    | .ok (.ended q code idx flag) t => close t q code idx flag
    | .error (.page key write) _ =>
      (s.request key write true (s.cmdSource k)).setCmd { k with wait := some key }
    | .error (.ask idx item vc w o op) t =>
      match s.fabSend (.cmd k.id item) vc w o op with
      | (s, some r) => s.setCmd { k with asks := k.asks ++ [r] }
      | (_, none) => close t k 12 idx false
    | .error (.fail code idx) t => close t k code idx false
    | .error .later _ => s

end Sys2Proof.Machine
end

