-- ==== Sys2Proof/Machine/Copy.lean ====
section
/-!
DEFINITION. The copy engine, class 6 (R234-R239), and the transfers that `fput` and `fget` share with it (R235, R261).
-/

namespace Sys2Proof.Machine

/-! ### Transfers (R234, R235) -/

/-- A transfer: what is read (`none`: a pattern), what is written, its extents and strides, and whether it adds. -/
structure Transfer where
  src : Option W64
  dst : W64
  pattern : W64 := 0
  e0 : Nat
  e1 : Nat := 1
  e2 : Nat := 1
  s1 : Int := 0
  s2 : Int := 0
  d1 : Int := 0
  d2 : Int := 0
  add : Bool := false

/-- The bytes of a transfer. -/
def Transfer.total (m : Transfer) : Nat := m.e0 * m.e1 * m.e2

/-- The relative address of the byte at a place of the byte order. -/
def Transfer.rel (m : Transfer) (st1 st2 : Int) (b : Nat) : Int :=
  ((b / m.e0 % m.e1 : Nat) : Int) * st1 + ((b / (m.e0 * m.e1) : Nat) : Int) * st2 + ((b % m.e0 : Nat) : Int)

/-- A place that a transfer reads or writes. -/
inductive Place where
  | scr (a : Nat)
  | va (a : Nat)
deriving DecidableEq, Repr

/-- The place of a byte of an engine address. -/
def Cmd.place (k : Cmd) (v : W64) (rel : Int) : Place :=
  match eaddr v with
  | .scr a => .scr ((a : Int) + rel).toNat
  | .win n off => .va (((k.handle n).base : Int) + off + rel).toNat

/-- The number of a place. -/
def Place.addr : Place → Nat
  | .scr a | .va a => a

/-- A part of a transfer that lies in one row and in one line at either end. -/
structure Span where
  off : Nat
  len : Nat
  src : Option Place
  dst : Place

/-- The parts of the bytes from `b` up to `stop`. -/
def Transfer.spans (m : Transfer) (k : Cmd) : Nat → Nat → Nat → List Span
  | 0, _, _ => []
  | fuel + 1, b, stop =>
    if stop ≤ b then []
    else
      let src := m.src.map fun v => k.place v (m.rel m.s1 m.s2 b)
      let dst := k.place m.dst (m.rel m.d1 m.d2 b)
      let room := (src.map fun p => 128 - p.addr % 128).getD 128
      let n := Nat.min (Nat.min (stop - b) (m.e0 - b % m.e0)) (Nat.min room (128 - dst.addr % 128))
      ⟨b, n, src, dst⟩ :: m.spans k fuel (b + n) stop

/-- Where a part reads or writes on this chip, or in an egress window. -/
inductive Where where
  | scr (a : Nat)
  | mem (x : Xlat)
  | fab (w o : Nat)

/-- R302, R424: the place of a part is translated, and its page pinned. -/
def engPlace (k : Cmd) (idx : Nat) (p : Place) (r w : Bool) : Eng Where :=
  match p with
  | .scr a => pure (.scr a)
  | .va a => do
    let x ← engXlat k idx a r w
    match x.fab with
    | some (w, o) => pure (.fab w o)
    | none =>
      if k.cls = 6 then modify fun s => s.pinPage k.group k.lx k.ly 8 k.vd a
      pure (.mem x)

/-- R442: the poison mark of a line at a place. -/
def State.whereLine (s : State) (tile : Nat) (n : Nat) : Where → Option Origin
  | .scr a => s.scrPoison tile a n
  | .mem x => (s.rangePoison x.pa n).map Origin.away
  | .fab _ _ => none

/-- R442: a copied line carries its mark to the place it is copied to. -/
def State.markWhere (s : State) (tile : Nat) (o : Origin) : Where → State
  | .scr a => s.setSline tile a { s.sline tile a with poison := some o.away }
  | .mem x => s.poisonLine (x.pa / 128) o.away
  | .fab _ _ => s

/-- The bytes at a place of this chip. -/
def State.readWhere (s : State) (tile n : Nat) : Where → List Byte
  | .scr a => s.scr tile a n
  | .mem x => if apertureBase ≤ x.pa then zeros n else s.phys x.pa n
  | .fab _ _ => zeros n

/-- A write at a place of this chip (R231). -/
def State.writeWhere (s : State) (tile : Nat) (bs : List Byte) : Where → State
  | .scr a => s.scrWrite tile a bs
  | .mem x => s.performFor tile x.pa bs
  | .fab _ _ => s

/-- R238: F32 elements added into the destination's, under RNE. -/
def addElems (n : Nat) (d s : List Byte) : List Byte :=
  let val (bs : List Byte) (i : Nat) : Num := (Fmt.f32.decode (natAt bs (4 * i) 4)).1
  (List.range (n / 4)).flatMap fun i => toLE 4 (f32Code (sumF32 (val d i) (val s i)).1)

/-- A request of a command to a peer. -/
def engSend (k : Cmd) (item vc w o : Nat) (op : FabOp) : Eng Nat := do
  let s ← get
  match s.fabSend (.cmd k.id item) vc w o op with
  | (s, some r) => set s; pure r
  | (_, none) => engFail 12 k.index

/-- The failure of a peer's answer ends the command; otherwise the requests are forgotten. -/
def engAnswered (k : Cmd) : Eng Unit := do
  let s ← get
  failIf (s.reqErr k != 0) (s.reqErr k) k.index
  set (k.freqs.foldl State.dropReq s)

/-- The answer to the request of an item. -/
def State.answerOf (s : State) (k : Cmd) (item : Nat) : List Byte :=
  ((s.fabReqs.find? fun q => q.user == .cmd k.id item).bind (·.reply)).getD []

/-- R235: the writes of a chunk, each with the bytes and the poison read for it. The answer is the requests sent. -/
def writeSpans (k : Cmd) (m : Transfer) (vc : Nat) (l : List (Span × List Byte × Option Origin)) : Eng (List Nat) :=
  l.foldlM (fun reqs (sp, bs, po) => do
    let d ← engPlace k k.index sp.dst m.add true
    let tile := tileOf k.ctx
    match d with
    | .fab w o => do
      if m.add then engFail 16 k.index
      if po.isSome then engFail 15 k.index
      let r ← engSend k sp.off vc w o (.write bs)
      pure (reqs ++ [r])
    | d => do
      let s ← get
      if m.add then
        failIf (po.isSome || (s.whereLine tile sp.len d).isSome) 15 k.index
        set (s.writeWhere tile (addElems sp.len (s.readWhere tile sp.len d) bs) d)
      else
        let s := s.writeWhere tile bs d
        set (match po with | some o => s.markWhere tile o d | none => s)
      pure reqs) []

/-- R235: one chunk of a transfer, from byte `k.done` on, in its phases: 0 to read, 1 waiting for a peer's data, 2 waiting for a
peer's acknowledgements. The answer says whether the chunk is done. -/
def moveChunk (k : Cmd) (m : Transfer) (vc : Nat) : Eng (Cmd × Bool) := do
  let stop := Nat.min (k.done + 65536) m.total
  let spans := m.spans k 65536 k.done stop
  let tile := tileOf k.ctx
  if k.step = 2 then
    engAnswered k
    return ({ k with step := 0, freqs := [], done := stop, target := k.target + (stop - k.done) }, true)
  else
    let srcs ← spans.mapM fun sp => match sp.src with
      | none => pure none
      | some p => do let w ← engPlace k k.index p true false; pure (some w)
    let asks := (spans.zip srcs).filterMap fun (sp, w) => match w with | some (.fab w o) => some (sp, w, o) | _ => none
    if k.step = 0 ∧ !asks.isEmpty then
      let reqs ← asks.mapM fun (sp, w, o) => engSend k sp.off vc w o (.read sp.len)
      return ({ k with step := 1, freqs := reqs }, false)
    else
      let s ← get
      let data := (spans.zip srcs).map fun (sp, w) =>
        match w with
        | none =>
          let bs := toLE 8 m.pattern.toNat
          (sp, (List.range sp.len).map fun i => bs.getD ((sp.off + i) % 8) 0, none)
        | some (.fab _ _) => (sp, slice (s.answerOf k sp.off) 0 sp.len, none)
        | some w => (sp, s.readWhere tile sp.len w, s.whereLine tile sp.len w)
      if k.step = 1 then engAnswered k
      let reqs ← writeSpans k m vc data
      if reqs.isEmpty then
        return ({ k with step := 0, freqs := [], done := stop, target := k.target + (stop - k.done) }, true)
      else return ({ k with step := 2, freqs := reqs }, false)

/-- A step of a command that is one transfer. -/
def moveStep (k : Cmd) (m : Transfer) (vc : Nat) : Eng Prog := do
  let (k, whole) ← moveChunk k m vc
  return if whole && decide (m.total ≤ k.done) then .ok k else .more k

/-! ### The commands -/

/-- R234: the transfer of `xcopy` and `xred`. -/
def copyMove (add : Bool) (g : List W64) : Transfer :=
  let w (i : Nat) := g.getD i 0
  let e1 := bitsOf (w 2) 24 24
  let e2 := bitsOf (w 2) 48 16
  { src := some (w 0), dst := w 1, e0 := bitsOf (w 2) 0 24, e1 := e1, e2 := e2
    s1 := if e1 = 1 then 0 else sext 32 (bitsOf (w 3) 0 32), s2 := if e2 = 1 then 0 else sext 32 (bitsOf (w 3) 32 32)
    d1 := if e1 = 1 then 0 else sext 32 (bitsOf (w 4) 0 32), d2 := if e2 = 1 then 0 else sext 32 (bitsOf (w 4) 32 32)
    add := add }

/-- The rows of a transfer at one end, where it lies in scratchpad. -/
def Transfer.rows (m : Transfer) (v : W64) (st1 st2 : Int) : List (Int × Nat) :=
  match eaddr v with
  | .win .. => []
  | .scr _ => (List.range m.e2).flatMap fun (i : Nat) =>
      (List.range m.e1).map fun (j : Nat) => ((j : Int) * st1 + (i : Int) * st2, m.e0)

/-- The lowest and the highest byte of a transfer at one end. -/
def Transfer.span (m : Transfer) (st1 st2 : Int) : Int × Int :=
  let a := ((m.e1 - 1 : Nat) : Int) * st1
  let b := ((m.e2 - 1 : Nat) : Int) * st2
  (min a 0 + min b 0, max a 0 + max b 0 + m.e0)

/-- R226, R229: the addresses of a transfer. -/
def Transfer.uses (m : Transfer) : List Use :=
  (m.src.toList.map fun v =>
    let (lo, hi) := m.span m.s1 m.s2
    { v := v, lo := lo, hi := hi, rows := m.rows v m.s1 m.s2, r := true }) ++
    [let (lo, hi) := m.span m.d1 m.d2
     { v := m.dst, lo := lo, hi := hi, rows := m.rows m.dst m.d1 m.d2, r := m.add, w := true }]

/-- R234: a limit of `xcopy` or `xred` is broken. -/
def badCopy (g : List W64) : Bool :=
  let m := copyMove false g
  badEaddr (g.getD 0 0) || badEaddr (g.getD 1 0) || m.e0 == 0 || m.e1 == 0 || m.e2 == 0 || m.e0 % 16 != 0 ||
    [m.s1, m.s2, m.d1, m.d2].any fun st => st % 16 != 0

/-- `xcopy` (`add` false) and `xred`. -/
def specCopy (add : Bool) : EngSpec where
  cls := 6
  op := if add then 3 else 0
  n := 5
  bad _ g := badCopy g
  uses _ g := (copyMove add g).uses

/-- R236. -/
def specXlist : EngSpec where
  cls := 6
  op := 1
  n := 2
  bad _ g := let n := bitsOf (g.getD 1 0) 0 32
    badEaddr (g.getD 0 0) || bitsOf (g.getD 1 0) 32 32 != 0 || n == 0 || decide (65536 < n)
  uses _ g := [Use.flat (g.getD 0 0) (32 * bitsOf (g.getD 1 0) 0 32) 32 true false]

/-- R237: the transfer of `xfill`. -/
def fillMove (g : List W64) : Transfer := { src := none, dst := g.getD 0 0, pattern := g.getD 1 0, e0 := bitsOf (g.getD 2 0) 0 48 }

/-- R237. -/
def specXfill : EngSpec where
  cls := 6
  op := 2
  n := 3
  bad _ g := badEaddr (g.getD 0 0) || bitsOf (g.getD 2 0) 48 16 != 0 || bitsOf (g.getD 2 0) 0 48 == 0 ||
    bitsOf (g.getD 2 0) 0 48 % 16 != 0
  uses _ g := [Use.flat (g.getD 0 0) (bitsOf (g.getD 2 0) 0 48) 16 false true]

/-- R239. -/
def specXstat : EngSpec where
  cls := 6
  op := 4
  n := 0

/-- R236: the checks of an address of a list entry; a failure ends the command with RANGE at the entry. -/
def engEntryAddr (k : Cmd) (v : W64) (n : Nat) (r w : Bool) : Eng Unit := do
  failIf (badEaddr v) 2 k.index
  match eaddr v with
  | .scr a => do
    failIf (a % 16 != 0) 2 k.index
    engTake k k.index a n
  | .win h off =>
    let h := k.handle h
    failIf (!h.valid || (r && !h.r) || (w && !h.w) || decide (2 ^ h.l2s < off + n) || off % 16 != 0) 2 k.index

/-- R236: the transfer of a list entry. -/
def entryMove (e : List Byte) : Transfer :=
  { src := some (BitVec.ofNat 64 (natAt e 0 8)), dst := BitVec.ofNat 64 (natAt e 8 8), e0 := natAt e 16 4 }

/-- R236: a list entry is read and checked, and its scratchpad lines pass to the engine. -/
def listEntry (k : Cmd) : Eng (List Byte) := do
  let at_ := 32 * k.index
  let e ← match eaddr (k.gw 0) with
    | .scr a => engScr k k.index (a + at_) 32
    | .win h off => engRead k k.index ((k.handle h).va off + at_) 32
  let src := BitVec.ofNat 64 (natAt e 0 8)
  let dst := BitVec.ofNat 64 (natAt e 8 8)
  let len := natAt e 16 4
  failIf (natAt e 20 12 != 0 || len % 16 != 0 || len == 0 || decide (2 ^ 24 < len)) 2 k.index
  engEntryAddr k src len true false
  engEntryAddr k dst len false true
  pure (e.take 32)

/-- R236: the entry in hand is read when it is reached, and kept; then its chunks are copied one by one. -/
def listStep (k : Cmd) : Eng Prog := do
  if k.data.isEmpty then
    let e ← listEntry k
    return .more { k with data := e }
  else
    let m := entryMove k.data
    let (k, whole) ← moveChunk k m k.vc
    if whole && decide (m.total ≤ k.done) then
      let k := { k with index := k.index + 1, done := 0, data := [] }
      return if bitsOf (k.gw 1) 0 32 ≤ k.index then .ok k else .more k
    else return .more k

/-- A step of a class-6 command. -/
def copyBody (k : Cmd) : Eng Prog :=
  match k.op with
  | 0 => moveStep k (copyMove false k.g) k.vc
  | 1 => listStep k
  | 2 => moveStep k (fillMove k.g) k.vc
  | _ => moveStep k (copyMove true k.g) k.vc

def semXcopy (d g c k scope : Nat) : WordSem := engSem (specCopy false) (fun _ => false) d g c k scope
def semXlist (d g c k scope : Nat) : WordSem := engSem specXlist (fun _ => false) d g c k scope
def semXfill (d g c k scope : Nat) : WordSem := engSem specXfill (fun _ => false) d g c k scope

/-- R445: an `xred` into anything but scratchpad runs its phase only once. -/
def semXred (d g c k scope : Nat) : WordSem :=
  engSem (specCopy true) (fun s => match eaddr (s.me.gget (g + 1)) with | .scr _ => false | .win .. => true) d g c k scope

/-- R239: the commands not ended, and the bytes done by the oldest. -/
def State.xstatValue (s : State) : Nat :=
  let mine := s.cmds.filter fun x => x.ctx == s.cur.ctx && x.cls == 6 && some x.group == s.me.group && !x.abandoned
  mine.length * 2 ^ 8 + ((mine.head?.map (·.target)).getD 0) % 2 ^ 48 * 2 ^ 16

def semXstat (d g c k scope : Nat) : WordSem :=
  { engSem specXstat (fun _ => false) d g c k scope with
    eff := fun s => s.landStatus k none (statusLands d s.xstatValue []) }

/-! ### The instructions -/

/-- R234. Copy-engine strided copy of up to three dimensions. -/
def execXcopy (h : Hdr) (d g c k scope : Nat) (s : State) :
    Host.Outcome State Fault Refusal :=
  runWord h (semXcopy d g c k scope) s

/-- R236. Copy-engine copy following a list of entries. -/
def execXlist (h : Hdr) (d g c k scope : Nat) (s : State) :
    Host.Outcome State Fault Refusal :=
  runWord h (semXlist d g c k scope) s

/-- R237. Copy-engine fill with a 64-bit pattern. -/
def execXfill (h : Hdr) (d g c k scope : Nat) (s : State) :
    Host.Outcome State Fault Refusal :=
  runWord h (semXfill d g c k scope) s

/-- R238. Copy-engine F32 add of source into destination. -/
def execXred (h : Hdr) (d g c k scope : Nat) (s : State) :
    Host.Outcome State Fault Refusal :=
  runWord h (semXred d g c k scope) s

/-- R239. Returns the count and progress of open class-6 commands. -/
def execXstat (h : Hdr) (d g c k scope : Nat) (s : State) :
    Host.Outcome State Fault Refusal :=
  runWord h (semXstat d g c k scope) s

end Sys2Proof.Machine
end

