-- ==== Sys2Proof/Machine/Kv.lean ====
section
/-!
DEFINITION. Key-value pages and the Grove, class 10 (R240-R245, R284-R301).
-/

namespace Sys2Proof.Machine

/-- Work that fails leaves nothing behind. -/
def atomically {α : Type} (m : Eng α) : Eng α := fun s =>
  match m s with
  | .error e _ => .error e s
  | r => r

/-- A scratchpad address in a staging field, as an engine address. -/
def scrForm (a : Nat) : W64 := BitVec.ofNat 64 (a % 2 ^ 22)

/-! ### Counts (R243, R289-R292) -/

/-- A pool that a command names; a descriptor that breaks R289 ends it with RANGE. -/
def engPool (k : Cmd) (idx va : Nat) (w : Bool := true) : Eng Pool := do
  let bs ← engRead k idx va 128 w
  match Pool.ofBytes va bs with
  | some p => pure p
  | none => engFail 2 idx

/-- The index of a page number in a pool, or RANGE. -/
def engIndex (p : Pool) (idx pn : Nat) : Eng Nat :=
  match p.index pn with
  | some n => pure n
  | none => engFail 2 idx

/-- A count word; reserved bits that are set end the command with RANGE (R228, R290). -/
def engCount (k : Cmd) (p : Pool) (idx n : Nat) : Eng Count := do
  let bs ← engRead k idx (p.cbase + 16 * n) 16 true
  let c := Count.ofBytes bs
  failIf (c.rsv != 0) 2 idx
  pure c

/-- A count word written. -/
def engSetCount (k : Cmd) (p : Pool) (idx n : Nat) (c : Count) : Eng Unit := engWrite k idx (p.cbase + 16 * n) c.bytes

/-- R243, R292: one reference more. -/
def engRef (k : Cmd) (p : Pool) (idx pn : Nat) : Eng Unit := do
  let n ← engIndex p idx pn
  let c ← engCount k p idx n
  failIf c.free 2 idx
  failIf (c.ref + 1 == 2 ^ 32) 5 idx
  engSetCount k p idx n { c with ref := c.ref + 1 }

/-- R243, R292, R304: one reference less; a page whose counts are zero goes back to the pool, a migrating one at the commit. -/
def engUnref (k : Cmd) (va idx pn : Nat) : Eng Unit := do
  let p ← engPool k idx va
  let n ← engIndex p idx pn
  let c ← engCount k p idx n
  failIf (c.free || c.ref == 0) 6 idx
  let c := { c with ref := c.ref - 1 }
  if c.ref = 0 ∧ c.pin = 0 ∧ !c.migrating then
    engSetCount k p idx n { c with free := true, link := p.freehd }
    engWrite k idx (p.va + 0x18) (toLE 8 (p.pbase / 2 ^ 16 + n))
    engWrite k idx (p.va + 0x20) (toLE 4 (p.freecnt + 1))
  else engSetCount k p idx n c

/-- R290: a page is allocated, with REF 1 and its header and trailer written; the answer is its page number. -/
def engAllocate (k : Cmd) (va idx : Nat) (layout : List Byte) (lg : Nat) : Eng Nat := do
  let p ← engPool k idx va
  failIf (p.freehd == 0) 3 idx
  let n ← engIndex p idx p.freehd
  let c ← engCount k p idx n
  engWrite k idx (p.va + 0x18) (toLE 8 c.link)
  engWrite k idx (p.va + 0x20) (toLE 4 (p.freecnt - 1))
  engSetCount k p idx n { c with ref := 1, free := false }
  let page := p.freehd * 2 ^ 16
  engWrite k idx page (toLE 4 0x4B565047 ++ [0] ++ layout ++ toLE 2 lg ++ zeros 108)
  engWrite k idx (page + 0xFF80) (zeros 128)
  pure p.freehd

/-! ### The Grove (R296-R300) -/

/-- R297: a node. -/
structure GNode where
  va : Nat
  el : Nat
  depth : Nat
  parent : Nat
  child : Nat
  sib : Nat
  toks : List Nat
  pg : List Nat
deriving Repr

/-- R297: the entries of a node that must be zero are: those of absent layer groups, and those of a second slot that the edge does not
reach. -/
def GNode.pagesOk (n : GNode) (ng : Nat) : Bool :=
  (List.range 32).all fun i =>
    n.pg.getD i 0 == 0 || (decide (i % 16 < ng) && (decide (i < 16) || decide (n.depth / 64 < (n.depth + n.el - 1) / 64)))

/-- R297: a node of a Grove with `ng` layer groups is read and checked. -/
def engNode (k : Cmd) (ng va depth : Nat) : Eng GNode := do
  failIf (va % 1024 != 0) 2 0xFFFF
  let bs ← engRead k 0xFFFF va 1024
  let n : GNode := ⟨va, natAt bs 4 2, natAt bs 8 4, natAt bs 0x10 8, natAt bs 0x18 8, natAt bs 0x20 8,
    (List.range 64).map fun i => natAt bs (0x40 + 4 * i) 4, (List.range 32).map fun i => natAt bs (0x140 + 8 * i) 8⟩
  failIf (natAt bs 0 4 != 0x47524E44 || n.el == 0 || decide (64 < n.el) || natAt bs 6 2 != 0 || natAt bs 0xC 4 != 0 ||
    natAt bs 0x28 24 != 0 || natAt bs 0x240 448 != 0 || n.depth != depth || (n.toks.drop n.el).any (· != 0) || !n.pagesOk ng) 2 0xFFFF
  pure n

/-- R297: the bytes of a node. -/
def GNode.bytes (n : GNode) : List Byte :=
  toLE 4 0x47524E44 ++ toLE 2 n.el ++ zeros 2 ++ toLE 4 n.depth ++ zeros 4 ++ toLE 8 n.parent ++ toLE 8 n.child ++
    toLE 8 n.sib ++ zeros 24 ++ (slice (n.toks.flatMap (toLE 4)) 0 256) ++ (slice (n.pg.flatMap (toLE 8)) 0 256) ++ zeros 448

/-- The page of a layer group for a slot that an edge touches. -/
def GNode.page (n : GNode) (slot g : Nat) : Nat := n.pg.getD (16 * (slot - n.depth / 64) + g) 0

/-- R296: the root descriptor of a Grove. -/
structure Grove where
  va : Nat
  ng : Nat
  pool : Nat
  first : Nat

/-- R296: a root descriptor is read and checked. -/
def engGrove (k : Cmd) (va : Nat) : Eng Grove := do
  let bs ← engRead k 0xFFFF va 128
  let t : Grove := ⟨va, natAt bs 4 2, natAt bs 8 8, natAt bs 0x10 8⟩
  failIf (natAt bs 0 4 != 0x47525654 || t.ng == 0 || decide (16 < t.ng) || natAt bs 6 2 != 0 || natAt bs 0x2C 84 != 0) 2 0xFFFF
  pure t

/-- R297, R299: the node of a list that begins with a token, with the address of the link that names it. -/
def engChild (k : Cmd) (ng tok depth : Nat) : Nat → Nat → Nat → Eng (Option (Nat × GNode))
  | 0, _, _ => engFail 2 0xFFFF
  | fuel + 1, link, va =>
    if va = 0 then pure none
    else do
      let n ← engNode k ng va depth
      if n.toks.getD 0 0 = tok then pure (some (link, n)) else engChild k ng tok depth fuel (va + 0x20) n.sib

/-- The longest common prefix of an edge and tokens. -/
def matchLen : List Nat → List Nat → Nat
  | a :: as, b :: bs => if a = b then matchLen as bs + 1 else 0
  | _, _ => 0

/-- R299: what a walk finds: the matched length, the nodes of the path from the top with the link that names each, and the address
of the list at which it stops between edges. -/
structure Walk where
  m : Nat
  path : List (Nat × GNode)
  inside : Bool
  link : Nat

/-- R299: the walk of a Grove along tokens. -/
def engWalk (k : Cmd) (ng : Nat) : Nat → List Nat → Nat → Nat → Nat → List (Nat × GNode) → Eng Walk
  | 0, _, _, _, _, _ => engFail 2 0xFFFF
  | fuel + 1, toks, m, link, first, path =>
    match toks with
    | [] => pure ⟨m, path, false, link⟩
    | t :: _ => do
      match ← engChild k ng t m (2 ^ 24) link first with
      | none => pure ⟨m, path, false, link⟩
      | some (l, c) =>
        let j := matchLen (c.toks.take c.el) toks
        if j < c.el then pure ⟨m + j, path ++ [(l, c)], true, link⟩
        else engWalk k ng fuel (toks.drop j) (m + j) (c.va + 0x18) c.child (path ++ [(l, c)])

/-- R240: the tokens of a command. -/
def engTokens (k : Cmd) : Eng (List Nat) := do
  let n := bitsOf (k.gw 1) 32 32
  let bs ← engScr k 0xFFFF (bitsOf (k.gw 1) 0 22) (4 * n)
  pure ((List.range n).map fun i => natAt bs (4 * i) 4)

/-- R299: the page of each slot of a prefix of `m` tokens, in page-list order. -/
def prefixPages (path : List (Nat × GNode)) (ng m : Nat) : List Nat :=
  let slots := (m + 63) / 64
  (List.range ng).flatMap fun g => (List.range slots).map fun s =>
    let p := Nat.min (64 * s + 63) (m - 1)
    match path.find? fun (_, c) => c.depth ≤ p && p < c.depth + c.el with
    | some (_, c) => c.page s g
    | none => 0

/-- R241, R299. -/
def glookBody (k : Cmd) : Eng Prog := atomically do
  let t ← engGrove k (k.va (k.gw 0))
  let toks ← engTokens k
  let w ← engWalk k t.ng (toks.length + 1) toks 0 (t.va + 0x10) t.first []
  let cap := bitsOf (k.gw 2) 32 32
  let m := if cap < t.ng * ((w.m + 63) / 64) then Nat.min w.m (64 * (cap / t.ng)) else w.m
  let pages := prefixPages w.path t.ng m
  if !pages.isEmpty ∧ !k.abandoned then
    let p ← engPool k 0xFFFF t.pool false
    pages.zipIdx.forM fun (pn, i) => engRef k p i pn
  engScrPut k (bitsOf (k.gw 2) 0 22) (toLE 8 m ++ toLE 4 pages.length ++ zeros 4 ++ pages.flatMap (toLE 8))
  return .ok k

/-- R300: a node is taken from the free stack of a Grove. -/
def engNewNode (k : Cmd) (t : Grove) : Eng Nat := do
  let bs ← engRead k 0xFFFF (t.va + 0x18) 24 true
  let top := natAt bs 0 8
  failIf (top == 0) 3 0xFFFF
  failIf (top % 1024 != 0) 2 0xFFFF
  let next ← engRead k 0xFFFF (top + 0x10) 8
  engWrite k 0xFFFF (t.va + 0x18) next
  engWrite k 0xFFFF (t.va + 0x28) (toLE 4 (natAt bs 0x10 4 - 1))
  pure top

/-- R242, R300: a new node is written; it takes one reference on each page it names. `item`: the item of the page of a slot and a layer
group. -/
def engPutNode (k : Cmd) (p : Pool) (item : Nat → Nat → Nat) (n : GNode) : Eng Unit := do
  n.pg.zipIdx.forM fun (pn, i) => if pn = 0 then pure () else engRef k p (item (n.depth / 64 + i / 16) (i % 16)) pn
  engWrite k 0xFFFF n.va n.bytes

/-- A page that no item names. -/
def noItem (_ _ : Nat) : Nat := 0xFFFF

/-- The pages of a part of an edge, from a function that gives the page of a slot and a layer group. -/
def edgePages (depth el ng : Nat) (page : Nat → Nat → Nat) : List Nat :=
  (List.range 2).flatMap fun j => (List.range 16).map fun g =>
    let s := depth / 64 + j
    if g < ng ∧ s ≤ (depth + el - 1) / 64 then page s g else 0

/-- R300: the chain of nodes for unmatched tokens from depth `m` on; the answer is its first node. `sib`: the node after it in
its list, which stands first where no token is left. -/
def engChain (k : Cmd) (t : Grove) (p : Pool) (page item : Nat → Nat → Nat) : Nat → List Nat → Nat → Nat → Nat → Eng Nat
  | 0, _, _, _, _ => pure 0
  | fuel + 1, toks, m, parent, sib =>
    if toks.isEmpty then pure sib
    else do
      let va ← engNewNode k t
      let el := Nat.min 64 toks.length
      let child ← engChain k t p page item fuel (toks.drop el) (m + el) va 0
      engPutNode k p item ⟨va, el, m, parent, child, sib, toks.take el, edgePages m el t.ng page⟩
      pure va

/-- R242, R300. -/
def ginsBody (k : Cmd) : Eng Prog := atomically do
  let t ← engGrove k (k.va (k.gw 0))
  let toks ← engTokens k
  let n := toks.length
  let slots := (n + 63) / 64
  let count := bitsOf (k.gw 2) 32 32
  failIf (decide (count < t.ng * slots)) 2 0xFFFF
  let w ← engWalk k t.ng (n + 1) toks 0 (t.va + 0x10) t.first []
  if n ≤ w.m ∧ !w.inside then return .ok k
  else
    let pl ← engScr k 0xFFFF (bitsOf (k.gw 2) 0 22) (8 * (t.ng * slots))
    let page (s g : Nat) : Nat := natAt pl (8 * (g * slots + s)) 8
    let need := (List.range t.ng).flatMap fun g => (List.range slots).filterMap fun s =>
      if w.m / 64 ≤ s ∧ w.m < n then some (g * slots + s, page s g) else none
    match need.find? fun (_, pn) => pn == 0 with
    | some (i, _) => engFail 2 i
    | none => pure ()
    let p ← engPool k 0xFFFF t.pool false
    failIf (p.freehd == 0) 3 0xFFFF
    let item (s g : Nat) : Nat := g * slots + s
    match w.path.getLast? with
    | some (link, c) =>
      if w.inside then
        let j := w.m - c.depth
        let up ← engNewNode k t
        let lo ← engNewNode k t
        engPutNode k p noItem ⟨lo, c.el - j, c.depth + j, up, c.child, 0, (c.toks.take c.el).drop j,
          edgePages (c.depth + j) (c.el - j) t.ng fun s g => c.page s g⟩
        let chain ← engChain k t p page item (n + 1) (toks.drop w.m) w.m up lo
        engPutNode k p noItem ⟨up, j, c.depth, c.parent, chain, c.sib, c.toks.take j, edgePages c.depth j t.ng fun s g => c.page s g⟩
        engWrite k 0xFFFF link (toLE 8 up)
        let old ← engRead k 0xFFFF (t.va + 0x20) 8 true
        engWrite k 0xFFFF (c.va + 0x20) old
        engWrite k 0xFFFF (t.va + 0x20) (toLE 8 c.va)
      else
        let chain ← engChain k t p page item (n + 1) (toks.drop w.m) w.m c.va c.child
        engWrite k 0xFFFF w.link (toLE 8 chain)
    | none =>
      let chain ← engChain k t p page item (n + 1) (toks.drop w.m) w.m 0 t.first
      engWrite k 0xFFFF w.link (toLE 8 chain)
    return .ok k

/-! ### References (R243) -/

/-- `gref` and `gunref`. -/
def refBody (k : Cmd) : Eng Prog := do
  let n := bitsOf (k.gw 0) 32 32
  let pl ← engScr k 0xFFFF (bitsOf (k.gw 0) 0 22) (8 * n)
  let va := k.va (k.gw 1)
  (List.range n).forM fun i => do
    if k.op = 2 then
      let p ← engPool k i va false
      engRef k p i (natAt pl (8 * i) 8)
    else engUnref k va i (natAt pl (8 * i) 8)
  return .ok k

/-! ### Sequences (R244, R245, R293) -/

/-- R293: a sequence descriptor. -/
structure Seq where
  va : Nat
  bytes : List Byte

def Seq.ng (d : Seq) : Nat := natAt d.bytes 4 2
def Seq.slots (d : Seq) : Nat := natAt d.bytes 6 2
def Seq.nh (d : Seq) : Nat := natAt d.bytes 8 1
def Seq.rb (d : Seq) : Nat := natAt d.bytes 0xB 2
def Seq.layout (d : Seq) : List Byte := slice d.bytes 8 13
def Seq.plist (d : Seq) : Nat := natAt d.bytes 0x18 8
def Seq.len (d : Seq) (g : Nat) : Nat := natAt d.bytes (0x40 + 4 * g) 4
def Seq.entry (d : Seq) (g s : Nat) : Nat := d.plist + 8 * (g * d.slots + s)

/-- R285: a layout is valid. -/
def layoutOk (l : List Byte) : Bool :=
  let nh := natAt l 0 1
  let fm (n : Nat) : Bool := [1, 2, 3, 4, 5, 6].contains n
  let rb := natAt l 3 2
  (1 ≤ nh && nh ≤ 32) && fm (natAt l 1 1 % 16) && fm (natAt l 1 1 / 16) && natAt l 2 1 == 0 && rb % 16 == 0 &&
    (16 ≤ rb && rb ≤ 1008) && natAt l 5 2 + nh * natAt l 7 2 ≤ rb && natAt l 9 2 + nh * natAt l 11 2 ≤ rb

/-- R293: a sequence descriptor is read and checked. -/
def engSeq (k : Cmd) (va : Nat) : Eng Seq := do
  let bs ← engRead k 0 va 256 true
  let d : Seq := ⟨va, bs⟩
  failIf (natAt bs 0 4 != 0x4B565344 || d.ng == 0 || decide (16 < d.ng) || d.slots == 0 || decide (1024 < d.slots) ||
    !layoutOk d.layout || natAt bs 0x15 3 != 0 || d.plist % 8 != 0 || natAt bs 0x28 24 != 0 ||
    (List.range 16).any fun g => decide (64 * d.slots < d.len g)) 2 0
  pure d

/-- R65: the larger of two F32 codes. -/
def maxF32 (a b : Nat) : Nat := f32Code (maxNum false (Fmt.f32.decode a).1 (Fmt.f32.decode b).1).1

/-- R244: the page for a position, allocated, or copied where it is shared. -/
def kvPage (k : Cmd) (d : Seq) (pool lg pos : Nat) : Eng Nat := do
  let slot := pos / 64
  let off := pos % 64
  let e := d.entry lg slot
  if off = 0 then
    let pg ← engAllocate k pool 0 d.layout lg
    engWrite k 0 e (toLE 8 pg)
    pure pg
  else
    let bs ← engRead k 0 e 8
    let pg := natAt bs 0 8
    let p ← engPool k 0 pool
    let n ← engIndex p 0 pg
    let c ← engCount k p 0 n
    if c.ref ≤ 1 then pure pg
    else
      let np ← engAllocate k pool 0 d.layout lg
      let head ← engRead k 0 (pg * 2 ^ 16) (128 + d.rb * off)
      let tail ← engRead k 0 (pg * 2 ^ 16 + 0xFF80) 128
      engWrite k 0 (np * 2 ^ 16) head
      engWrite k 0 (np * 2 ^ 16 + 0xFF80) tail
      engWrite k 0 e (toLE 8 np)
      engUnref k pool 0 pg
      pure np

/-- R244, R287: the descriptor is read, checked and the source taken; in the step after it the position is appended, under the checks
as they then stand (R295). -/
def kvappBody (k : Cmd) : Eng Prog := do
  let d ← engSeq k (k.va (k.gw 0))
  let lg := bitsOf (k.gw 2) 32 16
  let pos := bitsOf (k.gw 2) 0 32
  failIf (decide (d.ng ≤ lg) || pos != d.len lg || decide (64 * d.slots ≤ pos)) 2 0
  let src := bitsOf (k.gw 1) 0 22
  engTake k 0 src (d.rb + (4 * d.nh + 15) / 16 * 16)
  if k.step = 0 then return .more { k with step := 1 }
  let rec_ ← engScr k 0 src d.rb
  let norms ← engScr k 0 (src + d.rb) (4 * d.nh)
  atomically do
    let pg ← kvPage k d (k.va (k.gw 3)) lg pos
    let page := pg * 2 ^ 16
    engWrite k 0 (page + 128 + d.rb * (pos % 64)) rec_
    engWrite k 0 (page + 4) (toLE 1 (pos % 64 + 1))
    let old ← engRead k 0 (page + 0xFF80) (4 * d.nh) true
    engWrite k 0 (page + 0xFF80)
      ((List.range d.nh).flatMap fun h => toLE 4 (maxF32 (natAt old (4 * h) 4) (natAt norms (4 * h) 4)))
    engWrite k 0 (d.va + 0x80)
      ((List.range d.nh).flatMap fun h => toLE 4 (maxF32 (natAt d.bytes (0x80 + 4 * h) 4) (natAt norms (4 * h) 4)))
    engWrite k 0 (d.va + 0x40 + 4 * lg) (toLE 4 (pos + 1))
  return .ok k

/-- R245: every page of the list that lies wholly at or beyond L is dropped, whatever its group holds. -/
def kvtruncBody (k : Cmd) : Eng Prog := atomically do
  let d ← engSeq k (k.va (k.gw 0))
  let l := bitsOf (k.gw 1) 0 32
  let pool := k.va (k.gw 2)
  failIf ((List.range d.ng).all fun g => decide (d.len g < l)) 2 0xFFFF
  (List.range d.ng).forM fun g => do
    let from_ := (l + 63) / 64
    (List.range (d.slots - from_)).forM fun i => do
      let s := from_ + i
      let idx := g * d.slots + s
      let bs ← engRead k idx (d.entry g s) 8
      if natAt bs 0 8 ≠ 0 then
        engUnref k pool idx (natAt bs 0 8)
        engWrite k idx (d.entry g s) (zeros 8)
    if l < d.len g then
      if 0 < l then
        let idx := g * d.slots + (l - 1) / 64
        let bs ← engRead k idx (d.entry g ((l - 1) / 64)) 8
        let p ← engPool k idx pool
        match p.index (natAt bs 0 8) with
        | none => pure ()
        | some n =>
          let c ← engCount k p idx n
          if c.ref = 1 then engWrite k idx (natAt bs 0 8 * 2 ^ 16 + 4) (toLE 1 ((l - 1) % 64 + 1))
      engWrite k 0xFFFF (d.va + 0x40 + 4 * g) (toLE 4 l)
  return .ok k

/-! ### The commands (R240) -/

/-- A scratchpad buffer in bits 21:0 of a staging word. -/
def scrUse (v : W64) (n align : Nat) (w : Bool) : Use := Use.flat (scrForm (bitsOf v 0 22)) n align (!w) w

/-- A structure in handle form that a command reads and writes. -/
def structUse (v : W64) (n : Nat) (w : Bool) : Use := Use.flat v n 128 true w

/-- `glook` (op 0) and `gins` (op 1). -/
def specGrove (op : Nat) : EngSpec where
  cls := 10
  op := op
  n := 3
  bad _ g :=
    let n := bitsOf (g.getD 1 0) 32 32
    badHaddr (g.getD 0 0) || bitsOf (g.getD 1 0) 22 10 != 0 || n == 0 || decide (65536 < n) || bitsOf (g.getD 2 0) 22 10 != 0
  uses _ g :=
    let c := bitsOf (g.getD 2 0) 32 32
    [structUse (g.getD 0 0) 128 (op == 1), scrUse (g.getD 1 0) (4 * bitsOf (g.getD 1 0) 32 32) 4 false,
      scrUse (g.getD 2 0) (8 * c + if op = 0 then 16 else 0) 16 (op == 0)]

/-- `gref` (op 2) and `gunref` (op 3). -/
def specRef (op : Nat) : EngSpec where
  cls := 10
  op := op
  n := 2
  bad _ g := bitsOf (g.getD 0 0) 22 10 != 0 || badHaddr (g.getD 1 0)
  uses _ g := [scrUse (g.getD 0 0) (8 * bitsOf (g.getD 0 0) 32 32) 16 false, structUse (g.getD 1 0) 128 (op == 3)]
  early _ g := if bitsOf (g.getD 0 0) 32 32 = 0 then some (0, []) else none

/-- R244: the source record passes to the engine only when its size is known. -/
def specKvapp : EngSpec where
  cls := 10
  op := 4
  n := 4
  bad _ g := badHaddr (g.getD 0 0) || bitsOf (g.getD 1 0) 22 42 != 0 || bitsOf (g.getD 2 0) 48 16 != 0 || badHaddr (g.getD 3 0)
  uses _ g :=
    [structUse (g.getD 0 0) 256 true, { scrUse (g.getD 1 0) 0 16 false with take := false, rows := [] },
      structUse (g.getD 3 0) 128 true]

def specKvtrunc : EngSpec where
  cls := 10
  op := 5
  n := 3
  bad _ g := badHaddr (g.getD 0 0) || bitsOf (g.getD 1 0) 32 32 != 0 || badHaddr (g.getD 2 0)
  uses _ g := [structUse (g.getD 0 0) 256 true, structUse (g.getD 2 0) 128 true]

/-- A step of a class-10 command. -/
def kvBody (k : Cmd) : Eng Prog :=
  match k.op with
  | 0 => glookBody k
  | 1 => ginsBody k
  | 2 | 3 => refBody k
  | 4 => kvappBody k
  | _ => kvtruncBody k

def semGlook (d g c k scope : Nat) : WordSem := engSem (specGrove 0) (fun _ => true) d g c k scope
def semGins (d g c k scope : Nat) : WordSem := engSem (specGrove 1) (fun _ => true) d g c k scope
def semGref (d g c k scope : Nat) : WordSem := engSem (specRef 2) (fun _ => true) d g c k scope
def semGunref (d g c k scope : Nat) : WordSem := engSem (specRef 3) (fun _ => true) d g c k scope
def semKvapp (d g c k scope : Nat) : WordSem := engSem specKvapp (fun _ => true) d g c k scope
def semKvtrunc (d g c k scope : Nat) : WordSem := engSem specKvtrunc (fun _ => true) d g c k scope

/-! ### The instructions -/

/-- R241. Finds the longest held prefix in the Grove and returns its pages with references. -/
def execGlook (h : Hdr) (d g c k scope : Nat) (s : State) :
    Host.Outcome State Fault Refusal :=
  runWord h (semGlook d g c k scope) s

/-- R242. Adds the unheld part of a prefix to the Grove. -/
def execGins (h : Hdr) (d g c k scope : Nat) (s : State) :
    Host.Outcome State Fault Refusal :=
  runWord h (semGins d g c k scope) s

/-- R243. Adds one reference to each listed page. -/
def execGref (h : Hdr) (d g c k scope : Nat) (s : State) :
    Host.Outcome State Fault Refusal :=
  runWord h (semGref d g c k scope) s

/-- R243. Drops one reference from each listed page, returning freed pages. -/
def execGunref (h : Hdr) (d g c k scope : Nat) (s : State) :
    Host.Outcome State Fault Refusal :=
  runWord h (semGunref d g c k scope) s

/-- R244. Appends a position record to a sequence, with copy-on-write. -/
def execKvapp (h : Hdr) (d g c k scope : Nat) (s : State) :
    Host.Outcome State Fault Refusal :=
  runWord h (semKvapp d g c k scope) s

/-- R245. Truncates a sequence and drops pages beyond the new length. -/
def execKvtrunc (h : Hdr) (d g c k scope : Nat) (s : State) :
    Host.Outcome State Fault Refusal :=
  runWord h (semKvtrunc d g c k scope) s

end Sys2Proof.Machine
end

