-- ==== Sys2Proof/Machine/Heartwood.lean ====
section
/-!
DEFINITION. Heartwood: names, lines, counts and reclaim (R246, R308-R316), and the commands of class 11 (R247-R250).
-/

namespace Sys2Proof.Machine

/-! ### SM3 (log entry 4) -/

/-- The compression function P0. -/
def sm3P0 (x : W32) : W32 := x ^^^ x.rotateLeft 9 ^^^ x.rotateLeft 17

/-- The expansion function P1. -/
def sm3P1 (x : W32) : W32 := x ^^^ x.rotateLeft 15 ^^^ x.rotateLeft 23

/-- The chaining value. -/
structure Sm3 where
  a : W32
  b : W32
  c : W32
  d : W32
  e : W32
  f : W32
  g : W32
  h : W32
deriving DecidableEq, Repr

/-- The initial chaining value. -/
def Sm3.init : Sm3 :=
  ⟨0x7380166F, 0x4914B2B9, 0x172442D7, 0xDA8A0600, 0xA96F30BC, 0x163138AA, 0xE38DEE4D, 0xB0FB0E4E⟩

/-- One word more of the message expansion, from the last 16 words, latest first. -/
def sm3Next (r : List W32) : W32 :=
  let w (i : Nat) : W32 := r.getD (i - 1) 0
  sm3P1 (w 16 ^^^ w 9 ^^^ (w 3).rotateLeft 15) ^^^ (w 13).rotateLeft 7 ^^^ w 6

/-- The 68 words of the message expansion, latest first. -/
def sm3Expand : Nat → List W32 → List W32
  | 0, r => r
  | n + 1, r => sm3Expand n (sm3Next r :: r)

/-- One round. -/
def Sm3.round (v : Sm3) (j : Nat) (w w' : W32) : Sm3 :=
  let t : W32 := if j < 16 then 0x79CC4519 else 0x7A879D8A
  let ss1 := ((v.a.rotateLeft 12) + v.e + t.rotateLeft (j % 32)).rotateLeft 7
  let ss2 := ss1 ^^^ v.a.rotateLeft 12
  let ff := if j < 16 then v.a ^^^ v.b ^^^ v.c else (v.a &&& v.b) ||| (v.a &&& v.c) ||| (v.b &&& v.c)
  let gg := if j < 16 then v.e ^^^ v.f ^^^ v.g else (v.e &&& v.f) ||| (~~~v.e &&& v.g)
  let tt1 := ff + v.d + ss2 + w'
  let tt2 := gg + v.h + ss1 + w
  ⟨tt1, v.a, v.b.rotateLeft 9, v.c, sm3P0 tt2, v.e, v.f.rotateLeft 19, v.g⟩

/-- A word of a block, most significant byte first. -/
def beWord (bs : List Byte) (i : Nat) : W32 :=
  let b (j : Nat) : W32 := (bs.getD (4 * i + j) 0).zeroExtend 32
  (b 0 <<< 24) ||| (b 1 <<< 16) ||| (b 2 <<< 8) ||| b 3

/-- The compression of one block of 64 bytes. -/
def Sm3.block (v : Sm3) (bs : List Byte) : Sm3 :=
  let first := ((List.range 16).map (beWord bs)).reverse
  let ws := (sm3Expand 52 first).reverse
  let r := (List.range 64).foldl (fun r j => r.round j (ws.getD j 0) (ws.getD j 0 ^^^ ws.getD (j + 4) 0)) v
  ⟨r.a ^^^ v.a, r.b ^^^ v.b, r.c ^^^ v.c, r.d ^^^ v.d, r.e ^^^ v.e, r.f ^^^ v.f, r.g ^^^ v.g, r.h ^^^ v.h⟩

/-- The blocks of a padded message. -/
def sm3Blocks : Nat → List Byte → Sm3 → Sm3
  | 0, _, v => v
  | n + 1, bs, v => sm3Blocks n (bs.drop 64) (v.block (bs.take 64))

/-- The bytes of a digest. -/
def Sm3.bytes (v : Sm3) : List Byte :=
  [v.a, v.b, v.c, v.d, v.e, v.f, v.g, v.h].flatMap fun w => (toLE 4 w.toNat).reverse

/-- The SM3 digest of a message: 32 bytes. -/
def sm3 (bs : List Byte) : List Byte :=
  let n := bs.length
  let pad := (119 - n % 64) % 64
  let m := bs ++ [0x80#8] ++ zeros pad ++ (toLE 8 (8 * n)).reverse
  (sm3Blocks (m.length / 64) m Sm3.init).bytes

/-! ### Names and lines (R246, R311-R314) -/

/-- The null name. -/
def nullName : List Byte := zeros 16

/-- R246: the name of a line. -/
def HLine.name (l : HLine) : List Byte := toLE 15 l.hash ++ toLE 1 l.index

/-- R310: the instance of a domain's registers. -/
def domInst (vd dom : Nat) : Nat := vd * 256 + dom

/-- R308, R310: a command may work in a domain. -/
def State.domOk (s : State) (vd dom : Nat) : Bool :=
  s.dfld Dev.hwdRegion 0 63 1 == 1 && s.dfld Dev.hwdDctl (domInst vd dom) 63 1 == 1

/-- The live line of a name in a domain (R314). -/
def State.hline (s : State) (vd dom : Nat) (name : List Byte) : Option HLine :=
  s.hlines.find? fun l => !l.reclaiming && l.vd == vd && l.dom == dom && l.name == name

/-- A live line changed. -/
def State.setHline (s : State) (l : HLine) : State :=
  { s with hlines := s.hlines.map fun x =>
      if !x.reclaiming && x.vd == l.vd && x.dom == l.dom && x.hash == l.hash && x.index == l.index then l else x }

/-- R246: the first 120 bits of SM3 of a domain's key and a line. -/
def State.hashOf (s : State) (vd dom : Nat) (line : List Byte) : Nat :=
  let key := toLE 8 (s.dget Dev.hwdDkey0 (domInst vd dom)).toNat ++ toLE 8 (s.dget Dev.hwdDkey1 (domInst vd dom)).toNat
  natAt (sm3 (key ++ line)) 0 15

/-- R247: the names of a node line that are not null. -/
def childNames (line : List Byte) : List (List Byte) :=
  ((List.range 8).map fun i => slice line (16 * i) 16).filter (· != nullName)

/-- R308: the lines that the region holds at most. -/
def State.hcapacity (s : State) : Nat := s.dfld Dev.hwdRsize 0 0 32 * 512 * 15 / 16

/-- R308, R310: a new line finds room. -/
def State.hroom (s : State) (vd dom : Nat) : Bool :=
  let quota := s.dfld Dev.hwdDctl (domInst vd dom) 0 32
  let used := (s.hlines.filter fun l => l.vd == vd && l.dom == dom).length
  decide (s.hlines.length < s.hcapacity) && (quota == 0 || decide (used < quota))

/-- One count more on a live line. -/
def State.hcountUp (s : State) (vd dom : Nat) (name : List Byte) : Except Nat State :=
  match s.hline vd dom name with
  | none => .error 7
  | some l => if l.count + 1 = 2 ^ 32 then .error 5 else .ok (s.setHline { l with count := l.count + 1 })

/-- R248, R314: one count less; the line that reaches zero loses its index entry and waits for reclaim. A name whose line
is being reclaimed is at zero. -/
def State.hcountDown (s : State) (vd dom : Nat) (name : List Byte) : Except Nat State :=
  match s.hline vd dom name with
  | some l =>
    if l.count ≤ 1 then .ok (s.setHline { l with count := 0, reclaiming := true })
    else .ok (s.setHline { l with count := l.count - 1 })
  | none =>
    if s.hlines.any fun l => l.reclaiming && l.vd == vd && l.dom == dom && l.name == name then .error 6 else .error 7

/-- R247: each of several names takes a count, or none does. -/
def State.hcountAll (s : State) (vd dom : Nat) (names : List (List Byte)) : Except Nat State :=
  names.foldlM (fun s n => s.hcountUp vd dom n) s

/-- R247: the lowest collision index at which a line is stored or is to be stored. -/
def State.hplace (s : State) (vd dom hash : Nat) (line : List Byte) (node : Bool) : Nat → Nat → Option (Nat × Option HLine)
  | 0, _ => none
  | fuel + 1, i =>
    if hash = 0 ∧ i = 0 then s.hplace vd dom hash line node fuel (i + 1)
    else
      match s.hline vd dom (toLE 15 hash ++ toLE 1 i) with
      | none => some (i, none)
      | some l =>
        if l.node == node && l.data == bitsOfBytes 1024 line then some (i, some l)
        else s.hplace vd dom hash line node fuel (i + 1)

/-- R247, R310, R312-R315: a line is stored, or gains a count; the answer is its name, or the status. -/
def State.hstore (s : State) (vd dom : Nat) (line : List Byte) (node : Bool) : Except Nat (State × List Byte) :=
  let kids := if node then childNames line else []
  if kids.any fun c => (s.hline vd dom c).isNone then .error 7
  else
    let hash := s.hashOf vd dom line
    match s.hplace vd dom hash line node 256 0 with
    | none => .error 4
    | some (_, some l) =>
      if l.count + 1 = 2 ^ 32 then .error 5 else .ok (s.setHline { l with count := l.count + 1 }, l.name)
    | some (i, none) =>
      if !s.hroom vd dom then .error 3
      else do
        let t ← s.hcountAll vd dom kids
        let l : HLine := ⟨vd, dom, hash, i, node, bitsOfBytes 1024 line, 1, false⟩
        .ok ({ t with hlines := t.hlines ++ [l] }, l.name)

/-- R314, R439: the reclaim engine frees the place of a line, having released each child of a node. -/
def State.reclaimOne (s : State) (l : HLine) : State :=
  let kids := if l.node then childNames (bytesOfBits 128 l.data) else []
  let s := kids.foldl (fun s c =>
    match s.hcountDown l.vd l.dom c with
    | .ok t => t
    | .error _ => (s.dcount Dev.hwdErr 0 0 16).record { kind := 10, source := 0x280 + l.hash % 128 }) s
  { s with hlines := s.hlines.erase l }

/-! ### The commands (R247-R250) -/

/-- R439: an ending counts in HWD_ERR. -/
def State.countHwd (s : State) (code : Nat) : State :=
  match code with
  | 4 => s.dcount Dev.hwdErr 0 48 16
  | 5 => s.dcount Dev.hwdErr 0 32 16
  | 6 => s.dcount Dev.hwdErr 0 16 16
  | _ => s

/-- A change of Heartwood that may fail with a status at an item. -/
def engHwd (idx : Nat) (r : State → Except Nat State) : Eng Unit := do
  match r (← get) with
  | .ok t => set t
  | .error code => engFail code idx

/-- The domain of a class-11 command. -/
def Cmd.dom (k : Cmd) : Nat := if k.op = 5 then bitsOf (k.gw 0) 32 8 else bitsOf (k.gw 1) 32 8

/-- A scratchpad address in a staging word of a command. -/
def Cmd.scrAt (k : Cmd) (i : Nat) : Nat := bitsOf (k.gw i) 0 22

/-- The items of a class-11 command, or of `fnfetch`. -/
def Cmd.items (k : Cmd) : Nat := bitsOf (k.gw 0) 48 16 + 1

/-- The next item of a command, or its end. -/
def Cmd.advance (k : Cmd) : Prog :=
  let k := { k with index := k.index + 1 }
  if k.items ≤ k.index then .ok k else .more k

/-- `hla` and `hnode`: one item. -/
def hlaStep (k : Cmd) : Eng Prog := do
  let line ← engScr k k.index (k.scrAt 0 + 128 * k.index) 128
  match (← get).hstore k.vd k.dom line (k.op == 4) with
  | .error code => engFail code k.index
  | .ok (t, name) =>
    set t
    engScrPut k (k.scrAt 1 + 16 * k.index) name
    return k.advance

/-- `hrd`: one item. -/
def hrdStep (k : Cmd) : Eng Prog := do
  let name ← engScr k k.index (k.scrAt 0 + 16 * k.index) 16
  if name ≠ nullName then
    match (← get).hline k.vd k.dom name with
    | none => engFail 7 k.index
    | some l => engScrPut k (k.scrAt 1 + 128 * k.index) (bytesOfBits 128 l.data)
  return k.advance

/-- `hrel`: one item. -/
def hrelStep (k : Cmd) : Eng Prog := do
  let name ← engScr k k.index (k.scrAt 0 + 16 * k.index) 16
  if name ≠ nullName then engHwd k.index fun s => s.hcountDown k.vd k.dom name
  return k.advance

/-- R249: `hswp`. -/
def hswpStep (k : Cmd) : Eng Prog := atomically do
  let en ← engScr k 0 (k.scrAt 1) 32
  let cell ← engRead k 0 (k.va (k.gw 0)) 16 true
  let expected := slice en 0 16
  let new := slice en 16 16
  if new ≠ nullName then failIf ((← get).hline k.vd k.dom new).isNone 7 0
  if cell ≠ expected then
    return .ended { k with data := cell } 8 0 false
  else
    if new ≠ nullName then engHwd 0 fun s => s.hcountUp k.vd k.dom new
    engWrite k 0 (k.va (k.gw 0)) new
    if expected ≠ nullName then engHwd 0 fun s => s.hcountDown k.vd k.dom expected
    return .ok k

/-- R250, R316: leaf `n` of the tree at the head of a list of names, in leaf order. -/
def State.leafAt (s : State) (vd dom : Nat) : Nat → List (List Byte) → Nat → Option (List Byte)
  | 0, _, _ => none
  | _ + 1, [], _ => none
  | fuel + 1, name :: rest, n =>
    match s.hline vd dom name with
    | none => s.leafAt vd dom fuel rest n
    | some l =>
      if l.node then s.leafAt vd dom fuel (childNames (bytesOfBits 128 l.data) ++ rest) n
      else
        match n with
        | 0 => some (bytesOfBits 128 l.data)
        | n + 1 => s.leafAt vd dom fuel rest n

/-- A bound on the lines that a walk of a tree visits. -/
abbrev treeFuel : Nat := 2 ^ 40

/-- R250: the count that `hcpo` holds on its root is released. -/
def hcpoEnd (k : Cmd) (code : Nat) : Eng Prog := do
  let s ← get
  match s.hcountDown k.vd k.dom k.data with
  | .ok t => set t
  | .error _ => pure ()
  return .ended { k with data := [] } code (if code = 0 then 0xFFFF else 0) false

/-- R250: `hcpo`. `flag`: the count on the root is held; `data`: its name; `index`: the leaves copied. -/
def hcpoStep (k : Cmd) : Eng Prog := do
  if !k.flag then
    let root ← engScr k 0 (k.scrAt 0) 16
    engHwd 0 fun s => s.hcountUp k.vd k.dom root
    return .more { k with flag := true, data := root }
  else
    let first := bitsOf (k.gw 2) 0 32
    let n := bitsOf (k.gw 2) 32 32
    let limit := bitsOf (k.gw 3) 0 48
    if n ≠ 0 ∧ n ≤ k.index then hcpoEnd k 0
    else
      match (← get).leafAt k.vd k.dom treeFuel [k.data] (first + k.index) with
      | none => hcpoEnd k 0
      | some leaf =>
        if limit < 128 * (k.index + 1) then hcpoEnd k 2
        else
          match eaddr (k.gw 1) with
          | .scr a => engScrPut k (a + 128 * k.index) leaf
          | .win h off => engWrite k 0 ((k.handle h).va off + 128 * k.index) leaf
          return .more { k with index := k.index + 1 }

/-- R473: the counts that the names returned by an abandoned command received are released. -/
def hwdAbandon (k : Cmd) (n : Nat) : Eng Unit := do
  if k.abandoned && (k.op == 0 || k.op == 4) then
    (List.range n).forM fun i => do
      let s ← get
      let name := s.scr (tileOf k.ctx) (k.scrAt 1 + 16 * i) 16
      match s.hcountDown k.vd k.dom name with
      | .ok t => set t
      | .error _ => pure ()

/-- One step of a class-11 command. -/
def hwdOne (k : Cmd) : Eng Prog :=
  match k.op with
  | 0 | 4 => hlaStep k
  | 1 => hrdStep k
  | 2 => hrelStep k
  | 3 => hswpStep k
  | _ => hcpoStep k

/-- A step of a class-11 command, with what its ending leaves (R249, R250, R439, R473). -/
def hwdBody (k : Cmd) : Eng Prog :=
  tryCatch (do
    match ← hwdOne k with
    | .ended q code idx flag => do
      if k.op = 3 ∧ code = 8 then engScrPut k (k.scrAt 1) q.data
      hwdAbandon k q.index
      return .ended q code idx flag
    | p => return p) fun e => do
      match e with
      | .fail code _ => do
        modify fun s => s.countHwd code
        hwdAbandon k k.index
        if k.op = 5 ∧ k.flag then let _ ← hcpoEnd k code
      | .page .. | .later | .ask .. => pure ()
      throw e

/-- Reserved bits of the staging words of an item command, and the domain (R229, R308, R310). -/
def badItems (s : State) (g : List W64) (second : Bool) : Bool :=
  bitsOf (g.getD 0 0) 22 26 != 0 || bitsOf (g.getD 1 0) 40 24 != 0 || bitsOf (g.getD 1 0) 22 10 != 0 ||
    (!second && bitsOf (g.getD 1 0) 0 22 != 0) ||
    !s.domOk (s.vdOf s.cur.ctx) (bitsOf (g.getD 1 0) 32 8)

/-- The number of items. -/
def itemsOf (g : List W64) : Nat := bitsOf (g.getD 0 0) 48 16 + 1

/-- `hla` (op 0) and `hnode` (op 4). -/
def specHla (op : Nat) : EngSpec where
  cls := 11
  op := op
  n := 2
  bad s g := badItems s g true
  uses _ g := [scrUse (g.getD 0 0) (128 * itemsOf g) 128 false, scrUse (g.getD 1 0) (16 * itemsOf g) 16 true]

def specHrd : EngSpec where
  cls := 11
  op := 1
  n := 2
  bad s g := badItems s g true
  uses _ g := [scrUse (g.getD 0 0) (16 * itemsOf g) 16 false, scrUse (g.getD 1 0) (128 * itemsOf g) 128 true]

def specHrel : EngSpec where
  cls := 11
  op := 2
  n := 2
  bad s g := badItems s g false
  uses _ g := [scrUse (g.getD 0 0) (16 * itemsOf g) 16 false]

def specHswp : EngSpec where
  cls := 11
  op := 3
  n := 2
  bad s g := badHaddr (g.getD 0 0) || bitsOf (g.getD 1 0) 40 24 != 0 || bitsOf (g.getD 1 0) 22 10 != 0 ||
    !s.domOk (s.vdOf s.cur.ctx) (bitsOf (g.getD 1 0) 32 8)
  uses _ g := [Use.flat (g.getD 0 0) 16 16 true true, { scrUse (g.getD 1 0) 32 16 true with r := true }]

/-- R250: the bytes that `hcpo` may write. -/
def hcpoRange (g : List W64) : Nat :=
  let n := bitsOf (g.getD 2 0) 32 32
  let limit := bitsOf (g.getD 3 0) 0 48
  (if n = 0 then limit else Nat.min (128 * n) limit) / 128 * 128

/-- R250: `hcpo` takes its count on ROOT when it is accepted, where the name is present. -/
def hcpoStart (k : Cmd) (s : State) : State :=
  let root := s.scr (tileOf k.ctx) (k.scrAt 0) 16
  match s.hcountUp k.vd k.dom root with
  | .ok t => t.setCmd { k with flag := true, data := root }
  | .error _ => s

def specHcpo : EngSpec where
  cls := 11
  op := 5
  n := 4
  bad s g := bitsOf (g.getD 0 0) 40 24 != 0 || bitsOf (g.getD 0 0) 22 10 != 0 || badEaddr (g.getD 1 0) ||
    bitsOf (g.getD 3 0) 48 16 != 0 || !s.domOk (s.vdOf s.cur.ctx) (bitsOf (g.getD 0 0) 32 8)
  uses _ g := [scrUse (g.getD 0 0) 16 16 false, Use.flat (g.getD 1 0) (hcpoRange g) 16 false true]
  start := hcpoStart

def semHla (d g c k scope : Nat) : WordSem := engSem (specHla 0) (fun _ => true) d g c k scope
def semHrd (d g c k scope : Nat) : WordSem := engSem specHrd (fun _ => true) d g c k scope
def semHrel (d g c k scope : Nat) : WordSem := engSem specHrel (fun _ => true) d g c k scope
def semHnode (d g c k scope : Nat) : WordSem := engSem (specHla 4) (fun _ => true) d g c k scope
def semHcpo (d g c k scope : Nat) : WordSem := engSem specHcpo (fun _ => true) d g c k scope

/-- R249, R417: a CELL on a Heartwood frame traps HANDLE with REASON 4. -/
def hswpFrame (s : State) (v : W64) : Option TrapRec :=
  match eaddr v with
  | .scr _ => none
  | .win n off =>
    match (s.translate none (s.vdOf s.cur.ctx) ((s.me.hget n).va off % 2 ^ 55) true false).2 with
    | .error (.fail 6 _) => some ⟨6, 4, off⟩
    | _ => none

def semHswp (d g c k scope : Nat) : WordSem :=
  let w := engSem specHswp (fun _ => true) d g c k scope
  { w with chk := fun s =>
      (w.chk s).orElse fun _ => if specHswp.absent s || specHswp.range s g c then none else hswpFrame s (s.me.gget g) }

/-! ### The instructions -/

/-- R247. Stores leaf lines by content name and returns their names. -/
def execHla (h : Hdr) (d g c k scope : Nat) (s : State) :
    Host.Outcome State Fault Refusal :=
  runWord h (semHla d g c k scope) s

/-- R248. Copies the lines of named Heartwood names. -/
def execHrd (h : Hdr) (d g c k scope : Nat) (s : State) :
    Host.Outcome State Fault Refusal :=
  runWord h (semHrd d g c k scope) s

/-- R248. Releases one count on each named line. -/
def execHrel (h : Hdr) (d g c k scope : Nat) (s : State) :
    Host.Outcome State Fault Refusal :=
  runWord h (semHrel d g c k scope) s

/-- R247. Stores node lines of eight child names. -/
def execHnode (h : Hdr) (d g c k scope : Nat) (s : State) :
    Host.Outcome State Fault Refusal :=
  runWord h (semHnode d g c k scope) s

/-- R250. Copies leaves of a tree out in leaf order. -/
def execHcpo (h : Hdr) (d g c k scope : Nat) (s : State) :
    Host.Outcome State Fault Refusal :=
  runWord h (semHcpo d g c k scope) s

/-- R249. Compare-and-swap of a root cell with count transfer. -/
def execHswp (h : Hdr) (d g c k scope : Nat) (s : State) :
    Host.Outcome State Fault Refusal :=
  runWord h (semHswp d g c k scope) s

end Sys2Proof.Machine
end

