-- ==== Sys2Proof/Machine/Versions.lean ====
section
/-!
DEFINITION. Weight versions and Flume rings: the Ring table (R318-R322), extents and materialisation (R323-R327), rings
(R328-R332), and the commands of class 12 (R251-R256).
-/

namespace Sys2Proof.Machine

/-! ### The Ring table (R318-R322) -/

/-- The virtual device of a weight set. -/
def State.wsVd (s : State) (ws : Nat) : Nat := s.dfld Dev.rlWscfg ws 57 6

/-- The domain of a weight set. -/
def State.wsDom (s : State) (ws : Nat) : Nat := s.dfld Dev.rlWscfg ws 49 8

/-- R318: a weight set is in use, and belongs to a virtual device. -/
def State.wsOk (s : State) (ws vd : Nat) : Bool := s.dfld Dev.rlWscfg ws 63 1 == 1 && s.wsVd ws == vd

/-- An entry of a Ring table (R319), with its number. -/
structure VEntry where
  i : Nat
  version : Nat
  state : Nat
  readers : Nat
  root : List Byte
  pubts : Nat

/-- The physical address of an entry. -/
def State.entryAt (s : State) (ws i : Nat) : Nat := s.dfld Dev.rlWscfg ws 0 42 * 1024 + 64 * i

/-- An entry of a weight set's Ring table. -/
def State.entry (s : State) (ws i : Nat) : VEntry :=
  let b := s.phys (s.entryAt ws i) 64
  ⟨i, natAt b 0 4, natAt b 4 1, natAt b 8 4, slice b 0x10 16, natAt b 0x20 8⟩

/-- The entries of a weight set. -/
def State.entries (s : State) (ws : Nat) : List VEntry := (List.range 16).map (s.entry ws)

/-- A write of the version logic. -/
def State.ringWrite (s : State) (a : Nat) (bs : List Byte) : State := (s.needPhys a bs.length).perform a bs

/-- Of two entries the one with the larger version. -/
def newerOf (a : Option VEntry) (b : VEntry) : Option VEntry :=
  match a with
  | some x => if x.version < b.version then some b else some x
  | none => some b

/-- The newest published version (R320). -/
def State.newest (s : State) (ws : Nat) : Option VEntry :=
  ((s.entries ws).filter (·.state == 2)).foldl newerOf none

/-- The published entry of a version. -/
def State.published (s : State) (ws v : Nat) : Option VEntry :=
  if v = 0 then none else (s.entries ws).find? fun e => e.state == 2 && e.version == v

/-- R321: an entry is retirable. -/
def State.retirable (s : State) (ws : Nat) (e : VEntry) : Bool :=
  let newer := (s.entries ws).filter fun x => x.state == 2 && decide (e.version < x.version)
  e.state == 2 && e.readers == 0 && decide (2 ≤ newer.length)

/-- R321: an entry is retired: it is marked, the count on its root is released, and it is zeroed. -/
def State.retireEntry (s : State) (ws : Nat) (e : VEntry) : State :=
  let s := s.ringWrite (s.entryAt ws e.i + 4) (toLE 1 3)
  let s := match s.hcountDown (s.wsVd ws) (s.wsDom ws) e.root with
    | .ok t => t
    | .error _ => s
  s.ringWrite (s.entryAt ws e.i) (zeros 64)

/-- The retirable entry of lowest version. -/
def State.oldestRetirable (s : State) (ws : Nat) : Option VEntry :=
  ((s.entries ws).filter (s.retirable ws)).foldl (fun a b => match a with
    | some x => if b.version < x.version then some b else some x
    | none => some b) none

/-- R321: every retirable entry is retired, the lowest version first; `fuel`: at most so many. -/
def State.retireAll (s : State) (ws : Nat) : Nat → State
  | 0 => s
  | fuel + 1 =>
    match s.oldestRetirable ws with
    | none => s
    | some e => (s.retireEntry ws e).retireAll ws fuel

/-- READERS of an entry. -/
def State.setReaders (s : State) (ws : Nat) (e : VEntry) (n : Nat) : State := s.ringWrite (s.entryAt ws e.i + 8) (toLE 4 n)

/-- R322: a reader less on a version. A count that reaches zero checks for retirement. -/
def State.dropReader (s : State) (ws v : Nat) : State :=
  match s.published ws v with
  | none => s
  | some e =>
    if e.readers = 0 then s
    else
      let s := s.setReaders ws e (e.readers - 1)
      if e.readers = 1 then s.retireAll ws 16 else s

/-- R322: a reader more on a version. -/
def State.addReader (s : State) (ws v : Nat) : State :=
  match s.published ws v with
  | none => s
  | some e => s.setReaders ws e (e.readers + 1)

/-- R252, R320: a version is published; the answer is the status. -/
def State.publish (s : State) (ws : Nat) (root : List Byte) : Except Nat State := do
  let vd := s.wsVd ws
  let dom := s.wsDom ws
  if (s.hline vd dom root).isNone then throw 9
  let last := (s.entries ws).foldl (fun m e => if e.state = 0 then m else Nat.max m e.version) 0
  if 2 ^ 32 ≤ last + 1 then throw 5
  let free (s : State) := (s.entries ws).find? (·.state == 0)
  let full := (free s).isNone
  if full && (s.oldestRetirable ws).isNone then throw 10
  let s ← s.hcountUp vd dom root
  let s := if full then (match s.oldestRetirable ws with | some e => s.retireEntry ws e | none => s) else s
  match free s with
  | none => throw 10
  | some e =>
    let s := s.ringWrite (s.entryAt ws e.i)
      (toLE 4 (last + 1) ++ toLE 1 2 ++ toLE 1 dom ++ zeros 10 ++ root ++ toLE 8 s.time.toNat ++ zeros 24)
    return s.retireAll ws 16

/-! ### Extents (R323-R327) -/

/-- The extents of a weight set hold so many bytes; 0 where it has none. -/
def State.extLimit (s : State) (ws : Nat) : Nat := s.dfld Dev.nbXcfg ws 0 16 * 2 ^ 23

/-- R388: where an extent begins. -/
def State.extBase (s : State) (ws x : Nat) : Nat := s.dfld Dev.nbXcfg ws (16 + 17 * x) 17 * 2 ^ 23

/-- An accepted adoption targets a version. -/
def State.targeted (s : State) (ws v : Nat) : Bool :=
  s.cmds.any fun k => k.cls == 12 && k.op == 1 && bitsOf (k.gw 0) 0 6 == ws && k.target == v && k.ending.isNone

/-- R326: an extent is idle. -/
def State.extIdle (s : State) (ws x : Nat) : Bool :=
  let e := s.extent ws x
  s.extLimit ws != 0 &&
    (e.state == 0 || (e.state == 2 && ((s.published ws e.version).map (·.readers)).getD 0 == 0 && !s.targeted ws e.version))

/-- R326: the extent that the next materialisation uses. -/
def State.pickExtent (s : State) (ws : Nat) : Option Nat :=
  match s.extIdle ws 0, s.extIdle ws 1 with
  | true, true => some (if (s.extent ws 1).version < (s.extent ws 0).version then 1 else 0)
  | true, false => some 0
  | false, true => some 1
  | false, false => none

/-- The extent that holds a version, or receives it. -/
def State.extOf (s : State) (ws v : Nat) : Option Nat :=
  [0, 1].find? fun x => (s.extent ws x).state != 0 && (s.extent ws x).version == v

/-- The extent in which a version is ready. -/
def State.readyExt (s : State) (ws v : Nat) : Option Nat :=
  [0, 1].find? fun x => (s.extent ws x).state == 2 && (s.extent ws x).version == v

/-- R326: materialisation of a version into an extent starts, with a count on its root. -/
def State.startMat (s : State) (ws v x : Nat) : State :=
  match s.published ws v with
  | none => s
  | some e =>
    match s.hcountUp (s.wsVd ws) (s.wsDom ws) e.root with
    | .ok t => t.setExtent ws x ⟨1, v, 0, true, e.root⟩
    | .error _ => s.setExtent ws x ⟨1, v, 0, false, e.root⟩

/-- R253, R327: the target of an adoption. -/
def State.adoptTarget (s : State) (ws curWs curV : Nat) : Option Nat :=
  match s.newest ws with
  | none => none
  | some e =>
    if s.extLimit ws = 0 ∨ (s.extOf ws e.version).isSome ∨ (s.pickExtent ws).isSome then some e.version
    else
      let cur := if curWs = ws then curV else 0
      (((s.entries ws).filter fun x => x.state == 2 && decide (cur < x.version) && (s.readyExt ws x.version).isSome).foldl
        newerOf none).map (·.version)

/-- R326: the leaves of a tree are written one after another, from leaf `i`; the answer counts them. -/
def State.copyLeaves (s : State) (vd dom : Nat) (root : List Byte) (base : Nat) : Nat → Nat → State × Nat
  | 0, i => (s, i)
  | fuel + 1, i =>
    match s.leafAt vd dom treeFuel [root] i with
    | none => (s, i)
    | some bs => (s.ringWrite (base + 128 * i) bs).copyLeaves vd dom root base fuel (i + 1)

/-- R326: the materialisation of an extent has come to its end, with status 0 or RANGE. -/
def State.matResult (s : State) (ws x : Nat) : State × Nat :=
  let e := s.extent ws x
  let cap := s.extLimit ws / 128 + 1
  let h := (s.leafAt (s.wsVd ws) (s.wsDom ws) treeFuel [e.root] 0).getD (zeros 128)
  let (s, n) := s.copyLeaves (s.wsVd ws) (s.wsDom ws) e.root (s.extBase ws x) (cap - e.bytes / 128) (e.bytes / 128)
  let ok := decide (n < cap) && natAt h 0 4 == 0x4E425857 && (natAt h 4 1 == 4 || natAt h 4 1 == 7) && natAt h 5 3 == 0 &&
    natAt h 8 8 == 128 * n
  (s, if ok then 0 else 2)

/-- R258, R326: a materialisation goes on by one leaf. -/
def State.matLeaf (s : State) (ws x : Nat) : State :=
  let e := s.extent ws x
  if e.state ≠ 1 ∨ s.extLimit ws < e.bytes + 128 then s
  else
    match s.leafAt (s.wsVd ws) (s.wsDom ws) treeFuel [e.root] (e.bytes / 128) with
    | none => s
    | some bs => (s.ringWrite (s.extBase ws x + e.bytes) bs).setExtent ws x { e with bytes := e.bytes + 128 }

/-- The command waits for a version. -/
def Cmd.awaits (k : Cmd) (ws v : Nat) : Bool :=
  ((k.cls == 12 && k.op == 1) || (k.cls == 13 && k.op == 1)) && bitsOf (k.gw 0) 0 6 == ws && k.target == v && k.ending.isNone

/-- R253, R322, R474: an adoption that fails gives its reader back, and ends with a status. -/
def State.failAdopt (s : State) (k : Cmd) (code : Nat) : State :=
  let s := s.setCmd { k with ending := some (code, 0, false) }
  if k.cls = 12 then s.dropReader (bitsOf (k.gw 0) 0 6) k.target else s

/-- R326: the end of a materialisation. -/
def State.matEnd (s : State) (ws x : Nat) : State :=
  let e := s.extent ws x
  let (s, code) := s.matResult ws x
  let n := if code = 0 then ((s.physNat (s.extBase ws x + 8) 8)) else 0
  let s := s.setExtent ws x (if code = 0 then ⟨2, e.version, n, false, []⟩ else Extent.empty)
  let s := if e.held then (match s.hcountDown (s.wsVd ws) (s.wsDom ws) e.root with | .ok t => t | .error _ => s) else s
  if code = 0 then s
  else (s.cmds.filter fun k => k.awaits ws e.version).foldl (fun s k => s.failAdopt k code) s

/-! ### `publish`, `adopt`, `vers` (R252-R254) -/

/-- The weight set of a class-12 or class-13 command. -/
def Cmd.ws (k : Cmd) : Nat := bitsOf (k.gw 0) 0 6

/-- R322: an adoption that has not failed holds a reader on its target. -/
def Cmd.holdsReader (k : Cmd) : Bool :=
  k.cls == 12 && k.op == 1 && (match k.ending with | some (code, _, _) => code == 0 | none => true)

/-- R252. -/
def publishStep (k : Cmd) : Eng Prog := do
  let root ← engScr k 0 (k.scrAt 1) 16
  match (← get).publish k.ws root with
  | .ok t => set t
  | .error code => engFail code 0
  return .ok k

/-- R253, R322: the context, or its saved image, moves onto the version; where neither is left, the version's reader goes. -/
def State.moveVersion (s : State) (k : Cmd) : State :=
  let x := s.ctx k.ctx
  if s.stillRuns k then
    let s := s.setCtx k.ctx
      { x with wset := k.ws, version := k.target, versOld := some (s.now, BitVec.ofNat 64 (x.wset * 2 ^ 32 + x.version)) }
    s.dropReader x.wset x.version
  else
    match s.imageOf k.group k.lx k.ly with
    | none => s.dropReader k.ws k.target
    | some i =>
      let base := s.slotBase i.vd i.slot
      let s := s.imagePut base 0x28 (toLE 8 (k.ws * 2 ^ 32 + k.target))
      let s := s.imagePut base 0x26 (toLE 2 (s.physNat (base + 0x26) 2 % 2))
      let s := s.imagePut base 0x30 (zeros 4)
      let s := { s with images := s.images.map fun (j : Image) =>
        if j.vd = i.vd ∧ j.slot = i.slot then { j with wset := k.ws, version := k.target } else j }
      s.dropReader i.wset i.version

/-- R253: an adoption whose extent is ready ends; `vers` moves in the step that writes the completion word. -/
def adoptStep (k : Cmd) : Eng Prog := do
  let s ← get
  if (s.published k.ws k.target).isNone then engFail 9 0
  else if (s.readyExt k.ws k.target).isSome then return .ok k
  else return .more k

/-- R253: an adoption ends well in its next step, or has. -/
def State.adopts (s : State) (k : Cmd) : Bool :=
  k.cls == 12 && k.op == 1 &&
    match k.ending with
    | some (code, _, _) => code == 0
    | none => (s.published k.ws k.target).isSome && (s.readyExt k.ws k.target).isSome

/-- R253, R318: the mode of RL_ADOPT for a weight set. -/
def State.adoptMode (s : State) (ws : Nat) : Nat := s.dfld (Dev.rlAdopt0 + 8 * (ws / 16)) 0 (2 * (ws % 16)) 2

/-- R253, R327: the fate of an `adopt` that ends at acceptance. -/
def adoptEarly (seqb : Bool) (s : State) (g : List W64) : Option (Nat × List (Nat × W64)) :=
  let ws := bitsOf (g.getD 0 0) 0 6
  let x := s.me
  match s.adoptTarget ws x.wset x.version with
  | none => some (0, [])
  | some v =>
    if x.wset = ws ∧ x.version = v then some (0, [])
    else
      let mode := s.adoptMode ws
      if 2 ≤ mode ∨ (mode = 0 ∧ !seqb) then some (11, [])
      else if ((s.published ws v).map (·.readers)).getD 0 + 1 = 2 ^ 32 then some (5, [])
      else if s.extLimit ws = 0 then some (0, [])
      else none

/-- R327: an `adopt` in a weight set without extents moves the context in the accepting step. -/
def adoptAtOnce (seqb : Bool) (k : Cmd) (s : State) : State :=
  let x := s.me
  match s.adoptTarget k.ws x.wset x.version with
  | none => s
  | some v =>
    let mode := s.adoptMode k.ws
    let stays := (x.wset == k.ws && x.version == v) || decide (2 ≤ mode) || (mode == 0 && !seqb) ||
      ((s.published k.ws v).map (·.readers)).getD 0 + 1 == 2 ^ 32
    if stays || s.extLimit k.ws != 0 then s else (s.addReader k.ws v).moveVersion { k with target := v }

/-- R253, R474: an accepted `adopt` takes a reader on its target, whose materialisation starts where it must. -/
def adoptStart (k : Cmd) (s : State) : State :=
  let x := s.me
  match s.adoptTarget k.ws x.wset x.version with
  | none => s
  | some v =>
    let lim := bitsOf (k.gw 1) 0 32
    let s := (s.addReader k.ws v).setCmd
      { k with target := v, deadline := if lim = 0 then 0 else s.now + lim * cyclesPerUs }
    match s.extOf k.ws v, s.pickExtent k.ws with
    | none, some e =>
      -- R327: a queued materialisation of the version is this one
      let s : State := { s with matQueue := s.matQueue.erase (k.ws, v) }
      s.startMat k.ws v e
    | _, _ => s

/-- R232: no `publish` of the context before this word is still to end (log entry 28). -/
def State.publishesOver (s : State) : Bool :=
  !s.cmds.any fun k => k.ctx == s.cur.ctx && k.cls == 12 && k.op == 0 && some k.group == s.me.group && !k.abandoned && k.ending.isNone

/-- Bits above a weight set's number, and its owner (R318). -/
def badWs (s : State) (g : List W64) : Bool :=
  bitsOf (g.getD 0 0) 6 58 != 0 || !s.wsOk (bitsOf (g.getD 0 0) 0 6) (s.vdOf s.cur.ctx)

def specPublish (scope : Nat) : EngSpec where
  cls := 12
  op := 0
  n := 2
  bad s g := badWs s g || scope != 3 || bitsOf (g.getD 1 0) 40 24 != 0 || bitsOf (g.getD 1 0) 22 10 != 0 ||
    bitsOf (g.getD 1 0) 32 8 != s.wsDom (bitsOf (g.getD 0 0) 0 6) || !s.domOk (s.vdOf s.cur.ctx) (bitsOf (g.getD 1 0) 32 8)
  uses _ g := [scrUse (g.getD 1 0) 16 16 false]

def specAdopt (seqb : Bool) : EngSpec where
  cls := 12
  op := 1
  n := 2
  bad s g := badWs s g || bitsOf (g.getD 1 0) 32 32 != 0
  early := adoptEarly seqb
  start := adoptStart
  atOnce := adoptAtOnce seqb
  turn := State.publishesOver

/-- R254. -/
def versEarly (s : State) (g : List W64) : Option (Nat × List (Nat × W64)) :=
  match s.newest (bitsOf (g.getD 0 0) 0 6) with
  | none => some (7, [(1, 0), (2, 0)])
  | some e => some (0, [(1, BitVec.ofNat 64 (e.readers * 2 ^ 32 + e.version)), (2, BitVec.ofNat 64 e.pubts)])

def specVers : EngSpec where
  cls := 12
  op := 2
  n := 3
  bad := badWs
  early := versEarly
  turn := State.publishesOver

/-! ### Flume rings (R328-R332) -/

/-- The number of a task. -/
def taskKey (group lx ly : Nat) : Nat := group * 2 ^ 16 + lx * 2 ^ 8 + ly

/-- The number of a command's task. -/
def Cmd.task (k : Cmd) : Nat := taskKey k.group k.lx k.ly

/-- A ring header (R328). -/
structure Ring where
  va : Nat
  cap : Nat
  resv : Nat
  commit : Nat
  claim : Nat
  free : Nat

/-- R328: a ring's header is read and checked. -/
def engRing (k : Cmd) (va : Nat) : Eng Ring := do
  let b ← engRead k 0xFFFF va 128 true
  let l := natAt b 4 1
  failIf (natAt b 0 4 != 0x464C554D || decide (l < 6) || decide (24 < l) || natAt b 5 3 != 0 || natAt b 0x28 88 != 0) 2 0xFFFF
  pure ⟨va, 2 ^ l, natAt b 8 8, natAt b 0x10 8, natAt b 0x18 8, natAt b 0x20 8⟩

/-- The slice that keeps a ring's lists. -/
def State.ringSlice (s : State) (vd va : Nat) : Option Nat :=
  match (s.translate none vd (va % 2 ^ 55) true false).2 with
  | .ok x => some (homeSlice x.pa)
  | .error _ => none

/-- The reservations or claims of a ring. -/
def State.holdsOf (s : State) (vd va : Nat) (claim : Bool) : List RingHold :=
  s.ringHolds.filter fun h => h.vd == vd && h.ring == va && h.claim == claim

/-- R330: the lists of a ring have room for one more entry: FULL beyond 64, NOMEM for a 17th ring at the slice. -/
def engListRoom (k : Cmd) (va : Nat) (claim : Bool) : Eng Unit := do
  let s ← get
  failIf (decide (64 ≤ (s.holdsOf k.vd va claim).length)) 10 0xFFFF
  if !(s.ringHolds.any fun h => h.vd == k.vd && h.ring == va) then
    let slice := s.ringSlice k.vd va
    let rings := ((s.ringHolds.filter fun h => s.ringSlice h.vd h.ring == slice).map fun h => (h.vd, h.ring)).eraseDups
    failIf (decide (16 ≤ rings.length)) 3 0xFFFF

/-- R330: the lowest start of a ring's reservations or claims. -/
def State.lowestHold (s : State) (vd va : Nat) (claim : Bool) (none_ : Nat) : Nat :=
  (s.holdsOf vd va claim).foldl (fun m h => Nat.min m h.start) none_

/-- The address of the slot of a record. -/
def Ring.slot (r : Ring) (i : Nat) : Nat := r.va + 128 + 32 * (i % r.cap)

/-- R255: the records of `flrec` as they are written. -/
def flRecord (k : Cmd) (b : List Byte) : List Byte :=
  slice b 0 12 ++ toLE 4 k.version ++ slice b 16 8 ++ toLE 4 (natAt b 24 4 % 2 ^ 31) ++ toLE 4 (k.ts.toNat % 2 ^ 32)

/-- R255, R330: `flrec`: slots are reserved in one step, then the records are written. -/
def flrecStep (k : Cmd) : Eng Prog := do
  let va := k.va (k.gw 0)
  let n := bitsOf (k.gw 1) 32 16
  if k.step = 0 then
    atomically do
      let r ← engRing k va
      failIf (decide (r.cap < r.resv - r.free + n)) 10 0xFFFF
      engListRoom k va false
      engWrite k 0xFFFF (va + 8) (toLE 8 (r.resv + n))
      modify fun s => { s with ringHolds := s.ringHolds ++ [⟨k.vd, va, some k.task, r.resv, n, false, r.cap⟩] }
      return .more { k with step := 1, target := r.resv }
  else
    let r ← engRing k va
    let src ← engScr k k.index (k.scrAt 1 + 32 * k.index) 32
    engWrite k k.index (r.slot (k.target + k.index)) (flRecord k src)
    let k := { k with index := k.index + 1 }
    return if n ≤ k.index then .ok k else .more k

/-- R255, R330: reservations of a task on a ring become committed. -/
def State.commitHolds (s : State) (vd va task : Nat) : State :=
  { s with ringHolds := s.ringHolds.filter fun h => !(h.vd == vd && h.ring == va && !h.claim && h.owner == some task) }

/-- R255: `flcommit`. -/
def flcommitStep (k : Cmd) : Eng Prog := atomically do
  let va := k.va (k.gw 0)
  let r ← engRing k va
  modify fun s => s.commitHolds k.vd va k.task
  engWrite k 0xFFFF (va + 0x10) (toLE 8 ((← get).lowestHold k.vd va false r.resv))
  return .ok k

/-- R229: the staging results of a command whose tag it holds land, and its status where it was not known at acceptance. -/
def engLands (k : Cmd) (code : Option Nat) (gs : List (Nat × W64)) : Eng Unit := modify fun s =>
  s.modCtx k.ctx fun x => { x with
    flights := x.flights.map fun f =>
      if f.cmd = some k.id then
        { f with lands := f.lands ++ (match code with | some n => [.sreg f.word (BitVec.ofNat 64 n)] | none => []) ++
            gs.map fun (i, v) => .greg (k.gBase + i) v }
      else f }

/-- R256, R330: `fltake`. -/
def fltakeStep (k : Cmd) : Eng Prog := atomically do
  let va := k.va (k.gw 0)
  let r ← engRing k va
  modify fun s => s.dropClean (tileOf k.ctx)
  if r.commit ≤ r.claim then
    engLands k (some 17) [(2, BitVec.ofNat 64 r.claim), (3, 0)]
    return .ended k 17 0xFFFF false
  else
    let c := Nat.min (bitsOf (k.gw 1) 0 32) (r.commit - r.claim)
    engListRoom k va true
    engWrite k 0xFFFF (va + 0x18) (toLE 8 (r.claim + c))
    if !k.abandoned then
      modify fun s => { s with ringHolds := s.ringHolds ++ [⟨k.vd, va, some k.task, r.claim, c, true, r.cap⟩] }
    else
      engWrite k 0xFFFF (va + 0x20) (toLE 8 ((← get).lowestHold k.vd va true (r.claim + c)))
    engLands k (some 0) [(2, BitVec.ofNat 64 r.claim), (3, BitVec.ofNat 64 c)]
    return .ok k

/-- R256, R330: `flack`. -/
def flackStep (k : Cmd) : Eng Prog := atomically do
  let va := k.va (k.gw 0)
  let r ← engRing k va
  match ((← get).holdsOf k.vd va true).find? fun h => h.start == (k.gw 1).toNat && h.count == bitsOf (k.gw 2) 0 32 with
  | none => engFail 2 0xFFFF
  | some h =>
    modify fun s => { s with ringHolds := s.ringHolds.erase h }
    engWrite k 0xFFFF (va + 0x20) (toLE 8 ((← get).lowestHold k.vd va true r.claim))
    return .ok k

/-- A ring's header. -/
def ringUse (v : W64) : Use := structUse v 128 true

def specFlrec : EngSpec where
  cls := 12
  op := 3
  n := 2
  bad _ g :=
    let n := bitsOf (g.getD 1 0) 32 16
    badHaddr (g.getD 0 0) || bitsOf (g.getD 1 0) 48 16 != 0 || bitsOf (g.getD 1 0) 22 10 != 0 || n == 0 || decide (256 < n)
  uses _ g := [ringUse (g.getD 0 0), scrUse (g.getD 1 0) (32 * bitsOf (g.getD 1 0) 32 16) 16 false]

def specFlcommit : EngSpec where
  cls := 12
  op := 4
  n := 1
  bad _ g := badHaddr (g.getD 0 0)
  uses _ g := [ringUse (g.getD 0 0)]

def specFltake : EngSpec where
  cls := 12
  op := 5
  n := 4
  bad _ g :=
    let n := bitsOf (g.getD 1 0) 0 32
    badHaddr (g.getD 0 0) || bitsOf (g.getD 1 0) 32 32 != 0 || n == 0 || decide (65536 < n)
  uses _ g := [ringUse (g.getD 0 0)]
  late := true

def specFlack : EngSpec where
  cls := 12
  op := 6
  n := 3
  bad _ g := badHaddr (g.getD 0 0) || bitsOf (g.getD 2 0) 32 32 != 0
  uses _ g := [ringUse (g.getD 0 0)]

/-- A step of a class-12 command; one that fails with its tag held returns its status at its end (R228). -/
def versionBody (k : Cmd) : Eng Prog :=
  match k.op with
  | 0 => publishStep k
  | 1 => adoptStep k
  | 3 => flrecStep k
  | 4 => flcommitStep k
  | 5 => tryCatch (fltakeStep k) fun e => do
      match e with
      | .fail code _ => engLands k (some code) []
      | .page .. | .later | .ask .. => pure ()
      throw e
  | _ => flackStep k

def semPublish (d g c k scope : Nat) : WordSem := engSem (specPublish scope) (fun _ => true) d g c k scope
def semAdopt (d g c k scope : Nat) (seqb : Bool) : WordSem := engSem (specAdopt seqb) (fun _ => true) d g c k scope
def semVers (d g c k scope : Nat) : WordSem := engSem specVers (fun _ => true) d g c k scope
def semFlrec (d g c k scope : Nat) : WordSem := engSem specFlrec (fun _ => true) d g c k scope
def semFlcommit (d g c k scope : Nat) : WordSem := engSem specFlcommit (fun _ => true) d g c k scope
def semFltake (d g c k scope : Nat) : WordSem := engSem specFltake (fun _ => true) d g c k scope
def semFlack (d g c k scope : Nat) : WordSem := engSem specFlack (fun _ => true) d g c k scope

/-! ### The instructions -/

/-- R252. Publishes a new weight version in the Ring table. -/
def execPublish (h : Hdr) (d g c k scope : Nat) (s : State) :
    Host.Outcome State Fault Refusal :=
  runWord h (semPublish d g c k scope) s

/-- R253. Moves the context onto a target weight version, materialising it if needed. -/
def execAdopt (h : Hdr) (d g c k scope : Nat) (seqb : Bool) (s : State) :
    Host.Outcome State Fault Refusal :=
  runWord h (semAdopt d g c k scope seqb) s

/-- R254. Returns the newest published version, its readers and its time-stamp. -/
def execVers (h : Hdr) (d g c k scope : Nat) (s : State) :
    Host.Outcome State Fault Refusal :=
  runWord h (semVers d g c k scope) s

/-- R255. Reserves ring slots and writes stamped Flume records. -/
def execFlrec (h : Hdr) (d g c k scope : Nat) (s : State) :
    Host.Outcome State Fault Refusal :=
  runWord h (semFlrec d g c k scope) s

/-- R255. Commits the context's reservations on a ring. -/
def execFlcommit (h : Hdr) (d g c k scope : Nat) (s : State) :
    Host.Outcome State Fault Refusal :=
  runWord h (semFlcommit d g c k scope) s

/-- R256. Claims committed records of a ring. -/
def execFltake (h : Hdr) (d g c k scope : Nat) (s : State) :
    Host.Outcome State Fault Refusal :=
  runWord h (semFltake d g c k scope) s

/-- R256. Returns a claimed range of a ring. -/
def execFlack (h : Hdr) (d g c k scope : Nat) (s : State) :
    Host.Outcome State Fault Refusal :=
  runWord h (semFlack d g c k scope) s

end Sys2Proof.Machine
end

