-- ==== Sys2Proof/Machine/NearBank.lean ====
section
/-!
DEFINITION. The near-bank units: the commands of class 13 (R257, R258), and queued materialisations (R327).
-/

namespace Sys2Proof.Machine

/-- R86, R89: a row of a near-bank matrix-vector product: one chain over the groups from +0. -/
def nbRow (ws xs : List Num) : Num :=
  let n := ws.length / 32 + 1
  ((groups32 n ws).zip (groups32 n xs)).foldl (fun acc (w, x) => (sumF32 acc (groupValue 0 w x).1).1) (.fin false 0 0 false)

/-- R71, R325: the elements of a row of `nc` columns from its payload bytes, and for DX4 its exponent bytes. -/
def nbWeights (fmt nc : Nat) (pay exps : List Byte) : List Num :=
  if fmt = 4 then (List.range nc).map fun i => (Fmt.e4m3.decode (natAt pay i 1)).1
  else (List.range nc).map fun i =>
    let code := natAt pay (i / 2) 1 / 2 ^ (4 * (i % 2)) % 16
    (dxDecode .dx4 (natAt exps (2 * (i / 32)) 1) (natAt exps (2 * (i / 32) + 1) 1) code).1

/-- Physical bytes that a near-bank unit reads; poison ends the command (R442). -/
def engPhys (idx a n : Nat) : Eng (List Byte) := do
  modify fun s => s.needPhys a n
  let s ← get
  failIf (s.rangePoison a n).isSome 15 idx
  pure (s.phys a n)

/-- The shape of an `nbmv`: tensor offset, rows, columns, vectors. -/
def nbShape (g : List W64) : Nat × Nat × Nat × Nat :=
  (bitsOf (g.getD 0 0) 0 48, bitsOf (g.getD 1 0) 32 32, bitsOf (g.getD 1 0) 0 32, bitsOf (g.getD 2 0) 24 3 + 1)

/-- R257: one row of an `nbmv`, for every vector. -/
def nbmvStep (k : Cmd) : Eng Prog := do
  let (toff, m, nc, nv) := nbShape k.g
  let ws := bitsOf (k.gw 0) 58 6
  match (← get).readyExt ws k.version with
  | none => engFail 9 k.index
  | some x =>
    let base := (← get).extBase ws x
    let hdr ← engPhys k.index base 16
    let fmt := natAt hdr 4 1
    let size := if fmt = 4 then m * nc else m * nc / 2 + m * nc / 16
    failIf (decide (natAt hdr 8 8 < toff + size)) 2 k.index
    if m ≤ k.index then return .ok k
    else
      let pay ← if fmt = 4 then engPhys k.index (base + toff + k.index * nc) nc
        else engPhys k.index (base + toff + k.index * nc / 2) (nc / 2)
      let exps ← if fmt = 4 then pure [] else engPhys k.index (base + toff + m * nc / 2 + k.index * nc / 16) (nc / 16)
      let w := nbWeights fmt nc pay exps
      (List.range nv).forM fun v => do
        let xb ← engScr k k.index (bitsOf (k.gw 2) 0 22 + 2 * v * nc) (2 * nc)
        let xs := (List.range nc).map fun i => (Fmt.b16.decode (natAt xb (2 * i) 2)).1
        engScrPut k (bitsOf (k.gw 3) 0 22 + 4 * (v * m + k.index)) (toLE 4 (f32Code (nbRow w xs)))
      let k := { k with index := k.index + 1 }
      return if m ≤ k.index then .ok k else .more k

/-- R257, R325, R327: a limit of `nbmv` is broken. -/
def badNbmv (s : State) (g : List W64) : Bool :=
  let (toff, _, nc, _) := nbShape g
  let ws := bitsOf (g.getD 0 0) 58 6
  bitsOf (g.getD 0 0) 48 10 != 0 || bitsOf (g.getD 2 0) 27 37 != 0 || bitsOf (g.getD 2 0) 22 2 != 0 ||
    bitsOf (g.getD 3 0) 22 42 != 0 || nc % 32 != 0 || toff % 128 != 0 || decide (toff < 128) ||
    !s.wsOk ws (s.vdOf s.cur.ctx) || s.me.wset != ws || s.extLimit ws == 0

/-- R373: no extent holds the context's version. -/
def nbmvEarly (s : State) (g : List W64) : Option (Nat × List (Nat × W64)) :=
  let ws := bitsOf (g.getD 0 0) 58 6
  if s.me.version = 0 ∨ (s.readyExt ws s.me.version).isNone then some (9, []) else none

def specNbmv : EngSpec where
  cls := 13
  op := 0
  n := 4
  bad := badNbmv
  uses _ g :=
    let (_, m, nc, nv) := nbShape g
    [scrUse (g.getD 2 0) (2 * nc * nv) 16 false, scrUse (g.getD 3 0) (4 * m * nv) 16 true]
  early := nbmvEarly

/-- R258, R327: an `nbmat` that ends at acceptance. -/
def nbmatEarly (s : State) (g : List W64) : Option (Nat × List (Nat × W64)) :=
  let ws := bitsOf (g.getD 0 0) 0 6
  match s.newest ws with
  | none => some (7, [])
  | some e =>
    if s.extLimit ws = 0 ∨ (s.extOf ws e.version).isSome ∨ s.matQueue.contains (ws, e.version) then some (0, []) else none

/-- R258: materialisation starts, or is queued. -/
def nbmatStart (k : Cmd) (s : State) : State :=
  match s.newest k.ws with
  | none => s
  | some e =>
    let s := s.setCmd { k with target := e.version }
    match s.pickExtent k.ws with
    | some x => s.startMat k.ws e.version x
    | none => { s with matQueue := s.matQueue ++ [(k.ws, e.version)] }

def specNbmat : EngSpec where
  cls := 13
  op := 1
  n := 1
  bad := badWs
  early := nbmatEarly
  start := nbmatStart

/-- R258: the extent that `nbstat` reports. -/
def State.statExtent (s : State) (ws : Nat) : Nat :=
  match (s.extent ws 0).state == 1, (s.extent ws 1).state == 1 with
  | true, true => if (s.extent ws 0).version < (s.extent ws 1).version then 1 else 0
  | true, false => 0
  | false, true => 1
  | false, false => (s.pickExtent ws).getD 0

/-- R258, R327. -/
def nbstatEarly (s : State) (g : List W64) : Option (Nat × List (Nat × W64)) :=
  let ws := bitsOf (g.getD 0 0) 0 6
  if s.extLimit ws = 0 then some (0, [(1, 0), (2, 0)])
  else
    let x := s.statExtent ws
    let e := s.extent ws x
    some (0, [(1, BitVec.ofNat 64 (x * 2 ^ 36 + e.state * 2 ^ 32 + e.version)), (2, BitVec.ofNat 64 e.bytes)])

def specNbstat : EngSpec where
  cls := 13
  op := 2
  n := 3
  bad := badWs
  early := nbstatEarly

/-- R258: an accepted `nbmat` ends when its version is ready. -/
def nbmatStep (k : Cmd) : Eng Prog := do
  if ((← get).readyExt k.ws k.target).isSome then return .ok k else return .more k

/-- A step of a class-13 command. -/
def nearBody (k : Cmd) : Eng Prog := if k.op = 0 then nbmvStep k else nbmatStep k

/-- R327: a queued materialisation starts once an extent is idle, or is dropped: for a newer publish, or because an extent has the version
by now. -/
def State.queuedMat (s : State) (ws : Nat) : State :=
  match s.matQueue.find? (·.1 == ws) with
  | none => s
  | some (_, v) =>
    let s' := { s with matQueue := s.matQueue.erase (ws, v) }
    if (s.extOf ws v).isSome then s'
    else if (s.newest ws).map (·.version) ≠ some v then
      (s'.cmds.filter fun k => k.cls == 13 && k.awaits ws v).foldl (fun s k => s.failAdopt k 9) s'
    else
      match s.pickExtent ws with
      | some x => s'.startMat ws v x
      | none => s

/-- R327: a queued materialisation can start, or is to be dropped. -/
def State.queuedReady (s : State) (ws : Nat) : Bool :=
  match s.matQueue.find? (·.1 == ws) with
  | none => false
  | some (_, v) => (s.extOf ws v).isSome || (s.newest ws).map (·.version) != some v || (s.pickExtent ws).isSome

def semNbmv (d g c k scope : Nat) : WordSem := engSem specNbmv (fun _ => true) d g c k scope
def semNbmat (d g c k scope : Nat) : WordSem := engSem specNbmat (fun _ => true) d g c k scope
def semNbstat (d g c k scope : Nat) : WordSem := engSem specNbstat (fun _ => true) d g c k scope

/-! ### The instructions -/

/-- R257. Near-bank matrix-vector product over the adopted extent. -/
def execNbmv (h : Hdr) (d g c k scope : Nat) (s : State) :
    Host.Outcome State Fault Refusal :=
  runWord h (semNbmv d g c k scope) s

/-- R258. Starts materialising the newest version without adopting it. -/
def execNbmat (h : Hdr) (d g c k scope : Nat) (s : State) :
    Host.Outcome State Fault Refusal :=
  runWord h (semNbmat d g c k scope) s

/-- R258. Reports an extent's state, version and bytes done. -/
def execNbstat (h : Hdr) (d g c k scope : Nat) (s : State) :
    Host.Outcome State Fault Refusal :=
  runWord h (semNbstat d g c k scope) s

end Sys2Proof.Machine
end

