-- ==== Sys2Proof/Machine/Collective.lean ====
section
/-!
DEFINITION. Collectives and fabric commands, class 14 (R259-R263, R313, R402, R467).
-/

namespace Sys2Proof.Machine

/-! ### Communicators (R402) -/

/-- A communicator: ranks, this chip's rank, tree or ring, the chips. -/
structure Comm where
  p : Nat
  me : Nat
  tree : Bool
  base : Nat

/-- An entry of the communicator table, where it is in service. -/
def State.comm (s : State) (n : Nat) : Option Comm :=
  if s.dfld Dev.fxComm 0 63 1 = 1 ∧ n ≤ s.dfld Dev.fxComm 0 0 12 then
    let a := s.dfld Dev.fxComm 0 12 40 * 4096 + 2048 * n
    some ⟨s.physNat a 2, s.physNat (a + 2) 2, s.physNat (a + 4) 1 != 0, a⟩
  else none

/-- The chip of a rank. -/
def State.rankChip (s : State) (c : Comm) (r : Nat) : Nat := s.physNat (c.base + 16 + 2 * r) 2

/-- R393: the Bamug connection to a chip: the first in service. -/
def State.connTo (s : State) (chip : Nat) : Option Nat :=
  (List.range (s.dfld Dev.fxConn 0 0 12 + 1)).find? fun n =>
    match s.connEntry n with
    | some e => !connRoce e && natAt e 2 2 == chip
    | none => false

/-! ### `coll` (R260, R402; log entry 21) -/

/-- What a `coll` names. -/
structure Coll where
  opc : Nat
  vc : Nat
  root : Nat
  comm : Nat
  count : Nat

/-- The fields of a `coll`. -/
def collOf (g : List W64) : Coll :=
  let a := g.getD 0 0
  ⟨bitsOf a 16 4, bitsOf a 20 2, bitsOf a 32 16, bitsOf a 0 16, bitsOf (g.getD 3 0) 0 32⟩

/-- R402: the elements of a chunk. -/
def chunkLen (count p : Nat) : Nat := 4 * ((count + 4 * p - 1) / (4 * p))

/-- R402: the first byte and the length in bytes of chunk `j`. -/
def chunkAt (count p j : Nat) : Nat × Nat :=
  let n := chunkLen count p
  let lo := Nat.min (j * n) count
  let hi := Nat.min ((j + 1) * n) count
  (4 * lo, 4 * (hi - lo))

/-- Bytes at an engine address that a command interprets. -/
def engBytes (k : Cmd) (v : W64) (off n : Nat) : Eng (List Byte) :=
  match eaddr v with
  | .scr a => engScr k k.index (a + off) n
  | .win h o => engRead k k.index ((k.handle h).va o + off) n

/-- Bytes written at an engine address. -/
def engPut (k : Cmd) (v : W64) (off : Nat) (bs : List Byte) : Eng Unit :=
  match eaddr v with
  | .scr a => engScrPut k (a + off) bs
  | .win h o => engWrite k k.index ((k.handle h).va o + off) bs

/-- An F32 element of a byte list is a NaN or an infinity. -/
def anyNonFinite (bs : List Byte) : Bool :=
  (List.range (bs.length / 4)).any fun i => fld (natAt bs (4 * i) 4) 23 8 == 255

/-- A chunk of this rank's input. -/
def collInput (k : Cmd) (c : Coll) (p j : Nat) : Eng (List Byte) :=
  let (off, n) := chunkAt c.count p j
  engBytes k (k.gw 1) off n

/-- A COLL_DATA packet is sent (R397, R398). -/
def State.sendColl (s : State) (k conn vc flags : Nat) (payload : List Byte) : State × Option Nat :=
  match s.connEntry conn with
  | none => (s, none)
  | some e =>
    let c := s.conn (connKey conn vc)
    if c.failed then (s, none)
    else
      let req : FabReq := ⟨s.serial, .cmd k 0, connKey conn vc, c.sendPsn, false, none, 0⟩
      let s := { s with serial := s.serial + 1, fabReqs := s.fabReqs ++ [req] }
      (s.sendSeq conn vc e 0x0B flags 0 none payload, some req.id)

/-- The packets of a step: up to 4,080 bytes of data each, the last marked. -/
def stepPieces : Nat → List Byte → List (List Byte × Bool)
  | 0, bs => [(bs, true)]
  | fuel + 1, bs => if bs.length ≤ 4080 then [(bs, true)] else (bs.take 4080, false) :: stepPieces fuel (bs.drop 4080)

/-- R260: the data of a step goes to a rank, with the non-finite flag; the answer is the requests. -/
def collSend (k : Cmd) (c : Coll) (m : Comm) (rank step : Nat) (flag : Bool) (bs : List Byte) : Eng (List Nat) := do
  let s ← get
  match s.connTo (s.rankChip m rank) with
  | none => engFail 12 k.index
  | some conn =>
    (stepPieces (bs.length / 4080 + 1) bs).foldlM (fun reqs (b, last) => do
      let payload := toLE 2 c.comm ++ toLE 2 step ++ [BitVec.ofNat 8 flag.toNat] ++ zeros 3 ++ b
      match (← get).sendColl k.id conn c.vc (if last then fAckReq + fLast else fAckReq) payload with
      | (_, none) => engFail 12 k.index
      | (s, some r) =>
        set s
        pure (reqs ++ [r])) []

/-- The packets of a step from a chip, up to its last one, and the packets that stay. -/
def takeStep (comm vc step src : Nat) : List CollPart → Option (List CollPart × List CollPart)
  | [] => none
  | p :: rest =>
    if p.comm = comm ∧ p.vc = vc ∧ p.step = step ∧ p.src = src then
      if p.last then some ([p], rest) else (takeStep comm vc step src rest).map fun (a, b) => (p :: a, b)
    else (takeStep comm vc step src rest).map fun (a, b) => (a, p :: b)

/-- The data of a step from a rank, once all of it is there. -/
def collRecv (c : Coll) (m : Comm) (rank step : Nat) : Eng (Option (List Byte × Bool)) := do
  let s ← get
  match takeStep c.comm c.vc step (s.rankChip m rank) s.collIn with
  | none => pure none
  | some (ps, rest) =>
    set { s with collIn := rest }
    pure (some (ps.flatMap (·.data), ps.any (·.flag)))

/-- A step of a collective is done: the next waits for FX_CTO anew (R467). -/
def collNext (k : Cmd) (flag : Bool) (reqs : List Nat) (last : Bool) : Eng Prog := do
  let s ← get
  let cto := s.dfld Dev.fxCto 0 0 32
  return .more { k with
    index := if last then 0xFFFF else k.index + 1, step := k.step + 1, flag := k.flag || flag, freqs := reqs,
    deadline := if cto = 0 then 0 else s.now + cto * cyclesPerUs }

/-- R402: one step of a ring reduction: `gather` for all-reduce, whose chunks pass around after it; where they do not, the flags
do. -/
def ringReduce (k : Cmd) (c : Coll) (m : Comm) (gather : Bool) : Eng Prog := do
  let p := m.p
  let r := m.me
  let next := (r + 1) % p
  let prev := (r + p - 1) % p
  let t := k.step
  if t = 0 then
    let bs ← collInput k c p ((r + p - 1) % p)
    let f := anyNonFinite bs
    let reqs ← collSend k c m next 0 f bs
    collNext k f reqs false
  else
    match ← collRecv c m prev (t - 1) with
    | none => return .more k
    | some (bs, f) =>
      if t ≤ p - 1 then
        let j := (r + 2 * p - 1 - t) % p
        let own ← collInput k c p j
        let sum := addElems bs.length bs own
        let f := f || anyNonFinite own || anyNonFinite sum
        if t = p - 1 then
          engPut k (k.gw 2) (chunkAt c.count p r).1 sum
          let reqs ← collSend k c m next t (f || k.flag) (if gather then sum else [])
          collNext k f reqs false
        else
          let reqs ← collSend k c m next t f sum
          collNext k f reqs false
      else
        let j := (r + 2 * p - (t - (p - 1))) % p
        if gather then engPut k (k.gw 2) (chunkAt c.count p j).1 bs
        if t = 2 * p - 2 then collNext k f [] true
        else
          let reqs ← collSend k c m next t (f || k.flag) bs
          collNext k f reqs false

/-- R402: one step of a ring all-gather. -/
def ringGather (k : Cmd) (c : Coll) (m : Comm) : Eng Prog := do
  let p := m.p
  let r := m.me
  let t := k.step
  if t = 0 then
    let own ← collInput k c p r
    engPut k (k.gw 2) (chunkAt c.count p r).1 own
    let reqs ← collSend k c m ((r + 1) % p) 0 (anyNonFinite own) own
    collNext k (anyNonFinite own) reqs false
  else
    match ← collRecv c m ((r + p - 1) % p) (t - 1) with
    | none => return .more k
    | some (bs, f) =>
      engPut k (k.gw 2) (chunkAt c.count p ((r + p - t) % p)).1 bs
      if t = p - 1 then collNext k f [] true
      else
        let reqs ← collSend k c m ((r + 1) % p) t f bs
        collNext k f reqs false

/-- R402: broadcast around the ring from ROOT. -/
def ringBroadcast (k : Cmd) (c : Coll) (m : Comm) : Eng Prog := do
  let i := (m.me + m.p - c.root) % m.p
  let go (bs : List Byte) (f : Bool) : Eng Prog := do
    engPut k (k.gw 2) 0 bs
    let reqs ← if i + 1 < m.p then collSend k c m ((m.me + 1) % m.p) 0 f bs else pure []
    collNext k f reqs true
  if i = 0 then
    let bs ← engBytes k (k.gw 1) 0 (4 * c.count)
    go bs (anyNonFinite bs)
  else
    match ← collRecv c m ((m.me + m.p - 1) % m.p) 0 with
    | none => return .more k
    | some (bs, f) => go bs f

/-- The relative ranks of a subtree, each node before the subtrees of its children. -/
def subtree (p : Nat) : Nat → Nat → List Nat
  | 0, _ => []
  | fuel + 1, i => if p ≤ i then [] else i :: (subtree p fuel (2 * i + 1) ++ subtree p fuel (2 * i + 2))

/-- The vector from the chunks that a tree gathered. -/
def fromChunks (count p root : Nat) (bs : List Byte) : List Byte :=
  let order := (subtree p (p + 1) 0).map fun i => (i + root) % p
  (order.foldl (fun (v, rest) j =>
    let (off, n) := chunkAt count p j
    (overlay v off (rest.take n), rest.drop n)) (zeros (4 * count), bs)).1

/-- R402: what a rank of a tree writes of the result: its own chunk for reduce-scatter, else all of it. -/
def treeWrite (k : Cmd) (c : Coll) (m : Comm) (bs : List Byte) : Eng Unit :=
  if c.opc = 0 then
    let (off, n) := chunkAt c.count m.p m.me
    engPut k (k.gw 2) off (slice bs off n)
  else engPut k (k.gw 2) 0 bs

/-- R402: the result travels down a tree. -/
def treeDown (k : Cmd) (c : Coll) (m : Comm) (f : Bool) (bs : List Byte) : Eng Prog := do
  let i := (m.me + m.p - c.root) % m.p
  treeWrite k c m bs
  let kids := [2 * i + 1, 2 * i + 2].filter (· < m.p)
  let reqs ← kids.foldlM (fun reqs j => do
    let r ← collSend k c m ((j + c.root) % m.p) 1 f bs
    pure (reqs ++ r)) []
  collNext k f reqs true

/-- R402: one step of a tree: step 0 goes up, step 1 down. -/
def treeStep (k : Cmd) (c : Coll) (m : Comm) : Eng Prog := do
  let p := m.p
  let i := (m.me + p - c.root) % p
  let parent := ((i - 1) / 2 + c.root) % p
  if k.step = 0 && c.opc != 3 then
    let own ← if c.opc = 1 then collInput k c p m.me else engBytes k (k.gw 1) 0 (4 * c.count)
    let kids := [2 * i + 1, 2 * i + 2].filter (· < p)
    let s ← get
    if kids.any fun j => (takeStep c.comm c.vc 0 (s.rankChip m ((j + c.root) % p)) s.collIn).isNone then return .more k
    else
      let got := (← kids.mapM fun j => collRecv c m ((j + c.root) % p) 0).filterMap id
      let bs := got.foldl (fun acc (b, _) => if c.opc = 1 then acc ++ b else addElems acc.length acc b) own
      let f := anyNonFinite own || got.any (·.2) || anyNonFinite bs
      if i = 0 then treeDown k c m f (if c.opc = 1 then fromChunks c.count p c.root bs else bs)
      else
        let reqs ← collSend k c m parent 0 f bs
        collNext k f reqs false
  else if i = 0 then
    let bs ← engBytes k (k.gw 1) 0 (4 * c.count)
    treeDown k c m (anyNonFinite bs) bs
  else
    match ← collRecv c m parent 1 with
    | none => return .more k
    | some (bs, f) => treeDown { k with flag := false } c m f bs

/-- R260, R402, R467: a step of a `coll`, which waits for its data from its first step on. A collective takes nothing from its steps that
it does not complete. -/
def collStep (k : Cmd) : Eng Prog := do
  let s ← get
  let c := collOf k.g
  engAnswered k
  let cto := s.dfld Dev.fxCto 0 0 32
  let k := if k.deadline = 0 ∧ cto ≠ 0 then { k with deadline := s.now + cto * cyclesPerUs } else k
  match s.comm c.comm with
  | none => engFail 2 0xFFFF
  | some m =>
    if k.index = 0xFFFF then return .ended { k with freqs := [] } 0 0xFFFF k.flag
    else atomically do
      let k := { k with freqs := [] }
      if m.p = 1 then
        let bs ← engBytes k (k.gw 1) 0 (4 * c.count)
        engPut k (k.gw 2) 0 bs
        return .ended k 0 0xFFFF (anyNonFinite bs)
      else if m.tree then treeStep k c m
      else
        match c.opc with
        | 0 => ringReduce k c m false
        | 1 => ringGather k c m
        | 2 => ringReduce k c m true
        | _ => ringBroadcast k c m

/-- A step of a `coll`, whose failures name no item (R227). -/
def collBody (k : Cmd) : Eng Prog :=
  tryCatch (collStep k) fun e => match e with
    | .fail code _ => throw (.fail code 0xFFFF)
    | e => throw e

/-- R260, R402: a limit of `coll` is broken. -/
def badColl (s : State) (g : List W64) : Bool :=
  let c := collOf g
  let p := ((s.comm c.comm).map (·.p)).getD 0
  bitsOf (g.getD 0 0) 48 16 != 0 || bitsOf (g.getD 0 0) 22 10 != 0 || c.vc == 0 || c.vc == 3 || decide (3 < c.opc) ||
    badEaddr (g.getD 1 0) || badEaddr (g.getD 2 0) || bitsOf (g.getD 3 0) 32 32 != 0 || c.count % 4 != 0 ||
    decide (p ≤ c.root)

def specColl : EngSpec where
  cls := 14
  op := 0
  n := 4
  bad := badColl
  uses _ g :=
    let n := 4 * bitsOf (g.getD 3 0) 0 32
    [Use.flat (g.getD 1 0) n 16 true false, Use.flat (g.getD 2 0) n 16 false true]

/-! ### `fput`, `fget` (R261) -/

/-- The transfer of `fput` and `fget`. -/
def fabMove (g : List W64) : Transfer := { src := some (g.getD 0 0), dst := g.getD 1 0, e0 := bitsOf (g.getD 2 0) 0 32 }

/-- The address maps a peer's window. -/
def engIsPeer (k : Cmd) (v : W64) (r w : Bool) : Eng Bool :=
  match eaddr v with
  | .scr _ => pure false
  | .win h off => do
    let x ← engXlat k 0 ((k.handle h).va off) r w
    pure x.fab.isSome

/-- R261: the flag-add of an `fput`. -/
def putFlag (k : Cmd) : Eng Prog := do
  if k.step = 4 then
    engAnswered k
    return .ok { k with freqs := [] }
  else
    let va := k.va (k.gw 3)
    let x ← engXlat k 0 va true true
    match x.fab with
    | some (w, o) => do
      let r ← engSend k 0 k.vc w o (.flagAdd 1)
      return .more { k with step := 4, freqs := [r] }
    | none =>
      let old ← engPart k 0 va 8 true
      engWrite k 0 va (toLE 8 (leNat old + 1))
      return .ok k

/-- R261: a step of `fput` or `fget`. -/
def fabMoveBody (k : Cmd) : Eng Prog := do
  let m := fabMove k.g
  let nf := (k.gw 2).getLsbD 34
  if m.total = 0 ∨ m.total ≤ k.done then putFlag k
  else
    if k.done = 0 ∧ k.step = 0 then
      let a ← engIsPeer k (k.gw 0) true false
      let b ← engIsPeer k (k.gw 1) false true
      failIf (a == b) 2 0
    let (k, whole) ← moveChunk k m k.vc
    return if whole && decide (m.total ≤ k.done) && !nf then .ok k else .more k

/-- `fput` (op 1) and `fget` (op 2). -/
def specFab (op : Nat) : EngSpec where
  cls := 14
  op := op
  n := 4
  bad _ g :=
    let nf := (g.getD 2 0).getLsbD 34
    badEaddr (g.getD 0 0) || badEaddr (g.getD 1 0) || bitsOf (g.getD 2 0) 35 29 != 0 || bitsOf (g.getD 2 0) 0 32 % 16 != 0 ||
      (nf && (op == 2 || badHaddr (g.getD 3 0)))
  uses _ g :=
    let n := bitsOf (g.getD 2 0) 0 32
    [Use.flat (g.getD 0 0) n 16 true false, Use.flat (g.getD 1 0) n 16 false true] ++
      if (g.getD 2 0).getLsbD 34 then [Use.flat (g.getD 3 0) 8 8 false true] else []
  early _ g := if bitsOf (g.getD 2 0) 0 32 = 0 ∧ !(g.getD 2 0).getLsbD 34 then some (0, []) else none

/-! ### `famo` (R262) -/

/-- The operation of a `famo`. -/
def famoOp (k : Cmd) : AmoOp :=
  let op := match bitsOf (k.gw 3) 0 2 with | 0 => 0 | 1 => 7 | _ => 6
  ⟨op, true, false, k.gw 1, k.gw 2⟩

/-- R262: a step of `famo`. -/
def famoBody (k : Cmd) : Eng Prog := do
  if k.step = 1 then
    let old := leNat (slice ((← get).answerOf k 0) 0 8)
    engAnswered k
    engLands k none [(2, BitVec.ofNat 64 old)]
    return .ok { k with freqs := [] }
  else
    let va := k.va (k.gw 0)
    let x ← engXlat k 0 va true true
    match x.fab with
    | some (w, o) => do
      let op : FabOp := .atomic (famoOp k)
      failIf (((← get).ewin w).roce && !op.onRoce) 16 0
      if !(← get).atomicRoom 0 w then return .more k
      let r ← engSend k 0 0 w o op
      return .more { k with step := 1, freqs := [r] }
    | none =>
      failIf (decide (apertureBase ≤ x.pa)) 16 0
      failIf ((← get).rangePoison x.pa 8).isSome 15 0
      let (s, old) := (← get).amoAt (tileOf k.ctx) x.pa (famoOp k)
      set s
      engLands k none [(2, BitVec.ofNat 64 old)]
      return .ok k

def specFamo : EngSpec where
  cls := 14
  op := 3
  n := 4
  bad _ g := badHaddr (g.getD 0 0) || bitsOf (g.getD 3 0) 2 62 != 0 || bitsOf (g.getD 3 0) 0 2 == 3
  uses _ g := [{ v := g.getD 0 0, hi := 8, rows := [], align := 8, a := true }]
  late := true
  status := some 0

/-! ### `fnfetch` (R263, R313) -/

/-- R263: the egress windows through which a chip may be asked for names: Bamug windows whose connection leads to it. -/
def State.nameWindow (s : State) (peer first : Nat) : Option Nat :=
  if s.dfld Dev.fxEwin 0 63 1 = 0 then none
  else
    (List.range (s.dfld Dev.fxEwin 0 0 12 + 1)).find? fun n =>
      let w := s.ewin n
      decide (first ≤ n) && fldB (s.physNat (s.dfld Dev.fxEwin 0 12 40 * 4096 + 32 * n) 1) 0 && !w.roce &&
        (match s.connEntry w.conn with
         | some e => !connRoce e && (peer == 0xFFFF || natAt e 2 2 == peer)
         | none => false)

/-- A name that is wanted, or a node whose children are awaited, as the stack of a fetch holds it. -/
def fetchRec (name : List Byte) (have_ : Bool) (line : List Byte) : List Byte :=
  name ++ [BitVec.ofNat 8 have_.toNat] ++ zeros 15 ++ slice line 0 128

/-- R263, R314, R315: a line that a peer sent is stored under the name it was asked for, with count 1. A name that has come to be held
meanwhile gains a count if the command asked for it (`asked`), and stays as it is for a child. -/
def State.hput (s : State) (vd dom : Nat) (name line : List Byte) (node asked : Bool) : Except Nat State :=
  if (s.hline vd dom name).isSome then (if asked then s.hcountUp vd dom name else .ok s)
  else if !s.hroom vd dom then .error 3
  else do
    let t ← s.hcountAll vd dom (if node then childNames line else [])
    .ok { t with hlines := t.hlines ++ [⟨vd, dom, natAt name 0 15, natAt name 15 1, node, bitsOfBytes 1024 line, 1, false⟩] }

/-- The top of the stack is done. -/
def fetchPop (k : Cmd) : Eng Prog :=
  let k := { k with data := k.data.drop 160, target := 0, step := 0, freqs := [] }
  pure (if k.data.isEmpty then k.advance else .more k)

/-- R263: the answer to a request for a name. -/
def fetchReply (k : Cmd) (name : List Byte) : Eng Prog := do
  let s ← get
  let e := s.reqErr k
  let b := slice (s.answerOf k 0) 0 160
  let any := bitsOf (k.gw 1) 0 16 == 0xFFFF
  let more := any && (s.nameWindow 0xFFFF (k.target + 1)).isSome
  if (e = 14 ∨ (e = 0 ∧ natAt b 16 1 ≠ 0)) ∧ more then
    set (k.freqs.foldl State.dropReq s)
    return .more { k with step := 0, freqs := [], target := k.target + 1 }
  else
    engAnswered k
    failIf (natAt b 16 1 != 0) 7 k.index
    let line := slice b 32 128
    failIf (slice b 0 16 != name || s.hashOf k.vd k.dom line != natAt name 0 15) 13 k.index
    if natAt b 17 1 = 1 then
      let missing := (childNames line).filter fun c => (s.hline k.vd k.dom c).isNone
      let recs := (missing.eraseDups.map fun c => fetchRec c false []).flatten
      return .more { k with data := recs ++ fetchRec name true line ++ k.data.drop 160, target := 0, step := 0, freqs := [] }
    else
      engHwd k.index fun s => s.hput k.vd k.dom name line false (k.data.length == 160)
      fetchPop { k with freqs := [] }

/-- R263, R313: a step of `fnfetch`: the record on top of the stack. -/
def fnfetchStep (k : Cmd) : Eng Prog := do
  if k.data.isEmpty then
    let name ← engScr k k.index (k.scrAt 0 + 16 * k.index) 16
    return .more { k with data := fetchRec name false [], target := 0 }
  else
    let name := slice k.data 0 16
    let asked := k.data.length = 160
    if natAt k.data 16 1 = 1 then
      engHwd k.index fun s => s.hput k.vd k.dom name (slice k.data 32 128) true asked
      fetchPop k
    else if k.step = 1 then fetchReply k name
    else if ((← get).hline k.vd k.dom name).isSome then
      if asked then engHwd k.index fun s => s.hcountUp k.vd k.dom name
      fetchPop k
    else
      let s ← get
      match s.nameWindow (bitsOf (k.gw 1) 0 16) k.target with
      | none => engFail 16 k.index
      | some w =>
        let r ← engSend k 0 0 w 0 (.names k.dom name)
        return .more { k with step := 1, freqs := [r], target := w }

/-- R473: an abandoned `fnfetch` releases what its names received. -/
def fetchAbandon (k : Cmd) (n : Nat) : Eng Unit := do
  if k.abandoned then
    (List.range n).forM fun i => do
      let s ← get
      match s.hcountDown k.vd k.dom (s.scr (tileOf k.ctx) (k.scrAt 0 + 16 * i) 16) with
      | .ok t => set t
      | .error _ => pure ()

/-- A step of `fnfetch`, with what its ending leaves. -/
def fnfetchBody (k : Cmd) : Eng Prog :=
  tryCatch (do
    match ← fnfetchStep k with
    | .ended q code idx flag => do
      fetchAbandon k q.index
      return .ended q code idx flag
    | p => return p) fun e => do
      match e with
      | .fail .. => fetchAbandon k k.index
      | .page .. | .later | .ask .. => pure ()
      throw e

def specFnfetch : EngSpec where
  cls := 14
  op := 4
  n := 2
  bad s g := bitsOf (g.getD 0 0) 22 26 != 0 || bitsOf (g.getD 1 0) 40 24 != 0 || bitsOf (g.getD 1 0) 16 16 != 0 ||
    !s.domOk (s.vdOf s.cur.ctx) (bitsOf (g.getD 1 0) 32 8)
  uses _ g := [scrUse (g.getD 0 0) (16 * itemsOf g) 16 false]

/-- A step of a class-14 command. -/
def fabBody (k : Cmd) : Eng Prog :=
  match k.op with
  | 0 => collBody k
  | 1 | 2 => fabMoveBody k
  | 3 => famoBody k
  | _ => fnfetchBody k

def semColl (d g c k scope : Nat) : WordSem := engSem specColl (fun _ => true) d g c k scope
def semFput (d g c k scope : Nat) : WordSem := engSem (specFab 1) (fun _ => true) d g c k scope
def semFget (d g c k scope : Nat) : WordSem := engSem (specFab 2) (fun _ => true) d g c k scope
def semFamo (d g c k scope : Nat) : WordSem := engSem specFamo (fun _ => true) d g c k scope
def semFnfetch (d g c k scope : Nat) : WordSem := engSem specFnfetch (fun _ => true) d g c k scope

/-! ### The instructions -/

/-- R260. Runs a collective on a communicator over VC1 or VC2. -/
def execColl (h : Hdr) (d g c k scope : Nat) (s : State) :
    Host.Outcome State Fault Refusal :=
  runWord h (semColl d g c k scope) s

/-- R261. Copies to a peer window, optionally followed by a flag-add. -/
def execFput (h : Hdr) (d g c k scope : Nat) (s : State) :
    Host.Outcome State Fault Refusal :=
  runWord h (semFput d g c k scope) s

/-- R261. Copies from a peer window. -/
def execFget (h : Hdr) (d g c k scope : Nat) (s : State) :
    Host.Outcome State Fault Refusal :=
  runWord h (semFget d g c k scope) s

/-- R262. Performs one 8-byte atomic at a peer or local window. -/
def execFamo (h : Hdr) (d g c k scope : Nat) (s : State) :
    Host.Outcome State Fault Refusal :=
  runWord h (semFamo d g c k scope) s

/-- R263. Fetches named lines from a peer and verifies them. -/
def execFnfetch (h : Hdr) (d g c k scope : Nat) (s : State) :
    Host.Outcome State Fault Refusal :=
  runWord h (semFnfetch d g c k scope) s

end Sys2Proof.Machine
end

