-- ==== Sys2Proof/Machine/Scalar.lean ====
section
/-!
DEFINITION. The scalar instructions, class 1 (R121-R128).
-/

namespace Sys2Proof.Machine

/-- R103: the value of a b source. -/
def Ctx.bval (x : Ctx) : SrcB → W64
  | .reg n => x.sget n
  | .imm v => (BitVec.ofNat 32 v).signExtend 64

/-- The register that a b source reads. -/
def bRegs : SrcB → List PReg
  | .reg n => [.s n]
  | .imm _ => []

/-- R122: d ← f(a, b), with the bound of R107. -/
def aluSem (bound : Nat) (f : W64 → W64 → W64) (d a : Nat) (b : SrcB) : WordSem where
  srcs := .s a :: bRegs b
  eff s := s.land bound [.sreg d (f (s.me.sget a) (s.me.bval b))]

/-- One bit as a scalar. -/
def bool64 (b : Bool) : W64 := if b then 1 else 0

/-- Bits 127:64 of the signed product. -/
def mulHigh (a b : W64) : W64 := BitVec.ofInt 64 (a.toInt * b.toInt / 2 ^ 64)

/-- Bits 127:64 of the unsigned product. -/
def mulHighU (a b : W64) : W64 := BitVec.ofNat 64 (a.toNat * b.toNat / 2 ^ 64)

/-- R122: the shift amount is b[5:0]. -/
def shiftBy (b : W64) : Nat := b.toNat % 64

/-- The number of zeros above the highest bit that is one. -/
def clz64 (a : W64) : W64 := if a = 0 then 64 else BitVec.ofNat 64 (63 - Nat.log2 a.toNat)

/-- The number of bits that are one. -/
def popc64 (a : W64) : W64 := BitVec.ofNat 64 ((List.range 64).countP fun i => a.getLsbD i)

/-- R124: the field of `lm1` + 1 bits at `pos`, sign-extended where `sx` is set. -/
def bextVal (sx : Bool) (lm1 pos : Nat) (a : W64) : W64 :=
  let f := (a >>> pos) &&& BitVec.ofNat 64 (2 ^ (lm1 + 1) - 1)
  if sx && f.getLsbD lm1 then f ||| ~~~(BitVec.ofNat 64 (2 ^ (lm1 + 1) - 1)) else f

/-- R124: the low bits of `a` put into `old` at `pos`; bits above 63 are not written. -/
def binsVal (lm1 pos : Nat) (old a : W64) : W64 :=
  let mask := BitVec.ofNat 64 ((2 ^ (lm1 + 1) - 1) * 2 ^ pos)
  (old &&& ~~~mask) ||| ((a <<< pos) &&& mask)

/-- R126: the quotient, truncated toward zero. -/
def divVal (u : Bool) (a b : W64) : W64 :=
  if b = 0 then BitVec.allOnes 64
  else if u then BitVec.ofNat 64 (a.toNat / b.toNat)
  else BitVec.ofInt 64 (a.toInt.tdiv b.toInt)

/-- R126: the remainder; its sign follows a. -/
def remVal (u : Bool) (a b : W64) : W64 :=
  if b = 0 then a
  else if u then BitVec.ofNat 64 (a.toNat % b.toNat)
  else BitVec.ofInt 64 (a.toInt.tmod b.toInt)

/-- R128: the conditions of `setp`. -/
def setpHolds (cond : Nat) (a b : W64) : Bool :=
  match cond with
  | 0 => a == b
  | 1 => a != b
  | 2 => a.slt b
  | 3 => !a.slt b
  | 4 => a.ult b
  | _ => !a.ult b

/-- A one-source operation with a bound of 1. -/
def unarySem (f : W64 → W64) (d a : Nat) : WordSem where
  srcs := [.s a]
  eff s := s.land 1 [.sreg d (f (s.me.sget a))]

/-- R108, R126: `div` and `rem`: a tagged result that lands between 12 and 70 cycles after issue. -/
def divSem (f : W64 → W64 → W64) (d a b k : Nat) : WordSem where
  srcs := [.s a, .s b]
  eff s := s.launchTagged k 12 (some 70) [.sreg d (f (s.me.sget a) (s.me.sget b))]

def semAdd (d a : Nat) (b : SrcB) : WordSem := aluSem 1 (· + ·) d a b
def semSub (d a : Nat) (b : SrcB) : WordSem := aluSem 1 (· - ·) d a b
def semMul (d a : Nat) (b : SrcB) : WordSem := aluSem 3 (· * ·) d a b
def semMulh (d a : Nat) (b : SrcB) : WordSem := aluSem 3 mulHigh d a b
def semMulhu (d a : Nat) (b : SrcB) : WordSem := aluSem 3 mulHighU d a b
def semAnd (d a : Nat) (b : SrcB) : WordSem := aluSem 1 (· &&& ·) d a b
def semOr (d a : Nat) (b : SrcB) : WordSem := aluSem 1 (· ||| ·) d a b
def semXor (d a : Nat) (b : SrcB) : WordSem := aluSem 1 (· ^^^ ·) d a b
def semAndn (d a : Nat) (b : SrcB) : WordSem := aluSem 1 (fun x y => x &&& ~~~y) d a b
def semShl (d a : Nat) (b : SrcB) : WordSem := aluSem 1 (fun x y => x <<< shiftBy y) d a b
def semShr (d a : Nat) (b : SrcB) : WordSem := aluSem 1 (fun x y => x >>> shiftBy y) d a b
def semSra (d a : Nat) (b : SrcB) : WordSem := aluSem 1 (fun x y => x.sshiftRight (shiftBy y)) d a b
def semMin (d a : Nat) (b : SrcB) : WordSem := aluSem 1 (fun x y => if x.slt y then x else y) d a b
def semMax (d a : Nat) (b : SrcB) : WordSem := aluSem 1 (fun x y => if x.slt y then y else x) d a b
def semMinu (d a : Nat) (b : SrcB) : WordSem := aluSem 1 (fun x y => if x.ult y then x else y) d a b
def semMaxu (d a : Nat) (b : SrcB) : WordSem := aluSem 1 (fun x y => if x.ult y then y else x) d a b
def semSeq (d a : Nat) (b : SrcB) : WordSem := aluSem 1 (fun x y => bool64 (x == y)) d a b
def semSlt (d a : Nat) (b : SrcB) : WordSem := aluSem 1 (fun x y => bool64 (x.slt y)) d a b
def semSltu (d a : Nat) (b : SrcB) : WordSem := aluSem 1 (fun x y => bool64 (x.ult y)) d a b

/-- R123: `sel` reads the p6 that its bundle read. -/
def semSel (d a b : Nat) : WordSem where
  srcs := [.s a, .s b, .preds]
  eff s := s.land 1 [.sreg d (if predOf s.cur.preds 6 then s.me.sget a else s.me.sget b)]

def semClz (d a : Nat) : WordSem := unarySem clz64 d a
def semPopc (d a : Nat) : WordSem := unarySem popc64 d a
def semBext (d a : Nat) (sx : Bool) (lm1 pos : Nat) : WordSem := unarySem (bextVal sx lm1 pos) d a

/-- R124: `bins` reads its destination when it issues. -/
def semBins (d a lm1 pos : Nat) : WordSem where
  srcs := [.s a, .s d]
  eff s := s.land 1 [.sreg d (binsVal lm1 pos (s.me.sget d) (s.me.sget a))]

/-- R125. -/
def semLih (d a imm : Nat) : WordSem :=
  unarySem (fun x => BitVec.ofNat 64 (imm % 2 ^ 32 * 2 ^ 32) ||| (x &&& 0xFFFFFFFF#64)) d a

def semDiv (d a b k : Nat) (u : Bool) : WordSem := divSem (divVal u) d a b k
def semRem (d a b k : Nat) (u : Bool) : WordSem := divSem (remVal u) d a b k

/-- R127: g[d] ← s[a]. -/
def semMovg (d a : Nat) : WordSem where
  srcs := [.s a]
  eff s := s.land 1 [.greg d (s.me.sget a)]

/-- R127: s[d] ← g[a]. -/
def semMovfg (d a : Nat) : WordSem where
  srcs := [.g a]
  eff s := s.land 1 [.sreg d (s.me.gget a)]

/-- R128: a comparison into p6. -/
def semSetp (cond a b : Nat) : WordSem where
  srcs := [.s a, .s b]
  eff s := s.land 1 [.p6 (setpHolds cond (s.me.sget a) (s.me.sget b))]

/-! ### The instructions -/

/-- R122. Scalar add modulo 2^64 of a and b or a sign-extended immediate. -/
def execAdd (h : Hdr) (d a : Nat) (b : SrcB) (s : State) :
    Host.Outcome State Fault Refusal :=
  runWord h (semAdd d a b) s

/-- R122. Scalar subtract modulo 2^64. -/
def execSub (h : Hdr) (d a : Nat) (b : SrcB) (s : State) :
    Host.Outcome State Fault Refusal :=
  runWord h (semSub d a b) s

/-- R122. Low 64 bits of the scalar product. -/
def execMul (h : Hdr) (d a : Nat) (b : SrcB) (s : State) :
    Host.Outcome State Fault Refusal :=
  runWord h (semMul d a b) s

/-- R122. High 64 bits of the signed 128-bit product. -/
def execMulh (h : Hdr) (d a : Nat) (b : SrcB) (s : State) :
    Host.Outcome State Fault Refusal :=
  runWord h (semMulh d a b) s

/-- R122. High 64 bits of the unsigned 128-bit product. -/
def execMulhu (h : Hdr) (d a : Nat) (b : SrcB) (s : State) :
    Host.Outcome State Fault Refusal :=
  runWord h (semMulhu d a b) s

/-- R122. Scalar bitwise AND. -/
def execAnd (h : Hdr) (d a : Nat) (b : SrcB) (s : State) :
    Host.Outcome State Fault Refusal :=
  runWord h (semAnd d a b) s

/-- R122. Scalar bitwise OR. -/
def execOr (h : Hdr) (d a : Nat) (b : SrcB) (s : State) :
    Host.Outcome State Fault Refusal :=
  runWord h (semOr d a b) s

/-- R122. Scalar bitwise XOR. -/
def execXor (h : Hdr) (d a : Nat) (b : SrcB) (s : State) :
    Host.Outcome State Fault Refusal :=
  runWord h (semXor d a b) s

/-- R122. Scalar a AND NOT b. -/
def execAndn (h : Hdr) (d a : Nat) (b : SrcB) (s : State) :
    Host.Outcome State Fault Refusal :=
  runWord h (semAndn d a b) s

/-- R122. Scalar shift left by b[5:0]. -/
def execShl (h : Hdr) (d a : Nat) (b : SrcB) (s : State) :
    Host.Outcome State Fault Refusal :=
  runWord h (semShl d a b) s

/-- R122. Scalar logical shift right by b[5:0]. -/
def execShr (h : Hdr) (d a : Nat) (b : SrcB) (s : State) :
    Host.Outcome State Fault Refusal :=
  runWord h (semShr d a b) s

/-- R122. Scalar arithmetic shift right by b[5:0]. -/
def execSra (h : Hdr) (d a : Nat) (b : SrcB) (s : State) :
    Host.Outcome State Fault Refusal :=
  runWord h (semSra d a b) s

/-- R122. Signed scalar minimum. -/
def execMin (h : Hdr) (d a : Nat) (b : SrcB) (s : State) :
    Host.Outcome State Fault Refusal :=
  runWord h (semMin d a b) s

/-- R122. Signed scalar maximum. -/
def execMax (h : Hdr) (d a : Nat) (b : SrcB) (s : State) :
    Host.Outcome State Fault Refusal :=
  runWord h (semMax d a b) s

/-- R122. Unsigned scalar minimum. -/
def execMinu (h : Hdr) (d a : Nat) (b : SrcB) (s : State) :
    Host.Outcome State Fault Refusal :=
  runWord h (semMinu d a b) s

/-- R122. Unsigned scalar maximum. -/
def execMaxu (h : Hdr) (d a : Nat) (b : SrcB) (s : State) :
    Host.Outcome State Fault Refusal :=
  runWord h (semMaxu d a b) s

/-- R122. Writes 1 if a equals b, else 0. -/
def execSeq (h : Hdr) (d a : Nat) (b : SrcB) (s : State) :
    Host.Outcome State Fault Refusal :=
  runWord h (semSeq d a b) s

/-- R122. Writes 1 if a is less than b, signed. -/
def execSlt (h : Hdr) (d a : Nat) (b : SrcB) (s : State) :
    Host.Outcome State Fault Refusal :=
  runWord h (semSlt d a b) s

/-- R122. Writes 1 if a is less than b, unsigned. -/
def execSltu (h : Hdr) (d a : Nat) (b : SrcB) (s : State) :
    Host.Outcome State Fault Refusal :=
  runWord h (semSltu d a b) s

/-- R123. Selects s[a] if p6 is 1, else s[b]. -/
def execSel (h : Hdr) (d a b : Nat) (s : State) : Host.Outcome State Fault Refusal := runWord h (semSel d a b) s

/-- R123. Counts the leading zeros of s[a]. -/
def execClz (h : Hdr) (d a : Nat) (s : State) : Host.Outcome State Fault Refusal := runWord h (semClz d a) s

/-- R123. Counts the set bits of s[a]. -/
def execPopc (h : Hdr) (d a : Nat) (s : State) : Host.Outcome State Fault Refusal := runWord h (semPopc d a) s

/-- R124. Extracts a bit field, optionally sign-extended. -/
def execBext (h : Hdr) (d a : Nat) (sx : Bool) (lm1 pos : Nat) (s : State) :
    Host.Outcome State Fault Refusal :=
  runWord h (semBext d a sx lm1 pos) s

/-- R124. Inserts the low bits of s[a] into a field of s[d]. -/
def execBins (h : Hdr) (d a lm1 pos : Nat) (s : State) :
    Host.Outcome State Fault Refusal :=
  runWord h (semBins d a lm1 pos) s

/-- R125. Places a 32-bit immediate in the high half of s[d] and keeps the low half of s[a]. -/
def execLih (h : Hdr) (d a imm : Nat) (s : State) : Host.Outcome State Fault Refusal := runWord h (semLih d a imm) s

/-- R126. Tagged signed or unsigned divide that truncates toward zero. -/
def execDiv (h : Hdr) (d a b k : Nat) (u : Bool) (s : State) :
    Host.Outcome State Fault Refusal :=
  runWord h (semDiv d a b k u) s

/-- R126. Tagged signed or unsigned remainder. -/
def execRem (h : Hdr) (d a b k : Nat) (u : Bool) (s : State) :
    Host.Outcome State Fault Refusal :=
  runWord h (semRem d a b k u) s

/-- R127. Copies a scalar register to a staging register. -/
def execMovg (h : Hdr) (d a : Nat) (s : State) : Host.Outcome State Fault Refusal := runWord h (semMovg d a) s

/-- R127. Copies a staging register to a scalar register. -/
def execMovfg (h : Hdr) (d a : Nat) (s : State) : Host.Outcome State Fault Refusal := runWord h (semMovfg d a) s

/-- R128. Compares two scalars under the condition in d and writes p6. -/
def execSetp (h : Hdr) (cond a b : Nat) (s : State) :
    Host.Outcome State Fault Refusal :=
  runWord h (semSetp cond a b) s

end Sys2Proof.Machine
end

