-- ==== Sys2Proof/Machine/Segment.lean ====
section
/-!
DEFINITION. Reads of guest memory that run over pages, and the fetch of a segment: its table entry, header and token
stream with their checks (R43-R46, R112, R113, R418, R419).
-/

namespace Sys2Proof.Machine

/-! ### Guest ranges -/

/-- How a read of guest memory ends: its bytes with the poison they carry, or what stops it. -/
inductive GuestRead where
  | bytes (bs : List Byte) (p : Option Origin)
  | err (e : XlErr)

/-- A read of `n` bytes of guest memory through a tile's translation and local memory; `fuel` counts its pages. A page
behind an egress window is not read here (log entry 18). -/
def State.readGuest (s : State) (tile vd : Nat) : Nat → Nat → Nat → State × GuestRead
  | 0, _, _ => (s, .bytes [] none)
  | fuel + 1, va, n =>
    if n = 0 then (s, .bytes [] none)
    else
      let k := Nat.min n (2 ^ 16 - va % 2 ^ 16)
      match s.translate (some tile) vd (va % 2 ^ 55) true false with
      | (s, .error e) => (s, .err e)
      | (s, .ok x) =>
        if x.fab.isSome then (s, .err (.fail 5 2))
        else
          let (s, bs, p) := s.readAt tile vd x k
          match s.readGuest tile vd fuel (va + k) (n - k) with
          | (s, .bytes rest q) => (s, .bytes (bs ++ rest) (p.orElse fun _ => q))
          | r => r

/-! ### Expansion of a token stream (R46) -/

/-- The 32-bit words of bytes. -/
def wordsLE : Nat → List Byte → List W32
  | 0, _ => []
  | fuel + 1, bs => if bs.length < 4 then [] else BitVec.ofNat 32 (natAt bs 0 4) :: wordsLE fuel (bs.drop 4)

/-- R46: the tokens from `bs` on, against a dictionary; the words in reverse, or the reason of R417. -/
def expandTokens (dict : List W32) : Nat → List Byte → List W32 → Except Nat (List W32)
  | 0, _, _ => .error 24
  | fuel + 1, bs, acc =>
    match bs with
    | [] => .error 24
    | t :: rest =>
      let v := t.toNat
      if v = 0xFF then (if rest.isEmpty then .ok acc.reverse else .error 24)
      else if v < 0xF0 then
        match dict[v]? with
        | some w => expandTokens dict fuel rest (w :: acc)
        | none => .error 23
      else
        let n := v - 0xEF
        if rest.length < 4 * n then .error 24
        else expandTokens dict fuel (rest.drop (4 * n)) ((wordsLE n rest).reverse ++ acc)

/-- R45: the walk of a segment's words ends with a whole bundle at the last word. -/
def walkEnds : List W32 → Bool
  | [] => false
  | [w] => w.getLsbD 31 && !w.getLsbD 30
  | w :: x :: rest =>
    if w.getLsbD 30 then (if rest.isEmpty then w.getLsbD 31 else walkEnds rest)
    else walkEnds (x :: rest)

/-- R45, R46, R418: a segment image checked and expanded, in the order of R417's reasons. -/
def expandSegment (seg imgLen : Nat) (hdr rest : List Byte) : Except Nat Half :=
  let clen := natAt hdr 0x08 4
  let words := natAt hdr 0x0C 2
  let bundles := natAt hdr 0x0E 2
  let flags := natAt hdr 0x1C 2
  let dcount := natAt hdr 0x1E 2
  if imgLen ≠ 64 + clen then .error 17
  else if natAt hdr 0 4 ≠ 0x47534C5A then .error 18
  else if natAt hdr 4 2 ≠ seg then .error 19
  else if words = 0 || 8192 < words || bundles = 0 || 8192 < bundles then .error 20
  else if 4 ≤ flags || natAt hdr 0x20 32 ≠ 0 then .error 21
  else if 240 < dcount then .error 22
  else
    match expandTokens (wordsLE dcount rest) (rest.length + 1) (rest.drop (4 * dcount)) [] with
    | .error r => .error r
    | .ok ws =>
      if ws.length ≠ words then .error 24
      else if !walkEnds ws then .error 25
      else if (splitBundles ws []).length ≠ bundles then .error 20
      else
        .ok { seg := seg, ready := true, fail := none, wait := none, words := ws, next := natAt hdr 6 2,
              issue := natAt hdr 0x10 4, sig := natAt hdr 0x14 4, est := natAt hdr 0x18 4,
              phaseSafe := fldB flags 0, gstore := fldB flags 1 }

/-- How the fetch of a segment ends: expanded, failed with its trap, or stopped by a translation. -/
inductive SegFetch where
  | ok (h : Half)
  | trap (t : TrapRec)
  | err (e : XlErr)

/-- R44, R418, R419: the fetch and expansion of a segment of a context, with the checks in their order. `target` is the
detail of a failure. -/
def State.segFetch (s : State) (c seg target : Nat) : State × SegFetch :=
  let tile := tileOf c
  match s.groupOf c with
  | none => (s, .trap ⟨3, 2, target⟩)
  | some g =>
    if g.scount ≤ seg then (s, .trap ⟨3, 2, target⟩)
    else
      match s.readGuest tile g.vd 2 (g.stab + 16 * seg) 16 with
      | (s, .err e) => (s, .err e)
      | (s, .bytes ent p0) =>
        let addr := natAt ent 0 8
        if p0.isSome then (s, .trap ⟨11, 1, 6⟩)
        else if addr = 0 then (s, .trap ⟨3, 3, target⟩)
        else if addr % 64 ≠ 0 || natAt ent 12 4 ≠ 0 then (s, .trap ⟨1, 16, target⟩)
        else
          match s.readGuest tile g.vd 2 addr 64 with
          | (s, .err e) => (s, .err e)
          | (s, .bytes hdr p1) =>
            -- the longest stream that can expand to 8,192 words
            let n := Nat.min (natAt hdr 0x08 4) 65536
            match s.readGuest tile g.vd 4 (addr + 64) n with
            | (s, .err e) => (s, .err e)
            | (s, .bytes rest p2) =>
              if p1.isSome || p2.isSome then (s, .trap ⟨11, 1, 6⟩)
              else
                match expandSegment seg (natAt ent 8 4) hdr rest with
                | .ok h => (s, .ok h)
                | .error r => (s, .trap ⟨1, r, target⟩)

/-- R112: the segment and bundle of a computed target. -/
def targetOf (v : W64) : Nat × Nat := (bitsOf v 16 16, bitsOf v 0 13)

/-- R44, R113: what a taken branch to a target traps when it issues. A target whose segment is not in the loop buffer is
checked against the segment as memory holds it; where a translation stops that, the check is made when the fetch ends. -/
def State.targetChk (s : State) (c seg bun : Nat) : Option TrapRec :=
  let x := s.ctx c
  let target := seg * 2 ^ 16 + bun
  let inHalf (h : Half) : Option TrapRec :=
    match h.fail with
    | some t => some t
    | none => if bun < h.bundles.length then none else some ⟨3, 1, target⟩
  let away : Option TrapRec :=
    match (s.segFetch c seg target).2 with
    | .ok h => inHalf h
    | .trap t => some t
    | .err _ => none
  match x.exec with
  | none => none
  | some h =>
    if seg = 0xFFFF ∨ seg = h.seg then inHalf h
    else
      match x.idle with
      | some k => if k.seg = seg ∧ k.ready then inHalf k else away
      | none => away

/-- R132: the bundle that follows one in program order: the next of the segment, or bundle 0 of NEXT; `none` past the last
bundle of a segment whose NEXT is 0xFFFF. -/
def Ctx.following (x : Ctx) (p : Pc) : Option Pc :=
  match x.exec with
  | none => none
  | some h =>
    if p.bun + 1 < h.bundles.length then some ⟨p.seg, p.bun + 1⟩
    else if h.next = 0xFFFF then none
    else some ⟨h.next, 0⟩

/-- R131, R417: the trap of passing beyond the last bundle where NEXT is 0xFFFF. -/
def pastEnd (p : Pc) : TrapRec := ⟨3, 4, p.seg * 2 ^ 16 + 0xFFFF⟩

end Sys2Proof.Machine
end

