-- ==== Sys2Proof/Machine/Control.lean ====
section
/-!
DEFINITION. The control instructions, class 7 (R129-R135).
-/

namespace Sys2Proof.Machine

/-- A branch whose condition holds (R113, R130). -/
def branchSem (srcs : List PReg) (taken : State → Bool) (seg bun : Nat) : WordSem where
  chk s := if taken s then s.targetChk s.cur.ctx seg bun else none
  srcs := srcs
  eff s := if taken s then s.branchTo s.cur seg bun else s

/-- R132: the trap of a `call` or `jmpr` that has no bundle to link to. -/
def State.linkChk (s : State) : Option TrapRec :=
  match s.me.following s.cur.pc with
  | some _ => none
  | none => some (pastEnd s.cur.pc)

/-- R132: the link value. -/
def State.link (s : State) : W64 := BitVec.ofNat 64 (((s.me.following s.cur.pc).map (·.target)).getD 0)

def semBr (seg bun : Nat) : WordSem := branchSem [] (fun _ => true) seg bun
def semBrz (a seg bun : Nat) : WordSem := branchSem [.s a] (fun s => s.me.sget a == 0) seg bun
def semBrnz (a seg bun : Nat) : WordSem := branchSem [.s a] (fun s => s.me.sget a != 0) seg bun

/-- The predicate is the one read when the bundle issues. -/
def semBrp (a b seg bun : Nat) : WordSem :=
  branchSem (if a = 7 then [] else [.preds]) (fun s => predOf s.cur.preds a != (b == 1)) seg bun

/-- R132: the link lands, then control passes. -/
def semCall (d seg bun : Nat) : WordSem where
  chk s := firstTrap [s.linkChk, s.targetChk s.cur.ctx seg bun]
  eff s := (s.land 1 [.sreg d s.link]).branchTo s.cur seg bun

/-- R132: the target is in s[a]. -/
def semRet (a : Nat) : WordSem where
  chk s := let t := targetOf (s.me.sget a); s.targetChk s.cur.ctx t.1 t.2
  srcs := [.s a]
  eff s := let t := targetOf (s.me.sget a); s.branchTo s.cur t.1 t.2

/-- R132: s[a] is read before s[d] is written. -/
def semJmpr (d a : Nat) : WordSem where
  chk s := let t := targetOf (s.me.sget a); firstTrap [s.linkChk, s.targetChk s.cur.ctx t.1 t.2]
  srcs := [.s a]
  eff s := let t := targetOf (s.me.sget a); (s.land 1 [.sreg d s.link]).branchTo s.cur t.1 t.2

/-- R133: what `loop` makes of the counter, the window p0-p5 and `epi`, and whether it is taken. -/
structure LoopStep where
  counter : W64
  window : BitVec 6
  epi : W64
  taken : Bool

/-- R133: one step of `loop`. -/
def loopStep (n : Nat) (counter : W64) (window : BitVec 6) (epi : W64) : LoopStep :=
  if counter ≠ 0 then ⟨counter - 1, (window <<< 1) ||| 1#6, epi, true⟩
  else
    let epi := if bitsOf epi 7 1 = 0 then BitVec.ofNat 64 (128 + (n - 1)) else epi
    let count := bitsOf epi 0 3
    if 0 < count then ⟨counter, window <<< 1, BitVec.ofNat 64 (128 + (count - 1)), true⟩
    else ⟨counter, window, BitVec.ofNat 64 count, false⟩

/-- R133: the step of the `loop` in hand, from the values read when its bundle issues. -/
def State.loopNow (s : State) (a n : Nat) : LoopStep :=
  loopStep n (s.me.sget a) (s.cur.preds.extractLsb' 0 6) (s.me.cget csrEpi)

def semLoop (a n seg bun : Nat) : WordSem where
  chk s := if (s.loopNow a n).taken then s.targetChk s.cur.ctx seg bun else none
  srcs := [.s a, .preds, .csr csrEpi]
  eff s :=
    let r := s.loopNow a n
    let s := s.land 1 <|
      if s.me.sget a ≠ 0 then [.sreg a r.counter, .window r.window]
      else (if r.taken then [.window r.window] else []) ++ [.csr csrEpi r.epi]
    if r.taken then s.branchTo s.cur seg bun else s

/-- R47, R134, R420, R448: the pass ends, and the task drains. -/
def State.exitTask (s : State) : State :=
  let c := s.cur.ctx
  let x := s.me
  match x.rerun with
  | some r =>
    s.setCtx c (x.rerunEnds r ⟨x.count, x.crc, none, false, 7, false⟩ none)
  | none =>
    match x.passMismatch with
    | some reason => s.passFails c reason s.cur.pc
    | none => s.setCtx c { x with st := .draining, drainTo := .exit }

def semExit : WordSem where
  ready s := s.me.pend.isEmpty
  eff s := s.exitTask

/-- R135: SIG, with the code as its detail. -/
def semTrap (code : Nat) : WordSem where
  chk _ := some ⟨10, 0, code⟩
  eff s := s

/-- R135: nothing. -/
def semNop : WordSem where
  eff s := s

/-- R135: a segment that the table does not hold starts no expansion. -/
def semSegpf (seg : Nat) : WordSem where
  eff s :=
    let c := s.cur.ctx
    let n := if seg = 0xFFFF then s.cur.pc.seg else seg
    match (s.segFetch c n 0).2 with
    | .trap ⟨3, _, _⟩ => s
    | _ => s.modCtx c fun x => x.prefetch n

/-! ### The instructions -/

/-- R130. Unconditional branch to a bundle target. -/
def execBr (h : Hdr) (seg bun : Nat) (s : State) : Host.Outcome State Fault Refusal := runWord h (semBr seg bun) s

/-- R130. Branches when a scalar is zero. -/
def execBrz (h : Hdr) (a seg bun : Nat) (s : State) :
    Host.Outcome State Fault Refusal :=
  runWord h (semBrz a seg bun) s

/-- R130. Branches when a scalar is nonzero. -/
def execBrnz (h : Hdr) (a seg bun : Nat) (s : State) :
    Host.Outcome State Fault Refusal :=
  runWord h (semBrnz a seg bun) s

/-- R130. Branches on a predicate or its negation. -/
def execBrp (h : Hdr) (a b seg bun : Nat) (s : State) :
    Host.Outcome State Fault Refusal :=
  runWord h (semBrp a b seg bun) s

/-- R132. Branches and writes a link value. -/
def execCall (h : Hdr) (d seg bun : Nat) (s : State) :
    Host.Outcome State Fault Refusal :=
  runWord h (semCall d seg bun) s

/-- R132. Branches to the target held in a scalar. -/
def execRet (h : Hdr) (a : Nat) (s : State) : Host.Outcome State Fault Refusal := runWord h (semRet a) s

/-- R132. Branches to a computed target and writes a link. -/
def execJmpr (h : Hdr) (d a : Nat) (s : State) : Host.Outcome State Fault Refusal := runWord h (semJmpr d a) s

/-- R133. Counts down, rotates the predicate window and drains epilogue passes. -/
def execLoop (h : Hdr) (a n seg bun : Nat) (s : State) :
    Host.Outcome State Fault Refusal :=
  runWord h (semLoop a n seg bun) s

/-- R134. Ends the tile task and starts its drain. -/
def execExit (h : Hdr) (s : State) : Host.Outcome State Fault Refusal := runWord h semExit s

/-- R135. Raises a SIG trap with a 32-bit code. -/
def execTrap (h : Hdr) (code : Nat) (s : State) : Host.Outcome State Fault Refusal := runWord h (semTrap code) s

/-- R135. Has no effect. -/
def execNop (h : Hdr) (s : State) : Host.Outcome State Fault Refusal := runWord h semNop s

/-- R135. Starts expansion of a named segment into the idle half. -/
def execSegpf (h : Hdr) (seg : Nat) (s : State) : Host.Outcome State Fault Refusal := runWord h (semSegpf seg) s

end Sys2Proof.Machine
end

