-- ==== Sys2Proof/Machine/Streams.lean ====
section
/-!
DEFINITION. The stream instructions, class 5 (R199-R205, R476).
-/

namespace Sys2Proof.Machine

/-! ### Descriptors (R200) -/

/-- The six staging registers of a descriptor. -/
def Ctx.streamDesc (x : Ctx) (a : Nat) : List W64 := (List.range 6).map fun i => x.gget (a + i)

/-- A word of a descriptor. -/
def descWord (ds : List W64) (i : Nat) : W64 := ds.getD i 0

/-- The extents, of all four dimensions. -/
def descExts (ds : List W64) : List Nat :=
  [bitsOf (descWord ds 2) 0 32, bitsOf (descWord ds 2) 32 32, bitsOf (descWord ds 3) 0 32, bitsOf (descWord ds 3) 32 32]

/-- The strides, of all four dimensions. -/
def descStrs (ds : List W64) : List Int :=
  [sext 32 (bitsOf (descWord ds 4) 0 32), sext 32 (bitsOf (descWord ds 4) 32 32), sext 32 (bitsOf (descWord ds 5) 0 32),
    sext 32 (bitsOf (descWord ds 5) 32 32)]

/-- The number of dimensions. -/
def descDims (ds : List W64) : Nat := bitsOf (descWord ds 1) 53 2 + 1

/-- The entries of the pattern. -/
def descTotal (ds : List W64) : Nat := ((descExts ds).take (descDims ds)).foldl (· * ·) 1

/-- R200: a limit of the descriptor is broken. -/
def badDesc (ds : List W64) : Bool :=
  let n := descDims ds
  let fmt := bitsOf (descWord ds 1) 60 4
  ((descExts ds).take n).contains 0 || ((descExts ds).drop n).any (· != 0) || ((descStrs ds).drop n).any (· != 0) ||
    2 ^ 48 < descTotal ds || bitsOf (descWord ds 1) 0 53 != 0 || fmt == 6 || fmt == 7 || 10 < fmt

/-- R200: the offsets of the pattern's extreme corners. -/
def descCorners (ds : List W64) : Int × Int :=
  let n := descDims ds
  (((descExts ds).zip (descStrs ds)).take n).foldl (fun (lo, hi) (e, st) =>
    let d := ((e - 1 : Nat) : Int) * st
    if d < 0 then (lo + d, hi) else (lo, hi + d)) (((descWord ds 0).toNat : Int), ((descWord ds 0).toNat : Int))

/-- R200: HANDLE, then ALIGN. -/
def descChk (h : Handle) (ds : List W64) : Option TrapRec :=
  let write := bitsOf (descWord ds 1) 59 1 == 1
  let (lo, hi) := descCorners ds
  let off := (descWord ds 0).toNat
  if !h.valid then some ⟨6, 1, off⟩
  else if !(if write then h.w else h.r) then some ⟨6, 2, off⟩
  else if lo < 0 then some ⟨6, 3, wrap64 lo⟩
  else if (2 ^ h.l2s : Nat) < hi + 256 then some ⟨6, 3, hi.toNat⟩
  else if off % 16 ≠ 0 then some ⟨7, 1, off⟩
  else ((descStrs ds).find? fun st => st % 16 != 0).map fun st => ⟨7, 1, wrap64 st⟩

/-- The handle that a descriptor names. -/
def Ctx.descHandle (x : Ctx) (ds : List W64) : Handle := x.hget (bitsOf (descWord ds 1) 55 4)

/-- R200, R476: the stream of a descriptor, with the window as it stands. -/
def Stream.ofDesc (ds : List W64) (h : Handle) (gen : Nat) : Stream where
  bound := true
  desc := ds
  write := bitsOf (descWord ds 1) 59 1 == 1
  fmt := Fmt.ofCode (bitsOf (descWord ds 1) 60 4)
  offset := (descWord ds 0).toNat
  ext := (descExts ds).take (descDims ds)
  str := (descStrs ds).take (descDims ds)
  total := descTotal ds
  win := h
  pos := 0
  ovr := false
  fetched := []
  next := 0
  blocked := false
  gen := gen

/-- R199: a use of an unbound stream. -/
def Ctx.boundChk (x : Ctx) (w q : Nat) : Option TrapRec := if (x.qget q).bound then none else some ⟨1, 8, w⟩

/-- R202, R203, R208: the entries of a read stream that are fetched and not popped are discarded. -/
def Stream.discard (q : Stream) : Stream := { q with fetched := [], next := q.pos, blocked := false }

/-- R202, R274: the parts of the entry that a read stream fetches next, each translated; or the part whose translation does not complete. -/
def State.entryXlat (s : State) (c : Nat) (st : Stream) : State × Except (Nat × XlErr) (List Piece) :=
  (splitPages 3 (st.entryVa st.next) 256 0).foldl (fun r (a, n, dst) =>
    match r with
    | (s, .error e) => (s, .error e)
    | (s, .ok ps) =>
      match s.translate (some (tileOf c)) st.win.vd a true false with
      | (s, .ok xl) => (s, .ok (ps ++ [{ Piece.init a n dst with xl := some xl }]))
      | (s, .error e) => (s, .error (a, e))) (s, .ok [])

/-- A fetch of a stream that has not come back. -/
def Flight.fetches (f : Flight) (n : Nat) : Bool :=
  match f.load with
  | some l => match l.dst with | .stream q _ _ => q == n | _ => false
  | none => false

/-- A fetch of any stream. -/
def Flight.isFetch (f : Flight) : Bool :=
  match f.load with
  | some l => match l.dst with | .stream .. => true | _ => false
  | none => false

/-- R202, R203, R208: what a read stream of a context has fetched, or is fetching, is discarded. -/
def Ctx.discard (x : Ctx) (n : Nat) : Ctx :=
  if (x.qget n).write then x
  else { (x.qset n (x.qget n).discard) with flights := x.flights.filter fun f => !f.fetches n }

/-- R204, R302: a binding ends, and its pins are released. -/
def State.endBinding (s : State) (c n : Nat) : State :=
  let x := s.ctx c
  (s.dropPins (x.group.getD 0) x.lx x.ly n).modCtx c fun x => (x.discard n).qset n Stream.unbound

/-! ### Meanings (R201-R205) -/

/-- R201: the old binding ends as `sunbind` ends it. -/
def semSbind (w d a : Nat) : WordSem where
  ready s := s.me.noAcquire
  chk s :=
    let ds := s.me.streamDesc a
    if badDesc ds then some ⟨1, 10, w⟩ else descChk (s.me.descHandle ds) ds
  srcs := (List.range 6).map fun i => .g (a + i)
  eff s :=
    let x := s.me
    let ds := x.streamDesc a
    let t := s.endBinding s.cur.ctx d
    ({ t with serial := t.serial + 1 }).modCtx s.cur.ctx fun y => y.qset d (Stream.ofDesc ds (x.descHandle ds) t.serial)

/-- R204: pushes that have not been performed go on. -/
def semSunbind (d : Nat) : WordSem where
  eff s := s.endBinding s.cur.ctx d

/-- R203: the tag is released when the entries pushed before are performed, or the discard is done. -/
def semSflush (w a k scope : Nat) : WordSem where
  ready s := !s.me.tagBusy s.now k
  chk s := s.me.boundChk w a
  eff s :=
    let st := s.me.qget a
    let s := s.modCtx s.cur.ctx fun x => x.discard a
    s.addFlight { s.launchFlight .tagged none [] with tag := some k, flush := some (a, st.gen, scope) }

/-- R205: the status record of a stream. -/
def State.streamRecord (s : State) (q : Nat) : List Byte :=
  let st := s.me.qget q
  if !st.bound then zeros 16
  else
    let c := s.cur.ctx
    let buf := if st.write then s.taken c q st.gen else st.fetched.length
    let fault := if st.write then s.posted.any fun p => p.ctx == c && p.stream == some (q, st.gen) && p.wait.isSome else st.blocked
    toLE 8 st.pos ++ toLE 4 buf ++
      toLE 1 (1 + 2 * st.write.toNat + 4 * st.ovr.toNat + 8 * fault.toNat) ++ zeros 3

def semSstat (a b : Nat) : WordSem where
  ready s := s.scrWritable
  chk s := s.scrChecks [((s.me.sget b).toNat, 16, 16)]
  srcs := [.s b]
  eff s :=
    let bs := s.streamRecord a
    (s.scrWrite s.tile (s.me.sget b).toNat bs).modCtx s.cur.ctx fun x => x.qset a { x.qget a with ovr := false }

/-- R204: the stream advances; an advance past its end stops there. -/
def semSskip (w a b : Nat) : WordSem where
  chk s := s.me.boundChk w a
  srcs := [.s b]
  eff s := s.modCtx s.cur.ctx fun x => x.qset a ((x.qget a).pop (x.sget b).toNat)

/-! ### The instructions -/

/-- R200. Binds a stream to a descriptor snapshotted from six staging registers. -/
def execSbind (h : Hdr) (d a : Nat) (s : State) :
    Host.Outcome State Fault Refusal :=
  runWord h (semSbind (wordNat (.sbind h d a)) d a) s

/-- R204. Ends a stream binding. -/
def execSunbind (h : Hdr) (d : Nat) (s : State) : Host.Outcome State Fault Refusal := runWord h (semSunbind d) s

/-- R203. Releases a tag once pushed entries are performed, or discards read buffers. -/
def execSflush (h : Hdr) (a k scope : Nat) (s : State) :
    Host.Outcome State Fault Refusal :=
  runWord h (semSflush (wordNat (.sflush h a k scope)) a k scope) s

/-- R205. Writes a stream status record to scratchpad and clears OVR. -/
def execSstat (h : Hdr) (a b : Nat) (s : State) : Host.Outcome State Fault Refusal := runWord h (semSstat a b) s

/-- R204. Advances a stream by a number of entries. -/
def execSskip (h : Hdr) (a b : Nat) (s : State) :
    Host.Outcome State Fault Refusal :=
  runWord h (semSskip (wordNat (.sskip h a b)) a b) s

end Sys2Proof.Machine
end

