-- ==== Sys2Proof/Machine/Sync.lean ====
section
/-!
DEFINITION. The synchronisation instructions, class 8 (R206-R223), and the operations that their events share.
-/

namespace Sys2Proof.Machine

/-! ### Fences (R207, R208) -/

/-- R271: a posted write is performed at a scope. -/
def State.performedAt (s : State) (scope : Nat) (p : Posted) : Bool :=
  scope < 2 && p.isRcWrite && s.entered p

/-- R208: the conditions of a plain fence. -/
def State.plainReady (s : State) (scope : Nat) : Bool :=
  !(s.me.flights.any Flight.isRead) && !(s.me.pend.any (·.slot == slotL)) &&
    s.posted.all fun p => p.ctx != s.cur.ctx || p.stream.isSome || p.log.isSome || s.performedAt scope p

/-- R208: every entry pushed to a bound write stream has been performed. -/
def State.pushesReady (s : State) (scope : Nat) : Bool :=
  let x := s.me
  let bound (q gen : Nat) : Bool := (x.qget q).bound && (x.qget q).gen == gen
  !(x.pend.any IssueWord.accesses) &&
  !(x.flights.any fun f => f.lands.any fun l => match l with | .push q gen _ _ _ => bound q gen | _ => false) &&
    s.posted.all fun p => p.ctx != s.cur.ctx || s.performedAt scope p ||
      match p.stream with | some (q, gen) => !bound q gen | none => true

/-- R208: the UO lines that the context wrote, or the partial line of its log, are still to be written out. -/
def State.drainLeft (s : State) : Bool :=
  let c := s.cur.ctx
  (s.cache.any fun l => l.tile == tileOf c && l.dirtyOf (bankOf c)) ||
    (!s.me.logBits.isEmpty && !s.me.replaying)

/-- R271, R278: an acquire at cluster scope or wider drops the clean copies of RC lines; the context's later releases come after the
writes that its cluster holds by now. -/
def State.acquireAt (s : State) (c scope : Nat) : State :=
  let s := s.modCtx c fun x => { x with acqAt := s.serial }
  if scope = 0 then s else s.dropClean (tileOf c)

/-- R208: the read streams of a context discard what they have fetched. -/
def Ctx.discardStreams (x : Ctx) : Ctx :=
  (List.range 8).foldl (fun x n => if (x.qget n).bound then x.discard n else x) x

def semFence (scope : Nat) : WordSem where
  ready s := s.plainReady scope
  eff s := s.acquireAt s.cur.ctx scope

def semFenceAll (scope : Nat) : WordSem where
  ready s := s.plainReady scope && s.pushesReady scope
  eff s := (s.acquireAt s.cur.ctx scope).modCtx s.cur.ctx Ctx.discardStreams

/-- R84, R208: the log's partial line and the context's UO lines are written out when the fence comes to issue. -/
def semFenceDrain : WordSem where
  ready s := s.plainReady 3 && !(s.me.flights.any Flight.pushes) && !(s.me.pend.any IssueWord.accesses) && s.posted.all (fun p => p.ctx != s.cur.ctx) && !s.drainLeft
  prep s := if s.drainLeft then some ((s.flushUo s.cur.ctx).flushLog s.cur.ctx) else none
  eff s := (s.acquireAt s.cur.ctx 3).modCtx s.cur.ctx Ctx.discardStreams

/-! ### Monitors (R210-R214) -/

/-- The status codes of R213. -/
abbrev stMet : Nat := 0
abbrev stWrite : Nat := 1
abbrev stEvict : Nat := 2
abbrev stTimeout : Nat := 3
abbrev stSwitch : Nat := 4
abbrev stNoSlot : Nat := 5
abbrev stArmed : Nat := 6
abbrev stNone : Nat := 7

/-- The bytes of a watched word. -/
def wordSize (dbl : Bool) : Nat := if dbl then 8 else 4

/-- The context goes into Sleeping (R214). -/
def Ctx.toSleep (x : Ctx) (sl : Sleep) : Ctx := { x with st := if sl.held then x.st else .sleeping, sleep := some sl }

/-- R211, R212: a word is to be watched: a slot of its core, the one that watches it already or a free one of 16. -/
def State.armSlot (s : State) (m : Monitor) : Option State :=
  let same (k : Monitor) : Bool := k.ctx == m.ctx && k.scratch == m.scratch && k.va == m.va && k.vd == m.vd && k.dbl == m.dbl
  if s.monitors.any same then some { s with monitors := s.monitors.map fun k => if same k then { m with addr := k.addr } else k }
  else if (s.monitors.filter fun k => tileOf k.ctx == tileOf m.ctx).length < 16 then
    some { s with monitors := s.monitors ++ [m] }
  else none

/-- The checks of a watched word (R184, R206, R210). -/
def State.waitChk (s : State) (a b : Nat) (loc sz : Bool) : Option TrapRec :=
  let x := s.me
  let n := wordSize sz
  if loc then
    let ea := (x.sget a).toNat
    if 2 ^ 22 < ea + n then some ⟨7, 2, ea⟩
    else if ea % n ≠ 0 then some ⟨7, 1, ea⟩
    else s.ownCheck s.cur.ctx ea n
  else (x.hget a).access (x.hget a).r (x.sget b).toNat n n

/-- The monitor that a word of modes 0 and 1 arms. -/
def State.monitorOf (s : State) (a b : Nat) (loc sz acq : Bool) (scope exp : Nat) : Monitor :=
  let x := s.me
  let h := x.hget a
  let e := x.sget exp
  { ctx := s.cur.ctx, scratch := loc, vd := if loc then 0 else h.vd
    va := if loc then (x.sget a).toNat else h.va (x.sget b).toNat
    addr := if loc then (x.sget a).toNat else 0, dbl := sz
    expected := if sz then e else BitVec.ofNat 64 (e.toNat % 2 ^ 32)
    acq := if acq then some scope else none, fired := none, bound := loc, arming := true, win := if loc then none else some h }

/-- R110: a context does not go to sleep while a word of it is pending. -/
def State.maySleep (s : State) : Bool := s.me.pend.isEmpty && s.me.noAcquire

/-- `wait` and `wait.arm` (`held`): the slot is taken when the word issues; the read comes back in WAIT_READ_RETURN. -/
def armSem (held : Bool) (d a b : Nat) (loc sz acq : Bool) (scope exp : Nat) : WordSem where
  ready s := s.maySleep
  chk s := s.waitChk a b loc sz
  srcs := [.s a, .s exp] ++ if loc then [] else [.s b, .h a]
  eff s :=
    let sl (arming : Bool) (st : Option Nat) : Sleep := ⟨d, s.now, arming, held, false, st⟩
    match s.armSlot (s.monitorOf a b loc sz acq scope exp) with
    | some s' => s'.modCtx s.cur.ctx fun x => x.toSleep (sl true none)
    | none => s.modCtx s.cur.ctx fun x => x.toSleep (sl false (some stNoSlot))

def semWait (d a b : Nat) (loc sz acq : Bool) (scope exp : Nat) : WordSem := armSem false d a b loc sz acq scope exp
def semWaitArm (d a b : Nat) (loc sz acq : Bool) (scope exp : Nat) : WordSem := armSem true d a b loc sz acq scope exp

def semWaitAny (d : Nat) : WordSem where
  ready s := s.maySleep
  eff s :=
    let st := if s.monitors.any fun m => m.ctx == s.cur.ctx then none else some stNone
    s.modCtx s.cur.ctx fun x => x.toSleep ⟨d, s.now, false, false, false, st⟩

/-- The monitors of a context are disarmed. -/
def State.disarm (s : State) (c : Nat) : State := { s with monitors := s.monitors.filter fun m => m.ctx != c }

def semWaitClr : WordSem where
  eff s := s.disarm s.cur.ctx

/-! ### The sync bundle (R52-R54, R217) -/

/-- R52, R54: the logical coordinates that a mask names, or `none` where the mask breaks R54. -/
def State.syncNamed (s : State) (c mask : Nat) : Option (List (Nat × Nat)) :=
  let x := s.ctx c
  match s.groupOf c with
  | none => none
  | some g =>
    let die := fldB g.mode 2
    let width := if die then 48 else 4
    let place (n : Nat) : Nat × Nat :=
      if die then (n % g.gridX, n / g.gridX) else (x.lx / 2 * 2 + n % 2, x.ly / 2 * 2 + n / 2)
    let named := ((List.range width).filter fun n => fldB mask n).map place
    if 2 ^ width ≤ mask then none
    else if !named.contains (x.lx, x.ly) then none
    else if named.all fun (i, j) => i < g.gridX && j < g.gridY then some named
    else none

/-- R54: the trap of a mask when its bundle would arrive. -/
def State.syncChk (s : State) (w : Nat) (a : Nat) : Option TrapRec :=
  if (s.syncNamed s.cur.ctx (s.me.sget a).toNat).isSome then none else some ⟨1, 7, w⟩

/-- R53, R217: a sync word issues in its restart cycle, with the mask read when it arrived; before that its mask is
checked. It orders no access. -/
def semSync (w a : Nat) : WordSem where
  ready s := s.me.pend.isEmpty
  chk s := if s.me.syncAt.isSome then none else s.syncChk w a
  srcs := [.s a]
  once _ := true
  eff s := s

/-! ### Flags (R218-R222) -/

def semFadd (a b scope val : Nat) : WordSem where
  ready s := s.me.noAcquire
  chk s := (s.me.hget a).access (s.me.hget a).a (s.me.sget b).toNat 8 8
  srcs := [.s b, .s val, .h a]
  once _ := true
  eff s :=
    let h := s.me.hget a
    s.postWrite s.cur.ctx h.vd
      { va := h.va (s.me.sget b).toNat, bytes := zeros 8, op := .flagAdd (s.me.sget val), rel := some scope }

/-- R220: the offsets that a mask names; their writes are posted as one group. -/
def fsetOffsets (mask : W64) (off : Nat) : List Nat := ((List.range 64).filter fun j => mask.getLsbD j).map fun j => off + 8 * j

def semFset (a b scope off val : Nat) : WordSem where
  ready s := s.me.noAcquire
  chk s :=
    let h := s.me.hget a
    let os := fsetOffsets (s.me.sget b) (s.me.sget off).toNat
    firstTrap [os.findSome? fun o => h.chk h.w o 8, os.findSome? fun o => if o % 8 = 0 then none else some ⟨7, 1, o⟩]
  srcs := [.s b, .s off, .s val, .h a]
  once _ := true
  eff s :=
    let c := s.cur.ctx
    let h := s.me.hget a
    let v := toLE 8 (s.me.sget val).toNat
    let group := s.serial
    (fsetOffsets (s.me.sget b) (s.me.sget off).toNat).foldl (fun s o =>
      if s.alive c then s.postWrite c h.vd { va := h.va o, bytes := v, op := .flagSet group, rel := some scope } else s) s

/-- R221: the flag register is taken when the word issues; the binding's value comes back in WAIT_READ_RETURN. -/
def semFwait (d a b : Nat) (acq : Bool) (scope thr : Nat) : WordSem where
  ready s := s.maySleep
  chk s := (s.me.hget a).access (s.me.hget a).r (s.me.sget b).toNat 8 8
  srcs := [.s b, .s thr, .h a]
  eff s :=
    let c := s.cur.ctx
    let h := s.me.hget a
    if (s.flags.filter fun f => tileOf f.ctx == tileOf c).length < 64 then
      let f : FlagBind := ⟨c, h.vd, h.va (s.me.sget b).toNat, none, s.me.sget thr, if acq then some scope else none, [], false, none, some h⟩
      ({ s with flags := s.flags ++ [f] }).modCtx c fun x => x.toSleep ⟨d, s.now, true, false, true, none⟩
    else s.modCtx c fun x => x.toSleep ⟨d, s.now, false, false, true, some stNoSlot⟩

/-! ### Promotion (R223) -/

/-- The context that runs a logical task of a group, if one does. -/
def State.taskCtx (s : State) (g lx ly : Nat) : Option Nat :=
  (s.ctxs.find? fun (_, y) => y.group == some g && y.lx == lx && y.ly == ly && y.st != .idle && y.st != .dead).map (·.1)

/-- R223: of an owner that has left its bank, and of the promoter itself, the promotion completes at once; the promoter's later acquires at
any scope find what the owner has written, and so its clean copies go. -/
def semPromote (w a : Nat) : WordSem where
  chk s :=
    let n := (s.me.sget a).toNat
    match s.groupOf s.cur.ctx with
    | some g => if n < g.gridX * g.gridY then none else some ⟨1, 10, w⟩
    | none => some ⟨1, 10, w⟩
  srcs := [.s a]
  once _ := true
  eff s :=
    let c := s.cur.ctx
    let n := (s.me.sget a).toNat
    match s.groupOf c with
    | none => s
    | some g =>
      match s.taskCtx g.serial (n % g.gridX) (n / g.gridX) with
      | none => s.dropClean s.tile
      | some owner =>
        if owner = c then s.dropClean s.tile
        else
          ({ s with serial := s.serial + 1, promotions := s.promotions ++ [(⟨s.serial, c, owner, none⟩ : Promotion)] }).modCtx c fun x =>
            { x with promoWait := some s.serial }

/-! ### Waking (R212-R214, R221) -/

/-- R214: a status is delivered: a sleeping context returns to Running, and its next bundle issues in a later cycle. -/
def State.wake (s : State) (c status : Nat) : State :=
  s.modCtx c fun x =>
    match x.sleep with
    | none => x
    | some sl =>
      let x := x.sset sl.d (BitVec.ofNat 64 status)
      { x with st := if sl.held || x.st != .sleeping then x.st else .running, sleep := none, notBefore := Nat.max x.notBefore (s.now + 1)
               poison := x.poison.filter (·.1 != .s sl.d) }

/-- The end of a sleep: monitors and flag bindings of the context go (R212, R221). -/
def State.wakeAll (s : State) (c status : Nat) : State :=
  ({ s.disarm c with flags := s.flags.filter fun f => f.ctx != c }).wake c status

/-- The reading of a watched word: its value; or it waits: for a page, for an earlier access of the context, or for good,
because the context died; or its page maps a peer's window. -/
inductive Watch where
  | value (v : W64) (addr : Nat)
  | later
  | peer

/-- R212, R221, R275, R424: a read of a word that a context watches, with the acquire it may carry. -/
def State.readWatched (s : State) (c vd va n : Nat) (home : Bool) (acq : Option Nat) : State × Watch :=
  match s.translate (some (tileOf c)) vd va true false with
  | (s, .error (.request k)) =>
    ((s.request k false false c).modCtx c fun x => { x.faultStop with waits := if x.waits.contains (k, va) then x.waits else x.waits ++ [(k, va)] },
      .later)
  | (s, .error (.fail reason stage)) => (s.accessDead c reason va stage false, .later)
  | (s, .error .later) => (s, .later)
  | (s, .ok xl) =>
    if xl.fab.isSome then (s, .peer)
    else if !s.mayRead c (s.ctx c).bundles s.serial false vd { Piece.init va n 0 with xl := some xl } then (s, .later)
    else if home && s.posted.any (fun p => p.ctx == c && p.touches xl.pa n) then (s, .later)
    else
      -- R211: the read finds every write performed before it, so that no clean copy answers it; one at the home slice has the
      -- context's own writes there first (R275)
      let (s, bs) := if home then let s := s.dropCopies (tileOf c) xl.pa n; (s, s.phys xl.pa n)
        else let (s, bs, _) := (s.dropCopy (tileOf c) (xl.pa / 128)).readFor c (s.ctx c).bundles s.serial vd xl n; (s, bs)
      let s := match acq with | some sc => s.acquireAt c sc | none => s
      (s, .value (bitsOfBytes 64 bs) xl.pa)

/-! ### The instructions -/

/-- R208. Plain fence: waits for earlier accesses, then acts as release and acquire at its scope. -/
def execFence (h : Hdr) (scope : Nat) (s : State) : Host.Outcome State Fault Refusal := runWord h (semFence scope) s

/-- R208. Fence that also covers write-stream pushes and discards read buffers. -/
def execFenceAll (h : Hdr) (scope : Nat) (s : State) :
    Host.Outcome State Fault Refusal :=
  runWord h (semFenceAll scope) s

/-- R208. Fence at system scope that also performs UO writes, unbound streams and the log line. -/
def execFenceDrain (h : Hdr) (s : State) : Host.Outcome State Fault Refusal := runWord h semFenceDrain s

/-- R212. Arms a monitor on a word and sleeps. -/
def execWait (h : Hdr) (d a b : Nat) (loc sz acq : Bool) (scope exp : Nat) (s : State) :
    Host.Outcome State Fault Refusal :=
  runWord h (semWait d a b loc sz acq scope exp) s

/-- R212. Arms a monitor without sleeping. -/
def execWaitArm (h : Hdr) (d a b : Nat) (loc sz acq : Bool) (scope exp : Nat) (s : State) :
    Host.Outcome State Fault Refusal :=
  runWord h (semWaitArm d a b loc sz acq scope exp) s

/-- R212. Sleeps on the monitors already armed. -/
def execWaitAny (h : Hdr) (d : Nat) (s : State) : Host.Outcome State Fault Refusal := runWord h (semWaitAny d) s

/-- R212. Disarms every monitor of the context. -/
def execWaitClr (h : Hdr) (s : State) : Host.Outcome State Fault Refusal := runWord h semWaitClr s

/-- R217. Sync bundle word that arrives on the sync channel with a group mask. -/
def execSync (h : Hdr) (a : Nat) (s : State) :
    Host.Outcome State Fault Refusal :=
  runWord h (semSync (wordNat (.sync h a)) a) s

/-- R219. Atomic release add to a flag word. -/
def execFadd (h : Hdr) (a b scope val : Nat) (s : State) :
    Host.Outcome State Fault Refusal :=
  runWord h (semFadd a b scope val) s

/-- R220. Release write of a value to each masked flag word. -/
def execFset (h : Hdr) (a b scope off val : Nat) (s : State) :
    Host.Outcome State Fault Refusal :=
  runWord h (semFset a b scope off val) s

/-- R221. Binds a flag register and sleeps until the flag reaches a threshold. -/
def execFwait (h : Hdr) (d a b : Nat) (acq : Bool) (scope thr : Nat) (s : State) :
    Host.Outcome State Fault Refusal :=
  runWord h (semFwait d a b acq scope thr) s

/-- R223. Widens an owner task's releases to system scope. -/
def execPromote (h : Hdr) (a : Nat) (s : State) :
    Host.Outcome State Fault Refusal :=
  runWord h (semPromote (wordNat (.promote h a)) a) s

end Sys2Proof.Machine
end

