-- ==== Sys2Proof/Machine/System.lean ====
section
/-!
DEFINITION. The system instructions, class 9 (R136-R144).
-/

namespace Sys2Proof.Machine

/-! ### Control registers (R136-R139, R73, R78, R81, R88) -/

/-- The value of a control register as `csrr` returns it. `seg` counts the bundles before the one that holds the
`csrr`. -/
def Ctx.csrValue (x : Ctx) (bank : Nat) (pc : Pc) (num : Nat) : W64 :=
  if num = 0 then BitVec.ofNat 64 x.lx
  else if num = 1 then BitVec.ofNat 64 x.ly
  else if num = 2 then BitVec.ofNat 64 bank
  else if num = 3 then BitVec.ofNat 64 ((x.count + 2 ^ 32 - 1) % 2 ^ 32 * 2 ^ 32 + pc.target)
  else if num = 4 then BitVec.ofNat 64 (x.wset * 2 ^ 32 + x.version)
  else if num = csrPreds then x.preds.zeroExtend 64
  else x.cget num

/-- R253: what `csrr` returns: `vers` changes for it from the cycle after an adoption's completion on. -/
def Ctx.csrSeen (x : Ctx) (now bank : Nat) (pc : Pc) (num : Nat) : W64 :=
  match x.versOld with
  | some (t, v) => if num = 4 ∧ t = now then v else x.csrValue bank pc num
  | none => x.csrValue bank pc num

/-- The bits of a control register that are not RO. -/
def csrMask (num : Nat) : Nat :=
  if num = csrTvec then 0x1FFFF1FFF
  else if num = csrTcause then 0x7FF
  else if num = csrTloc then 0xFFFF1FFF
  else if num = csrMergePrio then 1
  else if num = csrEpi then 0x87
  else if num = csrVstat then 0x7F
  else if num = csrLogBase then 0x7FFFFFFFFFFF80
  else if csrCpat ≤ num then 0xFFFFFFFF
  else 0xFFFFFFFFFFFFFFFF

/-- A control register is one of the four of the noise log (R84). -/
def isLogCsr (num : Nat) : Bool := csrRngMode ≤ num && num ≤ csrLogLen

/-- R73, R81: the value that a write stores; `old` stays where the value is not storable. -/
def csrStored (num : Nat) (old v : W64) : W64 :=
  if num = csrRnd then (if 4 < bitsOf v 0 3 then old else BitVec.ofNat 64 (bitsOf v 0 3))
  else if num = csrRngMode then (if bitsOf v 0 2 = 3 then old else BitVec.ofNat 64 (bitsOf v 0 2))
  else v &&& BitVec.ofNat 64 (csrMask num)

/-- The poison mark of a register is taken away. -/
def Ctx.unpoison (x : Ctx) (r : PReg) : Ctx := { x with poison := x.poison.filter (·.1 != r) }

/-- R136, R139: a `csrw` of any register but `preds` takes effect when it issues. -/
def Ctx.csrWrite (x : Ctx) (num : Nat) (v : W64) : Ctx :=
  (x.cset num (csrStored num (x.cget num) v)).unpoison (.csr num)

/-- R84: the log's partial line goes out before a log register is written, and the buffer starts anew. -/
def State.csrLogWrite (s : State) (c num : Nat) (v : W64) : State :=
  (s.flushLog c).modCtx c fun x =>
    let x := x.csrWrite num v
    { x with logBits := [], logStart := (x.cget csrLogPos).toNat, logTail := [] }

def semCsrr (d num : Nat) : WordSem where
  srcs := [.csr num] ++ if num = csrPreds then [.preds] else []
  eff s := s.land 2 [.sreg d (s.me.csrSeen s.now (bankOf s.cur.ctx) s.cur.pc num)]

/-- R105: a write of `preds` lands one cycle later, as every predicate write. -/
def semCsrw (a num : Nat) : WordSem where
  ready s := !isLogCsr num || s.me.pend.isEmpty
  srcs := [.s a]
  eff s :=
    let v := s.me.sget a
    if num = csrPreds then s.land 1 [.preds (v.extractLsb' 0 7)]
    else if isLogCsr num then s.csrLogWrite s.cur.ctx num v
    else s.modCtx s.cur.ctx fun x => x.csrWrite num v

/-! ### Handles (R140, R141) -/

/-- R140: a window. `rights` is bits 10:8 of the extension: A, W, R. -/
def windowOf (vd rights l2s base : Nat) : Handle :=
  ⟨true, vd, fldB rights 0, fldB rights 1, fldB rights 2, l2s, base⟩

/-- R140: the base is aligned to the window and inside the address space. -/
def trnChk (l2s base : Nat) : Option TrapRec :=
  if base % 2 ^ l2s ≠ 0 then some ⟨7, 1, base % 2 ^ 48⟩
  else if 2 ^ 55 < base + 2 ^ l2s then some ⟨7, 2, base % 2 ^ 48⟩
  else none

def semTrn (d a rights l2s : Nat) : WordSem where
  chk s := trnChk l2s (s.me.sget a).toNat
  srcs := [.s a]
  eff s := s.land 12 [.handle d (windowOf (s.vdOf s.cur.ctx) rights l2s (s.me.sget a).toNat)]

/-- A landing writes a handle that a test picks. -/
def Landing.toHandle (p : Nat → Bool) : Landing → Bool
  | .handle n _ => p n
  | _ => false

/-- R141: handles become invalid at once, and with them those whose `trn` has not landed. -/
def Ctx.dropHandles (x : Ctx) (p : Nat → Bool) : Ctx :=
  { x with
    h := x.h.filterMap fun (n, h) => if p n then (if { h with valid := false } = Handle.invalid then none
      else some (n, { h with valid := false })) else some (n, h)
    flights := x.flights.map fun f => { f with lands := f.lands.filter fun l => !l.toHandle p } }

def semHinv (d : Nat) : WordSem where
  eff s := s.modCtx s.cur.ctx fun x => x.dropHandles (· == d)

def semHinvAll : WordSem where
  eff s := s.modCtx s.cur.ctx fun x => x.dropHandles fun _ => true

/-! ### Phase points, notifications, the rest (R142-R144) -/

/-- R142: nothing of the context is in flight. -/
def Ctx.quiet (x : Ctx) (now : Nat) : Bool :=
  (x.flights.all Flight.isFetch) && x.pend.isEmpty && (x.tagFree.all fun (_, t) => t ≤ now) && (x.rdFree.all fun (_, t) => t ≤ now) &&
    x.wrFree.all fun (_, t) => t ≤ now

/-- R142, R445, R446: the phase point, and the input list that goes with it. -/
def Ctx.commit (x : Ctx) (at_ : Pc) (ts : W64) : Ctx :=
  let next := (x.following at_).getD at_
  let wraps := next.seg != at_.seg || next.bun ≤ at_.bun
  { x with
    phase := some ⟨x.s, x.g, x.h, x.p, x.csr, next, if wraps then 0 else x.count, if wraps then 0xFFFFFFFF#32 else x.crc, ts⟩
    replay := !x.inputOver, inputs := x.nextInputs, nextInputs := [], inputOver := false }

def semCommit : WordSem where
  ready s := s.me.quiet s.now
  chk s := match s.me.following s.cur.pc with | some _ => none | none => some (pastEnd s.cur.pc)
  eff s := s.modCtx s.cur.ctx fun x => x.commit s.cur.pc s.time

/-- R143, R207: a posted request with a release: it is performed after every earlier write of its context. -/
def State.postSig (s : State) (v : W64) : State :=
  let c := s.cur.ctx
  let p : Posted := {
    id := s.serial, ctx := c, vd := s.vdOf c, va := 0, bytes := [], op := .sig v, rel := some 3, xl := none,
    wait := none, stream := none, log := none, promoted := false, bound := s.now + 8192, freq := none, bundle := s.cur.bundle }
  { s with serial := s.serial + 1, posted := s.posted ++ [p] }

def semSig (a : Nat) : WordSem where
  srcs := [.s a]
  once _ := true
  eff s := s.postSig (s.me.sget a)

/-- R144: BRK, with the code as its detail. -/
def semBrk (code : Nat) : WordSem where
  chk _ := some ⟨9, 0, code⟩
  eff s := s

def semTsc (d : Nat) : WordSem where
  eff s := s.land 2 [.sreg d s.time]

/-! ### The instructions -/

/-- R136. Reads a control register. -/
def execCsrr (h : Hdr) (d num : Nat) (s : State) : Host.Outcome State Fault Refusal := runWord h (semCsrr d num) s

/-- R136. Writes a control register. -/
def execCsrw (h : Hdr) (a num : Nat) (s : State) : Host.Outcome State Fault Refusal := runWord h (semCsrw a num) s

/-- R140. Turns a window base into a handle with rights. -/
def execTrn (h : Hdr) (d a rights l2s : Nat) (s : State) :
    Host.Outcome State Fault Refusal :=
  runWord h (semTrn d a rights l2s) s

/-- R141. Clears the valid bit of one handle. -/
def execHinv (h : Hdr) (d : Nat) (s : State) : Host.Outcome State Fault Refusal := runWord h (semHinv d) s

/-- R141. Clears the valid bit of every handle of the context. -/
def execHinvAll (h : Hdr) (s : State) : Host.Outcome State Fault Refusal := runWord h semHinvAll s

/-- R142. Waits for all results, then records a phase point. -/
def execCommit (h : Hdr) (s : State) : Host.Outcome State Fault Refusal := runWord h semCommit s

/-- R143. Performs a system release and posts a notification record. -/
def execSig (h : Hdr) (a : Nat) (s : State) : Host.Outcome State Fault Refusal := runWord h (semSig a) s

/-- R144. Raises a BRK trap with a code. -/
def execBrk (h : Hdr) (code : Nat) (s : State) : Host.Outcome State Fault Refusal := runWord h (semBrk code) s

/-- R144. Reads the chip time-stamp counter. -/
def execTsc (h : Hdr) (d : Nat) (s : State) : Host.Outcome State Fault Refusal := runWord h (semTsc d) s

end Sys2Proof.Machine
end

