-- ==== Sys2Proof/Machine/Sem.lean ====
section
/-!
DEFINITION. The table from an instruction word to what it does, which the merge stage consults before a word issues.
-/

namespace Sys2Proof.Machine

/-- A word that has no condition, no check and no effect of its own. -/
def semIdle : WordSem where
  eff s := s

/-- What a word does; events are no words. -/
def semOf (i : Instr) : WordSem :=
  match i with
  | .sched _ _ _ _ _ => semIdle
  | .add _ d a b => semAdd d a b
  | .sub _ d a b => semSub d a b
  | .mul _ d a b => semMul d a b
  | .mulh _ d a b => semMulh d a b
  | .mulhu _ d a b => semMulhu d a b
  | .and _ d a b => semAnd d a b
  | .or _ d a b => semOr d a b
  | .xor _ d a b => semXor d a b
  | .andn _ d a b => semAndn d a b
  | .shl _ d a b => semShl d a b
  | .shr _ d a b => semShr d a b
  | .sra _ d a b => semSra d a b
  | .min _ d a b => semMin d a b
  | .max _ d a b => semMax d a b
  | .minu _ d a b => semMinu d a b
  | .maxu _ d a b => semMaxu d a b
  | .seq _ d a b => semSeq d a b
  | .slt _ d a b => semSlt d a b
  | .sltu _ d a b => semSltu d a b
  | .sel _ d a b => semSel d a b
  | .clz _ d a => semClz d a
  | .popc _ d a => semPopc d a
  | .bext _ d a sx lm1 pos => semBext d a sx lm1 pos
  | .bins _ d a lm1 pos => semBins d a lm1 pos
  | .lih _ d a imm => semLih d a imm
  | .div _ d a b k u => semDiv d a b k u
  | .rem _ d a b k u => semRem d a b k u
  | .movg _ d a => semMovg d a
  | .movfg _ d a => semMovfg d a
  | .setp _ cond a b => semSetp cond a b
  | .vadd h d a b x => semVadd (wordNat (.vadd h d a b x)) d a b x
  | .vsub h d a b x => semVsub (wordNat (.vsub h d a b x)) d a b x
  | .vmul h d a b x => semVmul (wordNat (.vmul h d a b x)) d a b x
  | .vfma h d a b x => semVfma (wordNat (.vfma h d a b x)) d a b x
  | .vfms h d a b x => semVfms (wordNat (.vfms h d a b x)) d a b x
  | .vmax h d a b x => semVmax (wordNat (.vmax h d a b x)) d a b x
  | .vmin h d a b x => semVmin (wordNat (.vmin h d a b x)) d a b x
  | .vabs h d a x => semVabs (wordNat (.vabs h d a x)) d a x
  | .vneg h d a x => semVneg (wordNat (.vneg h d a x)) d a x
  | .vfloor h d a x => semVfloor (wordNat (.vfloor h d a x)) d a x
  | .vceil h d a x => semVceil (wordNat (.vceil h d a x)) d a x
  | .vmov h d a x => semVmov (wordNat (.vmov h d a x)) d a x
  | .vcmp h d a b x => semVcmp (wordNat (.vcmp h d a b x)) d a b x
  | .vsel h d a b x => semVsel (wordNat (.vsel h d a b x)) d a b x
  | .vexp2 h d a x => semVexp2 (wordNat (.vexp2 h d a x)) d a x
  | .vlog2 h d a x => semVlog2 (wordNat (.vlog2 h d a x)) d a x
  | .vrcp h d a x => semVrcp (wordNat (.vrcp h d a x)) d a x
  | .vrsqrt h d a x => semVrsqrt (wordNat (.vrsqrt h d a x)) d a x
  | .vexpb h d a b x => semVexpb (wordNat (.vexpb h d a b x)) d a b x
  | .vcvt h d a x => semVcvt (wordNat (.vcvt h d a x)) d a x
  | .vcvtTag h d a x => semVcvtTag (wordNat (.vcvtTag h d a x)) d a x
  | .vpack h d a b x => semVpack (wordNat (.vpack h d a b x)) d a b x
  | .vunpk h d a x => semVunpk (wordNat (.vunpk h d a x)) d a x
  | .vredadd h d a x => semVredadd (wordNat (.vredadd h d a x)) d a x
  | .vredmax h d a x => semVredmax (wordNat (.vredmax h d a x)) d a x
  | .vscan h d a x => semVscan (wordNat (.vscan h d a x)) d a x
  | .vperm h d a b x => semVperm (wordNat (.vperm h d a b x)) d a b x
  | .vbcast h d a b x => semVbcast (wordNat (.vbcast h d a b x)) d a b x
  | .viadd h d a b x => semViadd (wordNat (.viadd h d a b x)) d a b x
  | .vimul h d a b x => semVimul (wordNat (.vimul h d a b x)) d a b x
  | .vand h d a b x => semVand (wordNat (.vand h d a b x)) d a b x
  | .vor h d a b x => semVor (wordNat (.vor h d a b x)) d a b x
  | .vxor h d a b x => semVxor (wordNat (.vxor h d a b x)) d a b x
  | .vshl h d a b x => semVshl (wordNat (.vshl h d a b x)) d a b x
  | .vshr h d a b x => semVshr (wordNat (.vshr h d a b x)) d a b x
  | .vrng h d x => semVrng (wordNat (.vrng h d x)) d x
  | .vffs h d a x => semVffs (wordNat (.vffs h d a x)) d a x
  | .vany h a x => semVany (wordNat (.vany h a x)) a x
  | .mma h d a b unit cpat cop gm1 gs => semMma (wordNat (.mma h d a b unit cpat cop gm1 gs)) d a b unit cpat cop gm1 gs
  | .mmaz h d a b unit cpat cop gm1 gs => semMmaz (wordNat (.mmaz h d a b unit cpat cop gm1 gs)) d a b unit cpat cop gm1 gs
  | .mmat h d a b unit cpat cop gm1 gs => semMmat (wordNat (.mmat h d a b unit cpat cop gm1 gs)) d a b unit cpat cop gm1 gs
  | .mzero _ d fmt => semMzero d fmt
  | .mcvt h d a fmt rm q => semMcvt (wordNat (.mcvt h d a fmt rm q)) d a fmt rm q
  | .mfmt h d a fmt => semMfmt (wordNat (.mfmt h d a fmt)) d a fmt
  | .mtv _ d a k r => semMtv d a k r
  | .mvt h d a r => semMvt (wordNat (.mvt h d a r)) d a r
  | .mcsel h d a b unit min init => semMcsel (wordNat (.mcsel h d a b unit min init)) d a b unit min init
  | .ldw _ d a off => semLdw d a off
  | .ldd _ d a off => semLdd d a off
  | .stw _ d a off => semStw d a off
  | .std _ d a off => semStd d a off
  | .vld _ d a b fmt off => semVld d a b fmt off
  | .vst h d a b off => semVst (wordNat (.vst h d a b off)) d a b off
  | .ldt _ d a fmt t r nrm1 sw => semLdt d a fmt t r nrm1 sw
  | .tld _ d a b fmt r nrm1 sw => semTld d a b fmt r nrm1 sw
  | .tst _ d a b r nrm1 sw => semTst d a b r nrm1 sw
  | .ldg _ d a b k sz ord scope fmt => semLdg d a b k sz ord scope fmt
  | .stg h d a b sz ord scope => semStg (wordNat (.stg h d a b sz ord scope)) d a b sz ord scope
  | .vgat h d a b k fmt mv => semVgat (wordNat (.vgat h d a b k fmt mv)) d a b k fmt mv
  | .vsct h d a b mv => semVsct (wordNat (.vsct h d a b mv)) d a b mv
  | .amo _ d a b k aop sz u ord scope opr cmp => semAmo d a b k aop sz u ord scope opr cmp
  | .alloc _ a b => semAlloc a b
  | .free _ a b => semFree a b
  | .vldc _ d a k fmt => semVldc d a k fmt
  | .vstc h d a => semVstc (wordNat (.vstc h d a)) d a
  | .pref _ a b lvl lnm1 => semPref a b lvl lnm1
  | .inv _ a b lnm1 => semInv a b lnm1
  | .sbind h d a => semSbind (wordNat (.sbind h d a)) d a
  | .sunbind _ d => semSunbind d
  | .sflush h a k scope => semSflush (wordNat (.sflush h a k scope)) a k scope
  | .sstat _ a b => semSstat a b
  | .sskip h a b => semSskip (wordNat (.sskip h a b)) a b
  | .xcopy _ d g c k scope => semXcopy d g c k scope
  | .xlist _ d g c k scope => semXlist d g c k scope
  | .xfill _ d g c k scope => semXfill d g c k scope
  | .xred _ d g c k scope => semXred d g c k scope
  | .xstat _ d g c k scope => semXstat d g c k scope
  | .br _ seg bun => semBr seg bun
  | .brz _ a seg bun => semBrz a seg bun
  | .brnz _ a seg bun => semBrnz a seg bun
  | .brp _ a b seg bun => semBrp a b seg bun
  | .call _ d seg bun => semCall d seg bun
  | .ret _ a => semRet a
  | .jmpr _ d a => semJmpr d a
  | .loop _ a n seg bun => semLoop a n seg bun
  | .exit _ => semExit
  | .trap _ code => semTrap code
  | .nop _ => semNop
  | .segpf _ seg => semSegpf seg
  | .fence _ scope => semFence scope
  | .fenceAll _ scope => semFenceAll scope
  | .fenceDrain _ => semFenceDrain
  | .wait _ d a b loc sz acq scope exp => semWait d a b loc sz acq scope exp
  | .waitArm _ d a b loc sz acq scope exp => semWaitArm d a b loc sz acq scope exp
  | .waitAny _ d => semWaitAny d
  | .waitClr _ => semWaitClr
  | .sync h a => semSync (wordNat (.sync h a)) a
  | .fadd _ a b scope val => semFadd a b scope val
  | .fset _ a b scope off val => semFset a b scope off val
  | .fwait _ d a b acq scope thr => semFwait d a b acq scope thr
  | .promote h a => semPromote (wordNat (.promote h a)) a
  | .csrr _ d num => semCsrr d num
  | .csrw _ a num => semCsrw a num
  | .trn _ d a rights l2s => semTrn d a rights l2s
  | .hinv _ d => semHinv d
  | .hinvAll _ => semHinvAll
  | .commit _ => semCommit
  | .sig _ a => semSig a
  | .brk _ code => semBrk code
  | .tsc _ d => semTsc d
  | .glook _ d g c k scope => semGlook d g c k scope
  | .gins _ d g c k scope => semGins d g c k scope
  | .gref _ d g c k scope => semGref d g c k scope
  | .gunref _ d g c k scope => semGunref d g c k scope
  | .kvapp _ d g c k scope => semKvapp d g c k scope
  | .kvtrunc _ d g c k scope => semKvtrunc d g c k scope
  | .hla _ d g c k scope => semHla d g c k scope
  | .hrd _ d g c k scope => semHrd d g c k scope
  | .hrel _ d g c k scope => semHrel d g c k scope
  | .hswp _ d g c k scope => semHswp d g c k scope
  | .hnode _ d g c k scope => semHnode d g c k scope
  | .hcpo _ d g c k scope => semHcpo d g c k scope
  | .publish _ d g c k scope => semPublish d g c k scope
  | .adopt _ d g c k scope seqb => semAdopt d g c k scope seqb
  | .vers _ d g c k scope => semVers d g c k scope
  | .flrec _ d g c k scope => semFlrec d g c k scope
  | .flcommit _ d g c k scope => semFlcommit d g c k scope
  | .fltake _ d g c k scope => semFltake d g c k scope
  | .flack _ d g c k scope => semFlack d g c k scope
  | .nbmv _ d g c k scope => semNbmv d g c k scope
  | .nbmat _ d g c k scope => semNbmat d g c k scope
  | .nbstat _ d g c k scope => semNbstat d g c k scope
  | .coll _ d g c k scope => semColl d g c k scope
  | .fput _ d g c k scope => semFput d g c k scope
  | .fget _ d g c k scope => semFget d g c k scope
  | .famo _ d g c k scope => semFamo d g c k scope
  | .fnfetch _ d g c k scope => semFnfetch d g c k scope
  | .fixedResultLands _ _ => semIdle
  | .taggedResultLands _ _ => semIdle
  | .matrixResultComplete _ _ => semIdle
  | .tileTransferComplete _ _ => semIdle
  | .segmentExpansionDone _ => semIdle
  | .segmentFallThrough _ => semIdle
  | .syncArrival _ => semIdle
  | .syncRestart _ => semIdle
  | .monitorFire _ _ _ => semIdle
  | .flagPush _ => semIdle
  | .waitTimeout _ => semIdle
  | .hangTimeout _ => semIdle
  | .promotionArrival _ => semIdle
  | .promotionAck _ => semIdle
  | .streamFetch _ _ => semIdle
  | .engineCommandEnd _ => semIdle
  | .materialisationEnd _ => semIdle
  | .adoptTimeout _ => semIdle
  | .nbmatQueuedStart _ => semIdle
  | .reclaimLine => semIdle
  | .refusalRetry _ => semIdle
  | .heldFaultPost _ => semIdle
  | .drainComplete _ => semIdle
  | .deadDrainComplete _ => semIdle
  | .taskGroupEnd _ => semIdle
  | .rerunEnd _ => semIdle
  | .retirementCommit _ => semIdle
  | .softError _ _ => semIdle
  | .noiseHealthFail .. => semIdle
  | .noiseSourceRestore _ => semIdle
  | .patrolScrub _ _ => semIdle
  | .healthStoreUpdate => semIdle
  | .thermalTrip .. => semIdle
  | .coldReset => semIdle
  | .notifyStore _ _ => semIdle
  | .scannerWake => semIdle
  | .scannerVisit _ => semIdle
  | .controllerFrame _ => semIdle
  | .nopCommand _ => semIdle
  | .launch _ => semIdle
  | .launchPlacement _ _ => semIdle
  | .graph _ => semIdle
  | .repart _ => semIdle
  | .badcmd _ => semIdle
  | .repartCommit => semIdle
  | .graphNodeLaunch _ => semIdle
  | .activationDiscard _ => semIdle
  | .bufferReplay _ => semIdle
  | .sliceEnd _ => semIdle
  | .checkpointSave _ => semIdle
  | .contextRestore _ _ _ => semIdle
  | .vdStop _ => semIdle
  | .vdStopped _ => semIdle
  | .vdResume _ => semIdle
  | .vdDiscard _ => semIdle
  | .invalWholeVd _ => semIdle
  | .invalStage1Pages _ => semIdle
  | .invalStage2Pages _ => semIdle
  | .invalidationComplete => semIdle
  | .pageReply _ => semIdle
  | .mmPrqWrite _ => semIdle
  | .mmDlogWrite _ => semIdle
  | .mmEvqWrite _ => semIdle
  | .mmEvqtailWrite _ => semIdle
  | .evictionRequestService => semIdle
  | .feQcfgWrite _ => semIdle
  | .feSemaWrite _ _ => semIdle
  | .feCebindWrite _ => semIdle
  | .feFeatEnWrite _ _ => semIdle
  | .fcRestart _ => semIdle
  | .feNqWrite _ => semIdle
  | .fePoolCfgWrite _ => semIdle
  | .reLogWrite _ => semIdle
  | .reEqWrite _ => semIdle
  | .healthClearRequest _ => semIdle
  | .attestationRequest _ => semIdle
  | .connectionReset _ => semIdle
  | .fxRqheadWrite _ => semIdle
  | .configRegisterWrite _ _ => semIdle
  | .feCfgdenyRead => semIdle
  | .scStatRead => semIdle
  | .fxErr0Read => semIdle
  | .fxErr1Read => semIdle
  | .reStatRead => semIdle
  | .hwdErrRead => semIdle
  | .feNqdropRead => semIdle
  | .mmPrstatRead => semIdle
  | .mgmtRead _ => semIdle
  | .mgmtWrite _ => semIdle
  | .cebRegisterRead _ => semIdle
  | .cebRegisterWrite _ _ => semIdle
  | .endpointConnectionLoss => semIdle
  | .bamugWrite _ => semIdle
  | .bamugReadReq _ => semIdle
  | .bamugReadResp _ => semIdle
  | .bamugAtomicReq _ => semIdle
  | .bamugAtomicResp _ => semIdle
  | .bamugAck _ => semIdle
  | .bamugNak _ => semIdle
  | .bamugFlagAdd _ => semIdle
  | .bamugNameReq _ => semIdle
  | .bamugNameResp _ => semIdle
  | .bamugCollData _ => semIdle
  | .bamugRetransmitTimeout _ => semIdle
  | .roceSend _ => semIdle
  | .roceRdmaWrite _ => semIdle
  | .roceRdmaRead _ => semIdle
  | .roceReadResponse _ => semIdle
  | .roceCompareSwap _ => semIdle
  | .roceFetchAdd _ => semIdle
  | .roceAcknowledge _ => semIdle
  | .roceNakReceived _ => semIdle
  | .roceAckTimeout _ => semIdle
  | .roceCnp _ => semIdle
  | .roceRateRecovery _ => semIdle
  | .pfcPause _ _ _ => semIdle
  | .ptpMessage _ _ => semIdle
  | .collStepTimeout _ => semIdle
  | .matrixComputePhaseEnd _ _ => semIdle
  | .writePerformed _ => semIdle
  | .waitReadReturn _ => semIdle
  | .noiseLogReadAhead _ => semIdle
  | .quantumExpiry _ => semIdle
  | .egressPacketTransmit _ _ => semIdle
  | .portLinkChange _ _ => semIdle
  | .bamugUnknownOpcode _ => semIdle
  | .roceUnsupportedPacket _ => semIdle
  | .mgmtMalformedRequest _ => semIdle
  | .roceRnrRetryTimer _ => semIdle
  | .scannerGating _ => semIdle

end Sys2Proof.Machine
end

