-- ==== Sys2Proof/Machine/Issue.lean ====
section
/-!
DEFINITION. Issue: the bundle checks (R94-R97, R417), readiness, slip and the merge of the two contexts of a core
(R38-R42, R98, R99, R110), the arrival and restart of a sync bundle (R53, R54), fall-through (R131), and what a bundle
brings about when its first word issues (R47, R49, R97).
-/

namespace Sys2Proof.Machine

/-! ### The words of a bundle (R94-R97) -/

/-- The instruction words of a bundle with their extension words. -/
def pairWords : List W32 → List (Nat × Option Nat)
  | [] => []
  | [w] => [(w.toNat, none)]
  | w :: x :: rest =>
    if w.getLsbD 30 then (w.toNat, some x.toNat) :: pairWords rest else (w.toNat, none) :: pairWords (x :: rest)

/-- R95: the slot of a word, of which `ns` class-1 words stand before it. -/
def slotIn (ns cls : Nat) : Nat := if cls = 1 then Nat.min ns 1 else slotOfClass cls

/-- R96: the BUNDLE checks, word by word: the word position, and the scalar words, slots and tags so far. The answer is
the slot and the trap of the first word that breaks a rule. -/
def bundleChk : Nat → Nat → List Nat → List Nat → List (Nat × Option Nat) → Option (Nat × TrapRec)
  | _, _, _, _, [] => none
  | pos, ns, slots, tags, (w, x) :: rest =>
    let cls := fld w 26 4
    let slot := slotIn ns cls
    let next := pos + 1 + x.isSome.toNat
    let tag := x.bind fun x => tagOf w x
    let reason :=
      if pos ≤ 8 ∧ 8 < next then 1
      else if cls = 0 ∧ pos ≠ 0 then 2
      else if cls ≠ 1 ∧ slot < 7 ∧ slots.contains slot then 3
      else if cls = 1 ∧ 2 ≤ ns then 4
      else if (tag.map fun t => tags.contains t).getD false then 5
      else 0
    if reason ≠ 0 then some (slot, ⟨2, reason, w⟩)
    else bundleChk next (if cls = 1 then ns + 1 else ns) (if cls = 1 then slots else slot :: slots) (tag.toList ++ tags) rest

/-- R92, R96: the words of a bundle decoded, with their slots; or the first that does not decode. -/
def decodeWords : Nat → List (Nat × Option Nat) → Except (Nat × TrapRec) (List (Nat × Instr))
  | _, [] => .ok []
  | ns, (w, x) :: rest =>
    let cls := fld w 26 4
    match decodeNat w x with
    | .error r => .error (slotIn ns cls, ⟨1, r.reason, w⟩)
    | .ok i =>
      match decodeWords (if cls = 1 then ns + 1 else ns) rest with
      | .ok l => .ok ((slotIn ns cls, i) :: l)
      | e => e

/-- A bundle that passes its checks: its scheduling control word, and its other words by slot. -/
structure Bundle where
  scw : Option Instr
  words : List (Nat × Instr)

/-- R95: words in slot order. -/
def bySlot (l : List (Nat × Instr)) : List (Nat × Instr) := (List.range 7).flatMap fun k => l.filter fun (n, _) => n == k

/-- R96: a bundle checked. -/
def checkBundle (ws : List W32) : Except (Nat × TrapRec) Bundle :=
  let ps := pairWords ws
  match bundleChk 0 0 [] [] ps with
  | some t => .error t
  | none =>
    match decodeWords 0 ps with
    | .error t => .error t
    | .ok ((7, i) :: rest) => .ok ⟨some i, bySlot rest⟩
    | .ok l => .ok ⟨none, bySlot l⟩

/-- R98: the fields of a scheduling control word: pd, wait, waiters, PF; without one all are zero. -/
def scwFields : Option Instr → Nat × Nat × Nat × Bool
  | some (.sched _ pd wait waiters pf) => (pd, wait, waiters, pf)
  | _ => (0, 0, 0, false)

/-- R98: the waiters field names a slot. -/
def namesSlot (waiters slot : Nat) : Bool := fldB waiters (6 - slot)

/-- The predicate field of an instruction. -/
def predField (i : Instr) : Nat := fld (wordNat i) 18 3

/-! ### Words that may issue in a cycle -/

/-- The state in which a word is the one in hand. -/
def State.with (s : State) (w : IssueWord) : State := { s with cur := w }

/-- The word does something: its predicate is true, or cannot be read for poison. -/
def State.active (s : State) (w : IssueWord) : Bool :=
  let p := predField w.instr
  predOf w.preds p || (p != 7 && ((s.ctx w.ctx).poisonOf .preds).isSome)

/-- The pops of a word are made. -/
def State.popped (s : State) (w : IssueWord) : State := s.modCtx w.ctx fun x => x.popAll (semOf w.instr).pops

/-- R223: the words that a promotion holds back: L-slot words of both ends, class-8 words of the promoter. -/
def Ctx.promoFree (x : Ctx) (i : Instr) (slot : Nat) : Bool :=
  !((slot == slotL && (x.promoWait.isSome || x.promoHold.isSome)) || (fld (wordNat i) 26 4 == 8 && x.promoWait.isSome))

/-- The tag that a word allocates when it issues (R108). -/
def IssueWord.tag (w : IssueWord) : Option Nat := tagOf (wordNat w.instr) (extNat w.instr)

/-- R108: the tag that a word would allocate is not allocated, and no other word of the cycle allocates it. -/
def State.tagFree (s : State) (w : IssueWord) (rest : List IssueWord) : Bool :=
  match w.tag with
  | none => true
  | some k => !(s.ctx w.ctx).tagBusy s.now k && !rest.any fun v => s.active v && v.tag == some k

/-- R38, R84, R108: no word of a list is stalled, each with the streams as the pops before it leave them, and the noise bits
that all may take are there. A word with a false predicate stalls nothing (R104). -/
def State.wordsReady (s : State) : Nat → List IssueWord → Bool
  | _, [] => true
  | bits, w :: ws =>
    if !s.active w then s.wordsReady bits ws
    else
      let m := semOf w.instr
      let t := s.with w
      let bits := bits + m.takes t
      m.ready t && s.tagFree w ws && t.me.promoFree w.instr w.slot && s.noiseReady w.ctx bits && (s.popped w).wordsReady bits ws

/-- A word takes noise bits whose places in the log count: those of modes 1 and 2. -/
def State.takesLogged (s : State) (w : IssueWord) : Bool :=
  bitsOf ((s.ctx w.ctx).cget csrRngMode) 0 2 != 0 && s.active w && (semOf w.instr).takes (s.with w) != 0

/-- R82: `v` comes before `w` in program order. -/
def IssueWord.before (v w : IssueWord) : Bool :=
  decide (v.bundle < w.bundle) || (v.bundle == w.bundle && decide (v.slot < w.slot))

/-- R82: the words `due` take logged bits in program order: none that takes any issues while one of `all` before it, which takes
some too, is still to issue, or issues after it in the same cycle (log entry 26). -/
def State.inNoiseOrder (s : State) (all due : List IssueWord) : Bool :=
  due.all fun w => !s.takesLogged w ||
    !all.any fun v => v.before w && s.takesLogged v && !(due.contains v && decide (v.slot < w.slot))

/-- R95, R476: the words that a context issues in one cycle take effect in slot order, whatever bundles they belong to; a scheduling
control word comes first. -/
def inSlotOrder (l : List IssueWord) : List IssueWord := l.filter (·.slot == 7) ++ (List.range 7).flatMap fun k => l.filter (·.slot == k)

/-- R96, R184, R421: a word that comes to issue traps, or consumes poison. -/
def State.stops (s : State) (w : IssueWord) : Bool :=
  let t := s.with w
  let m := semOf w.instr
  let p := predField w.instr
  (predOf w.preds p || (p != 7 && (t.me.poisonOf .preds).isSome)) &&
    ((m.chk t).isSome || (p != 7 && (t.me.poisonOf .preds).isSome) || (m.srcs.any fun r => (t.me.poisonOf r).isSome) ||
      (m.popped t).isSome)

/-- R411, R412: the first of the due words of a context that does not issue. Each is checked after the effects of those
before it. -/
def State.firstStop (s : State) : List IssueWord → Option IssueWord
  | [] => none
  | w :: ws =>
    if s.stops w then some w
    else
      let t := s.with w
      let t := if s.active w then (semOf w.instr).eff t else t
      if (t.ctx w.ctx).st = (s.ctx w.ctx).st then t.firstStop ws else none

/-! ### Pending words (R110) -/

/-- R110: S0 and S1 are one class. -/
def slotClass (slot : Nat) : Nat := if slot = 1 then 0 else slot

/-- R110: a pending word heads its class: no word of an earlier bundle of its class is pending. -/
def Ctx.heads (x : Ctx) (w : IssueWord) : Bool :=
  !(x.pend.any fun v => slotClass v.slot == slotClass w.slot && v.bundle < w.bundle)

/-- The tags of a mask that are allocated. -/
def Ctx.busyTags (x : Ctx) (now mask : Nat) : Nat :=
  (List.range 8).foldl (fun n k => if fldB mask k && x.tagBusy now k then n + 2 ^ k else n) 0

/-- R99, R110: a pending word may issue. The tags that its bundle waits on are looked at in each cycle: one that is released and
allocated again before the word issues holds it until it is released again (log entry 27). -/
def Ctx.mayGo (x : Ctx) (now : Nat) (w : IssueWord) : Bool :=
  x.heads w && x.busyTags now w.wait == 0 &&
    (w.pd == 0 || decide (SMap.get 0 x.slotLast (slotClass w.slot) + Nat.max 1 w.pd ≤ now))

/-- The pending words of a context that issue in this cycle, if it wins, in slot order. -/
def State.duePending (s : State) (c : Nat) : List IssueWord :=
  let x := s.ctx c
  (inSlotOrder (x.pend.filter (x.mayGo s.now))).foldl
    (fun acc w => if s.wordsReady 0 (acc ++ [w]) && s.inNoiseOrder x.pend (acc ++ [w]) then acc ++ [w] else acc) []

/-! ### A context's next step -/

/-- What a context may do in a cycle: nothing; a change that is no issue; the arrival of its sync bundle (R53); control
falls through (R131); words to issue, pending ones and those of the next bundle, with those that are to be pending. -/
inductive Look where
  | idle
  | act (s : State)
  | arrive (w : IssueWord)
  | fall
  | due (pend next stay : List IssueWord)

/-- The words of a checked bundle of a context. -/
def State.bundleWords (s : State) (c : Nat) (b : Bundle) : List IssueWord :=
  let x := s.ctx c
  b.words.map fun (slot, i) => ⟨c, slot, x.pc, x.preds, 0, 0, false, false, x.bundles, i⟩

/-- The scheduling control word of a bundle, as a word that issues. -/
def State.scwWord (s : State) (c : Nat) (b : Bundle) : List IssueWord :=
  let x := s.ctx c
  b.scw.toList.map fun i => ⟨c, 7, x.pc, x.preds, 0, 0, false, false, x.bundles, i⟩

/-- The bundle at the program counter of a context, as it stands in its loop buffer. -/
def Ctx.bundleAt (x : Ctx) : Option (List W32) :=
  match x.exec with
  | some h => if h.ready && h.seg == x.pc.seg then h.bundles[x.pc.bun]? else none
  | none => none

/-- A word is the sync word (R52). -/
def isSync : Instr → Bool
  | .sync .. => true
  | _ => false

/-- R448: a word ends a rerun and does not issue. -/
def endsRerun : Instr → Bool
  | .commit .. => true
  | .exit .. => true
  | _ => false

/-- R448: a rerun ends before a bundle. -/
def State.endRerun (s : State) (c : Nat) : State :=
  let x := s.ctx c
  match x.rerun with
  | some r =>
    s.setCtx c (x.rerunEnds r ⟨x.count, x.crc, none, false, 7, false⟩ none)
  | none => s

/-- R202: the streams whose faulted entry the words of a list would pop; `before`: the codes that earlier words pop. -/
def State.faultedPops (s : State) : List Nat → List IssueWord → List (IssueWord × Nat)
  | _, [] => []
  | before, w :: ws =>
    if !s.active w then s.faultedPops before ws
    else
      let pops := (semOf w.instr).pops
      let x := s.ctx w.ctx
      (((popIndex (before ++ pops)).drop before.length).filterMap fun (code, nth) =>
        match streamCode code with
        | some n => if (x.qget n).popFaulted nth then some (w, n) else none
        | none => none) ++ s.faultedPops (before ++ pops) ws

/-- R202, R425: a pop that waits for an entry whose fetch faulted: the page of the entry that is missing is asked for, and the
context sleeps. -/
def State.popFault (s : State) (ws : List IssueWord) : Option State :=
  match s.faultedPops [] ws with
  | [] => none
  | (w, n) :: _ =>
    let x := s.ctx w.ctx
    let q := x.qget n
    if !x.waits.isEmpty then none
    else
      match s.entryXlat w.ctx q with
      | (s, .error (va, .request k)) => some ((s.request k false false w.ctx).modCtx w.ctx fun x => { x.faultStop with waits := [(k, va)] })
      | (_, .error (_, .later)) => none
      | (s, .error (va, .fail reason stage)) => some (s.markDead w.ctx reason (fld va 16 39 + stage * 2 ^ 40))
      | (s, .ok _) => some (s.modCtx w.ctx fun x => x.qset n { x.qget n with blocked := false })

/-- R208: what a word that is not ready brings about, when every other word of its bundle is ready. -/
def State.prepare (s : State) (ws : List IssueWord) : Option State :=
  ws.findSome? fun w =>
    if s.active w && s.wordsReady 0 (ws.filter fun v => v.slot != w.slot) then (semOf w.instr).prep (s.with w) else none

/-- R419, R421: the word at the program counter holds an uncorrectable error, for which there is no rollback. -/
def State.loopError (s : State) (c slot : Nat) : State :=
  let x := s.ctx c
  match x.rerun with
  | some r =>
    (s.dropWords c).setCtx c ({ x with pend := [], leave := none }.rerunEnds r ⟨x.count, x.crc, none, true, 7, false⟩ none)
  | none =>
    match s.phaseFate c false with
    | .kill aux => s.killPhase c aux
    | _ => s.takeTrap c ⟨11, 1, 7⟩ slot false x.pc

/-- The scheduling control word that stands first in a bundle, where one does. -/
def leadScw : List (Nat × Option Nat) → Option Instr
  | (w, x) :: _ => if fld w 26 4 = 0 then (decodeNat w x).toOption else none
  | [] => none

/-- The slots that the words of a bundle name, whether or not the bundle passes its checks. -/
def slotsOf : Nat → List (Nat × Option Nat) → List Nat
  | _, [] => []
  | ns, (w, _) :: rest =>
    let cls := fld w 26 4
    let slot := slotIn ns cls
    (if slot < 7 then [slot] else []) ++ slotsOf (if cls = 1 then ns + 1 else ns) rest

/-- R38, R39, R53, R96, R99, R110, R411: what the next bundle of a Running context does in this cycle; `pend` are its due pending
words. A bundle that fails its checks traps when it would issue its first word. A bundle of which no word may issue stays as it
stands: it begins, counts, and reads its predicates with its first word, and a word of a class in which an earlier word slipped keeps
its distance from that word. A pure delay bundle uses no slot: it waits for its tags when its waiters field is zero, and not
otherwise (log entry 27). -/
def State.lookNext (s : State) (c : Nat) (pend : List IssueWord) : Look :=
  let x := s.ctx c
  let nothing : Look := if pend.isEmpty then .idle else .due pend [] []
  match x.exec with
  | none => nothing
  | some h =>
    if x.jump.isSome || x.leave.isSome || !h.ready || h.seg != x.pc.seg then nothing
    else
      match h.bundles[x.pc.bun]? with
      | none => if x.pend.isEmpty then .fall else nothing
      | some ws =>
        let ps := pairWords ws
        let (pd, wait, waiters, _) := scwFields (leadScw ps)
        let slots := slotsOf 0 ps
        let dist := Nat.max 1 pd
        let early : Bool := x.started && decide (s.now < x.lastFirst + dist)
        let busy := x.busyTags s.now wait
        let whole := slots.contains slotC
        let named (k : Nat) : Bool := waiters == 0 || whole || namesSlot waiters k
        let last (k : Nat) : Nat := SMap.get 0 x.slotLast (slotClass k)
        let late (k : Nat) : Bool :=
          (x.pend.any fun v => slotClass v.slot == slotClass k) ||
            (x.started && decide (x.lastFirst + dist ≤ last k) && decide (s.now < last k + dist))
        let held (k : Nat) : Bool := (busy != 0 && named k) || late k
        if early || !(x.pend.all fun w => x.bundles < w.bundle + 5) then nothing
        else if busy != 0 && (if slots.isEmpty then waiters == 0 else slots.all named) then nothing
        else if !slots.isEmpty && (slots.all held || (whole && slots.any late)) then nothing
        else if (s.firstStop pend).isSome then nothing
        else
          match checkBundle ws with
          | .error (slot, t) => .act (s.takeTrap c t slot false x.pc)
          | .ok b =>
            let words := s.bundleWords c b
            if h.bad = some x.pc.bun then .act (s.loopError c ((b.words.head?.map (·.1)).getD 7))
            else
              let stay := (words.filter fun w => held w.slot).map fun w =>
                { w with pend := true, wait := if named w.slot then busy else 0, pd := if late w.slot then dist else 0 }
              let now := words.filter fun w => !held w.slot
              if s.wordsReady 0 (inSlotOrder (pend ++ now)) && s.inNoiseOrder (x.pend ++ stay ++ now) (pend ++ now) then
                match now.find? fun w => isSync w.instr with
                | some w => .arrive w
                | none =>
                  if x.rerun.isSome && now.any (fun w => endsRerun w.instr && s.active w) then .act (s.endRerun c)
                  else .due pend (s.scwWord c b ++ now) stay
              else
                match s.popFault now with
                | some t => .act t
                | none =>
                  match s.prepare now with
                  | some t => .act t
                  | none => nothing

/-- R110: control passes to another segment once no word is pending. -/
def State.passOn (s : State) (c : Nat) : State :=
  match (s.ctx c).leave with
  | some (target, loc, cyc, how) => (s.modCtx c fun x => { x with leave := none }).endPass c target loc cyc how
  | none => s

/-- What the pending words of a context do where no bundle may begin. -/
def lookPending (p : List IssueWord) : Look := if p.isEmpty then .idle else .due p [] []

/-- R42, R53: in the cycle in which the sync bundle of the other context restarts, a context issues nothing; its own sync bundle may
arrive, and control may fall through. -/
def Look.hushed : Look → Look
  | .arrive w => .arrive w
  | .fall => .fall
  | _ => .idle

/-- What a context may do in this cycle (R38, R110, R365, R425); after a thermal trip no bundle begins (R24). A pending word that
would pop an entry whose fetch faulted asks for its page (R202). -/
def State.look (s : State) (c : Nat) : Look :=
  let x := s.ctx c
  if x.sleep.isSome || decide (s.now < x.notBefore) then .idle
  else if x.leave.isSome && x.pend.isEmpty && (x.st == .running || x.st == .draining) then .act (s.passOn c)
  else
    let p := s.duePending c
    match x.st with
    | .running =>
      match s.popFault (x.pend.filter (x.mayGo s.now)) with
      | some t => .act t
      | none =>
        if x.hush = some s.now then (s.lookNext c p).hushed
        else if s.thermal then lookPending p
        else s.lookNext c p
    | .draining =>
      match s.popFault (x.pend.filter (x.mayGo s.now)) with
      | some t => .act t
      | none => lookPending p
    | _ => .idle

/-! ### Merge (R39-R42) -/

/-- R39: the due words of two contexts may issue together. -/
def fitTogether (a b : List IssueWord) : Bool :=
  let slots := (a ++ b).map fun w => slotClass w.slot
  decide ((slots.filter (· == 0)).length ≤ 2) &&
    [slotV, slotM, slotL, slotX, slotC].all fun k => decide ((slots.filter (· == k)).length ≤ 1)

/-- R40: bank A wins a collision. -/
def State.winsA (s : State) (a b : Nat) : Bool :=
  let x := s.ctx a
  let y := s.ctx b
  if x.starve = 64 then true
  else if y.starve = 64 then false
  else !(bitsOf (x.cget csrMergePrio) 0 1 == 0 && bitsOf (y.cget csrMergePrio) 0 1 == 1)

/-- R47, R49, R97, R110, R422: a bundle issues its first word: it counts toward the pass and its signature, and the program
counter moves on. -/
def State.beginBundle (s : State) (w : IssueWord) : State :=
  let word := match w.instr with | .sched .. => wordNat w.instr | _ => 0
  s.modCtx w.ctx fun x =>
    { x with
      count := x.count + 1, crc := crcRun x.crc (toLE 4 word), lastFirst := s.now, issuedAt := s.now, started := true, bundles := x.bundles + 1
      pc := ⟨w.pc.seg, w.pc.bun + 1⟩, syncAt := none
      lastTrap := if x.trapBundle = some w.pc then x.lastTrap else none
      quantumFrom := x.quantumFrom.orElse fun _ => some s.now }

/-- R95, R411: the due words of a context as they issue: all of them, in slot order, or the one that stops alone, a pending one before
one of the next bundle. The first word of the next bundle carries its beginning. -/
def State.issueList (s : State) (c : Nat) (pend next stay : List IssueWord) : State × List IssueWord :=
  match (s.firstStop pend).orElse fun _ => (s.firstStop (inSlotOrder (pend ++ next))) with
  | some w => (s, [{ w with begins := false }])
  | none =>
    let s := s.modCtx c fun x => { x with starve := 0, pend := x.pend ++ stay }
    (s, inSlotOrder (pend ++ next.mapIdx fun i w => { w with begins := i == 0 }))

/-- A context loses a collision (R41). -/
def State.loses (s : State) (c : Nat) : State := s.modCtx c fun x => { x with starve := Nat.min 64 (x.starve + 1) }

/-! ### The restart of sync bundles (R42, R52-R54) -/

/-- The context of the task at a coordinate of a context's group. -/
def State.mateAt (s : State) (c i j : Nat) : Option Ctx :=
  (s.ctxs.find? fun (_, y) => y.group.isSome && y.group == (s.ctx c).group && y.lx == i && y.ly == j).map (·.2)

/-- R53, R54: the last arrival among the tasks that a Sync-held context's mask names, where all of them count as arrived. -/
def State.gathered (s : State) (c : Nat) : Option Nat :=
  let x := s.ctx c
  if x.st ≠ .syncHeld then none
  else
    match s.syncNamed c x.syncMask with
    | none => none
    | some named =>
      let arr := named.map fun (i, j) => (s.mateAt c i j).bind (·.arrived)
      if arr.all Option.isSome then some ((arr.map fun a => a.getD 0).foldl Nat.max 0) else none

/-- R54, R55: a task that had arrived by cycle `a` has not withdrawn: it is still arrived, or has restarted since. -/
def Ctx.kept (y : Ctx) (a : Nat) : Bool :=
  (match y.arrived with | some b => decide (b ≤ a) | none => false) ||
    match y.restarted with | some r => decide (a < r) | none => false

/-- R53, R54: the cycle in which a Sync-held context restarts, 32 cycles after the last arrival, once all that its mask names have
counted as arrived together; an arrival that is withdrawn (R55) keeps it waiting. -/
def State.restartAt (s : State) (c : Nat) : Option Nat :=
  let x := s.ctx c
  if x.st ≠ .syncHeld then none
  else
    match x.restart, s.syncNamed c x.syncMask with
    | some r, some named => if named.all fun (i, j) => ((s.mateAt c i j).map (·.kept (r - 32))).getD false then some r else none
    | _, _ => none

/-- R53, R54: after an arrival, the contexts of the group that now have all arrivals they wait for. -/
def State.latchRestarts (s : State) (group : Option Nat) : State :=
  (s.ctxs.map (·.1)).foldl (fun s k =>
    if (s.ctx k).group = group ∧ (s.ctx k).st = .syncHeld ∧ s.restartAt k = none then
      s.modCtx k fun x => { x with restart := (s.gathered k).map (· + 32) }
    else s) s

/-- R54, R217: a sync bundle arrives: its mask is checked and read, and the context is Sync-held. -/
def State.syncArrive (s : State) (c : Nat) (w : IssueWord) : State :=
  match w.instr with
  | .sync h a =>
    if s.stops w then (semOf w.instr).run h (s.with w)
    else
      (s.modCtx c fun x => { x with st := .syncHeld, arrived := some s.now, restart := none, syncMask := (x.sget a).toNat }).latchRestarts (s.ctx c).group
  | _ => s

/-- R41, R42, R53: the whole bundle of a context issues in its restart cycle, and the other context of the core issues nothing. Its
starvation count returns to zero, but where both contexts of the core restart (R42), which changes neither count. -/
def State.syncGo (s : State) (c : Nat) : State :=
  let x := s.ctx c
  let other := if c % 2 = 0 then c + 1 else c - 1
  let double : Bool := x.syncPair
  match x.bundleAt.map checkBundle with
  | some (.ok b) =>
    let s := s.modCtx c fun x => { x with st := .running, syncAt := some s.now, arrived := none, restart := none, restarted := some s.now, syncPair := false }
    let (s, l) := s.issueList c [] (s.scwWord c b ++ s.bundleWords c b) []
    let s := if double then s.modCtx c fun y => { y with starve := x.starve } else s
    let s := s.modCtx other fun y => { y with hush := some s.now }
    { s with todo := s.todo ++ l }
  | _ => s

/-- R131: control falls through past the last bundle. -/
def State.fallThrough (s : State) (c : Nat) : State :=
  let x := s.ctx c
  let loc : Pc := ⟨x.pc.seg, x.pc.bun - 1⟩
  match x.exec with
  | none => s
  | some h =>
    if h.next = 0xFFFF then s.takeTrap c (pastEnd loc) 7 false loc else s.endPass c ⟨h.next, 0⟩ loc x.lastFirst 1

/-- A change of a context that is no issue. -/
def State.lookAct (s : State) (c : Nat) : Look → Option State
  | .act t => some t
  | .arrive w => some (s.syncArrive c w)
  | .fall => some (s.fallThrough c)
  | _ => none

/-- The merge stage of one core (R39-R42): the words that issue in this cycle, or a change that is no issue, after which the
core is looked at again. -/
def State.mergeTile (s : State) (t : Nat) : Option State :=
  let a := 2 * t
  let b := 2 * t + 1
  let la := s.look a
  match s.lookAct a la with
  | some s => some { s with visit := t }
  | none =>
    let lb := s.look b
    match s.lookAct b lb with
    | some s => some { s with visit := t }
    | none =>
      let one (s : State) (c : Nat) (p n y : List IssueWord) : State :=
        let (s, l) := s.issueList c p n y
        { s with todo := l, visit := t + 1 }
      match la, lb with
      | .due p n y, .due p' n' y' =>
        if fitTogether (p ++ n) (p' ++ n') then
          let (s, l) := s.issueList a p n y
          let (s, l') := s.issueList b p' n' y'
          some { s with todo := l ++ l', visit := t + 1 }
        else if s.winsA a b then some (one (s.loses b) a p n y)
        else some (one (s.loses a) b p' n' y')
      | .due p n y, _ => some (one s a p n y)
      | _, .due p n y => some (one s b p n y)
      | _, _ => none

/-- The cores still to be looked at in this cycle. -/
def State.tilesLeft (s : State) : List Nat :=
  ((s.ctxs.map fun (k, _) => tileOf k).filter (s.visit ≤ ·)).eraseDups

/-- The first core that acts. -/
def State.scan (s : State) : List Nat → Option State
  | [] => none
  | t :: ts => match s.mergeTile t with | some s => some s | none => s.scan ts

/-! ### A word issues -/

/-- A word comes to issue: its bundle begins with it, it is no longer pending, and it is the last of its slot class. -/
def State.issueWord (s : State) (w : IssueWord) : State :=
  let s := { s with cur := w }
  let s := if w.begins then s.beginBundle w else s
  let s := if w.pend then
      s.modCtx w.ctx fun x => { x with pend := x.pend.filter fun v => !(v.bundle == w.bundle && v.slot == w.slot) }
    else s
  if w.slot < 7 then s.modCtx w.ctx fun x => { x with slotLast := SMap.set 0 x.slotLast (slotClass w.slot) s.now } else s

/-- R49, R98: a scheduling control word with PF starts the expansion of the segment that NEXT names. -/
def State.prefetchNext (s : State) (pf : Bool) : State :=
  if !pf then s
  else
    s.modCtx s.cur.ctx fun x =>
      match x.exec with
      | some h => if h.next = 0xFFFF then x else x.prefetch h.next
      | none => x

/-- R49, R98. A scheduling control word: its distance, waits and waiting slots were met when its bundle came to issue, and its
bundle counts with it. PF starts the expansion in a pure delay bundle too (R97; log entry 27). -/
def execSched (_stop : Bool) (_pd _wait _waiters : Nat) (pf : Bool) (s : State) : Host.Outcome State Fault Refusal :=
  .next (s.prefetchNext pf)

/-! ### Instructions placed from outside, and inputs -/

/-- The event that the outside world brings in this cycle, and those that follow. -/
def State.arriving (s : State) : Option (Instr × List (Nat × Instr)) :=
  match s.agenda with
  | (n, e) :: rest => if n ≤ s.now then some (e, rest) else none
  | [] => none

/-- The bundle of one instruction word of the opcode table, its operand word zero where the table gives it no bits. -/
def fetchBundle (nbits w : Nat) : List W32 :=
  match tableWords nbits w with
  | a :: rest =>
    let ws := if a.getLsbD 30 then a :: rest.take 1 else [a]
    if a.getLsbD 31 then ws else ws ++ [0x9D5C0000#32]
  | [] => []

/-- The state in which a bundle is the next to issue: that of bank A of core 0, which runs, and no other unit acts
before it. -/
def State.withBundle (s : State) (ws : List W32) : State :=
  let half := { Half.fetching 0 with ready := true, words := ws }
  let s := s.modCtx 0 fun x =>
    { x with
      st := .running, exec := some half, jump := none, pc := ⟨0, 0⟩, notBefore := 0, started := false, sleep := none,
      pend := [], leave := none, rerun := none, drainTo := .none, hush := none }
  let s := s.modCtx 1 fun y => { y with notBefore := s.now + 1 }
  { s with agenda := [], due := [], todo := [], visit := 0, bad := none }

end Sys2Proof.Machine
end

