-- ==== Sys2Proof/Machine/Landing.lean ====
section
/-!
DEFINITION. The events by which results land, writes are performed, and streams and the noise log read ahead (R84, R106,
R108, R173, R185, R202, R203, R272, R283). An event whose condition does not hold changes nothing (log entry 15).
-/

namespace Sys2Proof.Machine

/-! ### Landings -/

/-- R442: the poison mark of a register after a write: the mark of what is written, or none where the write is whole. -/
def Ctx.mark (x : Ctx) (r : PReg) (part : Bool) (po : Option Origin) : Ctx :=
  match po with
  | some o => { x with poison := (r, o) :: x.poison.filter (·.1 != r) }
  | none => if part then x else { x with poison := x.poison.filter (·.1 != r) }

/-- R102: a result goes into the last-result file, with its mark. -/
def Ctx.pushLast (x : Ctx) (v : VReg) (po : Option Origin) : Ctx :=
  let moved := x.poison.filterMap fun (r, o) =>
    match r with
    | .v n => if 48 ≤ n then (if n < 51 then some (PReg.v (n + 1), o) else none) else some (r, o)
    | _ => some (r, o)
  ((({ x with poison := moved }.vset 51 (x.vget 50)).vset 50 (x.vget 49)).vset 49 (x.vget 48)).vset 48 v |>.mark (.v 48) false po

/-- A value lands in a register of its context. A push is no landing of a register. -/
def Ctx.landOne (x : Ctx) (po : Option Origin) : Landing → Ctx
  | .sreg n v => (x.sset n v).mark (.s n) false (if n = 0 then none else po)
  | .greg n v => (x.gset n v).mark (.g n) false po
  | .vreg n v part => (x.vset n v).mark (.v n) part po
  | .last v => x.pushLast v po
  | .push .. => x
  | .treg n v part => (x.tset n v).mark (.t n) part po
  | .p6 b => { x with p := BitVec.ofBool b ++ x.p.extractLsb' 0 6 }.mark .preds true po
  | .preds v => { x with p := v }.mark .preds false po
  | .window v => { x with p := x.p.extractLsb' 6 1 ++ v }.mark .preds true po
  | .handle n h => (x.hset n h).mark (.h n) false po
  | .csr n v => (x.cset n v).mark (.csr n) false po
  | .flags v => x.raise v

/-- R203, R302: an entry pushed to a write stream is written as a plain store of the binding that took it, in its parts, each of which
pins its page when it is translated. -/
def State.pushEntry (s : State) (c bundle q gen vd va : Nat) (v : VReg) : State :=
  s.postStore c vd { va := va, bytes := bytesOfBits 256 v.data, stream := some (q, gen), bundle := some bundle }

/-- The landings of a result, in order. -/
def State.landAll (s : State) (c bundle : Nat) (po : Option Origin) (ls : List Landing) : State :=
  ls.foldl (fun s l =>
    match l with
    | .push q gen vd va v => if s.alive c then s.pushEntry c bundle q gen vd va v else s
    | l => s.modCtx c fun x => x.landOne po l) s

/-- Two landings write one register. -/
def Landing.same : Landing → Landing → Bool
  | .sreg a _, .sreg b _ => a == b
  | .greg a _, .greg b _ => a == b
  | .vreg a _ _, .vreg b _ _ => a == b
  | .handle a _, .handle b _ => a == b
  | .csr a _, .csr b _ => a == b
  | .p6 _, .p6 _ => true
  | .preds _, .preds _ => true
  | .window _, .window _ => true
  | _, _ => false

/-- A load that goes to the register of a landing. -/
def LoadDst.same (d : LoadDst) (l : Landing) : Bool :=
  match d, l with
  | .scalar a, .sreg b _ => a == b
  | .vector a _, .vreg b _ _ => a == b
  | _, _ => false

/-- R106, R121, R132, R133: whose value of a register is final: that of a later writer in the slot class of an earlier one; and that of a
`call`, `jmpr` or `loop`, the words of the C slot with a bound of 1, against the S words of its bundle. -/
def Flight.outranks (f g : Flight) : Bool :=
  (decide (g.id < f.id) && slotClass g.slot == slotClass f.slot) ||
    (f.slot == slotC && f.bound == some (f.issued + 1) && slotClass g.slot == 0 && g.bundle == f.bundle)

/-- R106: what a result lands, results that it outranks no longer land. -/
def Ctx.supersede (x : Ctx) (f : Flight) (lands : List Landing) : Ctx :=
  { x with flights := x.flights.map fun g =>
      if g.id != f.id && f.outranks g then
        { g with
          lands := g.lands.filter fun l => !(lands.any fun m => l.same m)
          load := g.load.map fun l => if lands.any l.dst.same then { l with dst := .gone } else l }
      else g }

/-- A flight of a context. -/
def Ctx.flight (x : Ctx) (id : Nat) : Option Flight := x.flights.find? (·.id == id)

/-- R99, R109, R173: a flight is over: its tag and the tiles and the unit that it held are free from the next cycle on. -/
def Ctx.endFlight (x : Ctx) (now : Nat) (f : Flight) : Ctx :=
  let free (m : SMap Nat) (ks : List Nat) : SMap Nat := ks.foldl (fun m k => SMap.set 0 m k (now + 1)) m
  { x with
    flights := x.flights.filter (·.id != f.id), tagFree := free x.tagFree f.tag.toList, rdFree := free x.rdFree f.rd,
    wrFree := free x.wrFree f.wr, unitFree := free x.unitFree f.unit.toList }

/-- A flight ends, and its values land. -/
def State.finishFlight (s : State) (c : Nat) (f : Flight) (po : Option Origin) (lands : List Landing) : State :=
  (s.modCtx c fun x => (x.supersede f lands).endFlight s.now f).landAll c f.bundle po lands

/-! ### Loads and tagged results (R108, R195-R197, R202) -/

/-- The bytes of a load, assembled from its pieces. -/
def Load.bytes (l : Load) (n : Nat) : List Byte :=
  l.pieces.foldl (fun bs p => overlay bs p.dst (p.val.getD [])) (zeros n)

/-- R195, R196: what a load whose every piece has its value lands. -/
def Load.lands (l : Load) : List Landing :=
  match l.dst with
  | .scalar d => [.sreg d (bitsOfBytes 64 (l.bytes 8))]
  | .vector d fmt => [.vreg d ⟨bitsOfBytes 2048 (l.bytes 256), 0, fmt⟩ false]
  | .stream .. | .gone => []

/-- R108: some lanes of a vector register hold the new bits of a tagged result before it lands, and perhaps its tag and sidecar. -/
def Ctx.mixLanes (x : Ctx) (id now d : Nat) (v : VReg) : Ctx :=
  let old := x.vget d
  let lane (n : Nat) : Nat := if Config.happens 45 (64 * id + n) now then v.data.toNat / 2 ^ (32 * n) % 2 ^ 32 else old.data.toNat / 2 ^ (32 * n) % 2 ^ 32
  x.vset d ⟨BitVec.ofNat 2048 (packElems 32 ((List.range 64).map lane)), if Config.happens 46 id now then v.side else old.side,
    if Config.happens 47 id now then v.tag else old.tag⟩

/-- R108: a tagged result that is there shows in its vector register before its tag is released: which lanes show is open (log entry 2). A
poisoned one does not (R442). -/
def State.showLanes (s : State) (c : Nat) (f : Flight) (po : Option Origin) (lands : List Landing) : State :=
  if po.isSome then s
  else lands.foldl (fun s l => match l with | .vreg d v false => s.modCtx c fun x => x.mixLanes f.id s.now d v | _ => s) s

/-- R202: an entry that has come goes into the buffer of the binding that asked for it. -/
def Ctx.landEntry (x : Ctx) (l : Load) (po : Option Origin) : Ctx :=
  match l.dst with
  | .stream q gen e =>
    let st := x.qget q
    if st.bound && st.gen == gen && st.pos ≤ e && !st.fetched.any (·.entry == e) then
      x.qset q { st with fetched :=
        (st.fetched.filter (·.entry < e)) ++ [⟨e, bitsOfBytes 2048 (l.bytes 256), po⟩] ++ st.fetched.filter (e < ·.entry) }
    else x
  | _ => x

/-- R203, R208, R271: what an `sflush` waits for: every entry pushed before it is performed at its scope. Entries on a UO page are so at
cluster scope or wider once they are written back (log entry 26). -/
def State.flushed (s : State) (c : Nat) (f : Flight) : Bool :=
  match f.flush with
  | none => true
  | some (q, gen, scope) =>
    !((s.ctx c).flights.any fun g => g.id < f.id &&
        g.lands.any fun l => match l with | .push q' g' _ _ _ => q' == q && g' == gen | _ => false) &&
      !(s.posted.any fun p => p.ctx == c && p.stream == some (q, gen) && p.id < f.id &&
        !(scope < 2 && p.isRcWrite && s.entered p)) &&
      (scope == 0 || !s.cache.any fun l => l.tile == tileOf c && l.dirtyOf (bankOf c))

/-- R203, R266: an `sflush` at cluster scope or wider writes back the UO lines that its context has written. -/
def State.flushFor (s : State) (c : Nat) (f : Flight) : State :=
  match f.flush with
  | some (_, _, scope) => if scope = 0 then s else s.flushUo c
  | none => s

/-- R272: a later write of the context, which may wait for a result in flight, nears its bound. -/
def State.pressed (s : State) (c : Nat) (f : Flight) : Bool :=
  f.kind == .tagged && s.posted.any fun p => p.ctx == c && programBefore f.bundle f.id p.bundle p.id && decide (p.bound ≤ s.now + 64)

/-- R108: the tag of a result may be released later than its values show. -/
def State.lingers (s : State) (c : Nat) (f : Flight) : Bool :=
  Config.happens 44 f.id s.now && !s.pressed c f && (match f.bound with | some b => decide (s.now < b) | none => true)

/-- R304: the pieces of a load that are not translated, and wait for no page, are. -/
def State.translatePieces (s : State) (c : Nat) (f : Flight) (l : Load) : State :=
  l.pieces.zipIdx.foldl (fun s (p, i) => if p.xl.isNone && p.wait.isNone && s.alive c then s.translatePiece c f.id l i p else s) s

/-- The pieces of a flight of a context that may be read are. -/
def State.readAll (s : State) (c id : Nat) : State :=
  match (s.ctx c).flight id with
  | some f => match f.load with | some l => s.readPieces c f l | none => s
  | none => s

/-- A tagged result takes its next step: a load's reads that may be performed are performed; with the last of them, or where
nothing is left to wait for, its values land and its tag is released. -/
def State.landTagged (s : State) (c id : Nat) : State :=
  match (s.ctx c).flight id with
  | none => s
  | some f =>
    match f.load with
    | none =>
      let s := s.flushFor c f
      if !s.flushed c f then s
      else if s.lingers c f then s.showLanes c f f.poison f.lands
      else s.finishFlight c f f.poison f.lands
    | some l =>
      let s := (s.translatePieces c f l).readAll c id
      match (s.ctx c).flight id with
      | none => s
      | some f =>
        match f.load with
        | none => s
        | some l =>
          if l.pieces.any fun p => p.val.isNone then s
          else
            let po := (l.pieces.findSome? (·.poison)).orElse fun _ => f.poison
            if s.lingers c f && l.acq.isNone then s.showLanes c f po l.lands
            else
              let s := (s.finishFlight c f po l.lands).modCtx c fun x => x.landEntry l po
              match l.acq with
              | some scope => s.acquireAt c scope
              | none => s

/-! ### The events -/

/-- R149: pushes of a slot keep issue order: those before a result that is pushed land before it. -/
def State.pushesBefore (s : State) (c : Nat) (f : Flight) : State :=
  if !f.pushes then s
  else
    ((s.ctx c).flights.filter fun g => decide (g.id < f.id) && g.kind == .fixed && g.pushes && slotClass g.slot == slotClass f.slot).foldl
      (fun s g => s.finishFlight c g g.poison g.lands) s

/-- R106. A fixed-latency result lands, not before the cycle after its issue. -/
def execFixedResultLands (ctx id : Nat) (s : State) : Host.Outcome State Fault Refusal :=
  .next <| match (s.ctx ctx).flight id with
    | none => s
    | some f =>
      if f.kind = .fixed ∧ f.first ≤ s.now then (s.pushesBefore ctx f).finishFlight ctx f f.poison f.lands else s

/-- R229: the bound of a flight has come. -/
def Flight.overdue (f : Flight) (now : Nat) : Bool := match f.bound with | some b => decide (b ≤ now) | none => false

/-- R229: the immediate status of a command lands in its bound though the command goes on; the tag of a command whose staging results
are still to land stays (log entry 28). -/
def State.landEarly (s : State) (c : Nat) (f : Flight) : State :=
  if f.late then
    (s.landAll c f.bundle f.poison f.lands).modCtx c fun x =>
      { x with flights := x.flights.map fun g => if g.id = f.id then { g with lands := [] } else g }
  else s.finishFlight c f f.poison f.lands

/-- R108. A tagged result lands. -/
def execTaggedResultLands (ctx id : Nat) (s : State) : Host.Outcome State Fault Refusal :=
  .next <| match (s.ctx ctx).flight id with
    | none => s
    | some f =>
      if f.kind ≠ .tagged ∨ s.now < f.first then s
      else if f.cmd.isNone then s.landTagged ctx id
      else if f.overdue s.now then s.landEarly ctx f
      else s

/-- R173. A matrix unit ends its compute phase, or an `mtv` has read its row. -/
def execMatrixComputePhaseEnd (ctx id : Nat) (s : State) : Host.Outcome State Fault Refusal :=
  .next <| match (s.ctx ctx).flight id with
    | none => s
    | some f =>
      if f.kind ≠ .transfer ∧ f.phaseEnd ≤ s.now then
        s.modCtx ctx fun x =>
          { x with
            flights := x.flights.map fun g => if g.id = id then { g with rd := [], unit := none } else g
            rdFree := f.rd.foldl (fun m k => SMap.set 0 m k (s.now + 1)) x.rdFree
            unitFree := f.unit.toList.foldl (fun m k => SMap.set 0 m k (s.now + 1)) x.unitFree }
      else s

/-- R173. A matrix or tile operation completes. -/
def execMatrixResultComplete (ctx id : Nat) (s : State) : Host.Outcome State Fault Refusal :=
  .next <| match (s.ctx ctx).flight id with
    | none => s
    | some f => if f.kind = .matrix ∧ f.first ≤ s.now then s.finishFlight ctx f f.poison f.lands else s

/-- R185. A tile transfer finishes. -/
def execTileTransferComplete (ctx id : Nat) (s : State) : Host.Outcome State Fault Refusal :=
  .next <| match (s.ctx ctx).flight id with
    | none => s
    | some f => if f.kind = .transfer ∧ f.first ≤ s.now then s.finishFlight ctx f f.poison f.lands else s

/-- A posted request with its number. -/
def State.postedOf (s : State) (id : Nat) : Option Posted := s.posted.find? (·.id == id)

/-- R84, R378, R425: a posted write that has no translation yet is translated, and takes its first steps. -/
def State.translatePosted (s : State) (p : Posted) : State :=
  match s.coreXl p.ctx p.vd p.va p.op.reads true with
  | (s, .dead) | (s, .later) => s
  | (s, .waits k) => s.modPosted p.id fun p => { p with wait := some k }
  | (s, .ok x) => ((s.modPosted p.id fun p => { p with xl := some x, wait := none }).pinPosted p).settlePosted { p with xl := some x, wait := none }

/-- A posted write's next step: it is translated, or goes into local memory or the write buffer, or comes to its home slice or its
peer. -/
def State.advancePosted (s : State) (p : Posted) : State :=
  if p.op.isWrite && p.xl.isNone then (if p.wait.isNone then s.translatePosted p else s)
  else if p.isUoWrite then s.landUo p
  else
    let s := s.settleWrites (clusterOf (tileOf p.ctx))
    match s.postedOf p.id with
    | some p => if s.mayPerform p then s.tryPosted p else s
    | none => s

/-- R272. A posted write is performed at its home slice, or leaves for its peer. -/
def execWritePerformed (id : Nat) (s : State) : Host.Outcome State Fault Refusal :=
  .next <| match s.postedOf id with
    | none => s
    | some p => if p.tries.isRefused then s else s.advancePosted p

/-- R283: a refused piece of a flight is to be tried again in this cycle. -/
def Flight.retries (f : Flight) (now : Nat) : Bool :=
  match f.load with
  | some l => l.pieces.any fun p => p.val.isNone && p.freq.isNone && (match p.tries with | .refused _ again => decide (again ≤ now) | _ => false)
  | none => false

/-- R283. A refused request, a write or a read of a load, is tried again, 64 LLC cycles after its refusal. -/
def execRefusalRetry (id : Nat) (s : State) : Host.Outcome State Fault Refusal :=
  .next <| match s.postedOf id with
    | some p => if p.tries.isRefused then s.advancePosted p else s
    | none =>
      match s.ctxs.find? fun (_, x) => x.flights.any fun f => f.id == id && f.retries s.now with
      | some (c, _) => s.landTagged c id
      | none => s

/-- R202, R476: a read stream of a context may fetch its next entry. -/
def Ctx.mayFetch (x : Ctx) (q : Nat) : Bool :=
  let st := x.qget q
  st.bound && !st.write && st.win.valid && !st.blocked && decide (st.next < st.total) &&
    decide (st.next < st.pos + 16) && (x.st == .running || x.st == .sleeping || x.st == .syncHeld || x.st == .draining)

/-- R202, R302, R424: the next entry of a read stream is asked for. A translation that does not complete is not raised: the
entry waits until it would be popped. -/
def State.fetchEntry (s : State) (c q : Nat) : State :=
  let x := s.ctx c
  let st := x.qget q
  match s.entryXlat c st with
  | (s, .error (_, .later)) => s
  | (s, .error _) => s.modCtx c fun x => x.qset q { x.qget q with blocked := true }
  | (s, .ok ps) =>
    let s := ps.foldl (fun s p => s.pinPage (x.group.getD 0) x.lx x.ly q st.win.vd p.va) s
    let id := s.serial
    let f : Flight := {
      id := id, kind := .tagged, slot := 7, issued := s.now, first := s.now, bound := none, tag := none, lands := [],
      load := some { pieces := ps, dst := .stream q st.gen st.next, acq := none, rel := none, amo := none, gather := false,
                     offsets := 0, vd := st.win.vd }
      rd := [], wr := [], unit := none, phaseEnd := 0, poison := none, cmd := none, flush := none, word := 0, ext := 0, bundle := x.bundles }
    (({ s with serial := id + 1 }).modCtx c fun x =>
      { (x.qset q { x.qget q with next := st.next + 1 }) with flights := x.flights ++ [f] }).landTagged c id

/-- R202. A read stream fetches an entry ahead. -/
def execStreamFetch (ctx q : Nat) (s : State) : Host.Outcome State Fault Refusal :=
  .next <| if (s.ctx ctx).mayFetch q then s.fetchEntry ctx q else s

/-- An `mcvt` may take more noise bits than the buffer of the log holds. -/
def isMcvt : Instr → Bool
  | .mcvt .. => true
  | _ => false

/-- R84: the bits that a context in replay may read ahead: 2 KiB of them, and what an `mcvt` that comes next may take (log entry 26). -/
def Ctx.aheadLimit (x : Ctx) : Nat :=
  let next : Bool := match x.exec with
    | some h => h.ready && h.seg == x.pc.seg && ((h.bundles[x.pc.bun]?).getD []).any fun w => fld w.toNat 26 4 == 3
    | none => false
  if next || x.pend.any (fun w => isMcvt w.instr) then 5 * 16384 else 16384

/-- R84: a context in replay lacks bits of its log, and its buffer has room for a line of them. -/
def Ctx.mayReadAhead (x : Ctx) : Bool :=
  let pos := (x.cget csrLogPos).toNat
  x.replaying && x.waits.isEmpty && (x.st == .running || x.st == .draining || x.st == .syncHeld) && decide (pos < x.replayEnd) &&
    (x.logBits.isEmpty || (decide (x.logStart + x.logBits.length < x.replayEnd) && decide (x.logBits.length + 1024 ≤ x.aheadLimit)))

/-- The bits of bytes, lowest first. -/
def byteBits (bs : List Byte) : List Bool := bs.flatMap fun b => (List.range 8).map b.getLsbD

/-- R84, R424: one line of the log comes into the buffer. Its page is asked for as for an access of the context. -/
def State.readLog (s : State) (c : Nat) : State :=
  let x := s.ctx c
  let pos := (x.cget csrLogPos).toNat
  let fresh := x.logBits.isEmpty
  let lo := if fresh then pos else x.logStart + x.logBits.length
  let hi := Nat.min x.replayEnd (lo / 1024 * 1024 + 1024)
  let base := (x.cget csrLogBase).toNat
  let va := (base + lo / 1024 * 128) % 2 ^ 55
  -- R275: the context's own earlier writes of the line come first
  if s.posted.any fun p => p.ctx == c && p.log.isSome && decide (p.va < va + 128) && decide (va < p.va + p.bytes.length) then s
  else
  match s.readGuest (tileOf c) (s.vdOf c) 2 va 128 with
  | (s, .err (.request k)) =>
    (s.request k false false c).modCtx c fun x => { x.faultStop with waits := [(k, va)] }
  | (s, .err (.fail reason stage)) => s.accessDead c reason va stage false
  | (s, .err .later) => s
  | (s, .bytes bs _) =>
    let bits := ((byteBits bs).drop (lo % 1024)).take (hi - lo)
    s.modCtx c fun x => { x with logBits := if fresh then bits else x.logBits ++ bits, logStart := if fresh then lo else x.logStart }

/-- R84. In replay a line of the log arrives in the buffer. -/
def execNoiseLogReadAhead (ctx : Nat) (s : State) : Host.Outcome State Fault Refusal :=
  .next <| if (s.ctx ctx).mayReadAhead then s.readLog ctx else s

end Sys2Proof.Machine
end

