-- ==== Sys2Proof/Machine/Wakes.lean ====
section
/-!
DEFINITION. The events that bring a context on without a word: segments that arrive (R50, R131, R419), the sync line (R53),
waits and flags (R211-R214, R221), time-outs (R422), promotions (R223).
-/

namespace Sys2Proof.Machine

/-! ### Segments (R50, R131, R418, R419) -/

/-- The half of the loop buffer that is being expanded: its segment, the bundle that control has passed to in it, and
whether it is the executing half. -/
def Ctx.expanding (x : Ctx) : Option (Nat × Option Pc × Bool) :=
  match x.exec with
  | some h =>
    if !h.ready then some (h.seg, some x.pc, true)
    else x.idle.bind fun k =>
      let wanted := x.jump.bind fun (t, _, _, _) => if t.seg = k.seg then some t else none
      if !k.ready || wanted.isSome then some (k.seg, wanted, false) else none
  | none => x.idle.map fun k => (k.seg, (x.jump.map (·.1)), false)

/-- The half that is being expanded is replaced. -/
def Ctx.setHalf (x : Ctx) (exec : Bool) (h : Half) : Ctx := if exec then { x with exec := some h } else { x with idle := some h }

/-- A half whose segment failed. -/
def Half.failed (seg : Nat) (t : TrapRec) : Half := { Half.fetching seg with ready := true, fail := some t }

/-- A half is complete, well or ill: control that waits for it arrives. -/
def State.halfDone (s : State) (c : Nat) (exec : Bool) (h : Half) : State :=
  let s := s.modCtx c fun x => x.setHalf exec h
  let x := s.ctx c
  if exec then
    match h.fail with
    | some t => s.takeTrap c (if t.cause = 11 then t else { t with detail := x.pc.target }) 7 false x.pc
    | none => if x.pc.bun < h.bundles.length then s else s.takeTrap c ⟨3, 1, x.pc.target⟩ 7 false x.pc
  else
    match x.jump with
    | some (t, loc, cyc, how) => if t.seg = h.seg then s.enterSegment c t loc cyc how else s
    | none => s

/-- R418, R419, R424: the segment that a context expands is fetched and checked. A translation that does not complete is
raised only where control waits for the segment. -/
def State.expand (s : State) (c : Nat) : State :=
  let x := s.ctx c
  match x.expanding with
  | none => s
  | some (seg, wanted, exec) =>
    let target := ((wanted.map (·.bun)).getD 0) + seg * 2 ^ 16
    let old := if exec then x.exec else x.idle
    if (old.map (·.ready)).getD false then s.halfDone c exec (old.getD (Half.fetching seg))
    else
      match s.segFetch c seg target with
      | (s, .ok h) => s.halfDone c exec h
      | (s, .trap t) => s.halfDone c exec (Half.failed seg t)
      | (s, .err .later) => s
      | (s, .err (.fail _ _)) => s.halfDone c exec (Half.failed seg ⟨3, 5, target⟩)
      | (s', .err (.request k)) =>
        if wanted.isNone then s
        else
          (s'.request k false false c).modCtx c fun x =>
            { (x.faultStop.setHalf exec { Half.fetching seg with wait := some k }) with waits := [(k, k.va)] }

/-- R49, R50: the expansion of a segment may complete in this cycle. -/
def Ctx.mayExpand (x : Ctx) : Bool :=
  (x.st == .running || x.st == .sleeping || x.st == .syncHeld) && x.waits.isEmpty && x.expanding.isSome

/-- R50. The expansion of a segment completes. -/
def execSegmentExpansionDone (ctx : Nat) (s : State) : Host.Outcome State Fault Refusal :=
  .next <| if (s.ctx ctx).mayExpand then s.expand ctx else s

/-- R131. Control falls through past the last bundle of a segment. -/
def execSegmentFallThrough (ctx : Nat) (s : State) : Host.Outcome State Fault Refusal :=
  .next <| match s.look ctx with
    | .fall => s.fallThrough ctx
    | _ => s

/-! ### The sync line (R53) -/

/-- R53. A sync bundle arrives. -/
def execSyncArrival (ctx : Nat) (s : State) : Host.Outcome State Fault Refusal :=
  .next <| match s.look ctx with
    | .arrive w => s.syncArrive ctx w
    | _ => s

/-- R42, R53: the context restarts in this cycle. -/
def State.restartsNow (s : State) (c : Nat) : Bool :=
  let x := s.ctx c
  !s.thermal && x.st == .syncHeld && (x.syncAt == some s.now || (x.syncAt.isNone && s.restartAt c == some s.now))

/-- R53. The sync bundle of a context issues in its restart cycle. -/
def execSyncRestart (ctx : Nat) (s : State) : Host.Outcome State Fault Refusal :=
  .next <| if s.restartsNow ctx then s.syncGo ctx else s

/-! ### Waits (R211-R214) -/

/-- R212: a read found a value other than the expected one. -/
def Monitor.met (m : Monitor) (v : W64) : Bool :=
  let w := 8 * wordSize m.dbl
  decide (v.toNat % 2 ^ w ≠ m.expected.toNat % 2 ^ w)

/-- R212, R275: the watched word of a monitor is read. -/
def State.readMonitor (s : State) (m : Monitor) : State × Watch :=
  if m.scratch then (s, .value (bitsOfBytes 64 (s.scr (tileOf m.ctx) m.addr (wordSize m.dbl))) m.addr)
  else s.readWatched m.ctx m.vd m.va (wordSize m.dbl) false m.acq

/-- A monitor in its slot, changed. -/
def State.modMonitor (s : State) (m : Monitor) (f : Monitor → Monitor) : State :=
  { s with monitors := s.monitors.map fun k => if k = m then f k else k }

/-- R214: the status of a wait: that of a `wait.arm` lands in a later cycle than its read. -/
def State.settleWait (s : State) (c : Nat) (held : Bool) (status : Nat) : State :=
  if held then
    s.modCtx c fun x => { x with sleep := x.sleep.map fun sl => { sl with arming := false, status := some status, since := Nat.max sl.since (s.now - 1) } }
  else s.wake c status

/-- R212: the arming read of a `wait` or `wait.arm` comes back: the word differs, and its monitor is disarmed, or the
monitor stands; a word on a peer's page has no monitor. -/
def State.armReturns (s : State) (c : Nat) (held : Bool) (m : Monitor) : State :=
  match s.readMonitor m with
  | (s, .later) => s
  | (s, .peer) => ({ s with monitors := s.monitors.filter (· != m) }).settleWait c held stNoSlot
  | (s, .value v a) =>
    if m.met v then ({ s with monitors := s.monitors.filter (· != m) }).settleWait c held stMet
    else
      let s := s.modMonitor m fun k => { k with arming := false, bound := true, addr := a }
      if held then s.settleWait c held stArmed
      else s.modCtx c fun x => { x with sleep := x.sleep.map fun sl => { sl with arming := false } }

/-- R221: the value that the binding of an `fwait` returns: the threshold is reached, or the register stands bound. -/
def State.bindReturns (s : State) (c : Nat) (f : FlagBind) : State :=
  match s.readWatched c f.vd f.va 8 true f.acq with
  | (s, .later) => s
  | (s, .peer) => s.wakeAll c stNoSlot
  | (s, .value v a) =>
    if f.threshold.toNat ≤ v.toNat then ({ s with flags := s.flags.filter (·.ctx != c) }).wake c stMet
    else
      let s : State := { s with flags := s.flags.map fun k => if k.ctx = c then { k with pa := some a } else k }
      s.modCtx c fun x => { x with sleep := x.sleep.map fun sl => { sl with arming := false } }

/-- R214: the first read of a wait, or its settled status, may come back: from the cycle after its word issued, for
`wait.arm` from the second. -/
def State.mayReturn (s : State) (c : Nat) : Bool :=
  let x := s.ctx c
  match x.sleep with
  | none => false
  | some sl =>
    (sl.arming || sl.status.isSome) && x.waits.isEmpty && !x.faulted && decide (sl.since + (if sl.held then 2 else 1) ≤ s.now)

/-- R212. The arming read of a wait, or the first value of an `fwait`, comes back. -/
def execWaitReadReturn (ctx : Nat) (s : State) : Host.Outcome State Fault Refusal :=
  .next <| if !s.mayReturn ctx then s
    else
      match (s.ctx ctx).sleep with
      | none => s
      | some sl =>
        match sl.status with
        | some st => s.wake ctx st
        | none =>
          if sl.flag then
            match s.flags.find? (·.ctx == ctx) with
            | some f => s.bindReturns ctx f
            | none => s.wake ctx stEvict
          else
            match s.monitors.find? fun m => m.ctx == ctx && m.arming with
            | some m => s.armReturns ctx sl.held m
            | none => s.wake ctx stEvict

/-- R212: a context sleeps on its monitors. -/
def Ctx.onMonitors (x : Ctx) : Bool :=
  match x.sleep with
  | some sl => !sl.arming && !sl.held && !sl.flag && sl.status.isNone && x.waits.isEmpty && !x.faulted
  | none => false

/-- The read of every fired monitor of a context, one after the other: whether one differs, or the context waits. -/
def State.reread (met : Bool) : List Monitor → State → State × Option Bool
  | [], s => (s, some met)
  | m :: ms, s =>
    match s.readMonitor m with
    | (s, .later) => (s, none)
    | (s, .peer) => State.reread met ms s
    | (s, .value v _) => State.reread (met || m.met v) ms s

/-- R212: `SleepAny` returns: MET where a fired monitor's word differs, else the reason, in the order of R212; every monitor
is disarmed. -/
def State.sleepReturns (s : State) (c : Nat) (timeout : Bool) : State :=
  let fired := s.monitors.filter fun m => m.ctx == c && m.fired.isSome
  match State.reread false fired s with
  | (s, none) => s
  | (s, some true) => s.wakeAll c stMet
  | (s, some false) =>
    if fired.any fun m => m.fired == some stWrite then s.wakeAll c stWrite
    else if !fired.isEmpty then s.wakeAll c stEvict
    else if timeout then s.wakeAll c stTimeout
    else s

/-- R211. A monitor of a context fires: by a write or by the loss of its line, which home slices may also report with no
write (reason 2); a context that sleeps on its monitors wakes. -/
def execMonitorFire (ctx idx reason : Nat) (s : State) : Host.Outcome State Fault Refusal :=
  let mine := s.monitors.filter (·.ctx == ctx)
  .next <| match mine[idx]? with
    | none => s
    | some m =>
      if m.fired.isNone && (reason != stEvict || m.scratch || m.arming) then s
      else
        let s := s.modMonitor m fun k => { k with fired := k.fired.orElse fun _ => some reason }
        if (s.ctx ctx).onMonitors then s.sleepReturns ctx false else s

/-- R221: the values pushed to a bound register are taken, in order. -/
def takePushes (thr : Nat) : List W64 → Bool
  | [] => false
  | v :: vs => decide (thr ≤ v.toNat) || takePushes thr vs

/-- R221, R222. The home slice pushes a flag word's new value to a bound flag register, or the binding is lost. -/
def execFlagPush (ctx : Nat) (s : State) : Host.Outcome State Fault Refusal :=
  .next <| match s.flags.find? (·.ctx == ctx), (s.ctx ctx).sleep with
    | some f, some sl =>
      if sl.arming || (f.pushed.isEmpty && !f.lost) then s
      else if takePushes f.threshold.toNat f.pushed then
        let s := match f.acq with | some scope => s.acquireAt ctx scope | none => s
        s.wakeAll ctx stMet
      else if f.lost then s.wakeAll ctx stEvict
      else { s with flags := s.flags.map fun k => if k.ctx = ctx then { k with pushed := [], window := none } else k }
    | _, _ => s

/-- R212, R214, R221: the sleep of a context has reached WAITLIM, and its arming or binding read has come back. -/
def State.waitOver (s : State) (c : Nat) : Bool :=
  let x := s.ctx c
  let lim := bitsOf (x.cget csrTimeout) 0 32
  match x.sleep with
  | some sl => lim != 0 && !sl.held && !sl.arming && sl.status.isNone && x.waits.isEmpty && !x.faulted && decide (sl.since + 1024 * lim ≤ s.now)
  | none => false

/-- R214. A sleep reaches WAITLIM. -/
def execWaitTimeout (ctx : Nat) (s : State) : Host.Outcome State Fault Refusal :=
  .next <| if !s.waitOver ctx then s
    else if ((s.ctx ctx).sleep.map (·.flag)).getD false then s.wakeAll ctx stTimeout
    else s.sleepReturns ctx true

/-! ### Hangs (R422) -/

/-- R139, R422: a context has issued no bundle for HANGLIM. -/
def State.hangs (s : State) (c : Nat) : Bool :=
  let x := s.ctx c
  let lim := bitsOf (x.cget csrTimeout) 32 32
  (x.st == .running || x.st == .syncHeld || x.st == .sleeping) && lim != 0 && decide (x.issuedAt + 2 ^ 20 * lim ≤ s.now)

/-- R422. A context that issues nothing for HANGLIM is marked dead. -/
def execHangTimeout (ctx : Nat) (s : State) : Host.Outcome State Fault Refusal :=
  .next <| if s.hangs ctx then s.markDead ctx 1 (s.ctx ctx).pc.target else s

/-! ### Promotion (R223) -/

/-- A promotion with its number. -/
def State.promotion (s : State) (id : Nat) : Option Promotion := s.promotions.find? (·.id == id)

/-- R223: a promotion is over: the words that it held back may issue, and the promoter's later acquires at any scope find what the owner
wrote: its clean copies go. -/
def State.endPromotion (s : State) (p : Promotion) : State :=
  let s := { s with promotions := s.promotions.filter (·.id != p.id) }
  let s := (s.dropClean (tileOf p.promoter)).modCtx p.promoter fun x => if x.promoWait = some p.id then { x with promoWait := none } else x
  s.modCtx p.owner fun x => if x.promoHold = some p.id then { x with promoHold := none } else x

/-- R223: the owner of a promotion still runs. -/
def State.ownerRuns (s : State) (p : Promotion) : Bool :=
  let x := s.ctx p.owner
  x.st != .idle && x.st != .dead && x.group == (s.ctx p.promoter).group

/-- R223. A promotion arrives at its owner's core: the releases performed before it are widened to system scope, and the
writes before them are written back. -/
def execPromotionArrival (id : Nat) (s : State) : Host.Outcome State Fault Refusal :=
  .next <| match s.promotion id with
    | none => s
    | some p =>
      if p.upto.isSome then s
      else if !s.ownerRuns p then s.endPromotion p
      else
        let n := s.serial
        let s := { s with
          serial := n + 1
          promotions := s.promotions.map fun (q : Promotion) => if q.id = id then { q with upto := some n } else q
          posted := s.posted.map fun (q : Posted) => if q.ctx = p.owner then { q with promoted := true } else q }
        s.modCtx p.owner fun x => { x with promoHold := some id }

/-- R223, R278: every write that a promotion waits for is performed at system scope: those of the owner, and those of its cluster that come
before its releases. -/
def State.promoted (s : State) (p : Promotion) : Bool :=
  match p.upto with
  | none => false
  | some n => !s.ownerRuns p || !(s.posted.any fun q => decide (q.id < n) && (q.ctx == p.owner ||
      (clusterOf (tileOf q.ctx) == clusterOf (tileOf p.owner) && q.buf && decide (q.id < (s.ctx p.owner).acqAt))))

/-- R223. The owner's acknowledgement returns. -/
def execPromotionAck (id : Nat) (s : State) : Host.Outcome State Fault Refusal :=
  .next <| match s.promotion id with
    | none => s
    | some p => if s.promoted p then s.endPromotion p else s

end Sys2Proof.Machine
end

