-- ==== Sys2Proof/Machine/EngineEvents.lean ====
section
/-!
DEFINITION. The events of the engines: the steps of commands and their ends (R227, R233, R472-R474), materialisation
(R326, R327), the reclaim engine (R314), the time-outs of `adopt` and `coll` (R467, R474).
-/

namespace Sys2Proof.Machine

/-- R233: a command that pre-emption or a death stops at its next chunk boundary. -/
def Cmd.chunked (k : Cmd) : Bool := k.cls == 6 || (k.cls == 14 && k.op < 3)

/-- R233: a command stands at a chunk boundary. -/
def Cmd.atBoundary (k : Cmd) : Bool := k.ending.isNone && ((k.freqs.isEmpty && k.asks.isEmpty) || k.wait.isSome)

/-- R233, R362: the context of a command drains to be saved, or killed. -/
def State.saving (s : State) (c : Nat) : Bool :=
  let x := s.ctx c
  x.st == .draining && (match x.drainTo with | .save _ _ | .kill => true | _ => false)

/-- R207, R244, R245, R249, R252, R253, R255: the scope of the release that a command's step performs. -/
def Cmd.relScope (k : Cmd) : Option Nat :=
  if (k.cls = 11 ∧ k.op = 3) ∨ (k.cls = 10 ∧ 4 ≤ k.op) then some k.scope
  else if k.cls = 12 ∧ (k.op = 0 ∨ k.op = 4) then some 3
  else if k.cls = 12 ∧ k.op = 1 then some k.scope
  else none

/-- R365: of more than 16 commands that would be saved, the oldest runs on to its end. -/
def State.mustEnd (s : State) (k : Cmd) : Bool :=
  let mine := s.cmds.filter fun x => x.ctx == k.ctx && x.group == k.group && x.chunked && !x.abandoned
  decide (16 < mine.length) && !mine.any (fun x => x.id < k.id)

/-- A command may take a step now: the orders of R231 and R232, its release, and no stop at a chunk boundary. -/
def State.cmdGoes (s : State) (k : Cmd) : Bool :=
  s.cmdMay k && !(s.stillRuns k && s.saving k.ctx && k.chunked && k.atBoundary && !s.mustEnd k) &&
    match k.ending with
    | some _ => s.completes k
    | none => (match k.relScope with | some scope => s.cmdReleased k scope | none => true)

/-- The work of a command, by its class. -/
def cmdBody (k : Cmd) : Eng Prog :=
  match k.cls with
  | 6 => copyBody k
  | 10 => kvBody k
  | 11 => hwdBody k
  | 12 => versionBody k
  | 13 => nearBody k
  | _ => fabBody k

/-- A command with its number. -/
def State.cmdOf (s : State) (id : Nat) : Option Cmd := s.cmds.find? (·.id == id)

/-- One step of a command. With the step in which an adoption ends well its context moves onto the version (R253). -/
def State.cmdAdvance (s : State) (k : Cmd) : State :=
  if !s.cmdGoes k then s
  else
    let t := s.cmdStep k cmdBody
    if s.adopts k && (t.cmdOf k.id).isNone then t.moveVersion k else t

/-- R233, R322, R434, R473: a command that a death stopped is gone: nothing is completed, and an adoption gives its reader
back. -/
def State.cmdStopped (s : State) (k : Cmd) : State :=
  let s := if k.holdsReader then s.dropReader k.ws k.target else s
  s.retire k

/-- R227. An engine brings a command on by one step; the last writes its completion word and returns its lines. -/
def execEngineCommandEnd (id : Nat) (s : State) : Host.Outcome State Fault Refusal :=
  .next <| match s.cmdOf id with
    | none => s
    | some k => if k.stopped ∧ k.abandoned then s.cmdStopped k else s.cmdAdvance k

/-- R326. A materialisation ends: its extent is ready and the contexts that adopted its version move onto it, or it failed
and their commands with it. -/
def execMaterialisationEnd (ext : Nat) (s : State) : Host.Outcome State Fault Refusal :=
  let ws := ext / 2
  let v := (s.extent ws (ext % 2)).version
  .next <| if (s.extent ws (ext % 2)).state ≠ 1 then s
    else
      let t := s.matEnd ws (ext % 2)
      (s.cmds.filter fun k => k.awaits ws v).foldl (fun t k =>
        match t.cmdOf k.id with
        | some k => t.cmdAdvance k
        | none => t) t

/-- R474: an adoption's time limit has passed, and its extent is not ready. -/
def State.adoptLate (s : State) (k : Cmd) : Bool :=
  k.cls == 12 && k.op == 1 && k.ending.isNone && k.deadline != 0 && decide (k.deadline ≤ s.now) &&
    (s.readyExt k.ws k.target).isNone && !k.stopped

/-- R474. An adoption's time limit passes: the command ends with TIMEOUT, undone. -/
def execAdoptTimeout (id : Nat) (s : State) : Host.Outcome State Fault Refusal :=
  .next <| match s.cmdOf id with
    | none => s
    | some k =>
      if s.adoptLate k then
        let t := s.failAdopt k 12
        match t.cmdOf id with
        | some k => t.cmdAdvance k
        | none => t
      else s

/-- R327. A queued materialisation begins. -/
def execNbmatQueuedStart (ws : Nat) (s : State) : Host.Outcome State Fault Refusal :=
  .next (if s.queuedReady ws then s.queuedMat ws else s)

/-- R314. The reclaim engine frees a line that no count holds. -/
def execReclaimLine (s : State) : Host.Outcome State Fault Refusal :=
  .next <| match s.hlines.find? (·.reclaiming) with
    | some l => s.reclaimOne l
    | none => s

/-- R467: a collective waits for data that has not come for FX_CTO. -/
def State.collLate (s : State) (k : Cmd) : Bool :=
  k.cls == 14 && k.op == 0 && k.ending.isNone && k.deadline != 0 && decide (k.deadline ≤ s.now) && k.index != 0xFFFF &&
    !k.stopped

/-- R467. A step of a collective receives nothing for FX_CTO. -/
def execCollStepTimeout (id : Nat) (s : State) : Host.Outcome State Fault Refusal :=
  .next <| match s.cmdOf id with
    | none => s
    | some k =>
      if s.collLate k then
        let s := s.record {
          kind := 22, source := s.cmdSource k, gid := ((s.group k.group).map (·.gid)).getD 0, vd := k.vd, lx := k.lx, ly := k.ly,
          addr := (collOf k.g).comm, aux := k.index }
        let k := { k with ending := some (12, 0xFFFF, false), freqs := [], data := [], step := 0 }
        (s.setCmd k).cmdAdvance k
      else s

end Sys2Proof.Machine
end

