-- ==== Sys2Proof/Machine/TransEvents.lean ====
section
/-!
DEFINITION. The events of translation: invalidation (R381), page replies (R383, R424-R430), held faults (R429), the page-request
ring, the dirty log and the eviction ring (R382, R385, R387), the eviction engine (R304, R387). An event that is a register
write is one of the endpoint that holds FE_SEMA (log entry 22).
-/

namespace Sys2Proof.Machine

/-! ### Held faults (R429) -/

/-- R429, R430: a held fault of a VD is posted, if a REQID and an entry are free. -/
def State.postHeld (s : State) (vd : Nat) : State :=
  match s.held.find? (·.key.vd == vd) with
  | none => s
  | some r =>
    if (s.freeReqId vd).isNone || s.ringFull ringPrq vd then s
    else ({ s with held := s.held.erase r }).postReq r

/-- R429. The fault that a VD holds longest posts its request. -/
def execHeldFaultPost (vd : Nat) (s : State) : Host.Outcome State Fault Refusal := .next (s.postHeld vd)

/-! ### Invalidation (R381, R369, R141, R222, R476) -/

/-- What an invalidation covers: guest pages, intermediate pages, or all of a VD. -/
inductive Covers where
  | whole
  | va (first n : Nat)
  | ipa (first n : Nat)

/-- Two page ranges overlap. -/
def pagesMeet (a n b m : Nat) : Bool := a < b + m && b < a + n

/-- A held translation is dropped. The translations of table addresses go with every invalidation of their VD. -/
def Covers.drops (k : Covers) (e : TlbEntry) : Bool :=
  let pages := 2 ^ (e.size - 16)
  match k with
  | .whole => true
  | .va first n => e.level == 3 || pagesMeet (e.va / 2 ^ 16) pages first n
  | .ipa first n => e.level == 3 || pagesMeet (e.xl.ipa / 2 ^ 16) pages first n

/-- A handle's window is covered: KIND 0 and KIND 2 cover every window. -/
def Covers.window (k : Covers) (vd : Nat) (h : Handle) : Bool :=
  h.vd == vd && match k with
    | .va first n => pagesMeet (h.base / 2 ^ 16) (2 ^ (h.l2s - 16)) first n
    | _ => true

/-- R369: the range that the front end records. -/
def Covers.range : Covers → Nat × Nat
  | .va first n => (first, n)
  | _ => (0, 2 ^ 39)

/-- R380, R381: the TLB and walk-cache entries that an invalidation covers are dropped. -/
def State.shoot (s : State) (vd : Nat) (k : Covers) : State := { s with tlb := s.tlb.filter fun e => !(e.vd == vd && k.drops e) }

/-- R141: a handle is invalid where a test says so. -/
def Handle.cleared (p : Handle → Bool) (h : Handle) : Handle := if p h then { h with valid := false } else h

/-- R141, R476: the handles of a context that a test picks become invalid, those in flight land invalid, and captured windows
lose their validity. -/
def Ctx.clearWindows (x : Ctx) (p : Handle → Bool) : Ctx :=
  { x with
    h := x.h.map fun (n, h) => (n, h.cleared p)
    q := x.q.map fun (n, q) => (n, { q with win := q.win.cleared p })
    flights := x.flights.map fun f => { f with lands := f.lands.map fun l => match l with | .handle n h => .handle n (h.cleared p) | l => l } }

/-- R211, R222: the monitors and flag bindings of the pages that change are lost. -/
def State.loseWatches (s : State) (vd : Nat) (k : Covers) : State :=
  let hit (va : Nat) : Bool :=
    match k with
    | .va first n => pagesMeet (va / 2 ^ 16) 1 first n
    | .ipa first n =>
      match (s.translate none vd va true false).2 with
      | .ok x => pagesMeet (x.ipa / 2 ^ 16) 1 first n
      | .error _ => true
    | .whole => true
  { s with
    monitors := s.monitors.map fun m =>
      if !m.scratch && m.vd == vd && m.fired.isNone && hit m.va then { m with fired := some 2 } else m
    flags := s.flags.map fun f => if f.vd == vd && hit f.va then { f with lost := true } else f }

/-- R141, R211, R222, R369, R381: handles are cleared, the monitors and flag bindings that came through their windows are lost, the sequence number of the VD advances, and the range is kept among the last 64. -/
def State.clearHandles (s : State) (vd : Nat) (k : Covers) : State :=
  let seq := SMap.get 0 s.invSeq vd + 1
  let mine := s.invRanges.filter fun (v, _, _, _) => v == vd
  let keep := (mine.drop (mine.length - 63)) ++ [(vd, seq, k.range.1, k.range.2)]
  { s with
    ctxs := s.ctxs.map fun (c, x) => (c, x.clearWindows (k.window vd))
    monitors := s.monitors.map fun m => if m.fired.isNone && (m.win.map (k.window vd)).getD false then { m with fired := some 2 } else m
    flags := s.flags.map fun f => if (f.win.map (k.window vd)).getD false then { f with lost := true } else f
    invSeq := SMap.set 0 s.invSeq vd seq
    invRanges := (s.invRanges.filter fun (v, _, _, _) => v != vd) ++ keep }

/-- R381: a write of MM_INVAL starts an invalidation, unless one is under way. -/
def State.invalidate (s : State) (val : Nat) : State :=
  let kind := fld val 60 2
  if s.dfld Dev.mmInval 0 63 1 = 1 then s
  else if !fldB val 63 || kind = 3 then s.storeReg Dev.mmInval 0 (val % 2 ^ 63)
  else
    let vd := fld val 52 6
    let first := fld val 16 36
    let n := fld val 0 16 + 1
    let va := s.dfld Dev.mmInvalx 0 0 3 * 2 ^ 36 + first
    let k : Covers := if kind = 0 then .whole else if kind = 1 then .va va (Nat.min n (2 ^ 39 - va)) else .ipa first n
    let s := (s.storeReg Dev.mmInval 0 val).loseWatches vd k
    let s := s.shoot vd k
    let s := if fldB val 62 then s.clearHandles vd k else s
    { s with serial := s.serial + 1, invals := s.invals ++ [⟨vd, s.serial⟩] }

/-- R381: an access with a smaller number that has its translation is not yet performed. -/
def State.invalOpen (s : State) (v : Inval) : Bool :=
  (s.posted.any fun p => p.vd == v.vd && p.xl.isSome && p.id < v.upto) ||
    (s.ctxs.any fun (_, x) => x.flights.any fun f => decide (f.id < v.upto) &&
      match f.load with
      | some l => l.vd == v.vd && l.pieces.any fun p => p.xl.isSome && p.val.isNone
      | none => false) ||
    s.fabReqs.any fun r => r.id < v.upto && r.reply.isNone && r.err == 0

/-- R381. MM_INVAL, KIND 0: every translation of a VD is dropped. -/
def execInvalWholeVd (val : Nat) (s : State) : Host.Outcome State Fault Refusal :=
  .next (s.configWrite fun s => s.invalidate val)

/-- R381. MM_INVAL, KIND 1: a range of guest pages. -/
def execInvalStage1Pages (val : Nat) (s : State) : Host.Outcome State Fault Refusal :=
  .next (s.configWrite fun s => s.invalidate val)

/-- R381. MM_INVAL, KIND 2: a range of intermediate pages. -/
def execInvalStage2Pages (val : Nat) (s : State) : Host.Outcome State Fault Refusal :=
  .next (s.configWrite fun s => s.invalidate val)

/-- R381. The invalidation is complete, and GO reads 0. -/
def execInvalidationComplete (s : State) : Host.Outcome State Fault Refusal :=
  .next <| match s.invals with
    | [] => s
    | v :: rest => if s.invalOpen v then s else ({ s with invals := rest }).dsetFld Dev.mmInval 0 63 1 0

/-! ### Replies to page requests (R383, R424-R431) -/

/-- An access of a context waits for a page. -/
def State.stillWaits (s : State) (c : Nat) : Bool :=
  let x := s.ctx c
  !x.waits.isEmpty || (s.posted.any fun p => p.ctx == c && p.wait.isSome) ||
    x.flights.any fun f => match f.load with | some l => l.pieces.any fun p => p.wait.isSome | none => false

/-- R425: a context whose last open request is closed runs again, from the next cycle on; one that slept before sleeps on. -/
def State.unfault (s : State) (c : Nat) : State :=
  let x := s.ctx c
  if !x.faulted || s.stillWaits c then s
  else
    let x := { x with faulted := false }
    let asleep := (x.sleep.map fun sl => !sl.held).getD false
    s.setCtx c (if x.st = .sleeping ∨ (x.st = .draining ∧ x.drainTo = .sleep) then
        { x with st := if asleep then .sleeping else .running, drainTo := .none, notBefore := Nat.max x.notBefore (s.now + 1) }
      else x)

/-- A flight's pieces that wait for a page. -/
def Flight.waiting (f : Flight) (k : FKey) : List (Load × Nat × Piece) :=
  match f.load with
  | none => []
  | some l => (l.pieces.zipIdx.filter fun (p, _) => p.wait == some k).map fun (p, i) => (l, i, p)

/-- A context no longer waits for a page with its log, its pops, its watched words and its segments. -/
def Ctx.dropWait (x : Ctx) (k : FKey) : Ctx :=
  let clear (h : Option Half) : Option Half := h.map fun y => if y.wait = some k then { y with wait := none } else y
  { x with waits := x.waits.filter fun w => w.1 != k, exec := clear x.exec, idle := clear x.idle }

/-- R383, R427: the accesses of a context that joined a request walk again. -/
def State.retryCtx (s : State) (k : FKey) (c : Nat) : State :=
  let s := s.modCtx c fun x => x.dropWait k
  let s := (s.ctx c).flights.foldl (fun s f => (f.waiting k).foldl (fun s (l, i, p) =>
    if s.alive c then s.translatePiece c f.id l i p else s) s) s
  let s := (s.posted.filter fun p => p.ctx == c && p.wait == some k).foldl (fun s p => if s.alive c then s.translatePosted p else s) s
  s.unfault c

/-- R419, R424, R431: the accesses of a context that joined a request fail: the context is dead, but for a segment fetch, which
traps. -/
def State.failCtx (s : State) (k : FKey) (c : Nat) : State :=
  let x := s.ctx c
  let piece := x.flights.findSome? fun f => (f.waiting k).head?.map fun (l, _, p) => (p.va, l.amo.isSome)
  let write := (s.posted.find? fun p => p.ctx == c && p.wait == some k).map fun p => (p.va, true)
  let segment (h : Option Half) : Option Nat := h.bind fun y => if y.wait = some k then some y.seg else none
  let read := (x.waits.find? fun w => w.1 == k).map fun w => (w.2, false)
  match piece.orElse fun _ => write with
  | some (va, w) => s.accessDead c 3 va k.stage w
  | none =>
    match segment x.exec, segment x.idle, read with
    | some seg, _, _ => ((s.modCtx c fun x => x.dropWait k).unfault c).halfDone c true (Half.failed seg ⟨3, 5, x.pc.target⟩)
    | none, some seg, _ =>
      let target := (x.jump.map fun (t, _, _, _) => t.target).getD (seg * 2 ^ 16)
      ((s.modCtx c fun x => x.dropWait k).unfault c).halfDone c false (Half.failed seg ⟨3, 5, target⟩)
    | none, none, some (va, _) => s.accessDead c 3 va k.stage false
    | none, none, none => s

/-- R424: engine commands, the front end's own accesses and held packets that joined a request go on: they walk again, or find
it refused. -/
def State.answerOthers (s : State) (k : FKey) (fails : Bool) : State :=
  let ready := s.conns.flatMap fun (_, c) => if c.held = some k then c.behind else []
  { s with
    cmds := s.cmds.map fun (x : Cmd) => if x.wait = some k then { x with wait := none, denied := if fails then some k else none } else x
    devWaits := if fails then s.devWaits.map fun (w : DevWait) => if w.key = k then { w with denied := true } else w
      else s.devWaits.filter fun w => w.key != k
    conns := s.conns.map fun (n, c) => (n, if c.held = some k then { c with held := if fails then c.held else none, behind := [] } else c)
    due := s.due ++ ready }

/-- R383, R430: a reply to a page request of a VD. -/
def State.reply (s : State) (vd id status : Nat) : State :=
  match (s.openReqs vd).find? (·.id == id) with
  | none => s.dcount Dev.mmPrstat vd 48 16
  | some r =>
    if 2 ≤ status then s.dcount Dev.mmPrstat vd 48 16
    else
      let s := ({ s with reqs := s.reqs.erase r }).answerOthers r.key (status == 1)
      s.ctxs.foldl (fun s (c, _) => if status = 0 then s.retryCtx r.key c else s.failCtx r.key c) s

/-- A write of MM_PRREPLY. -/
def State.pageReply (s : State) (val : Nat) : State :=
  let vd := s.selected .mmVd
  (s.storeReg Dev.mmPrreply vd val).reply vd (fld val 32 16) (fld val 0 8)

/-- R383. A write of MM_PRREPLY closes a page request. -/
def execPageReply (val : Nat) (s : State) : Host.Outcome State Fault Refusal := .next (s.configWrite fun s => s.pageReply val)

/-! ### Rings (R382, R385, R387, R430) -/

/-- R382, R430: a write of MM_PRQ; one that puts the ring in service posts every open request again, in REQID order. -/
def State.prqWrite (s : State) (val : Nat) : State :=
  let vd := s.selected .mmVd
  let t := s.ringSetup ringPrq vd 6 16 val
  if fldB val 63 && 6 ≤ fld val 0 5 && fld val 0 5 ≤ 16 then
    (List.range 256).foldl (fun t i =>
      match (t.openReqs vd).find? (·.id == i) with
      | some r => t.ringPut ringPrq vd (r.bytes t.time.toNat)
      | none => t) t
  else t

/-- R354, R385: a write of MM_DLOG; EN does not set while feature bit 6 is clear. -/
def State.dlogWrite (s : State) (val : Nat) : State :=
  if fldB val 63 && s.dfld Dev.feFeatEn0 0 6 1 = 0 then s else s.ringSetup ringDlog (s.selected .mmVd) 6 20 val

/-- R387: the request ring of the eviction engine. -/
def ringEvq : RingRegs := ⟨Dev.mmEvq, Dev.mmEvqhead, Dev.mmEvqtail, 32⟩

/-- R382. MM_PRQ is written. -/
def execMmPrqWrite (val : Nat) (s : State) : Host.Outcome State Fault Refusal := .next (s.configWrite fun s => s.prqWrite val)

/-- R385. MM_DLOG is written. -/
def execMmDlogWrite (val : Nat) (s : State) : Host.Outcome State Fault Refusal := .next (s.configWrite fun s => s.dlogWrite val)

/-- R387. MM_EVQ is written. -/
def execMmEvqWrite (val : Nat) (s : State) : Host.Outcome State Fault Refusal :=
  .next (s.configWrite fun s => s.ringSetup ringEvq 0 6 16 val)

/-- R387. MM_EVQTAIL is written: requests are submitted. -/
def execMmEvqtailWrite (val : Nat) (s : State) : Host.Outcome State Fault Refusal :=
  .next (s.configWrite fun s => s.storeReg Dev.mmEvqtail 0 val)

/-! ### The eviction engine (R304, R387) -/

/-- The pool page that an intermediate page of a VD is: the pool and the page's index. -/
def State.poolPage (s : State) (vd ipa : Nat) : Option (Pool × Nat) :=
  (List.range 8).findSome? fun slot =>
    (s.poolSlot vd slot).bind fun p =>
      ((List.range p.npages).find? fun i =>
        match (s.translate none vd (p.pbase + i * 2 ^ 16) true false).2 with
        | .ok x => x.fab.isNone && x.ipa == ipa
        | .error _ => false).map fun i => (p, i)

/-- A physical range is touched by an access that began under the old translation and is not performed; a stream's
fetch-ahead, which is cancelled, does not count. -/
def State.pageBusy (s : State) (pa : Nat) : Bool :=
  (s.posted.any fun p => p.touches pa (2 ^ 16)) ||
    s.ctxs.any fun (_, x) => x.flights.any fun f => !f.isFetch &&
      match f.load with | some l => l.pieces.any fun p => p.val.isNone && p.touches p.va pa (2 ^ 16) && p.xl.isSome | none => false

/-- R304: the fetch-ahead of a context from a page that has not come back is cancelled, with what follows it. -/
def Ctx.cancelFetch (x : Ctx) (pa : Nat) : Ctx :=
  let hit (f : Flight) : Option (Nat × Nat) := f.load.bind fun l =>
    match l.dst with
    | .stream q _ e => if l.pieces.any fun p => p.val.isNone && p.touches p.va pa (2 ^ 16) && p.xl.isSome then some (q, e) else none
    | _ => none
  (x.flights.filterMap hit).foldl (fun x (q, e) =>
    let st := x.qget q
    if st.next ≤ e then x
    else
      { (x.qset q { st with next := e, fetched := st.fetched.filter (·.entry < e) }) with
        flights := x.flights.filter fun f => match f.load with
          | some l => (match l.dst with | .stream r _ k => !(r == q && e ≤ k) | _ => true)
          | none => true }) x

/-- The bytes of a page are moved to another place, and the poison of its lines with them. -/
def State.movePage (s : State) (old new : Nat) : State :=
  let bytes := s.mem.filter fun (a, _) => old ≤ a && a < old + 2 ^ 16
  let mem := s.mem.filter fun (a, _) => !(new ≤ a && a < new + 2 ^ 16)
  let marks := s.memPoison.filter fun (l, _) => old ≤ 128 * l && 128 * l < old + 2 ^ 16
  let rest := s.memPoison.filter fun (l, _) => !(new ≤ 128 * l && 128 * l < new + 2 ^ 16)
  { s with
    mem := bytes.foldl (fun m (a, b) => SMap.set 0 m (a - old + new) b) mem
    memPoison := marks.map (fun (l, o) => (l - old / 128 + new / 128, o)) ++ rest }

/-- R304, step 5, and R387: the page is copied, its leaf rewritten with every attribute kept, its Q bit and MIGRATING cleared; a page
whose counts have come to zero goes back to its pool now. -/
def State.commitMigration (s : State) (m : Migration) : State :=
  let s := (s.answerOthers s.migrKey false).throughMigration
  let s := (List.range 96).foldl (fun s t => s.dropCopies t m.old (2 ^ 16)) s
  let s := s.movePage m.old m.new
  let d := s.physNat m.leaf 8
  let s := s.home m.leaf (toLE 8 (d - fld d 16 36 * 2 ^ 16 + m.new))
  let page := m.ipa / 2 ^ 16
  let lo := s.dfld Dev.mmAcrange m.vd 0 36
  let s := if lo ≤ page && page < lo + s.dfld Dev.mmAcrange m.vd 40 24 then
      let a := s.dfld Dev.mmAccfg m.vd 16 36 * 2 ^ 16 + 4 * (page - lo)
      s.physWrite a (toLE 4 (s.physNat a 4 % 2 ^ 31))
    else s
  match m.count, s.poolPage m.vd m.ipa with
  | some va, some (p, i) =>
    match s.peek m.vd 2 va 16 with
    | some bs =>
      let c := { Count.ofBytes bs with migrating := false }
      if c.ref = 0 ∧ c.pin = 0 ∧ !c.free then s.poolReturn m.vd p i c else s.poke m.vd va c.bytes
    | none => s
  | _, _ => s

/-- R304, steps 1, 2 and 4: the page is Migrating; translations and watches are lost, and fetch-ahead is cancelled. -/
def State.startMigration (s : State) (m : Migration) (c : Option Count) : State :=
  let s := match m.count, c with
    | some va, some c => s.poke m.vd va { c with migrating := true }.bytes
    | _, _ => s
  let s := s.loseWatches m.vd (.ipa (m.ipa / 2 ^ 16) 1)
  let s := s.shoot m.vd (.ipa (m.ipa / 2 ^ 16) 1)
  { s with ctxs := s.ctxs.map fun (c, x) => (c, x.cancelFetch m.old), migr := some m }

/-- R387: a request ends: STATUS, HEAD, and a notification of KIND 3, whose VALUE the spec does not state (log entry 23). -/
def State.evictEnds (s : State) (vd entry status : Nat) : State :=
  let s := s.physWrite (entry + 0x11) (toLE 1 status)
  let (n, s) := s.draw
  let head := s.dfld Dev.mmEvqhead 0 0 32
  (s.dset Dev.mmEvqhead 0 (BitVec.ofNat 64 ((head + 1) % 2 ^ 32))).notify vd 3 0x0263 0 (Config.freeWord n) 0 0

/-- R304, R387: the eviction engine begins with the next request of its ring. A page that is not mapped by a 64 KiB leaf of this chip, or
a place outside HBM, counts as a fault (log entry 24). -/
def State.evictStart (s : State) : State :=
  let head := s.dfld Dev.mmEvqhead 0 0 32
  if s.dfld Dev.mmEvq 0 63 1 = 0 || head = s.dfld Dev.mmEvqtail 0 0 32 then s
  else
    let e := s.dfld Dev.mmEvq 0 12 40 * 4096 + 32 * (head % 2 ^ s.dfld Dev.mmEvq 0 0 5)
    let s := s.needPhys e 32
    let ipa := s.physNat e 8 % 2 ^ 52 / 2 ^ 16 * 2 ^ 16
    let new := s.physNat (e + 8) 8
    let vd := s.physNat (e + 0x10) 1 % 64
    match s.stage2 vd ipa with
    | .error _ => s.evictEnds vd e 3
    | .ok l =>
      if l.size ≠ 16 || l.fab || hbmSize < l.oa + 2 ^ 16 || hbmSize < new + 2 ^ 16 || new % 2 ^ 16 ≠ 0 || s.inHeartwood l.oa || s.inHeartwood new
      then s.evictEnds vd e 3
      else
        let va := (s.poolPage vd ipa).map fun (p, i) => p.cbase + 16 * i
        let c := va.bind fun va => (s.peek vd 2 va 16).map Count.ofBytes
        if 0 < (c.map (·.pin)).getD 0 then s.evictEnds vd e 2
        else s.startMigration ⟨vd, ipa, l.oa, new, l.slot, e, va⟩ c

/-- R304, R387. The eviction engine takes its next step: it begins with a request, or commits a migration once every access of the page
that began before is performed. -/
def State.evictNext (s : State) : State :=
  match s.migr with
  | none => s.evictStart
  | some m => if s.pageBusy m.old then s else (s.commitMigration m).evictEnds m.vd m.entry 1

/-- R387. The eviction engine migrates one requested page and writes its status. -/
def execEvictionRequestService (s : State) : Host.Outcome State Fault Refusal := .next s.evictNext

end Sys2Proof.Machine
end

