-- ==== Sys2Proof/Machine/DevAccess.lean ====
section
/-!
DEFINITION. The device's own accesses to guest memory (R424): queue entries, signals, task-graph nodes, ring headers; completion
signals (R346, R471); what a task that ends leaves in a Flume ring (R332).
-/

namespace Sys2Proof.Machine

/-! ### Accesses (R424) -/

/-- A translation for a part of the device: done, waiting for a page, or failed. -/
inductive DevXl where
  | ok (x : Xlat)
  | waits
  | fails

/-- R424: the part waits for a page already. -/
def State.devWaiting (s : State) (u : DevUser) : Bool := s.devWaits.any fun w => w.user == u && !w.denied

/-- R424: a guest address is translated for a part of the device; `source` goes into the page request. -/
def State.devXlat (s : State) (u : DevUser) (source vd va : Nat) (w : Bool) : State × DevXl :=
  match s.translate none vd (va % 2 ^ 55) (!w) w with
  | (s, .ok x) => (s, .ok x)
  | (s, .error (.fail _ _)) => (s, .fails)
  | (s, .error .later) => (s, .waits)
  | (t, .error (.request k)) =>
    if s.devWaits.contains (⟨u, k, true⟩ : DevWait) then ({ s with devWaits := s.devWaits.erase (⟨u, k, true⟩ : DevWait) }, .fails)
    else if s.devWaits.contains (⟨u, k, false⟩ : DevWait) then (s, .waits)
    else ({ t with devWaits := t.devWaits ++ [(⟨u, k, false⟩ : DevWait)] }.request k w false source, .waits)

/-- What a read of the device brings. -/
inductive DevRead where
  | bytes (bs : List Byte)
  | peer (w o : Nat)
  | poisoned
  | waits
  | fails

/-- A read of a range that lies in one page. -/
def State.devPart (s : State) (u : DevUser) (source vd va n : Nat) : State × DevRead :=
  match s.devXlat u source vd va false with
  | (s, .waits) => (s, .waits)
  | (s, .fails) => (s, .fails)
  | (s, .ok x) =>
    match x.fab with
    | some (w, o) => (s, .peer w o)
    | none =>
      if hbmSize < x.pa + n then (s, .fails)
      else if (s.rangePoison x.pa n).isSome then (s, .poisoned)
      else (s, .bytes (s.phys x.pa n))

/-- A read of a range on this chip; one at a peer fails. -/
def State.devRead (s : State) (u : DevUser) (source vd va n : Nat) : State × DevRead :=
  (splitPages (n / 2 ^ 16 + 2) va n 0).foldl (fun (s, r) (a, m, _) =>
    match r with
    | .bytes bs =>
      match s.devPart u source vd a m with
      | (s, .bytes b) => (s, .bytes (bs ++ b))
      | (s, .peer _ _) => (s, .fails)
      | (s, r) => (s, r)
    | r => (s, r)) (s, .bytes [])

/-! ### Completion signals (R346, R347, R471) -/

/-- R346: the 32 bytes of a signal. -/
def signalBytes (value : W64) (start fin : W64) (code : Nat) : List Byte :=
  toLE 8 value.toNat ++ toLE 8 start.toNat ++ toLE 8 fin.toNat ++ toLE 4 code ++ zeros 4

/-- R471: a signal that is not written leaves a record of KIND 21. -/
def State.unsignalled (s : State) (source vd gid addr code : Nat) : State :=
  s.record { kind := 21, source := source, gid := gid, vd := vd, addr := addr, aux := code }

/-- R346, R357, R471: a completion signal is written, as one step and a release at system scope. `false`: its page is waited for. A
command without a signal leaves its error in the device log. -/
def State.writeSignal (s : State) (u : DevUser) (source vd gid addr : Nat) (value start : W64) (code : Nat) : State × Bool :=
  if addr = 0 then (if code = 0 then s else s.unsignalled source vd gid 0 code, true)
  else if addr % 32 ≠ 0 then (s.unsignalled source vd gid addr code, true)
  else
    match s.devXlat u source vd addr true with
    | (s, .waits) => (s, false)
    | (s, .fails) => (s.unsignalled source vd gid addr code, true)
    | (s, .ok x) =>
      let (s, fin) := s.stamp source
      let bs := signalBytes value start fin code
      match x.fab with
      | none => (s.perform x.pa bs, true)
      | some (w, o) =>
        match s.fabSend (.signal source vd gid addr code) 0 w o (.write bs) with
        | (s, some _) => (s, true)
        | (s, none) => (s.unsignalled source vd gid addr code, true)

/-! ### Flume rings at the end of a task (R332) -/

/-- R332: a record of KIND 24 for a ring write that is dropped. -/
def State.ringDropped (s : State) (vd ring : Nat) : State :=
  s.record { kind := 24, source := 0x280 + (s.ringSlice vd ring).getD 0, vd := vd, addr := 12 * 2 ^ 56, aux := 15 }

/-- R332: where a write of a ring goes. -/
def RingPut.va (w : RingPut) : Nat :=
  match w.part with
  | .void va => va
  | .commit => w.ring + 0x10
  | .free => w.ring + 0x20

/-- R332: what is written there: the FLAGS with bit 31 set, or the lowest start that stands, which is RESV or CLAIM where none does. -/
def State.ringValue (s : State) (w : RingPut) (pa : Nat) : List Byte :=
  match w.part with
  | .void _ => let v := s.physNat pa 4; toLE 4 (if fldB v 31 then v else v + 2 ^ 31)
  | .commit => toLE 8 (s.lowestHold w.vd w.ring false (s.physNat (pa - 8) 8))
  | .free => toLE 8 (s.lowestHold w.vd w.ring true (s.physNat (pa - 8) 8))

/-- R332: a write of the device into a ring is made, or dropped with a record, or waits for its page. A page that is refused drops every
write of the task to it, and so does one of a peer (log entry 28). -/
def State.ringPoke (s : State) (w : RingPut) : State :=
  let made (s : State) : State := { s with ringPuts := s.ringPuts.erase w }
  let dropped (s : State) : State :=
    let gone := s.ringPuts.filter fun v => v.task == w.task && v.vd == w.vd && v.va / 2 ^ 16 == w.va / 2 ^ 16
    gone.foldl (fun (s : State) v => { s.ringDropped v.vd v.ring with ringPuts := s.ringPuts.erase v }) s
  match s.devXlat (.task w.task) (0x280 + (s.ringSlice w.vd w.ring).getD 0) w.vd w.va true with
  | (s, .waits) => s
  | (s, .fails) => dropped s
  | (s, .ok x) => if x.fab.isSome || decide (hbmSize < x.pa + 8) then dropped s else made (s.perform x.pa (s.ringValue w x.pa))

/-- R332: the writes that the end of a task owes are made in their order, up to one that waits. -/
def State.ringPokes (s : State) (task : Nat) : Nat → State
  | 0 => s
  | fuel + 1 =>
    match s.ringPuts.find? (·.task == task) with
    | none => s
    | some w =>
      let t := s.ringPoke w
      if t.ringPuts.contains w then t else t.ringPokes task fuel

/-- R332: the writes of every task that is gone are tried again. -/
def State.retryRings (s : State) : State :=
  (s.ringPuts.map (·.task)).eraseDups.foldl (fun s n => s.ringPokes n (s.ringPuts.length + 1)) s

/-- R332: the writes that the end of a reservation or a claim owes. -/
def RingHold.puts (h : RingHold) (task : Nat) (void : Bool) : List RingPut :=
  (if void && !h.claim then (List.range h.count).map fun i => ⟨task, h.vd, h.ring, .void (h.ring + 128 + 32 * ((h.start + i) % h.cap) + 24)⟩
    else []) ++ [⟨task, h.vd, h.ring, if h.claim then .free else .commit⟩]

/-- R332: every reservation and claim of a task ends in one step, committed (`void`: its records are to be marked) or returned; `false`:
a write of it waits for a page. -/
def State.endHolds (s : State) (task : Nat) (void : Bool) : State × Bool :=
  let mine := s.ringHolds.filter fun h => h.owner == some task
  let t := { s with
    ringHolds := s.ringHolds.filter fun h => h.owner != some task
    ringPuts := s.ringPuts ++ mine.flatMap fun (h : RingHold) => h.puts task void }
  let t := t.ringPokes task (t.ringPuts.length + 1)
  (t, !t.ringPuts.any (·.task == task))

end Sys2Proof.Machine
end

