-- ==== Sys2Proof/Machine/Save.lean ====
section
/-!
DEFINITION. Saved images (R365-R373, R423): their bytes, saving a context, checking an image, restoring it, discarding it.
-/

namespace Sys2Proof.Machine

/-! ### The bytes of an image (R367-R370) -/

/-- A block of physical memory is written whole. -/
def memBlock (m : Memory) (a : Nat) (bs : List Byte) : Memory :=
  (m.filter fun (k, _) => k < a) ++ ((bs.mapIdx fun i b => (a + i, b)).filter fun (_, b) => b != 0) ++
    m.filter fun (k, _) => a + bs.length ≤ k

/-- A byte list filled up with zeros, or cut, to a length. -/
def fit (n : Nat) (bs : List Byte) : List Byte := slice bs 0 n

/-- R368: s0-s63, s0 as zero. -/
def scalarBytes (s : SMap W64) : List Byte :=
  (List.range 64).flatMap fun i => toLE 8 (if i = 0 then 0 else (SMap.get 0 s i).toNat)

/-- R368: g0-g31. -/
def stagingBytes (g : SMap W64) : List Byte := (List.range 32).flatMap fun i => toLE 8 (SMap.get 0 g i).toNat

/-- The rights of a window as a byte. -/
def Handle.rights (h : Handle) : Nat := h.r.toNat + 2 * h.w.toNat + 4 * h.a.toNat

/-- R369: the saved form of a handle. -/
def Handle.bytes (h : Handle) : List Byte :=
  toLE 8 h.base ++ toLE 1 h.l2s ++ toLE 1 h.rights ++ toLE 1 h.valid.toNat ++ toLE 1 h.vd ++ zeros 20

/-- R368: h0-h15. -/
def handleBytes (h : SMap Handle) : List Byte := (List.range 16).flatMap fun i => (SMap.get Handle.invalid h i).bytes

/-- R368: the control registers of slots 0-17. -/
def controlSlots : List Nat :=
  [csrTvec, csrTcause, csrTinfo, csrTloc, csrTimeout, csrRnd, csrVstat, csrRngMode, csrLogBase, csrLogLen] ++
    (List.range 8).map (csrCpat + ·)

/-- R368: control slots 0-17. -/
def controlBytes (c : SMap W64) : List Byte := controlSlots.flatMap fun n => toLE 8 (SMap.get 0 c n).toNat

/-- R368: the PHASE section. -/
def Phase.bytes (p : Phase) : List Byte :=
  fit 1536 (fit 0x5C0 (scalarBytes p.s ++ stagingBytes p.g ++ handleBytes p.h ++ controlBytes p.csr) ++
    toLE 2 p.pc.seg ++ toLE 2 p.pc.bun ++ toLE 4 p.count ++ toLE 4 p.crc.toNat ++ toLE 1 (0x80 + p.p.toNat) ++
    toLE 1 (SMap.get 0 p.csr csrEpi).toNat ++ toLE 1 (SMap.get 0 p.csr csrMergePrio).toNat ++ zeros 1 ++
    toLE 8 (SMap.get 0 p.csr csrLogPos).toNat)

/-- R368, R476: one stream. -/
def Stream.bytes (q : Stream) : List Byte :=
  if !q.bound then zeros 64
  else
    q.desc.flatMap (fun w => toLE 8 w.toNat) ++ toLE 8 q.pos ++ toLE 1 (1 + 2 * q.ovr.toNat + 4 * q.win.valid.toNat) ++
      toLE 5 (q.win.base / 2 ^ 16) ++ toLE 1 q.win.l2s ++ toLE 1 q.win.rights

/-- R370: a resume cursor. -/
def Cursor.bytes (k : Cursor) : List Byte :=
  let (a, v) := k.comp.getD (0, 0)
  let coll := k.cls = 14 ∧ k.op = 0
  toLE 1 k.cls ++ toLE 1 k.op ++ toLE 1 k.scope ++ toLE 1 k.comp.isSome.toNat ++ zeros 4 ++ toLE 8 a.toNat ++ toLE 8 v.toNat ++
    fit 40 (k.g.flatMap fun w => toLE 8 w.toNat) ++ toLE 8 k.offset ++ toLE 4 k.index ++ zeros 4 ++
    fit 48 (if coll then toLE 4 k.step ++ toLE 1 k.nonFinite.toNat else [])

/-- R370: the cursor of a command that has stopped at a chunk boundary. -/
def Cmd.cursor (k : Cmd) : Cursor := ⟨k.cls, k.op, k.scope, k.comp, k.g, k.done, k.index, k.step, k.flag⟩

/-- R368: a vector register. -/
def VReg.bytes (v : VReg) : List Byte := bytesOfBits 256 v.data ++ bytesOfBits 32 v.side ++ toLE 1 v.tag.code ++ zeros 15

/-- R368: a tile register. -/
def TReg.bytes (t : TReg) : List Byte :=
  ((List.range 64).flatMap fun i => bytesOfBits 256 (t.row i).data) ++
    ((List.range 64).flatMap fun i => bytesOfBits 32 (t.row i).side) ++ toLE 1 t.tag.code ++ zeros 15

/-- The bytes of a bitmap of `n` bits. -/
def bitmap (n : Nat) (f : Nat → Bool) : List Byte :=
  (List.range (n / 8)).map fun i => BitVec.ofNat 8 (bitsNat ((List.range 8).map fun j => f (8 * i + j)))

/-- R368: the scratchpad lines that a bank has pinned, in ascending order. -/
def State.pinnedLines (s : State) (c : Nat) : List Nat :=
  (s.scratch.filter fun (k, l) => k / 2 ^ 15 == tileOf c && l.pin == some (bankOf c)).map fun (k, _) => k % 2 ^ 15

/-- R368: the SCRATCH section. -/
def State.scratchBytes (s : State) (c : Nat) : List Byte :=
  let line (j : Nat) := s.sline (tileOf c) (128 * j)
  bitmap (2 ^ 15) (fun j => (line j).pin == some (bankOf c)) ++
    bitmap (2 ^ 15) (fun j => (line j).pin == some (bankOf c) && (line j).eng.isSome) ++
    (s.pinnedLines c).flatMap fun j => bytesOfBits 128 (line j).data

/-! ### The faulted access of a context (R365, R368) -/

/-- The element of a load to which a piece belongs: its lane for a gather, else its place among the pieces. -/
def Load.element (l : Load) (i : Nat) (p : Piece) : Nat := if l.gather then p.dst / 4 else i

/-- R368: bit n of the completion mask: element n is complete, or no element of the access. -/
def Load.mask (l : Load) : Nat :=
  let left := (l.pieces.zipIdx.filter fun (p, _) => p.val.isNone).map fun (p, i) => l.element i p
  bitsNat ((List.range 64).map fun n => !left.contains n)

/-- R368: the FAULT section; of an access that is no gather, the offset and an atomic's operands stand first in the offsets. -/
def faultBytes (h : SMap Handle) (f : Option Flight) : List Byte :=
  match f with
  | none => zeros 384
  | some f =>
    match f.load with
    | none => zeros 384
    | some l =>
      let hd := SMap.get Handle.invalid h (fld f.word 6 4)
      let off := ((l.pieces.head?.map (·.va)).getD 0 + 2 ^ 55 - hd.base) % 2 ^ 55
      let vec := if l.gather then bytesOfBits 256 l.offsets
        else toLE 8 off ++ (l.amo.map fun a => toLE 8 a.operand.toNat ++ toLE 8 a.compare.toNat).getD []
      fit 384 (toLE 1 1 ++ toLE 1 f.slot ++ zeros 2 ++ toLE 4 f.word ++ toLE 4 f.ext ++ zeros 4 ++ toLE 8 l.mask ++ zeros 40 ++ fit 256 vec)

/-- The completed elements of a faulted access, in the register that it is to write: the image holds them there. -/
def Ctx.partDone (x : Ctx) (f : Option Flight) : Ctx :=
  match f.bind (·.load) with
  | none => x
  | some l =>
    match l.dst with
    | .scalar d => x.sset d (bitsOfBytes 64 (l.bytes 8))
    | .vector d fmt => x.vset d ⟨bitsOfBytes 2048 (l.bytes 256), 0, fmt⟩
    | .stream .. | .gone => x

/-! ### Saving (R365, R367, R450, R454) -/

/-- The results of a context on which its drain waits: all but the fetches of its streams. -/
def Ctx.open (x : Ctx) : List Flight := x.flights.filter fun f => !f.isFetch

/-- R365 step 3: the access that waits on a page reply, with nothing else open. -/
def Ctx.faulting (x : Ctx) : Option Flight :=
  match x.open with
  | [f] =>
    match f.load with
    | some l => if l.pieces.all (fun p => p.val.isSome || p.wait.isSome) && x.pend.isEmpty && x.leave.isNone then some f else none
    | none => none
  | _ => none

/-- R109, R214, R365: no tile is busy any more, no word of the context is left to issue, and no status of a `wait.arm` to land. -/
def State.wordsOver (s : State) (c : Nat) : Bool :=
  let x := s.ctx c
  x.pend.isEmpty && x.leave.isNone && x.sleep.isNone && !(s.todo.any fun w => w.ctx == c)

/-- Commands of the task in a bank. -/
def State.cmdsOf (s : State) (c : Nat) : List Cmd := s.cmds.filter fun k => k.ctx == c && s.stillRuns k

/-- R233: what a saved context may leave behind: commands that stop at a chunk boundary, adoptions, materialisations. -/
def State.cmdsSettled (s : State) (c : Nat) : Bool :=
  let left := (s.cmdsOf c).filter Cmd.chunked
  decide (left.length ≤ 16) && (s.cmdsOf c).all fun k =>
    (k.chunked && k.atBoundary) || (k.cls == 12 && k.op == 1) || (k.cls == 13 && k.op == 1)

/-- R365 steps 1-5. -/
def State.readyToSave (s : State) (c : Nat) : Bool :=
  let x := s.ctx c
  s.wordsOver c && (x.open.isEmpty || x.faulting.isSome) && s.cmdsSettled c

/-- R365 step 6: nothing of the context is left to be written out. -/
def State.writtenOut (s : State) (c : Nat) : Bool :=
  !(s.cache.any fun l => l.tile == tileOf c && l.dirtyOf (bankOf c)) &&
    ((s.ctx c).logBits.isEmpty || (s.ctx c).replaying)

/-- R84, R208, R273: the context's dirty chunks and its partial log line are written out. -/
def State.writeOut (s : State) (c : Nat) : State := (s.flushUo c).flushLog c

/-- R372, R454: the context as it is saved: at its phase point where rollback has begun, at the target of a passing of control that
has not arrived. -/
def Ctx.asSaved (x : Ctx) : Ctx :=
  let x := { x with sleep := none }
  match x.rerun, x.phase with
  | some _, some p =>
    { x with s := p.s, g := p.g, h := p.h, p := p.p, csr := p.csr, pc := p.pc, count := p.count, crc := p.crc, jump := none, q := [] }
  | _, _ =>
    match x.jump with
    | some (t, _, _, _) => { x.startPass t with jump := none }
    | none => x

/-- R367: the header of an image, its CRC still zero, and SECT. -/
def State.headerBytes (s : State) (c : Nat) (g : Group) (x : Ctx) (reason len pins : Nat) (rstate adopt : Nat) : List Byte :=
  let sects : List (Nat × Nat) :=
    [(0x100, 512), (0x300, 256), (0x400, 512), (0x600, 512), (0x800, 1536), (0xE00, 384), (0xF80, 512), (0x1180, 2048),
     (0x1980, 15808), (0x5740, 442752), (0x718C0, 8192 + 128 * pins)]
  fit 256 <|
    toLE 4 0x4153435A ++ toLE 2 1 ++ toLE 1 0 ++ toLE 1 reason ++ toLE 4 g.gid ++ toLE 1 x.lx ++ toLE 1 x.ly ++ toLE 1 g.gridX ++
    toLE 1 g.gridY ++ toLE 1 g.vd ++ toLE 1 g.mode ++ toLE 2 g.prio ++ toLE 1 g.learner.toNat ++ toLE 1 rstate ++
    toLE 1 (bitsOf (x.cget csrMergePrio) 0 1) ++ toLE 1 x.preds.toNat ++ toLE 2 x.pc.seg ++ toLE 2 x.pc.bun ++ toLE 4 x.count ++
    toLE 4 x.crc.toNat ++ toLE 1 (x.cget csrEpi).toNat ++ zeros 1 ++
    toLE 2 ((s.ctx c).phase.isSome.toNat + 2 * (if adopt = 0 then 0 else 1)) ++
    toLE 8 (x.wset * 2 ^ 32 + x.version) ++ toLE 4 adopt ++ toLE 4 (SMap.get 0 s.invSeq g.vd) ++ toLE 8 (x.cget csrLogPos).toNat ++
    toLE 8 g.stab ++ toLE 2 g.scount ++ toLE 2 g.exited ++ toLE 4 g.serial ++ toLE 8 g.sigAddr ++ toLE 8 g.sigVal.toNat ++
    toLE 8 s.time.toNat ++ toLE 8 len ++ zeros 4 ++ toLE 8 g.startTs.toNat ++ zeros 4 ++
    sects.flatMap fun (o, n) => toLE 4 o ++ toLE 4 n

/-- R442: the part of an image that holds a register. -/
def PReg.place : PReg → Nat × Nat
  | .s n => (0x100 + 8 * n, 8)
  | .g n => (0x300 + 8 * n, 8)
  | .h n => (0x400 + 32 * n, 32)
  | .v n => (0x1980 + 304 * n, 304)
  | .t n => (0x5740 + 18448 * n, 18448)
  | .csr _ => (0x600, 512)
  | .preds => (0x17, 1)

/-- R442: the lines of an image that hold poisoned registers or lines are poisoned. -/
def State.poisonImage (s : State) (base c : Nat) (x : Ctx) : State :=
  let mark (s : State) (o : Origin) (off n : Nat) : State :=
    (linesIn (base + off) n).foldl (fun s a => s.poisonLine (a / 128) o) s
  let s := x.poison.foldl (fun s (r, o) => mark s o r.place.1 r.place.2) s
  ((s.pinnedLines c).mapIdx fun i j => (i, j)).foldl (fun s (i, j) =>
    match (s.sline (tileOf c) (128 * j)).poison with
    | some o => mark s o (0x718C0 + 8192 + 128 * i) 128
    | none => s) s

/-- R367-R370: the image of a context. -/
def State.imageBytes (s : State) (c : Nat) (g : Group) (reason : Nat) : List Byte :=
  let y := s.ctx c
  let f := if y.rerun.isSome then none else y.faulting
  let x := (y.asSaved).partDone f
  let cursors := match y.rerun with
    | some _ => y.inputs
    | none => ((s.cmdsOf c).filter Cmd.chunked).map Cmd.cursor
  let adopt := (((s.cmdsOf c).find? fun k => k.cls == 12 && k.op == 1 && k.ending.isNone).map (·.target)).getD 0
  let pins := (s.pinnedLines c).length
  let len := 0x718C0 + 8192 + 128 * pins
  let phase := match y.phase with | some p => p.bytes | none => zeros 1536
  let bs := s.headerBytes c g x reason len pins f.isSome.toNat adopt ++ scalarBytes x.s ++ stagingBytes x.g ++ handleBytes x.h ++
    fit 512 (controlBytes x.csr) ++ phase ++ faultBytes x.h f ++ ((List.range 8).flatMap fun n => (x.qget n).bytes) ++
    fit 2048 (cursors.flatMap Cursor.bytes) ++ ((List.range 52).flatMap fun n => (x.vget n).bytes) ++
    ((List.range 24).flatMap fun n => (x.tget n).bytes) ++ s.scratchBytes c
  overlay bs 0x70 (toLE 4 (crc32c bs).toNat)

/-- R36, R134: a bank becomes Idle: its lines are unpinned, but for those that a command of the task still owns, which belong to no
bank from now on. -/
def State.toIdle (s : State) (c : Nat) : State :=
  let mine (n : Nat) (y : SLine) : Bool := n / 2 ^ 15 == tileOf c && y.pin == some (bankOf c)
  let owned (y : SLine) : Bool := s.cmds.any fun k => y.eng == some k.id
  let s : State := { s with
    scratch := (s.scratch.filter fun (n, y) => !mine n y || owned y).map fun (n, y) => (n, if mine n y then { y with pin := some 2 } else y)
    monitors := s.monitors.filter (·.ctx ≠ c)
    flags := s.flags.filter (·.ctx ≠ c) }
  let s := s.dropPromotions c
  s.setCtx c { Ctx.init with incarnation := (s.ctx c).incarnation }

/-- R365 step 7, R450, R454: the image is written, its magic last; the commands that stopped go with it; the bank is Idle. -/
def State.save (s : State) (c reason slot : Nat) : State :=
  let x := s.ctx c
  match x.group.bind s.group with
  | none => s
  | some g =>
    let base := s.slotBase g.vd slot
    let bs := s.imageBytes c g reason
    let img : Image :=
      { vd := g.vd, slot := slot, group := g.serial, lx := x.lx, ly := x.ly, reason := reason, order := s.serial, wset := x.wset,
        version := x.version, entry := match x.rerun, x.jump with | none, some (t, _, _, _) => t.bun | _, _ => x.entry
        phaseTs := (x.phase.map (·.ts)).getD 0, rerun := x.rerun, foreign := false }
    let gone := (s.cmdsOf c).filter Cmd.chunked
    let t := (s.needPhys base bs.length)
    let t : State := { t with
      mem := memBlock t.mem base bs, memPoison := clearPoison t.memPoison base bs.length, serial := s.serial + 1
      images := t.images ++ [img]
      cmds := t.cmds.filter fun k => !gone.any (·.id == k.id)
      fabReqs := t.fabReqs.filter fun r => match r.user with | .cmd id _ => !gone.any (·.id == id) | _ => true }
    ((t.poisonImage base c x).dcount Dev.scStat 0 16 16).toIdle c

/-- R365. A context that is to be saved: what it has to write out is written out, and when all of its writes are performed at
system scope its image is written. -/
def execCheckpointSave (ctx : Nat) (s : State) : Host.Outcome State Fault Refusal :=
  .next <| match (s.ctx ctx).st, (s.ctx ctx).drainTo with
    | .draining, .save reason slot =>
      if !s.readyToSave ctx then s
      else if !s.writtenOut ctx then s.writeOut ctx
      else if s.posted.any (·.ctx == ctx) then s
      else s.save ctx reason slot
    | _, _ => s

/-! ### Checking an image (R373, R423) -/

/-- A section of an image: offset and length as its entry gives them. -/
def sectionOf (bs : List Byte) (n : Nat) : Nat × Nat := (natAt bs (0x80 + 8 * n) 4, natAt bs (0x84 + 8 * n) 4)

/-- R368: the lengths of sections 0-9. -/
def sectionLengths : List Nat := [512, 256, 512, 512, 1536, 384, 512, 2048, 15808, 442752]

/-- The set bits of a byte list. -/
def popBytes (bs : List Byte) : Nat := (bs.map fun b => ((List.range 8).filter b.getLsbD).length).foldl (· + ·) 0

/-- R368: the sections stand well: aligned, inside, of their lengths, apart. -/
def sectionsOk (bs : List Byte) (len : Nat) : Bool :=
  let ss := (List.range 11).map (sectionOf bs)
  let scr := (ss.getD 10 (0, 0))
  let pins := popBytes (slice bs scr.1 4096)
  (ss.all fun (o, n) => o % 16 == 0 && decide (0x100 ≤ o) && decide (o + n ≤ len)) &&
    ss.map (·.2) == sectionLengths ++ [8192 + 128 * pins] &&
    (ss.zipIdx.all fun (a, i) => ss.zipIdx.all fun (b, j) => i == j || decide (a.1 + a.2 ≤ b.1) || decide (b.1 + b.2 ≤ a.1))

/-- Bytes that must be zero, by offset and length, are zero. -/
def zeroAt (bs : List Byte) (l : List (Nat × Nat)) : Bool := l.all fun (o, n) => natAt bs o n == 0

/-- R367-R370: every reserved byte is zero. -/
def reservedOk (bs : List Byte) : Bool :=
  let sec (n : Nat) := (sectionOf bs n).1
  let plain : List (Nat × Nat) :=
    [(0x25, 1), (0x7C, 4), (0xD8, 40), (sec 3 + 144, 368), (sec 4 + 0x590, 0x30), (sec 4 + 0x5CF, 1), (sec 4 + 0x5D8, 40),
     (sec 5 + 2, 2), (sec 5 + 12, 4), (sec 5 + 24, 40), (sec 5 + 320, 64)] ++
    ((List.range 16).map fun i => (sec 2 + 32 * i + 12, 20)) ++ ((List.range 16).map fun i => (sec 4 + 0x300 + 32 * i + 12, 20)) ++
    ((List.range 16).flatMap fun i => [(sec 7 + 128 * i + 4, 4), (sec 7 + 128 * i + 76, 4)]) ++
    ((List.range 52).map fun i => (sec 8 + 304 * i + 289, 15)) ++ ((List.range 24).map fun i => (sec 9 + 18448 * i + 18433, 15))
  zeroAt bs plain && decide (natAt bs 0x26 2 < 4) && decide (natAt bs 0x16 1 < 2) &&
    ((List.range 8).all fun i => decide (natAt bs (sec 6 + 64 * i + 56) 1 < 8) && decide (natAt bs (sec 6 + 64 * i + 57) 5 < 2 ^ 39)) &&
    (List.range 16).all fun i =>
      let o := sec 7 + 128 * i
      decide (natAt bs (o + 3) 1 < 2) && (natAt bs o 2 == 14 || natAt bs (o + 80) 48 == 0)

/-- R61, R373: the tags are those of formats. An image with another ends its group (R423), where R61 speaks of an ILLEGAL trap (log entry
27). -/
def tagsOk (bs : List Byte) : Bool :=
  ((List.range 52).all fun i => decide (natAt bs ((sectionOf bs 8).1 + 304 * i + 288) 1 ≤ 10)) &&
    (List.range 24).all fun i => decide (natAt bs ((sectionOf bs 9).1 + 18448 * i + 18432) 1 ≤ 10)

/-- R423: the reason for which the image in a slot is not restored, in the order of the checks. -/
def State.imageBad (s : State) (vd slot : Nat) : Option Nat :=
  let base := s.slotBase vd slot
  let hd := s.phys base 256
  let len := natAt hd 0x68 8
  if natAt hd 0 4 ≠ 0x4153435A ∨ natAt hd 4 2 ≠ 1 ∨ natAt hd 6 1 ≠ 0 then some 1
  else if natAt hd 0x10 1 ≠ vd then some 6
  else if len < 0x100 + (((List.range 11).map fun n => (sectionOf hd n).2).foldl (· + ·) 0) ∨ 2 ^ 22 < len then some 3
  else
    let bs := s.phys base len
    if (s.rangePoison base len).isSome ∨ (crc32c (overlay bs 0x70 (zeros 4))).toNat ≠ natAt bs 0x70 4 then some 2
    else if !sectionsOk bs len then some 3
    else if !reservedOk bs then some 4
    else if !tagsOk bs then some 5
    else none

/-! ### Discarding an image (R322, R332, R371, R372) -/

/-- A slot no longer holds an image. -/
def State.clearSlot (s : State) (vd slot : Nat) : State := s.physWrite (s.slotBase vd slot) (zeros 4)

/-- R302, R322, R332: what an image holds is given up: its readers, its pins, its adoptions; its reservations and claims end void. -/
def State.dropHoldings (s : State) (i : Image) : State :=
  let s := if i.foreign then s else s.dropReader i.wset i.version
  let s := (List.range 9).foldl (fun s n => s.dropPins i.group i.lx i.ly n) s
  let s := (s.cmds.filter fun k => k.group == i.group && k.lx == i.lx && k.ly == i.ly && k.cls == 12 && k.op == 1).foldl (fun s k =>
    if k.holdsReader then (s.dropReader k.ws k.target).retire k else s.retire k) s
  (s.endHolds (taskKey i.group i.lx i.ly) true).1

/-- An image is discarded. -/
def State.discardImage (s : State) (i : Image) : State :=
  let s := s.clearSlot i.vd i.slot
  { s.dropHoldings i with images := s.images.filter fun j => !(j.vd == i.vd && j.slot == i.slot) }

/-- The images of a group. -/
def State.groupImages (s : State) (n : Nat) : List Image := s.images.filter (·.group == n)

/-- R423: an image that fails its checks: it and the others of its group go, the group stops and ends with DEAD. -/
def State.imageFails (s : State) (i : Image) (reason : Nat) : State :=
  let s := (s.groupImages i.group).foldl State.discardImage s
  let s := (s.stopGroup i.group (2 ^ 16)).failGroup i.group 6
  s.record { kind := 9, flags := 1, source := 0x0105, gid := ((s.group i.group).map (·.gid)).getD 0, vd := i.vd, lx := i.lx, ly := i.ly, addr := i.slot,
             aux := reason }

end Sys2Proof.Machine
end

