-- ==== Sys2Proof/Machine/Restore.lean ====
section
/-!
DEFINITION. Placing blocks (R31-R35, R359, R408) and restoring a saved image onto a bank (R369, R370, R373).
-/

namespace Sys2Proof.Machine

/-! ### Clusters, banks and blocks (R20, R31-R35) -/

/-- R359: a cluster is retired. -/
def State.retiredCl (s : State) (cl : Nat) : Bool := s.dfld Dev.pmMap 0 (24 + cl) 1 == 1

/-- R20: a cluster belongs to the learner partition. -/
def State.learnerCl (s : State) (cl : Nat) : Bool := s.dfld Dev.pmMap 0 cl 1 == 1

/-- R20, R360, R450: a cluster may take blocks of a partition: it is in service, and no move or retirement has it. -/
def State.serves (s : State) (learner : Bool) (cl : Nat) : Bool :=
  decide (cl < 24) && !s.retiredCl cl && s.learnerCl cl == learner && !(s.moves.any fun m => m.clusters.contains cl)

/-- R31: the tile of a task in its block's cluster. -/
def tileIn (cl lx ly : Nat) : Nat := 12 * (2 * (cl / 6) + ly % 2) + 2 * (cl % 6) + lx % 2

/-- A bank is free. -/
def State.bankFree (s : State) (tile bank : Nat) : Bool := (s.ctx (2 * tile + bank)).st == .idle

/-- R33, R408: the order in which the banks of a tile are tried; with no preference bank A is taken first (the model's choice, log entry
27). -/
def bankOrder (mode : Nat) : List Nat := if mode % 4 = 1 then [1, 0] else [0, 1]

/-- R345: the group's sync span is die. -/
def dieSpan (mode : Nat) : Bool := fldB mode 2

/-- The clusters on which tasks of a group are bound. -/
def State.groupClusters (s : State) (n : Nat) : List Nat :=
  ((s.ctxs.filter fun (_, x) => x.group == some n).map fun (c, _) => clusterOf (tileOf c)).eraseDups

/-- R52: the groups of die span with tasks on a die. -/
def State.dieGroups (s : State) (die : Nat) : Nat :=
  (s.groups.filter fun g => g.placed && dieSpan g.mode && (s.groupClusters g.serial).any fun cl => dieOf cl == die).length

/-! ### Where an image goes (R35, R373, R408) -/

/-- The bytes of an image. -/
def State.imageOn (s : State) (i : Image) : List Byte :=
  let base := s.slotBase i.vd i.slot
  s.phys base (s.physNat (base + 0x68) 8)

/-- R368: the scratchpad addresses of the lines that an image's bitmap names. -/
def bitmapLines (bs : List Byte) : List Nat :=
  (bs.mapIdx fun i b => (i, b)).flatMap fun (i, b) => ((List.range 8).filter b.getLsbD).map fun j => 128 * (8 * i + j)

/-- R368: the scratchpad lines of an image. -/
def imagePins (bs : List Byte) : List Nat := bitmapLines (slice bs (sectionOf bs 10).1 4096)

/-- R191, R373: the lines of an image fit on a tile. -/
def State.linesFit (s : State) (tile bank : Nat) (ls : List Nat) : Bool :=
  !(ls.any fun a => (s.sline tile a).pin.isSome) && !s.pinFails tile bank ls

/-- R33, R373: the bank of a tile that an image takes. -/
def State.bankFor (s : State) (mode tile : Nat) (ls : List Nat) : Option Nat :=
  (bankOrder mode).find? fun b => s.bankFree tile b && s.linesFit tile b ls

/-- The images of the block of an image. -/
def State.blockImages (s : State) (i : Image) : List Image :=
  (s.groupImages i.group).filter fun j => j.lx / 2 == i.lx / 2 && j.ly / 2 == i.ly / 2

/-- The tasks of the block of an image that are in banks. -/
def State.blockBound (s : State) (i : Image) : List Nat :=
  (s.ctxs.filter fun (_, x) => x.group == some i.group && x.lx / 2 == i.lx / 2 && x.ly / 2 == i.ly / 2).map (·.1)

/-- R34, R35: a cluster may take the block of an image of a group. -/
def State.blockGoes (s : State) (g : Group) (i : Image) (cl : Nat) : Bool :=
  s.serves g.learner cl && ((s.blockBound i).all fun c => clusterOf (tileOf c) == cl) &&
    (!dieSpan g.mode || ((s.groupClusters g.serial).all fun k => dieOf k == dieOf cl) &&
      (!(s.groupClusters g.serial).isEmpty || decide (s.dieGroups (dieOf cl) < 16))) &&
    (s.blockImages i).all fun j => (s.bankFor g.mode (tileIn cl j.lx j.ly) (imagePins (s.imageOn j))).isSome

/-- R408: the cluster that the block of an image goes to. -/
def State.clusterFor (s : State) (g : Group) (i : Image) : Option Nat := (List.range 24).find? fun cl => s.blockGoes g i cl

/-- An image takes its seat, for the purpose of finding room for the others of its group. -/
def State.sit (s : State) (i : Image) (c : Nat) : State :=
  s.setCtx c { Ctx.init with st := .running, group := some i.group, lx := i.lx, ly := i.ly }

/-- R372: every image of a list finds room. -/
def State.allFit (s : State) (g : Group) : List Image → Bool
  | [] => true
  | i :: rest =>
    match s.clusterFor g i with
    | none => false
    | some cl =>
      let t := tileIn cl i.lx i.ly
      match s.bankFor g.mode t (imagePins (s.imageOn i)) with
      | none => false
      | some b => State.allFit { s.sit i (2 * t + b) with images := s.images.erase i } g rest

/-- R28, R34: the grid of a launch fits its partition, and a die where its span is die. -/
def State.gridOk (s : State) (learner : Bool) (mode gx gy : Nat) : Bool :=
  let tiles := 4 * ((List.range 24).filter fun cl => !s.retiredCl cl && s.learnerCl cl == learner).length
  decide (gx * gy ≤ tiles) && (!dieSpan mode || decide (gx * gy ≤ 48))

/-- R361, R362, R372: an image is ready to return: its group runs and is not being taken off its banks, its VD is not stopped, no launch waits
for which a pre-emption made room, and after a stop its group comes back whole. -/
def State.imageReady (s : State) (i : Image) : Option Group :=
  match s.group i.group with
  | none => none
  | some g =>
    let bound := (s.ctxs.filter fun (_, x) => x.group == some g.serial).length
    let imgs := s.groupImages g.serial
    let leaving := s.ctxs.any fun (_, x) => x.group == some g.serial && (match x.drainTo with | .save _ _ => x.st == .draining | _ => false)
    let newcomer := i.reason == 0 && s.groups.any fun o =>
      !o.placed && o.learner == g.learner && decide (g.prio ≤ o.prio) && s.gridOk o.learner o.mode o.gridX o.gridY
    let whole := i.reason != 3 || (bound + imgs.length + g.exited == g.gridX * g.gridY && (decide (0 < bound) || s.allFit g imgs))
    if g.placed && !g.ending && !leaving && SMap.get 0 s.vdState i.vd == 0 && !newcomer && whole then some g else none

/-- R360: a REPART is running. -/
def State.repartRuns (s : State) : Bool := s.moves.any fun m => m.retireTile.isNone

/-- R360 step 6: an image may return. Those that a REPART saved wait for its signal, and come in the order of their saves. -/
def State.imageMayReturn (s : State) (i : Image) : Option Group :=
  if i.reason = 1 ∧ (s.repartRuns ∨ s.images.any fun j => j.reason == 1 && decide (j.order < i.order) && (s.imageReady j).isSome) then none
  else s.imageReady i

/-! ### What an image holds (R368-R370) -/

/-- A register file of 64-bit values at a place. -/
def wordsAt (bs : List Byte) (off : Nat) (ns : List Nat) : SMap W64 :=
  (ns.zipIdx.foldl (fun m (n, i) => SMap.set 0 m n (BitVec.ofNat 64 (natAt bs (off + 8 * i) 8))) [])

/-- R369: a handle in its saved form. -/
def handleAt (bs : List Byte) (off : Nat) : Handle :=
  let r := natAt bs (off + 9) 1
  ⟨natAt bs (off + 10) 1 == 1, natAt bs (off + 11) 1, fldB r 0, fldB r 1, fldB r 2, natAt bs (off + 8) 1, natAt bs off 8⟩

/-- R369: since an image was written its VD has had no invalidation that touches a window, as far as the kept ranges tell. -/
def State.untouched (s : State) (vd seq : Nat) (h : Handle) : Bool :=
  let now := SMap.get 0 s.invSeq vd
  let kept := s.invRanges.filter fun (v, n, _, _) => v == vd && decide (seq < n)
  decide (now - seq ≤ kept.length) && kept.all fun (_, _, first, n) => !pagesMeet (h.base / 2 ^ 16) (2 ^ h.l2s / 2 ^ 16) first n

/-- R369: a saved window is valid again. -/
def State.windowBack (s : State) (i : Image) (seq : Nat) (h : Handle) : Handle :=
  let ok := h.valid && h.vd == i.vd && decide (16 ≤ h.l2s) && decide (h.l2s ≤ 48) && (trnChk h.l2s h.base).isNone &&
    (i.reason == 3 || s.untouched i.vd seq h)
  { h with valid := ok }

/-- R368: h0-h15 of a section. -/
def State.handlesAt (s : State) (i : Image) (bs : List Byte) (off seq : Nat) : SMap Handle :=
  (List.range 16).foldl (fun m n => SMap.set Handle.invalid m n (s.windowBack i seq (handleAt bs (off + 32 * n)))) []

/-- R368: the control registers of a section, with those that stand elsewhere. -/
def controlAt (bs : List Byte) (off epi merge pos : Nat) : SMap W64 :=
  let m := wordsAt bs off controlSlots
  let m := SMap.set 0 m csrEpi (BitVec.ofNat 64 epi)
  let m := SMap.set 0 m csrMergePrio (BitVec.ofNat 64 (merge % 2))
  SMap.set 0 m csrLogPos (BitVec.ofNat 64 pos)

/-- R368: the phase point of an image. -/
def State.phaseAt (s : State) (i : Image) (bs : List Byte) (seq : Nat) : Phase :=
  let o := (sectionOf bs 4).1
  ⟨SMap.set 0 (wordsAt bs o (List.range 64)) 0 0, wordsAt bs (o + 0x200) (List.range 32), s.handlesAt i bs (o + 0x300) seq,
    BitVec.ofNat 7 (natAt bs (o + 0x5CC) 1), controlAt bs (o + 0x500) (natAt bs (o + 0x5CD) 1) (natAt bs (o + 0x5CE) 1) (natAt bs (o + 0x5D0) 8),
    ⟨natAt bs (o + 0x5C0) 2, natAt bs (o + 0x5C2) 2⟩, natAt bs (o + 0x5C4) 4, BitVec.ofNat 32 (natAt bs (o + 0x5C8) 4), i.phaseTs⟩

/-- R368, R476: a stream of an image. -/
def State.streamAt (s : State) (i : Image) (bs : List Byte) (off seq gen : Nat) : Stream :=
  let fl := natAt bs (off + 56) 1
  if !fldB fl 0 then Stream.unbound
  else
    let ds := (List.range 6).map fun n => BitVec.ofNat 64 (natAt bs (off + 8 * n) 8)
    let r := natAt bs (off + 63) 1
    let win : Handle := ⟨fldB fl 2, i.vd, fldB r 0, fldB r 1, fldB r 2, natAt bs (off + 62) 1, natAt bs (off + 57) 5 % 2 ^ 39 * 2 ^ 16⟩
    let q := Stream.ofDesc ds (s.windowBack i seq win) gen
    { q with pos := natAt bs (off + 48) 8, next := natAt bs (off + 48) 8, ovr := fldB fl 1 }

/-- R368: a vector register of an image. -/
def vregAt (bs : List Byte) (off : Nat) : VReg :=
  ⟨bitsOfBytes 2048 (slice bs off 256), bitsOfBytes 256 (slice bs (off + 256) 32), Fmt.ofCode (natAt bs (off + 288) 1)⟩

/-- R368: a tile register of an image. -/
def tregAt (bs : List Byte) (off : Nat) : TReg :=
  ⟨(List.range 64).foldl (fun m r =>
      SMap.set Row.zero m r ⟨bitsOfBytes 2048 (slice bs (off + 256 * r) 256), bitsOfBytes 256 (slice bs (off + 16384 + 32 * r) 32)⟩) [],
    Fmt.ofCode (natAt bs (off + 18432) 1)⟩

/-- R370: a cursor of an image; `none` for an unused one. -/
def cursorAt (bs : List Byte) (off : Nat) : Option Cursor :=
  let cls := natAt bs off 1
  if cls = 0 then none
  else
    let w (o : Nat) : W64 := BitVec.ofNat 64 (natAt bs (off + o) 8)
    some ⟨cls, natAt bs (off + 1) 1, natAt bs (off + 2) 1, if fldB (natAt bs (off + 3) 1) 0 then some (w 8, w 16) else none,
      (List.range 5).map fun n => w (24 + 8 * n), natAt bs (off + 64) 8, natAt bs (off + 72) 4, natAt bs (off + 80) 4,
      natAt bs (off + 84) 1 == 1⟩

/-- R368: the cursors of an image. -/
def cursorsAt (bs : List Byte) : List Cursor := (List.range 16).filterMap fun n => cursorAt bs ((sectionOf bs 7).1 + 128 * n)

/-! ### Commands of a list of cursors (R370, R446, R447) -/

/-- What a command is by its class, for the classes that a cursor holds. -/
def cursorSpec (k : Cursor) : EngSpec :=
  match k.cls, k.op with
  | 6, 0 => specCopy false
  | 6, 1 => specXlist
  | 6, 2 => specXfill
  | 6, _ => specCopy true
  | _, 0 => specColl
  | _, op => specFab op

/-- R370: a command goes on at its cursor in a context, and holds its lines. -/
def State.reissue (s : State) (c : Nat) (k : Cursor) : State :=
  let x := s.ctx c
  let m := cursorSpec k
  let cto := s.dfld Dev.fxCto 0 0 32
  let cmd : Cmd :=
    { id := s.serial, ctx := c, incarnation := x.incarnation, group := x.group.getD 0, lx := x.lx, ly := x.ly, vd := s.vdOf c,
      cls := k.cls, op := k.op, scope := k.scope, g := k.g.take m.n, gBase := 0, comp := k.comp, handles := x.h, wset := x.wset,
      version := x.version, ts := s.time, wait := none, done := k.offset, index := k.index, step := k.step, flag := k.nonFinite,
      target := k.offset, deadline := if k.cls = 14 ∧ k.op = 0 ∧ cto ≠ 0 then s.now + cto * cyclesPerUs else 0, stopped := false,
      abandoned := false, freqs := [], data := [], denied := none, ending := none, bundle := x.bundles, asks := [], peers := 0, iod := false }
  let s := { s with serial := s.serial + 1, cmds := s.cmds ++ [cmd] }
  let lines := ((m.uses (s.with ⟨c, slotX, x.pc, x.preds, 0, 0, false, false, 0, .sched true 0 0 0 false⟩) cmd.g).filter (·.take)).flatMap Use.lines
  s.takeLines (tileOf c) cmd.id (lines.filter fun a => (s.sline (tileOf c) a).pin == some (bankOf c))

/-- R370: the engine-owned lines of an image that no command names by an address belong to its list command, or its first. -/
def State.leftLines (s : State) (c : Nat) (ls : List Nat) : State :=
  let mine := s.cmdsOf c
  let owner := ((mine.find? fun k => k.cls == 6 && k.op == 1).orElse fun _ => mine.head?).map (·.id)
  ls.foldl (fun s a =>
    let y := s.sline (tileOf c) a
    if y.eng.isNone then s.setSline (tileOf c) a { y with eng := owner } else s) s

/-! ### The faulted access of an image (R373 step 5) -/

/-- The load that a FAULT section describes, with the elements that it has completed. -/
def faultLoad (x : Ctx) (bs : List Byte) : Option (Nat × Nat × Nat × Load) :=
  let o := (sectionOf bs 5).1
  let w := natAt bs (o + 4) 4
  let e := natAt bs (o + 8) 4
  let mask := natAt bs (o + 16) 8
  let off := natAt bs (o + 64) 8
  let word (n : Nat) : W64 := BitVec.ofNat 64 (natAt bs (o + n) 8)
  let done (l : Load) (have_ : List Byte) : Load :=
    { l with pieces := l.pieces.zipIdx.map fun (p, i) =>
        if mask.testBit (l.element i p) then { p with val := some (slice have_ p.dst p.len) } else p }
  if natAt bs o 1 ≠ 1 then none
  else
    match decodeNat w (some e) with
    | .ok (.ldg _ d a _ k sz ord scope fmt) =>
      let h := x.hget a
      let l : Load :=
        { pieces := (splitPages 3 (h.va off) (sizeOf3 sz) 0).map fun (va, n, dst) => Piece.init va n dst
          dst := if sz = 2 then .vector d (Fmt.ofCode fmt) else .scalar d
          acq := acqOf ord scope, rel := none, amo := none, gather := false, offsets := 0, vd := h.vd }
      some (k, w, e, done l (if sz = 2 then bytesOfBits 256 (x.vget d).data else toLE 8 (x.sget d).toNat))
    | .ok (.amo _ d a _ k aop sz u ord scope _ _) =>
      let h := x.hget a
      some (k, w, e, {
        pieces := [Piece.init (h.va off) (if sz then 8 else 4) 0], dst := .scalar d, acq := acqOf ord scope, rel := relOf ord scope
        amo := some ⟨aop, sz, u, word 72, word 80⟩, gather := false, offsets := 0, vd := h.vd })
    | .ok (.vgat _ d a _ k fmt mv) =>
      let h := x.hget a
      let offs := bitsOfBytes 2048 (slice bs (o + 64) 256)
      let lanes := (List.range 64).filter fun i => !mask.testBit i || (x.activeLanes mv).contains i
      let l : Load :=
        { pieces := lanes.map fun i => Piece.init (h.va (offs.toNat / 2 ^ (32 * i) % 2 ^ 32)) 4 (4 * i)
          dst := .vector d (Fmt.ofCode fmt), acq := none, rel := none, amo := none, gather := true, offsets := offs, vd := h.vd }
      some (k, w, e, done l (bytesOfBits 256 (x.vget d).data))
    | _ => none

/-- R373: the access goes on: its pages are asked for again. -/
def State.resumeLoad (s : State) (c : Nat) (f : Nat × Nat × Nat × Load) : State :=
  let (k, w, e, l) := f
  let id := s.serial
  let fl : Flight :=
    { id := id, kind := .tagged, slot := slotL, issued := s.now, first := s.now + 1, bound := none, tag := some k, lands := [],
      load := some l, rd := [], wr := [], unit := none, phaseEnd := 0, poison := none, cmd := none, flush := none, word := w, ext := e }
  let s := ({ s with serial := s.serial + 1 }).modCtx c fun x => { x with flights := x.flights ++ [fl] }
  l.pieces.zipIdx.foldl (fun s (p, i) => if s.alive c && p.val.isNone then s.translatePiece c id l i p else s) s

/-! ### Restoring (R373) -/

/-- The registers of an image in a bank. -/
def State.imageCtx (s : State) (i : Image) (c : Nat) (bs : List Byte) : Ctx :=
  let sec (n : Nat) := (sectionOf bs n).1
  let seq := natAt bs 0x34 4
  let pc : Pc := ⟨natAt bs 0x18 2, natAt bs 0x1A 2⟩
  let vers := natAt bs 0x28 8
  { Ctx.init with
    st := .running
    s := SMap.set 0 (wordsAt bs (sec 0) (List.range 64)) 0 0
    g := wordsAt bs (sec 1) (List.range 32)
    h := s.handlesAt i bs (sec 2) seq
    v := (List.range 52).foldl (fun m n => SMap.set VReg.zero m n (vregAt bs (sec 8 + 304 * n))) []
    t := (List.range 24).foldl (fun m n => SMap.set TReg.zero m n (tregAt bs (sec 9 + 18448 * n))) []
    q := (List.range 8).foldl (fun m n => SMap.set Stream.unbound m n (s.streamAt i bs (sec 6 + 64 * n) seq (s.serial + n))) []
    p := BitVec.ofNat 7 (natAt bs 0x17 1)
    csr := controlAt bs (sec 3) (natAt bs 0x24 1) (natAt bs 0x16 1) (natAt bs 0x38 8)
    pc := pc, entry := i.entry, count := natAt bs 0x1C 4, crc := BitVec.ofNat 32 (natAt bs 0x20 4)
    exec := some (Half.fetching pc.seg)
    wset := vers / 2 ^ 32 % 64, version := vers % 2 ^ 32
    group := some i.group, lx := natAt bs 0x0C 1, ly := natAt bs 0x0D 1, incarnation := (s.ctx c).incarnation
    lastFirst := s.now, issuedAt := s.now, logStart := natAt bs 0x38 8
    phase := if fldB (natAt bs 0x26 2) 0 then some (s.phaseAt i bs seq) else none
    inputs := if fldB (natAt bs 0x26 2) 0 && i.rerun.isSome then cursorsAt bs else [] }

/-- R373: on another chip the version is kept only where its Ring table has it. -/
def State.foreignVersion (s : State) (i : Image) (c : Nat) : State :=
  let x := s.ctx c
  if !i.foreign then s
  else if (s.published x.wset x.version).isSome then s.addReader x.wset x.version
  else s.setCtx c { x with version := 0 }

/-- R368: the scratchpad lines of an image are pinned and filled. -/
def State.fillLines (s : State) (c : Nat) (bs : List Byte) : State :=
  let sec := (sectionOf bs 10).1
  (imagePins bs).zipIdx.foldl (fun s (a, j) =>
    let s := s.pinLine (tileOf c) (bankOf c) a
    s.setSline (tileOf c) a { s.sline (tileOf c) a with data := bitsOfBytes 1024 (slice bs (sec + 8192 + 128 * j) 128) }) s

/-- R233, R253, R258: the adoption and the materialisations that a saved task left pending are those of its new bank. -/
def State.rebank (s : State) (i : Image) (c : Nat) : State :=
  { s with cmds := s.cmds.map fun (k : Cmd) =>
      if k.group = i.group ∧ k.lx = i.lx ∧ k.ly = i.ly ∧ !i.foreign ∧ !k.abandoned then
        { k with ctx := c, incarnation := (s.ctx c).incarnation } else k }

/-- R373 steps 3-5, R454: the image is loaded, its slot is free again, its commands and its faulted access go on. A context whose
rollback was interrupted starts it anew; one that retirement saved waits for its input list. -/
def State.restore (s : State) (i : Image) (c : Nat) : State :=
  let bs := s.imageOn i
  let x := s.imageCtx i c bs
  let s := ({ s with serial := s.serial + 8 }).setCtx c x
  let s := ((s.foreignVersion i c).rebank i c).fillLines c bs
  let s := (cursorsAt bs).foldl (fun s k => s.reissue c k) s
  let s := s.leftLines c (bitmapLines (slice bs ((sectionOf bs 10).1 + 4096) 4096))
  let s := (s.clearSlot i.vd i.slot)
  let s := { s with images := s.images.filter fun j => !(j.vd == i.vd && j.slot == i.slot) }
  match i.rerun with
  | some r =>
    s.modCtx c fun x => { x with st := .draining, drainTo := .rollback, rerun := some { r with
      run := if r.run = 3 then 3 else 1, first := none, ended := none, resume := none, refill := true, cmds := (s.cmdsOf c).map (·.id) } }
  | none =>
    if natAt bs 0x15 1 = 1 then (match faultLoad (s.ctx c) bs with | some f => s.resumeLoad c f | none => s) else s

/-- R35, R373, R408, R423. The image in a slot returns to the bank that its placement gives; one that fails its checks ends its
group. `slot` is the VD's number times 2^16 plus the slot. -/
def execContextRestore (slot tile bank : Nat) (s : State) : Host.Outcome State Fault Refusal :=
  .next <| match s.images.find? fun i => i.vd == slot / 2 ^ 16 && i.slot == slot % 2 ^ 16 with
    | none => s
    | some i =>
      match s.imageMayReturn i with
      | none => s
      | some g =>
        match s.imageBad i.vd i.slot with
        | some reason => s.imageFails i reason
        | none =>
          match s.clusterFor g i with
          | none => s
          | some cl =>
            if tileIn cl i.lx i.ly = tile ∧ s.bankFor g.mode tile (imagePins (s.imageOn i)) = some bank then s.restore i (2 * tile + bank) else s

end Sys2Proof.Machine
end

