-- ==== Sys2Proof/Machine/Rerun.lean ====
section
/-!
DEFINITION. Drains that have come to their end (R36, R134, R362, R425, R434, R447), the double rerun (R448, R449), taking contexts
off their banks (R360, R372), and the retirement of a tile (R450, R451).
-/

namespace Sys2Proof.Machine

/-! ### Taking contexts off their banks (R360, R372, R450) -/

/-- R371: the slots of a VD that neither hold an image nor are given to a context that is being saved. -/
def State.freeSlots (s : State) (vd : Nat) : List Nat :=
  (s.slots vd).filter fun n => !s.slotHolds vd n && !s.ctxs.any fun (c, x) =>
    x.st == .draining && (match x.drainTo with | .save _ m => m == n && s.vdOf c == vd | _ => false)

/-- The pre-emption class of a group (R345): 0 drain-only, 1 checkpointable, 2 restartable. -/
def Group.class (g : Group) : Nat := g.mode / 8 % 4

/-- A context runs its task and is not on its way out of its bank. -/
def Ctx.stays (x : Ctx) : Bool :=
  match x.st with
  | .running | .syncHeld | .sleeping => true
  | .draining => x.drainTo == .sleep || x.drainTo == .rollback
  | _ => false

/-- A context drains to be saved. -/
def State.toSave (s : State) (c reason slot : Nat) : State := s.modCtx c fun x => x.stopTo (.save reason slot)

/-- R360 step 3, R372, R450: contexts are taken off their banks in the order given: those of drain-only groups run on, each other
one that gets a slot is saved, and what becomes of the rest is `left`. -/
def State.takeOff (s : State) (reason : Nat) (left : State → Nat → State) (cs : List Nat) : State :=
  cs.foldl (fun s c =>
    match s.groupOf c with
    | none => s
    | some g =>
      if !(s.ctx c).stays || g.ending || g.class == 0 then s
      else
        match s.freeSlots g.vd with
        | slot :: _ => s.toSave c reason slot
        | [] => left s c) s

/-- R452 steps 2-4: a context is killed, and its group with it. -/
def State.killTask (s : State) (c : Nat) : State :=
  let x := s.ctx c
  let s := s.modCtx c fun x => { (x.stopTo .kill) with rerun := none }
  match x.group with
  | none => s
  | some n => (s.stopGroup n c).failGroup n 4

/-- The contexts of a cluster, in ascending tile number, bank A before bank B. -/
def clusterCtxs (cl : Nat) : List Nat :=
  [tileIn cl 0 0, tileIn cl 1 0, tileIn cl 0 1, tileIn cl 1 1].flatMap fun t => [2 * t, 2 * t + 1]

/-! ### The health store's counts (R459) -/

/-- A counter of `n` bits that saturates. -/
def countUp (n : Nat) (m : SMap Nat) (k : Nat) : SMap Nat :=
  let v := SMap.get 0 m k
  SMap.set 0 m k (if v + 1 < 2 ^ n then v + 1 else v)

/-- The health store with a count changed. -/
def State.countHealth (s : State) (f : Health → Health) : State := { s with health := f s.health, healthChanged := true }

/-! ### Retirement (R450, R451) -/

/-- R450: the failing context is saved from its phase point, and waits for its input list when it is restored. -/
def Rerun.forRetirement (r : Rerun) : Rerun := { r with run := 3, ended := none, resume := none, refill := false, cmds := [] }

/-- R450: the retirement of a tile starts, with the failing context or without; `aux` gives the record's reason. -/
def State.retireTile (s : State) (tile : Nat) (failing : Option Nat) (aux : Nat) : State :=
  let cl := clusterOf tile
  if s.health.retired.contains tile || s.moves.any (fun m => m.retireTile == some tile) then s
  else
    let n := s.moves.length
    let s : State := { s with moves := s.moves ++ [⟨[cl], 0, none, s.time, some tile, cl + aux⟩] }
    let killed (s : State) (c : Nat) : State :=
      { s.killTask c with moves := s.moves.mapIdx fun i m => if i = n then { m with aux := m.aux % 2 ^ 12 + 2 ^ 12 } else m }
    let s := match failing with
      | none => s
      | some c =>
        match s.groupOf c with
        | none => s
        | some g =>
          match s.freeSlots g.vd with
          | slot :: _ =>
            s.modCtx c fun x => { x with st := .draining, drainTo := .save 2 slot, rerun := x.rerun.map Rerun.forRetirement }
          | [] => killed s c
    s.takeOff 2 killed ((clusterCtxs cl).filter fun c => some c != failing)

/-- R450 steps 3-5: every bank of the cluster is Idle: it leaves service, and the record is posted. -/
def State.retirementDone (s : State) (m : Move) (tile : Nat) : State :=
  let cl := clusterOf tile
  let h := { s.health with retired := (tile :: s.health.retired) }
  -- the store is written at once, the older copy with the next generation
  let h := { h with generation := h.generation + 1 }
  let s : State := { s with
    moves := s.moves.filter fun k => k.retireTile != some tile
    healthCopies := h :: s.healthCopies.take 1, health := h, healthChanged := false, healthAt := s.now }
  let s := (s.dsetFld Dev.pmMap 0 (24 + cl) 1 1).dcount Dev.reStat 0 0 16
  s.record { kind := 4, source := 2 * tile, flags := 8 + (if fldB m.aux 9 then 2 else 0) + (if fldB m.aux 12 then 1 else 0), addr := tile, aux := m.aux }

/-- R450. The retirement of a tile is complete when every bank of its cluster is Idle. -/
def execRetirementCommit (tile : Nat) (s : State) : Host.Outcome State Fault Refusal :=
  .next <| match s.moves.find? fun m => m.retireTile == some tile with
    | none => s
    | some m => if (clusterCtxs (clusterOf tile)).all fun c => (s.ctx c).st == .idle then s.retirementDone m tile else s

/-! ### Drains (R36, R134, R362, R425) -/

/-- Every issued result of a context has landed, and every word of its bundles has issued. -/
def State.landed (s : State) (c : Nat) : Bool := s.wordsOver c && (s.ctx c).open.isEmpty

/-- R425: nothing of a context whose access faulted can go on before a page comes. -/
def State.stuck (s : State) (c : Nat) : Bool :=
  let x := s.ctx c
  let held (w : IssueWord) : Bool := x.busyTags s.now w.wait != 0 || !x.waits.isEmpty
  !(s.todo.any fun w => w.ctx == c) && (s.duePending c).isEmpty &&
    (x.pend.all fun w => held w || x.pend.any fun v => slotClass v.slot == slotClass w.slot && held v) &&
    x.open.all fun f => match f.load with
      | some l => l.pieces.all (fun p => p.val.isSome || p.wait.isSome)
      | none => false

/-- R134 step 3, R302: the streams of a context end; their pushes go on. -/
def State.endStreams (s : State) (c : Nat) : State := (List.range 8).foldl (fun s n => s.endBinding c n) s

/-- A bound stream is left. -/
def Ctx.streaming (x : Ctx) : Bool := (List.range 8).any fun n => (x.qget n).bound

/-- R134, R273, R322, R332, R362: the end of a drain that leaves the bank: streams, log line and dirty chunks are written out, every
write is performed, handles end, what the task held is given back, and the bank is Idle. `void`: a killed task's reservations. -/
def State.leave (s : State) (c : Nat) (void : Bool) : State :=
  let x := s.ctx c
  if !s.landed c then s
  else if x.streaming then s.endStreams c
  else if !s.writtenOut c then s.writeOut c
  else if s.posted.any (·.ctx == c) then s
  else
    match x.group with
    | none => s.toIdle c
    | some n =>
      match s.endHolds (taskKey n x.lx x.ly) void with
      | (s, false) => s
      | (s, true) => ((s.dropReader x.wset x.version).toIdle c).modGroup n fun g => { g with exited := g.exited + 1 }

/-- R233, R362: a killed context's commands end, or stop at a chunk boundary and are gone. -/
def State.killed (s : State) (c : Nat) : State :=
  let mine := s.cmdsOf c
  if mine.any fun k => (k.chunked && !k.atBoundary) || (!k.chunked && !(k.cls == 13 && k.op == 1) && !(k.cls == 12 && k.op == 1)) then s
  else
    let s := (mine.filter fun k => k.chunked || (k.cls == 12 && k.op == 1)).foldl (fun s k =>
      if k.holdsReader then (s.dropReader k.ws k.target).retire k else s.retire k) s
    s.leave c true

/-- R447 step 4: the phase point is loaded; poison of the registers and lines that stay is cleared. -/
def Ctx.toPhase (x : Ctx) (p : Phase) : Ctx :=
  { x with s := p.s, g := p.g, h := p.h, p := p.p, csr := p.csr, pc := p.pc, count := p.count, crc := p.crc, poison := [], logBits := [], logTail := []
           logStart := (SMap.get 0 p.csr csrLogPos).toNat }

/-- R447 steps 2-5: when every command of the context has ended and its log is written, it returns to the phase point, and the
commands of the input list are issued again. -/
def State.toPhasePoint (s : State) (c : Nat) (r : Rerun) : State :=
  let x := s.ctx c
  if !s.landed c || !(s.cmdsOf c).isEmpty then s
  else if x.streaming then s.endStreams c
  else if !x.logBits.isEmpty && !x.replaying then s.flushLog c
  else if s.posted.any fun p => p.ctx == c && p.log.isSome then s
  else
    match x.phase with
    | none => s
    | some p =>
      let s := { s.disarm c with flags := s.flags.filter fun f => f.ctx != c }
      let s : State := { s with scratch := s.scratch.map fun (n, y) =>
        (n, if n / 2 ^ 15 = tileOf c ∧ y.pin = some (bankOf c) then { y with poison := none } else y) }
      let end_ := Nat.max r.logEnd (x.cget csrLogPos).toNat
      let exec := match x.exec with | some h => if h.seg = p.pc.seg then some h else some (Half.fetching p.pc.seg) | none => some (Half.fetching p.pc.seg)
      let s := s.setCtx c { (x.toPhase p) with exec := exec }
      let s := x.inputs.foldl (fun s k => s.reissue c k) s
      s.modCtx c fun x => { x with rerun := some { r with
        run := r.run + 1, refill := true, ended := none, resume := none, logEnd := end_, cmds := (s.cmdsOf c).map (·.id) } }

/-- R447 steps 5 and 6: a rerun starts when the commands of the input list have ended. -/
def State.startRerun (s : State) (c : Nat) (r : Rerun) : State :=
  if r.cmds.any fun id => s.cmds.any fun k => k.id == id then s
  else s.modCtx c fun x => { x with
    st := .running, drainTo := .none, notBefore := Nat.max x.notBefore (s.now + 1), issuedAt := s.now, lastFirst := s.now
    rerun := if r.run = 3 then none else some { r with refill := false } }

/-- R36, R134, R362, R425, R447. A draining context takes the next step of its drain; the last takes it to its target state. -/
def execDrainComplete (ctx : Nat) (s : State) : Host.Outcome State Fault Refusal :=
  let x := s.ctx ctx
  .next <| if x.st ≠ .draining then s
    else
      match x.drainTo with
      | .sleep => if s.stuck ctx then s.modCtx ctx fun x => { x with st := .sleeping, drainTo := .none } else s
      | .exit | .stop => s.leave ctx false
      | .kill => s.killed ctx
      | .rollback =>
        match x.rerun with
        | none => s
        | some r => if r.refill then s.startRerun ctx r else if r.ended.isNone then s.toPhasePoint ctx r else s
      | .save _ _ | .none => s

/-! ### Dead contexts (R434) -/

/-- R434: commands of a dead context that its drain waits for. -/
def State.deadCmds (s : State) (c : Nat) : Bool :=
  s.cmds.any fun k => k.ctx == c && some k.group == (s.ctx c).group && k.lx == (s.ctx c).lx && k.ly == (s.ctx c).ly &&
    !(k.cls == 13 && k.op == 1)

/-- R422, R434. A dead context has drained: its record is posted, what it held is given back, and its bank is Idle. -/
def execDeadDrainComplete (ctx : Nat) (s : State) : Host.Outcome State Fault Refusal :=
  let x := s.ctx ctx
  .next <| if x.st ≠ .dead || s.deadCmds ctx then s
    else
      let n := x.group.getD 0
      match s.endHolds (taskKey n x.lx x.ly) true with
      | (s, false) => s
      | (s, true) =>
        let (reason, detail) := x.deadRec.getD (0, 0)
        let s := (List.range 8).foldl (fun s q => s.dropPins n x.lx x.ly q) s
        let s := s.record { s.ctxRec ctx 2 with
          flags := 1, tcause := 7 * 2 ^ 8 + 12, tinfo := reason * 2 ^ 48 + detail % 2 ^ 48, tloc := x.pc.target }
        ((s.dropReader x.wset x.version).toIdle ctx).modGroup n fun g => { g with exited := g.exited + 1 }

/-! ### The double rerun (R448, R449) -/

/-- R449: two outcomes are equal, and neither is UE. -/
def Outcome.agrees (a b : Outcome) : Bool :=
  !a.ue && !b.ue && a.count == b.count && a.crc == b.crc &&
    (match a.trap, b.trap with
     | none, none => true
     | some (t, p), some (u, q) => t.cause == u.cause && t.reason == u.reason && p == q
     | _, _ => false)

/-- R449: the record of a rerun phase. -/
def State.rerunRecord (s : State) (c : Nat) (r : Rerun) (atOdds : Bool) : State :=
  (s.record { s.ctxRec c 3 with
    unit := r.unit, loc := r.loc, flags := 6, addr := r.addr, aux := r.origin + 256 * atOdds.toNat }).dcount Dev.reStat 0 16 16

/-- R47, R449: the pass as it stands when the bundle at the program counter, which holds `exit`, has issued. -/
def Ctx.exitPass (x : Ctx) : Option Ctx :=
  match x.bundleAt.map checkBundle with
  | some (.ok b) =>
    if b.words.any fun (_, i) => match i with | .exit _ => true | _ => false then
      some { x with count := x.count + 1, crc := crcRun x.crc (toLE 4 ((b.scw.map wordNat).getD 0)) }
    else none
  | _ => none

/-- R449: the reruns agree: the second one's state stands and control goes on, or the pass is at odds with its header. -/
def State.rerunAgrees (s : State) (c : Nat) (r : Rerun) (o : Outcome) : State :=
  let s := s.countHealth fun h => { h with agreed := countUp 16 h.agreed (tileOf c) }
  let goOn (s : State) : State := s.modCtx c fun x => { x with st := .running, drainTo := .none, rerun := none, notBefore := Nat.max x.notBefore (s.now + 1) }
  let x := s.ctx c
  let soft (s : State) (y : Ctx) (reason : Nat) (loc : Pc) : State :=
    (goOn (s.rerunRecord c r true)).takeTrap c ⟨8, reason, y.count % 2 ^ 16 * 2 ^ 32 + (y.crc ^^^ 0xFFFFFFFF#32).toNat⟩ 7 false loc
  match o.trap with
  | some (t, loc) => (goOn (s.rerunRecord c r false)).takeTrap c t o.slot o.slip loc
  | none =>
    match r.resume with
    | some (target, loc, how) =>
      match x.passMismatch with
      | some reason => soft s x reason loc
      | none => (goOn (s.rerunRecord c r false)).enterSegment c target loc s.now how
    | none =>
      match x.exitPass.bind fun y => y.passMismatch.map fun reason => (y, reason) with
      | some (y, reason) => soft s y reason x.pc
      | none => goOn (s.rerunRecord c r false)

/-- R448, R449. A rerun ends: after the first the phase runs once more; after the second the outcomes decide. -/
def execRerunEnd (ctx : Nat) (s : State) : Host.Outcome State Fault Refusal :=
  let x := s.ctx ctx
  .next <| match x.rerun, x.rerun.bind (·.ended) with
    | some r, some o =>
      if x.st ≠ .draining ∨ x.drainTo ≠ .rollback ∨ !s.landed ctx then s
      else if r.run < 2 then
        s.modCtx ctx fun x => { x with rerun := some { r with first := some o, ended := none, resume := none } }
      else
        let s := if r.origin = 1 then s.countHealth fun h => { h with unlocated := countUp 16 h.unlocated (tileOf ctx) } else s
        if ((r.first.map o.agrees).getD false) then s.rerunAgrees ctx r o
        else s.retireTile (tileOf ctx) (some ctx) (2 ^ 9)
    | _, _ => s

end Sys2Proof.Machine
end

