-- ==== Sys2Proof/Machine/FrontEnd.lean ====
section
/-!
DEFINITION. Submission queues and the scanner (R334-R341), the controllers and their mailboxes (R342-R344, R468), the admission of
commands (R335-R337, R471), LAUNCH as far as its placement, REPART (R360).
-/

namespace Sys2Proof.Machine

/-! ### Notification and the scanner (R338-R341, R469, R470) -/

/-- R338, R470. A store to the notify word of a queue. -/
def execNotifyStore (queue tail : Nat) (s : State) : Host.Outcome State Fault Refusal := .next (s.notifyStore queue tail)

/-- R338, R470: a queue is in service and has not stopped. -/
def State.queueRuns (s : State) (q : Nat) : Bool := s.dfld Dev.feQcfg q 63 1 == 1 && s.dfld Dev.feQcfg q 62 1 == 0

/-- R340. The scanner is woken by a notify that came while it was gated. -/
def execScannerWake (s : State) : Host.Outcome State Fault Refusal := .next (if s.pending.isEmpty then s else { s with gated := false })

/-- R340. The scanner's clock or power is gated, or ungated; pending bits are kept, and a scanner that has work runs again in time. -/
def execScannerGating (gated : Bool) (s : State) : Host.Outcome State Fault Refusal :=
  .next { s with gated := gated, wakeBy := if s.gated then s.wakeBy else s.now + wakeLimit }

/-- R341: the queue that the scanner visits next: the first pending one after that last visited. -/
def State.nextVisit (s : State) : Option Nat :=
  let d (q : Nat) := (q + 4096 - s.scanPos - 1) % 4096
  s.pending.foldl (fun b q => match b with
    | none => some q
    | some p => if d q < d p then some q else some p) none

/-- The answer to a read that a queue has sent to a peer: the bytes of its entry, or a failure. -/
def State.queueReply (s : State) (q i : Nat) : Option FabReq := s.fabReqs.find? fun r => r.user == .queue q i

/-- R334, R424: one entry of a queue, 64 bytes. -/
def State.queueEntry (s : State) (q i : Nat) : State × DevRead :=
  let n := 2 ^ s.dfld Dev.feQcfg q 48 5
  let va := s.dfld Dev.feQbase q 6 49 * 64 + 64 * (i % n)
  match s.queueReply q i with
  | some r => if r.err ≠ 0 then (s, .fails) else match r.reply with | some bs => (s, .bytes (slice bs 0 64)) | none => (s, .waits)
  | none =>
    match s.devPart (.queue q) 0x0104 (s.dfld Dev.feQcfg q 56 6) va 64 with
    | (s, .peer w o) =>
      match s.fabSend (.queue q i) 0 w o (.read 64) with
      | (s, some _) => (s, .waits)
      | (s, none) => (s, .fails)
    | r => r

/-- R341: `n` entries of a queue. -/
def State.queueEntries (s : State) (q i : Nat) : Nat → State × DevRead
  | 0 => (s, .bytes [])
  | n + 1 =>
    match s.queueEntry q i with
    | (s, .bytes a) =>
      match s.queueEntries q (i + 1) n with
      | (s, .bytes b) => (s, .bytes (a ++ b))
      | r => r
    | r => r

/-- R343: a command goes into the next mailbox slot of a controller. -/
def State.fillMailbox (s : State) (n : Nat) (k : Command) : State :=
  let f := s.fc n
  let m := f.filled % 64
  let put (d : SMap Byte) (a : Nat) (bs : List Byte) : SMap Byte := memWrite d a bs
  s.setFc n { f with
    mailbox := f.mailbox ++ [(f.filled, k)], filled := f.filled + 1
    dsram := put (put f.dsram (0x3C000 + 256 * m) k.bytes) (0x3BF00 + 4 * m) (toLE 4 k.queue) }

/-- R343: how many slots of a mailbox are filled and not consumed, as its registers give it; with 64 or more it is full. -/
def Controller.backlog (f : Controller) : Nat := (f.filled % 2 ^ 32 + 2 ^ 32 - f.consumed % 2 ^ 32) % 2 ^ 32

/-- R341: the scanner visits a queue. The first entry names how many are read, whether or not all have been notified; a slot holds the
first of them, and four at most, and HEAD passes as many as are named (log entry 27). -/
def State.visitQueue (s : State) (q : Nat) : State :=
  let s : State := { s with pending := s.pending.erase q, scanPos := q }
  let head := s.dfld Dev.feQhead q 0 32
  let tail := s.dfld Dev.feQtail q 0 32
  if !s.queueRuns q || head == tail then s
  else if 64 ≤ (s.fc (q % 4)).backlog then s.setPending q
  else
    match s.queueEntries q head 1 with
    | (s, .waits) => s.setPending q
    | (s, .poisoned) => s.stopQueue q 4
    | (s, .peer _ _) | (s, .fails) => s.stopQueue q 3
    | (s, .bytes e) =>
      let n := natAt e 1 1
      match s.queueEntries q head (Nat.max 1 (Nat.min n 4)) with
      | (s, .waits) => s.setPending q
      | (s, .poisoned) => s.stopQueue q 4
      | (s, .peer _ _) | (s, .fails) => s.stopQueue q 3
      | (s, .bytes bs) =>
        let s := (s.forgetQueue q).fillMailbox (q % 4) ⟨q, s.dfld Dev.feQcfg q 56 6, bs, s.now, none⟩
        let s := s.dset Dev.feQhead q (BitVec.ofNat 64 ((head + n) % 2 ^ 32))
        if (head + n) % 2 ^ 32 = tail then s else s.setPending q

/-- R341. The scanner visits the next pending queue. -/
def execScannerVisit (queue : Nat) (s : State) : Host.Outcome State Fault Refusal :=
  .next (if s.ready && !s.gated && !s.thermal && s.nextVisit == some queue then s.visitQueue queue else s)

/-! ### Controllers (R342-R344, R468) -/

/-- R468: a controller halts, and a record of KIND 20 is posted. -/
def State.haltFc (s : State) (n cause : Nat) : State :=
  (s.setFc n { s.fc n with halted := true, cause := cause }).record { kind := 20, source := 0x0100 + n, addr := n, aux := cause }

/-- R468: a mailbox slot is consumed; `mbhead` passes every slot whose command has been admitted or completed. -/
def State.consumeSlot (s : State) (n slot : Nat) : State :=
  let f := s.fc n
  let box := f.mailbox.filter fun (k, _) => k != slot
  let next := (box.map (·.1)).foldl Nat.min f.filled
  s.setFc n { f with mailbox := box, consumed := next }

/-- R336, R372: the commands of a controller that come next in their queues, oldest first, launches that wait for their placement among
them; those of a stopped VD are left out. -/
def State.candidates (s : State) (n : Nat) : List (Nat × Command) :=
  let box := (s.fc n).mailbox
  box.filter fun (k, c) => !(box.any fun (j, d) => d.queue == c.queue && j < k) && SMap.get 0 s.vdState c.vd == 0

/-! ### The format of commands (R335, R337, R345, R349, R354, R471) -/

/-- A field of a command. -/
def Command.at (k : Command) (off len : Nat) : Nat := natAt k.bytes off len

/-- The opcode. -/
def Command.opc (k : Command) : Nat := k.at 0 1

/-- R345: the fields of a launch block are within their limits. They are tested before the grid (R28): one with LX or LY 0, or above 96,
ends with BADCMD (log entry 27). -/
def launchOk (bs : List Byte) : Bool :=
  let f (o n : Nat) := natAt bs o n
  let mode := f 0x4D 1
  f 0x40 8 % 64 == 0 && decide (1 ≤ f 0x48 2 ∧ f 0x48 2 ≤ 4096) && decide (1 ≤ f 0x4A 1 ∧ f 0x4A 1 ≤ 96) &&
    decide (1 ≤ f 0x4B 1 ∧ f 0x4B 1 ≤ 96) && decide (f 0x4C 1 ≤ 1) && mode % 4 != 3 && mode / 8 % 4 != 3 && decide (mode < 32) &&
    f 0x50 16 == 0 && f 0xD8 40 == 0

/-- R335, R337: a command is well formed for its opcode. -/
def State.commandOk (s : State) (k : Command) : Bool :=
  let op := k.opc
  let nent := k.at 1 1
  let special := k.at 0x38 8
  k.at 2 2 == 0 && k.at 8 8 % 32 == 0 &&
    (match op with
     | 0 => nent == 1 && special == 0
     | 1 => nent == 4 && special == 0 && launchOk k.bytes
     | 2 => nent == 1 && s.dfld Dev.feFeatEn0 0 0 1 == 1
     | 3 => nent == 1 && special / 2 ^ 24 == 0
     | _ => false)

/-! ### Dependences (R336, R471) -/

/-- How the dependences of a command stand: met, not yet met, not known until a page or an answer comes, or ended in error. -/
inductive Dep where
  | met | open_ | asked | failed
deriving DecidableEq, Repr

/-- R336: what a signal says of a dependence on it. -/
def judgeDep (thr : Nat) (bs : List Byte) : Dep := if natAt bs 0x18 4 ≠ 0 then .failed else if thr ≤ natAt bs 0 8 then .met else .open_

/-- R336: one dependence of a command, or of a node's launch block; a signal on a peer's page is read anew each time; one
whose page is missing waits for it (log entry 16). -/
def State.dependence (s : State) (u : DevUser) (f : FabUser) (source vd addr thr : Nat) : State × Dep :=
  if addr = 0 then (s, .met)
  else
    match s.fabReqs.find? fun r => r.user == f with
    | some r =>
      if r.err ≠ 0 then (s.dropReq r.id, .failed)
      else match r.reply with | some bs => (s.dropReq r.id, judgeDep thr bs) | none => (s, .asked)
    | none =>
      match s.devPart u source vd addr 32 with
      | (s, .peer w o) =>
        match s.fabSend f 0 w o (.read 32) with
        | (s, some _) => (s, .asked)
        | (s, none) => (s, .failed)
      | (s, .waits) => (s, .asked)
      | _ =>
        match s.devRead u source vd addr 32 with
        | (s, .bytes bs) => (s, judgeDep thr bs)
        | (s, .waits) => (s, .asked)
        | (s, _) => (s, .failed)

/-- R336: both of two dependences. -/
def Dep.both (a b : Dep) : Dep :=
  if a = .failed ∨ b = .failed then .failed
  else if a = .open_ ∨ b = .open_ then .open_
  else if a = .met ∧ b = .met then .met
  else .asked

/-- R336: both dependences that the bytes of a command or of a launch block name. -/
def State.depsOf (s : State) (u : DevUser) (f : Nat → FabUser) (source vd : Nat) (bs : List Byte) : State × Dep :=
  match s.dependence u (f 0) source vd (natAt bs 0x10 8) (natAt bs 0x18 8) with
  | (s, .failed) => (s, .failed)
  | (s, a) =>
    let (s, b) := s.dependence u (f 1) source vd (natAt bs 0x20 8) (natAt bs 0x28 8)
    (s, a.both b)

/-- R336: the dependences of a command in a mailbox slot. -/
def State.dependences (s : State) (n slot : Nat) (k : Command) : State × Dep :=
  s.depsOf (.fc n) (.dep n slot) (0x0100 + n) k.vd k.bytes

/-! ### The end of a command (R337, R346, R471) -/

/-- A command ends with a code, and then does `more`; nothing of it happens while its signal waits for a page. A misaligned signal
address is recorded and not written. -/
def State.signalCommand (s : State) (n : Nat) (k : Command) (start : W64) (code : Nat) (more : State → State) : State :=
  match s.writeSignal (.fc n) (0x0100 + n) k.vd (k.at 4 4) (k.at 8 8) (BitVec.ofNat 64 (k.at 0x30 8)) start code with
  | (s, false) => s
  | (s, true) => more s

/-- A command in a mailbox slot ends in the step that admits it. -/
def State.endCommand (s : State) (n slot : Nat) (k : Command) (code : Nat) (more : State → State) : State :=
  s.signalCommand n k s.time code fun s => (more s).consumeSlot n slot

/-- R344: the polling slot of a controller's frame, of 256 in 4 µs, is the one that serves a command's queue. -/
def State.inSlot (s : State) (n : Nat) (k : Command) : Bool := 2 * (s.now - (s.fc n).frameAt) / 125 % 256 == k.queue / 4 % 256

/-- The commands of an opcode that a controller in service may serve in its polling slot. -/
def State.served (s : State) (n : Nat) (p : Command → Bool) : List (Nat × Command) :=
  if s.ready && !(s.fc n).halted then (s.candidates n).filter fun (_, k) => s.inSlot n k && p k else []

/-- R336: a launch of a mailbox slot waits for its placement no longer. -/
def State.unqueue (s : State) (n slot : Nat) : State := { s with groups := s.groups.filter fun g => g.mail != some (n, slot) }

/-- R336: each command of a list whose dependences are met is given to `go`; one with a dependence that ended in error ends with DEPFAIL,
and one with a dependence that is not met is not admitted. -/
def State.letIn (s : State) (n : Nat) (go : State → Nat → Command → State) : List (Nat × Command) → State
  | [] => s
  | (slot, k) :: rest =>
    match s.dependences n slot k with
    | (s, .met) => (go s slot k).letIn n go rest
    | (s, .failed) => ((s.unqueue n slot).endCommand n slot k 3 id).letIn n go rest
    | (s, .open_) => (s.unqueue n slot).letIn n go rest
    | (s, .asked) => s.letIn n go rest

/-- R337. A NOP writes its signal. -/
def execNopCommand (fc : Nat) (s : State) : Host.Outcome State Fault Refusal :=
  .next <| s.letIn fc (fun s slot k => s.endCommand fc slot k 0 id) (s.served fc fun k => k.opc == 0 && s.commandOk k)

/-- R335, R337, R345, R471. A malformed command ends with BADCMD. -/
def execBadcmd (fc : Nat) (s : State) : Host.Outcome State Fault Refusal :=
  .next <| (s.served fc fun k => !s.commandOk k).foldl (fun s (slot, k) => s.endCommand fc slot k 2 id) s

/-! ### LAUNCH (R28, R34, R345) -/

/-- R345: the group of a launch block, not yet placed. -/
def State.groupOfBlock (s : State) (vd : Nat) (bs : List Byte) (queued : Nat) (node : Option Nat) (mail : Option (Nat × Nat)) : Group :=
  let f (o n : Nat) := natAt bs o n
  { serial := s.gseq, gid := f 4 4, vd := vd, stab := f 0x40 8, scount := f 0x48 2, gridX := f 0x4A 1, gridY := f 0x4B 1
    learner := f 0x4C 1 == 1, mode := f 0x4D 1, prio := f 0x4E 2
    args := (List.range 15).map fun i => BitVec.ofNat 64 (f (0x60 + 8 * i) 8)
    sigAddr := f 8 8, sigVal := BitVec.ofNat 64 (f 0x30 8), queuedAt := queued, node := node, mail := mail, placed := false
    startTs := 0, startedAt := 0, sliceAt := 0, exited := 0, error := 0, ending := false, drainChosen := false }

/-- R34, R345: a group waits for its placement. -/
def State.queueGroup (s : State) (g : Group) : State := { s with gseq := (s.gseq + 1) % 2 ^ 32, groups := s.groups ++ [g] }

/-- R28, R34, R336, R345. A LAUNCH whose dependences are met is admitted to placement, or ends with GRID; one that waits for its placement
has its dependences read again. -/
def execLaunch (fc : Nat) (s : State) : Host.Outcome State Fault Refusal :=
  .next <| s.letIn fc (fun s slot k =>
      if s.groups.any fun g => g.mail == some (fc, slot) then s
      else if s.gridOk (k.at 0x4C 1 == 1) (k.at 0x4D 1) (k.at 0x4A 1) (k.at 0x4B 1) then
        s.queueGroup (s.groupOfBlock k.vd k.bytes k.placedAt none (some (fc, slot)))
      else s.endCommand fc slot k 1 id)
    (s.served fc fun k => k.opc == 1 && s.commandOk k)

/-! ### REPART (R359, R360) -/

/-- The clusters of a mask. -/
def maskClusters (m : Nat) : List Nat := (List.range 24).filter m.testBit

/-- R360: the contexts on clusters, in ascending physical tile number, bank A before bank B. -/
def ctxsOn (cls : List Nat) : List Nat := (List.range 192).filter fun c => cls.contains (clusterOf (tileOf c))

/-- R360 steps 1-3: a REPART that moves nothing is done at once; another takes every context of the moving set off its bank, and
its command ends with its commit. -/
def State.startRepart (s : State) (fc slot : Nat) (k : Command) : State :=
  let new := k.at 0x38 3
  let mv := maskClusters ((s.dfld Dev.pmMap 0 0 24 ^^^ new) % 2 ^ 24) |>.filter fun cl => !s.retiredCl cl && !(s.moves.any (·.clusters.contains cl))
  if mv.isEmpty then s.endCommand fc slot k 0 fun s => s.dsetFld Dev.pmMap 0 0 24 new
  else
    let s : State := { s with moves := s.moves ++ [⟨mv, new, some k, s.time, none, fc⟩] }
    (s.consumeSlot fc slot).takeOff 1 (fun s _ => s) (ctxsOn mv)

/-- R360. A REPART whose dependences are met is admitted, unless one is running. -/
def execRepart (fc : Nat) (s : State) : Host.Outcome State Fault Refusal :=
  .next <| if s.repartRuns then s
    else s.letIn fc (fun s slot k => if s.repartRuns then s else s.startRepart fc slot k) (s.served fc fun k => k.opc == 3 && s.commandOk k)

/-- R360 steps 4 and 5. When every bank of the moving set is Idle, the boundary moves; then the command's signal is written, and it ends. -/
def execRepartCommit (s : State) : Host.Outcome State Fault Refusal :=
  .next <| match s.moves.find? fun m => m.retireTile.isNone with
    | none => s
    | some m =>
      let left := m.clusters.filter fun cl => !(s.moves.any fun r => r.retireTile.isSome && r.clusters.contains cl)
      match m.command, (ctxsOn left).all fun c => (s.ctx c).st == .idle with
      | some k, true =>
        (s.dsetFld Dev.pmMap 0 0 24 m.newMask).signalCommand m.aux k m.startTs 0 fun (s : State) =>
          { s with moves := s.moves.filter fun r => r.retireTile.isSome }
      | _, _ => s

end Sys2Proof.Machine
end

