-- ==== Sys2Proof/Machine/Place.lean ====
section
/-!
DEFINITION. Placing a launch and starting its tasks (R31-R34, R57), the choice of victims and what becomes of them (R361-R364), the end
of a group (R30, R346, R414), and stopping, resuming and discarding a virtual device (R372).
-/

namespace Sys2Proof.Machine

/-! ### Placement (R31-R34) -/

/-- R31: the blocks of a grid in each direction. -/
def Group.blocksX (g : Group) : Nat := (g.gridX + 1) / 2
def Group.blocksY (g : Group) : Nat := (g.gridY + 1) / 2

/-- R31: the tasks of a block. -/
def Group.blockTasks (g : Group) (b : Nat) : List (Nat × Nat) :=
  let x := 2 * (b % g.blocksX)
  let y := 2 * (b / g.blocksX)
  [(x, y), (x + 1, y), (x, y + 1), (x + 1, y + 1)].filter fun (i, j) => i < g.gridX && j < g.gridY

/-- R33: the bank that a task takes on the tile of its cluster, beside banks already given away. -/
def State.seat (s : State) (g : Group) (taken : List Nat) (cl lx ly : Nat) : Option Nat :=
  let t := tileIn cl lx ly
  ((bankOrder g.mode).find? fun b => s.bankFree t b && !taken.contains (2 * t + b)).map fun b => 2 * t + b

/-- The seats of the tasks of a list, each with its cluster: task and context. -/
def State.seatAll (s : State) (g : Group) : List (Nat × Nat × Nat) → List Nat → Option (List (Nat × Nat × Nat))
  | [], _ => some []
  | (cl, lx, ly) :: rest, taken =>
    match s.seat g taken cl lx ly with
    | none => none
    | some c => (s.seatAll g rest (c :: taken)).map fun l => (lx, ly, c) :: l

/-- R31-R34, R52: the seats that a placement of whole blocks gives a group, where it is one. -/
def State.seats (s : State) (g : Group) (place : List (Nat × Nat)) : Option (List (Nat × Nat × Nat)) :=
  let cls := place.map (·.2)
  let die := dieOf ((cls.head?).getD 0)
  if place.map (·.1) = List.range (g.blocksX * g.blocksY) && cls.all (s.serves g.learner) &&
      (!dieSpan g.mode || (cls.all (dieOf · == die) && decide (s.dieGroups die < 16))) then
    s.seatAll g (place.flatMap fun (b, cl) => (g.blockTasks b).map fun (i, j) => (cl, i, j)) []
  else none

/-- What a cluster has free: its number, and the free banks of the tiles at (0,0), (1,0), (0,1), (1,1). -/
structure Room where
  cl : Nat
  a : Nat
  b : Nat
  c : Nat
  d : Nat

/-- The room of a cluster. -/
def State.room (s : State) (cl : Nat) : Room :=
  let free (i j : Nat) := ((List.range 2).filter (s.bankFree (tileIn cl i j))).length
  ⟨cl, free 0 0, free 1 0, free 0 1, free 1 1⟩

/-- A division of full blocks, right edges, bottom edges and corners over clusters, if there is one. -/
def pack : List Room → Nat → Nat → Nat → Nat → Option (List (Nat × Nat × Nat × Nat × Nat))
  | [], f, r, b, k => if f + r + b + k = 0 then some [] else none
  | m :: ms, f, r, b, k =>
    if (m :: ms).foldl (fun n x => n + x.a) 0 < f + r + b + k then none
    else
      let upTo (n : Nat) : List Nat := (List.range (Nat.min n 2 + 1)).reverse
      (upTo f).findSome? fun f' => (upTo r).findSome? fun r' => (upTo b).findSome? fun b' => (upTo k).findSome? fun k' =>
        if f' + r' + b' + k' ≤ m.a && f' + b' ≤ m.b && f' + r' ≤ m.c && f' ≤ m.d then
          (pack ms (f - f') (r - r') (b - b') (k - k')).map fun l => (m.cl, f', r', b', k') :: l
        else none

/-- The blocks of a kind are dealt out to clusters. -/
def deal (blocks : List Nat) : List (Nat × Nat) → List (Nat × Nat)
  | [] => []
  | (cl, n) :: rest => (blocks.take n).map (fun b => (b, cl)) ++ deal (blocks.drop n) rest

/-- A list in the order of a relation, equal elements as they stand. -/
def insertBy {α : Type} (le : α → α → Bool) (x : α) : List α → List α
  | [] => [x]
  | y :: ys => if le x y then x :: y :: ys else y :: insertBy le x ys

/-- Insertion sort. -/
def sortBy {α : Type} (le : α → α → Bool) (l : List α) : List α := l.foldr (insertBy le) []

/-- R34: a placement of all blocks of a group, if there is one. Of several, the clusters are filled from the lowest number on, and a die
span takes die 0 before die 1 (log entry 27). -/
def State.findPlace (s : State) (g : Group) : Option (List (Nat × Nat)) :=
  let all := (List.range 24).filter (s.serves g.learner)
  let pools := if dieSpan g.mode then ([0, 1].filter fun d => s.dieGroups d < 16).map fun d => all.filter (dieOf · == d) else [all]
  let blocks := List.range (g.blocksX * g.blocksY)
  let kind (x y : Bool) := blocks.filter fun b => ((g.blockTasks b).length == (if x then 2 else 1) * (if y then 2 else 1)) &&
    ((g.blockTasks b).any fun (i, _) => i % 2 == 1) == x
  let full := kind true true
  let right := kind false true
  let bottom := kind true false
  let corner := kind false false
  pools.findSome? fun cls =>
    (pack (cls.map s.room) full.length right.length bottom.length corner.length).map fun l =>
      sortBy (fun a b => a.1 ≤ b.1) (deal full (l.map fun (c, f, _) => (c, f)) ++ deal right (l.map fun (c, _, r, _) => (c, r)) ++
        deal bottom (l.map fun (c, _, _, b, _) => (c, b)) ++ deal corner (l.map fun (c, _, _, _, k) => (c, k)))

/-- R337, R372, R468: the front end may place a waiting group. -/
def State.mayPlace (s : State) (g : Group) : Bool :=
  !(g.mail.any fun (n, _) => (s.fc n).halted) && !g.placed && !g.ending && s.ready && !s.thermal && SMap.get 0 s.vdState g.vd == 0 && !s.images.any fun i => i.group == g.serial

/-- R345: of two waiting groups the first is placed before the second. -/
def Group.before (a b : Group) : Bool :=
  decide (b.prio < a.prio) || (a.prio == b.prio && (decide (a.queuedAt < b.queuedAt) || (a.queuedAt == b.queuedAt && decide (a.serial < b.serial))))

/-- R345: no other waiting group that could be placed goes before. -/
def State.isNext (s : State) (g : Group) : Bool :=
  !s.groups.any fun o => o.serial != g.serial && s.mayPlace o && o.before g && (s.findPlace o).isSome

/-- R57: a context at the start of a task. -/
def Group.startCtx (g : Group) (lx ly incarnation now : Nat) : Ctx :=
  { Ctx.init with
    st := .running
    s := (g.args.zipIdx.foldl (fun m (v, i) => SMap.set 0 m (i + 1) v) [])
    exec := some (Half.fetching 0), group := some g.serial, lx := lx, ly := ly, incarnation := incarnation, lastFirst := now, issuedAt := now }

/-- The mailbox slot of a group is consumed. -/
def State.consumeMail (s : State) (g : Group) : State :=
  match g.mail with
  | some (n, slot) => s.consumeSlot n slot
  | none => s

/-- R34, R57, R468: all tasks of a group start in one step, and its command is admitted. -/
def State.startGroup (s : State) (g : Group) (seats : List (Nat × Nat × Nat)) : State :=
  let s := seats.foldl (fun s (lx, ly, c) => s.setCtx c (g.startCtx lx ly (s.ctx c).incarnation s.now)) s
  (s.modGroup g.serial fun g => { g with placed := true, mail := none, startTs := s.time, startedAt := s.now, sliceAt := s.now }).consumeMail g

/-! ### Victims (R361-R364) -/

/-- Groups are gone from their banks. -/
def State.without (s : State) (gs : List Nat) : State :=
  { s with ctxs := s.ctxs.filter fun (_, x) => match x.group with | some n => !gs.contains n | none => true }

/-- The contexts that run the tasks of a group. -/
def State.groupCtxs (s : State) (n : Nat) : List Nat := (s.ctxs.filter fun (_, x) => x.group == some n).map (·.1)

/-- R361, R362: a group leaves its banks already, or was chosen to drain. -/
def State.leaves (s : State) (g : Group) : Bool :=
  g.ending || g.drainChosen || (s.groupCtxs g.serial).all fun c => !(s.ctx c).stays

/-- R362: the lengths of the images that a group's contexts would write. -/
def State.saveBytes (s : State) (n : Nat) : Nat :=
  ((s.groupCtxs n).map fun c => 0x718C0 + 8192 + 128 * (s.pinnedLines c).length).foldl (· + ·) 0

/-- R362: the estimated cost of saving and restoring a group, in µs. -/
def State.saveCost (s : State) (n : Nat) : Nat :=
  let bw := 1000 * Nat.max 1 (s.dfld Dev.scBw 0 0 32)
  (2 * s.saveBytes n + bw - 1) / bw

/-- R364: the quantum of a group, in µs. -/
def State.quantum (s : State) (n : Nat) : Nat := Nat.max (s.dfld Dev.scQmin 0 0 32) (s.saveCost n)

/-- R364. A context has run for its quantum. -/
def execQuantumExpiry (ctx : Nat) (s : State) : Host.Outcome State Fault Refusal :=
  let x := s.ctx ctx
  .next <| match x.group, x.quantumFrom with
    | some n, some t => if t + s.quantum n * cyclesPerUs ≤ s.now then s.modCtx ctx fun x => { x with quantumOver := true } else s
    | _, _ => s

/-- R364: a context of a group is within its quantum. -/
def State.withinQuantum (s : State) (n : Nat) : Bool := (s.groupCtxs n).any fun c => !(s.ctx c).quantumOver

/-- R361: the running groups that a launch may displace, in the order in which they are taken. -/
def State.victims (s : State) (g : Group) : List Group :=
  sortBy (fun (a b : Group) => decide (a.prio < b.prio) || (a.prio == b.prio && decide (b.startedAt ≤ a.startedAt)))
    (s.groups.filter fun (v : Group) => v.placed && v.learner == g.learner && decide (v.prio < g.prio) && !s.leaves v &&
      !(s.groupCtxs v.serial).isEmpty && !s.withinQuantum v.serial)

/-- R362: the estimate of the time that a group still needs, in µs. -/
def State.estimate (s : State) (n : Nat) : Nat :=
  ((s.groupCtxs n).map fun c => (((s.ctx c).exec.map (·.est)).getD 0xFFFFFFFF)).foldl Nat.max 0

/-- R362: a group is drained, killed or checkpointed for a launch of PRIO `t`. -/
def State.displace (s : State) (t : Nat) (g : Group) : State :=
  let cs := s.groupCtxs g.serial
  let e := s.estimate g.serial
  let drain : State := (s.modGroup g.serial fun g => { g with drainChosen := true }).dcount Dev.scStat 0 0 16
  if g.class = 0 ∨ (e ≠ 0xFFFFFFFF ∧ e ≤ s.dfld Dev.scDrainMax 0 0 32) then drain
  else if g.class = 2 ∧ s.dfld Dev.scKillMin 0 0 16 ≤ t then
    ((cs.foldl (fun s c => s.modCtx c fun x => { (x.stopTo .kill) with rerun := none }) s).failGroup g.serial 4).dcount Dev.scStat 0 32 16
  else
    let slots := s.freeSlots g.vd
    if slots.length < cs.length then drain else (cs.zip slots).foldl (fun s (c, slot) => s.toSave c 0 slot) s

/-- R361: a launch that cannot be placed takes as many groups off their banks as it needs, and none where that would not do. -/
def State.makeRoom (s : State) (g : Group) : State :=
  let leaving := (s.groups.filter s.leaves).map (·.serial)
  let fits (vs : List Group) : Bool := ((s.without (leaving ++ vs.map (·.serial))).findPlace g).isSome
  let vs := s.victims g
  if fits [] then s
  else
    match (List.range (vs.length + 1)).find? fun n => fits (vs.take n) with
    | none => s
    | some n => (vs.take n).foldl (fun s v => s.displace g.prio v) s

/-- R31-R34, R57, R361. A waiting group is placed and starts; where `place` is empty, groups of lower PRIO make room for one that
cannot be placed. A grid that its partition no longer holds ends with GRID. -/
def execLaunchPlacement (serial : Nat) (place : List (Nat × Nat)) (s : State) : Host.Outcome State Fault Refusal :=
  .next <| match s.group serial with
    | none => s
    | some g =>
      if !s.mayPlace g then s
      else if !s.gridOk g.learner g.mode g.gridX g.gridY then
        (s.modGroup serial fun g => { g with placed := true, ending := true, error := 1, mail := none, startTs := s.time }).consumeMail g
      else if place.isEmpty then (if (s.findPlace g).isSome then s else s.makeRoom g)
      else
        match s.seats g place with
        | some l => if s.isNext g then s.startGroup g l else s
        | none => s

/-- R361, R364. A group's slice ends: it counts where it was stretched, and the group makes way for a waiting launch of equal PRIO. -/
def execSliceEnd (serial : Nat) (s : State) : Host.Outcome State Fault Refusal :=
  let slice := s.dfld Dev.scSlice 0 0 32
  let q := s.quantum serial
  .next <| match s.group serial with
    | none => s
    | some g =>
      if slice = 0 || !g.placed || s.leaves g || (s.groupCtxs serial).isEmpty || decide (s.now < g.sliceAt + Nat.max slice q * cyclesPerUs) then s
      else
        let s := if slice < q then s.dcount Dev.scStat 0 48 16 else s
        let s := s.modGroup serial fun g => { g with sliceAt := s.now }
        if !s.withinQuantum serial && s.groups.any (fun w => s.mayPlace w && w.prio == g.prio) then s.displace g.prio g else s

/-! ### The end of a group (R30, R134, R346, R414) -/

/-- R30, R134: nothing of a group runs any more: no task in a bank, no image, no engine command. -/
def State.groupOver (s : State) (g : Group) : Bool :=
  g.placed && (s.groupCtxs g.serial).isEmpty && (s.groupImages g.serial).isEmpty && !(s.cmds.any (·.group == g.serial))

/-- A node of a task graph changed. -/
def State.modNode (s : State) (n : Nat) (f : Node → Node) : State :=
  { s with nodes := s.nodes.map fun k => if k.id = n then f k else k }

/-- R351: a replay has ended, with error or without: the buffer is there again, or its consumers will end with REPLAYFAIL. -/
def State.replayEnds (s : State) (buf : Nat) (failed : Bool) : State :=
  let s := { s with nodes := s.nodes.map fun (k : Node) => if k.replayFor = some buf then { k with phase := if k.phase = 3 then 2 else k.phase, replayFor := none } else k }
  s.modNode buf fun k => if failed then { k with error := 7 } else { k with discarded := false }

/-- R351: the replay of a buffer is over when every node of its sub-graph has ended again. -/
def State.replayOver (s : State) (buf : Nat) : State :=
  if s.nodes.any fun k => k.replayFor == some buf && k.phase != 2 then s else s.replayEnds buf false

/-- R350: a node has ended with an error code; one that was launched again brings its replay on. -/
def State.nodeOver (s : State) (n code : Nat) : State :=
  match s.nodes.find? (·.id == n) with
  | none => s
  | some k =>
    match k.replayFor with
    | some buf =>
      let s := s.modNode n fun k => { k with phase := 2, discarded := if n = buf then k.discarded else false }
      if code = 0 then s.replayOver buf else s.replayEnds buf true
    | none =>
      let s := s.modNode n fun k => { k with phase := 2, error := code }
      -- a graph that has ended whole is no longer loaded
      if s.nodes.any fun o => o.graph == k.graph && o.phase != 2 then s else { s with nodes := s.nodes.filter fun o => o.graph != k.graph }

/-- R350, R351: the node of a group that has ended takes its error code. -/
def State.nodeEnds (s : State) (g : Group) : State :=
  match g.node with
  | none => s
  | some n => s.nodeOver n g.error

/-- R30, R346, R414. The images of a group that ends early are discarded; when nothing of it runs any more its signal is written, and
it is gone. -/
def execTaskGroupEnd (serial : Nat) (s : State) : Host.Outcome State Fault Refusal :=
  .next <| match s.group serial with
    | none => s
    | some g =>
      if g.ending && !(s.groupImages serial).isEmpty then (s.groupImages serial).foldl State.discardImage s
      else if !s.groupOver g then s
      else
        match s.writeSignal (.group serial) 0x0105 g.vd g.gid g.sigAddr g.sigVal g.startTs g.error with
        | (s, false) => s
        | (s, true) => { s.nodeEnds g with groups := s.groups.filter fun o => o.serial != serial }

/-! ### Stopping, resuming and discarding a virtual device (R372) -/

/-- R372: a VD stops: its contexts are taken off their banks. -/
def State.vdStop (s : State) (vd : Nat) : State :=
  if SMap.get 0 s.vdState vd ≠ 0 then s
  else
    let s := { s with vdState := SMap.set 0 s.vdState vd 1 }
    s.takeOff 3 (fun s _ => s) ((List.range 192).filter fun c => (s.ctx c).group.isSome && s.vdOf c == vd)

/-- R372. A write of 1 to SC_VDCTL stops a virtual device. -/
def execVdStop (vd : Nat) (s : State) : Host.Outcome State Fault Refusal := .next (s.configWrite fun s => s.vdStop vd)

/-- R372. When every context of a stopping VD is Idle, it is stopped. -/
def execVdStopped (vd : Nat) (s : State) : Host.Outcome State Fault Refusal :=
  .next <| if SMap.get 0 s.vdState vd = 1 ∧ !(s.ctxs.any fun (c, x) => x.group.isSome && s.vdOf c == vd) then
      { s with vdState := SMap.set 0 s.vdState vd 2 }
    else s

/-- R367, R372: an image that another chip saved, as its header gives it, and its group. -/
def State.adoptImage (s : State) (vd slot : Nat) : State :=
  let b := s.phys (s.slotBase vd slot) 256
  let f (o n : Nat) := natAt b o n
  let vers := f 0x28 8
  let img (serial : Nat) : Image :=
    { vd := vd, slot := slot, group := serial, lx := f 0x0C 1, ly := f 0x0D 1, reason := f 7 1, order := s.serial, wset := vers / 2 ^ 32 % 64
      version := vers % 2 ^ 32, entry := 0, phaseTs := 0, rerun := none, foreign := true }
  let gseq := f 0x4C 4
  match s.groups.find? fun g => g.vd == vd && g.serial == gseq with
  | some g =>
    { s with
      images := s.images ++ [img g.serial], serial := s.serial + 1
      groups := s.groups.map fun o => if o.serial = g.serial then { o with exited := Nat.max o.exited (f 0x4A 2) } else o }
  | none =>
    let g : Group :=
      { serial := gseq, gid := f 8 4, vd := vd, stab := f 0x40 8, scount := f 0x48 2, gridX := f 0x0E 1, gridY := f 0x0F 1
        learner := f 0x14 1 == 1, mode := f 0x11 1, prio := f 0x12 2, args := [], sigAddr := f 0x50 8, sigVal := BitVec.ofNat 64 (f 0x58 8)
        queuedAt := s.now, node := none, mail := none, placed := true, startTs := BitVec.ofNat 64 (f 0x74 8), startedAt := s.now
        sliceAt := s.now, exited := f 0x4A 2, error := 0, ending := false, drainChosen := false }
    { s with images := s.images ++ [img gseq], serial := s.serial + 1, groups := s.groups ++ [g], gseq := (Nat.max s.gseq (gseq + 1)) % 2 ^ 32 }

/-- R372: a VD resumes: every slot with an image is read, and its queues admit again. -/
def State.vdResume (s : State) (vd : Nat) : State :=
  let held := (s.slots vd).filter (s.slotHolds vd)
  if SMap.get 0 s.vdState vd ≠ 2 ∧ held.isEmpty then s
  else
    let new := held.filter fun n => !s.images.any fun i => i.vd == vd && i.slot == n
    new.foldl (fun s n => s.adoptImage vd n) { s with vdState := SMap.set 0 s.vdState vd 0 }

/-- R372. A write of 2 to SC_VDCTL resumes a virtual device. -/
def execVdResume (vd : Nat) (s : State) : Host.Outcome State Fault Refusal := .next (s.configWrite fun s => s.vdResume vd)

/-- R372: every image of a VD is removed, and the groups that had one end with KILLED. -/
def State.vdDiscard (s : State) (vd : Nat) : State :=
  let mine := s.images.filter (·.vd == vd)
  let s := mine.foldl State.discardImage s
  let s := ((s.slots vd).filter (s.slotHolds vd)).foldl (fun s n => s.clearSlot vd n) s
  (mine.map (·.group)).eraseDups.foldl (fun s n => (s.stopGroup n (2 ^ 16)).failGroup n 4) s

/-- R372. A write of 3 to SC_VDCTL discards the images of a virtual device. -/
def execVdDiscard (vd : Nat) (s : State) : Host.Outcome State Fault Refusal := .next (s.configWrite fun s => s.vdDiscard vd)

end Sys2Proof.Machine
end

