-- ==== Sys2Proof/Machine/Graph.lean ====
section
/-!
DEFINITION. The task-graph scheduler (R349-R352): loading graphs, launching nodes, backing and discarding activation buffers, replays.
-/

namespace Sys2Proof.Machine

/-! ### Loading (R349) -/

/-- R349: a node from its 64 bytes; `none` where a field breaks its limits. -/
def Node.ofBytes (graph vd : Nat) (b : List Byte) : Option Node :=
  let f (o n : Nat) := natAt b o n
  if 16383 < f 0 2 ∨ 8 < f 2 1 ∨ 1 < f 3 1 ∨ f 0x1C 4 ≠ 0 ∨ f 0x30 16 ≠ 0 ∨ f 0x10 8 % 2 ^ 16 ≠ 0 then none
  else
    some { id := f 0 2, graph := graph, vd := vd, preds := (List.range (f 2 1)).map fun i => f (0x20 + 2 * i) 2, recomp := f 3 1 == 1
           bufLen := f 4 4, launch := f 8 8, buf := f 0x10 8, rstart := f 0x18 2, rcount := f 0x1A 2, phase := 0, error := 0, backed := []
           discarded := false, replayFor := none }

/-- The nodes of a graph from their bytes. -/
def nodesOf (graph vd : Nat) (bs : List Byte) : Nat → Option (List Node)
  | 0 => some []
  | n + 1 =>
    match Node.ofBytes graph vd (slice bs 0 64), nodesOf graph vd (bs.drop 64) n with
    | some k, some l => some (k :: l)
    | _, _ => none

/-- R349: the identifiers are unique among the loaded nodes, and every predecessor is loaded. -/
def State.graphOk (s : State) (l : List Node) : Bool :=
  let ids := s.nodes.map (·.id) ++ l.map (·.id)
  ids.eraseDups.length == ids.length && l.all fun k => k.preds.all ids.contains

/-- R349: the nodes of a GRAPH command are loaded. Nodes that are too many, cannot be read, or break their limits, give BADCMD. -/
def State.loadGraph (s : State) (fc slot : Nat) (k : Command) : State :=
  let n := k.at 4 4
  if 16384 < s.nodes.length + n then s.endCommand fc slot k 2 id
  else
  match s.devRead (.fc fc) 0x0105 k.vd (k.at 0x38 8) (64 * n) with
  | (s, .waits) => s
  | (s, .bytes bs) =>
    match nodesOf s.serial k.vd bs n with
    | some l =>
      if s.graphOk l then s.endCommand fc slot k 0 fun s => { s with nodes := s.nodes ++ l, serial := s.serial + 1 } else s.endCommand fc slot k 2 id
    | none => s.endCommand fc slot k 2 id
  | (s, _) => s.endCommand fc slot k 2 id

/-- R349. A GRAPH whose dependences are met loads its nodes. -/
def execGraph (fc : Nat) (s : State) : Host.Outcome State Fault Refusal :=
  .next <| s.letIn fc (fun s slot k => s.loadGraph fc slot k) (s.served fc fun k => k.opc == 2 && s.commandOk k)

/-! ### Backing buffers (R351, R352) -/

/-- The place of the level-2 stage-2 descriptor of an intermediate page, where the tables above it are there. -/
def State.leafSlot (s : State) (vd ipa : Nat) : Option Nat :=
  let down (table level : Nat) : Option Nat :=
    let d := s.physNat (table + 8 * levelIndex ipa level) 8
    if d % 4 = 1 ∧ !badTableDesc d then some (fld d 16 36 * 2 ^ 16) else none
  (down (s.dfld Dev.mmVdcfg vd 16 36 * 2 ^ 16) 0).bind fun t => (down t 1).map fun t => t + 8 * levelIndex ipa 2

/-- R352: the intermediate page of a page of a buffer. -/
def State.bufPage (s : State) (vd va : Nat) : Option Nat :=
  match (s.walkStage1 vd (va % 2 ^ 55) 3 0 (s.dfld Dev.mmVds1 vd 16 36 * 2 ^ 16)).2 with
  | .ok l => some (l.place (va % 2 ^ 55) / 2 ^ 16 * 2 ^ 16)
  | .error _ => none

/-- R352: the intermediate pages of a node's buffer, or `none` where it cannot be backed. -/
def State.bufPages (s : State) (k : Node) : Option (List Nat) :=
  let lo := s.dfld Dev.feActwin k.vd 16 36 * 2 ^ 16
  let hi := lo + s.dfld Dev.feActlen k.vd 0 32 * 2 ^ 16
  if s.dfld Dev.fePoolCfg 0 63 1 = 0 ∨ s.dfld Dev.feActwin k.vd 63 1 = 0 then none
  else
    (List.range k.bufLen).foldl (fun acc i =>
      match acc, s.bufPage k.vd (k.buf + i * 2 ^ 16) with
      | some l, some ipa => if lo ≤ ipa ∧ ipa < hi ∧ (s.leafSlot k.vd ipa).isSome then some (l ++ [ipa]) else none
      | _, _ => none) (some [])

/-- The physical address of a unit of the pool. -/
def State.unitAt (s : State) (u : Nat) : Nat := s.dfld Dev.fePoolCfg 0 16 36 * 2 ^ 16 + u * 2 ^ 16

/-- R352: pages are backed, one free unit each. -/
def State.back (s : State) (k : Node) (pages : List Nat) : State :=
  let units := s.pool.take pages.length
  let s : State := { s with pool := s.pool.drop pages.length }
  let s := (pages.zip units).foldl (fun s (ipa, u) =>
    match s.leafSlot k.vd ipa with
    | some a => s.home a (toLE 8 (s.unitAt u + 0xE))
    | none => s) s
  s.modNode k.id fun k => { k with backed := pages.zip units }

/-- How the backing of a node's buffer stands. -/
inductive Backing where
  | done | waits | impossible
deriving DecidableEq, Repr

/-- R351, R352: a node's buffer is backed, unless it is already. -/
def State.backNode (s : State) (k : Node) : State × Backing :=
  if k.bufLen = 0 ∨ !k.backed.isEmpty then (s, .done)
  else
    match s.bufPages k with
    | none => (s, .impossible)
    | some pages => if s.pool.length < pages.length then (s, .waits) else (s.back k pages, .done)

/-! ### Launching nodes (R350, R351) -/

/-- A node with its identifier. -/
def State.node (s : State) (n : Nat) : Option Node := s.nodes.find? (·.id == n)

/-- The predecessors of a node. -/
def State.predsOf (s : State) (k : Node) : List Node := k.preds.filterMap s.node

/-- R350: a node's turn has come: its predecessors have ended; in a replay, those of the same replay have ended again. -/
def State.nodeTurn (s : State) (k : Node) : Bool :=
  (k.phase == 0 || k.phase == 3) && (s.predsOf k).all fun p => p.phase == 2 || (k.phase == 3 && (p.phase == 3 || p.phase == 4) && p.replayFor != k.replayFor)

/-- R350, R351: the error with which a node ends because of its predecessors, or 0. -/
def State.nodeError (s : State) (k : Node) : Nat :=
  let ps := s.predsOf k
  if ps.any fun p => p.discarded && p.error == 7 then 7 else if ps.any fun p => p.error != 0 then 3 else 0

/-- R350: a node ends without a task, and its launch block's signal says so. -/
def State.nodeFails (s : State) (k : Node) (bs : List Byte) (code : Nat) : State :=
  match s.writeSignal (.node k.id) 0x0105 k.vd (natAt bs 4 4) (natAt bs 8 8) (BitVec.ofNat 64 (natAt bs 0x30 8)) s.time code with
  | (s, false) => s
  | (s, true) => s.nodeOver k.id code

/-- R336, R350-R352: a node whose turn has come is launched as a queued command is: its launch block is read, its dependences are awaited,
its buffer is backed, and its group waits for placement. -/
def State.launchNode (s : State) (k : Node) : State :=
  match s.devRead (.node k.id) 0x0105 k.vd k.launch 256 with
  | (s, .waits) => s
  | (s, .bytes bs) =>
    let f (o n : Nat) := natAt bs o n
    let code := s.nodeError k
    if code ≠ 0 then s.nodeFails k bs code
    else if f 0 1 ≠ 1 ∨ f 1 1 ≠ 4 ∨ f 2 2 ≠ 0 ∨ f 0x38 8 ≠ 0 ∨ f 8 8 % 32 ≠ 0 ∨ !launchOk bs then s.nodeFails k bs 2
    else
      match s.depsOf (.node k.id) (.dep 4 k.id) 0x0105 k.vd bs with
      | (s, .failed) => s.nodeFails k bs 3
      | (s, .open_) | (s, .asked) => s
      | (s, .met) =>
        if !s.gridOk (f 0x4C 1 == 1) (f 0x4D 1) (f 0x4A 1) (f 0x4B 1) then s.nodeFails k bs 1
        else
          match s.backNode k with
          | (s, .waits) => s
          | (s, .impossible) => s.nodeFails k bs 2
          | (s, .done) =>
            (s.queueGroup (s.groupOfBlock k.vd bs s.now (some k.id) none)).modNode k.id fun k => { k with phase := if k.phase = 3 then 4 else 1 }
  | (s, _) => s.nodeFails k (zeros 256) (if s.nodeError k = 0 then 2 else s.nodeError k)

/-- R350. A node is launched once its predecessors have ended, or ends with their error. -/
def execGraphNodeLaunch (node : Nat) (s : State) : Host.Outcome State Fault Refusal :=
  .next <| match s.node node with
    | none => s
    | some k =>
      -- a discarded buffer that the node reads is replayed first
      let waits := s.nodeError k = 0 && (s.predsOf k).any fun p => p.discarded && !(k.phase == 3 && p.replayFor == k.replayFor)
      if s.ready && SMap.get 0 s.vdState k.vd == 0 && s.nodeTurn k && !waits then s.launchNode k else s

/-! ### Discarding and replaying buffers (R351) -/

/-- The nodes that read a node's buffer. -/
def State.consumers (s : State) (n : Nat) : List Node := s.nodes.filter fun k => k.preds.contains n

/-- R351: a running group names a buffer. -/
def State.bufInUse (s : State) (n : Nat) : Bool :=
  s.groups.any fun g => g.placed && match g.node with
    | none => false
    | some m => m == n || ((s.node m).map fun k => k.preds.contains n).getD false

/-- A node is launched, and its group waits for its placement. -/
def State.nodeWaits (s : State) (k : Node) : Bool := k.phase == 1 && s.groups.any fun g => g.node == some k.id && !g.placed

/-- R351: a node has not yet started. -/
def State.unstarted (s : State) (k : Node) : Bool := k.phase == 0 || s.nodeWaits k

/-- R351: the lowest waiting consumer of a buffer that may be discarded. -/
def State.discardKey (s : State) (k : Node) : Option Nat :=
  let waiting := (s.consumers k.id).filter s.unstarted
  if k.recomp && k.phase == 2 && !k.backed.isEmpty && !waiting.isEmpty && !s.bufInUse k.id && k.replayFor.isNone then
    some ((waiting.map (·.id)).foldl Nat.min 16384)
  else none

/-- R351: the buffer that is discarded next. -/
def State.nextDiscard (s : State) : Option Nat :=
  (s.nodes.foldl (fun (b : Option (Nat × Nat)) k =>
    match s.discardKey k, b with
    | some m, none => some (k.id, m)
    | some m, some (_, m') => if m' < m then some (k.id, m) else b
    | none, _ => b) none).map (·.1)

/-- R351: the pool is below its watermark. -/
def State.poolLow (s : State) : Bool := decide (s.pool.length < s.dfld Dev.fePoolWm 0 0 32)

/-- R351: the consumers of a buffer whose groups wait for placement are launched anew, once it is there again. -/
def State.relaunch (s : State) (n : Nat) : State :=
  let ids := ((s.consumers n).filter s.nodeWaits).map (·.id)
  { s with
    groups := s.groups.filter fun g => g.placed || !(g.node.any ids.contains)
    nodes := s.nodes.map fun (k : Node) => if ids.contains k.id then { k with phase := 0 } else k }

/-- R352: a buffer's pages are unbacked, and its units return. -/
def State.unback (s : State) (k : Node) : State :=
  let s := k.backed.foldl (fun s (ipa, u) =>
    let s := (s.loseWatches k.vd (.ipa (ipa / 2 ^ 16) 1)).shoot k.vd (.ipa (ipa / 2 ^ 16) 1)
    let s := (List.range 96).foldl (fun s t => s.dropCopies t (s.unitAt u) (2 ^ 16)) s
    match s.leafSlot k.vd ipa with
    | some a => let d := s.physNat a 8; s.home a (toLE 8 (d - d % 4))
    | none => s) s
  { s.modNode k.id fun k => { k with backed := [], discarded := true } with pool := s.pool ++ k.backed.map (·.2) }

/-- R351, R352. The scheduler discards a buffer while the pool is below its watermark, once no access of its pages is under way. -/
def execActivationDiscard (buf : Nat) (s : State) : Host.Outcome State Fault Refusal :=
  .next <| match s.node buf with
    | none => s
    | some k =>
      if s.ready && s.poolLow && s.nextDiscard == some buf && !(k.backed.any fun (_, u) => s.pageBusy (s.unitAt u)) then (s.relaunch buf).unback k else s

/-- R351. The buffer of a waiting consumer is backed again, and its sub-graph is to be replayed. -/
def execBufferReplay (buf : Nat) (s : State) : Host.Outcome State Fault Refusal :=
  .next <| match s.node buf with
    | none => s
    | some k =>
      let wanted := (s.consumers buf).any fun c => s.nodeTurn c && c.replayFor != some buf
      let sub := s.nodes.filter fun n => k.rstart ≤ n.id && n.id < k.rstart + k.rcount && n.graph == k.graph
      if !k.discarded || k.error == 7 || !wanted || (s.nodes.any fun n => n.replayFor == some buf) || (sub.any fun n => n.phase != 2 || n.replayFor.isSome)
      then s
      else
        match s.backNode k with
        | (s, .waits) => s
        | (s, .impossible) => s.modNode buf fun k => { k with error := 7 }
        | (s, .done) =>
          { s with nodes := s.nodes.map fun (n : Node) =>
            if sub.any (·.id == n.id) then { n with phase := 3, replayFor := some buf } else n }.replayOver buf

end Sys2Proof.Machine
end

