-- ==== Sys2Proof/Machine/Reliability.lean ====
section
/-!
DEFINITION. Soft errors and poison (R441-R443, R469), the noise source's failures (R453), patrol scrub (R458), the health store
(R459, R460), the thermal trip (R24), cold reset (R25, R358), and attestation (R404).
-/

namespace Sys2Proof.Machine

/-! ### Counting (R458, R459, R451) -/

/-- R458: a correctable error is counted. -/
def State.countCe (s : State) : State := s.dcount Dev.reStat 0 48 16

/-- R458: an uncorrectable error is counted. -/
def State.countUe (s : State) : State := s.dcount Dev.reStat 0 32 16

/-- R451: a located bin of a tile that reaches the limit retires the tile. -/
def State.binLimit (s : State) (tile v : Nat) : State :=
  let limit := s.dfld Dev.reCtl 0 16 16
  if limit ≠ 0 ∧ limit ≤ v then s.retireTile tile none (2 ^ 10) else s

/-- R459: an error is added to a lane bin of a tile. -/
def State.laneBin (s : State) (tile lane : Nat) : State :=
  let k := 64 * tile + lane % 64
  let s := s.countHealth fun h => { h with lane := countUp 16 h.lane k }
  s.binLimit tile (SMap.get 0 s.health.lane k)

/-- R459: an error is added to a sub-array bin of a tile. -/
def State.subBin (s : State) (tile sub : Nat) : State :=
  let k := 48 * tile + sub
  let s := s.countHealth fun h => { h with subArray := countUp 16 h.subArray k }
  s.binLimit tile (SMap.get 0 s.health.subArray k)

/-! ### Soft errors (R441-R443, R468, R469) -/

/-- R441, R456: a line of memory is poisoned, and a record of KIND 6 is posted. -/
def State.poisonFound (s : State) (addr unit source : Nat) (o : Origin) : State :=
  (s.poisonLine (addr / 128) o).record { kind := 6, source := source, unit := unit, addr := addr / 128 * 128, aux := unit }

/-- R442: a register of a context is poisoned. -/
def State.poisonReg (s : State) (c : Nat) (r : PReg) (unit loc : Nat) : State :=
  s.modCtx c fun x => x.mark r false (some (.tile unit loc 0))

/-- R441: an error in a register file without lane bins. -/
def State.fileError (s : State) (c : Nat) (r : PReg) (correctable : Bool) : State :=
  if correctable then s.countCe else s.countUe.poisonReg c r 4 0xFFFF

/-- R441, R459: an error in a lane of a vector or tile register. -/
def State.laneError (s : State) (c : Nat) (r : PReg) (unit lane : Nat) (correctable : Bool) : State :=
  let s := if correctable then s.countCe else s.countUe.poisonReg c r unit (lane % 64)
  s.laneBin (tileOf c) lane

/-- R443: the unit of R417 whose register a result goes to. -/
def Landing.unit : Landing → Nat
  | .vreg .. | .last .. | .push .. => 2
  | .treg .. => 3
  | _ => 4

/-- R443: a result in flight is poisoned. -/
def State.poisonFlight (s : State) (c id unit loc : Nat) : State :=
  s.modCtx c fun x => { x with flights := x.flights.map fun f => if f.id = id then { f with poison := some (.tile unit loc 0) } else f }

/-- R441: an error in a tile's cached line: a clean one is dropped, a dirty one written back poisoned. -/
def State.cacheError (s : State) (tile addr : Nat) (correctable : Bool) : State :=
  match s.cached tile (addr / 128) with
  | none => s
  | some l =>
    let lane := addr % 256 / 4
    let s :=
      if correctable then s.countCe
      else if l.dirty.isEmpty then (s.uncache tile l.line).countCe
      else (((s.writeBack l).uncache tile l.line).countUe).poisonFound addr 1 (2 * tile) (.tile 1 lane addr)
    s.laneBin tile lane

/-- R441-R443, R468, R469: an error is found, and corrected or not. -/
def State.softError (s : State) (site : Site) (correctable : Bool) : State :=
  match site with
  | .hbm channel addr =>
    if hbmSize ≤ addr then s
    else if correctable then (s.countHealth fun h => { h with hbmCe := countUp 32 h.hbmCe channel }).countCe
    else ((s.countHealth fun h => { h with hbmUe := countUp 32 h.hbmUe channel }).countUe).poisonFound addr 6
      (0x280 + homeSlice addr) (.outside 6)
  | .llc addr dirty =>
    if hbmSize ≤ addr then s
    else if correctable then (s.countHealth fun h => { h with sliceCe := countUp 32 h.sliceCe (homeSlice addr) }).countCe
    else
      let s := (s.countHealth fun h => { h with sliceUe := countUp 32 h.sliceUe (homeSlice addr) }).countUe
      if dirty then s.poisonFound addr 5 (0x280 + homeSlice addr) (.outside 5) else s
  | .line addr =>
    if hbmSize ≤ addr then s
    else if correctable then s.countCe
    else s.countUe.poisonFound addr 6 (0x280 + homeSlice addr) (.outside 6)
  | .scratch tile addr =>
    let l := s.sline tile addr
    if l.pin.isNone then s
    else if correctable then s.countCe.laneBin tile (addr % 256 / 4)
    else (s.countUe.setSline tile addr { l with poison := some (.tile 1 (addr % 256 / 4) addr) }).laneBin tile (addr % 256 / 4)
  | .cache tile addr => s.cacheError tile addr correctable
  | .vector c n lane => s.laneError c (.v n) 2 lane correctable
  | .tileReg c n lane => s.laneError c (.t n) 3 lane correctable
  | .scalar c n => if n = 0 then s else s.fileError c (.s n) correctable
  | .staging c n => s.fileError c (.g n) correctable
  | .handle c n => s.fileError c (.h n) correctable
  | .control c n => s.fileError c (.csr n) correctable
  | .predicates c => s.fileError c .preds correctable
  | .loopBuffer c n =>
    if correctable then s.countCe
    else s.countUe.modCtx c fun x => { x with exec := x.exec.map fun (h : Half) => { h with bad := some n } }
  | .queueState q => if correctable then s.countCe else s.countUe.stopQueue q 4
  | .pendingVector => if correctable then s.countCe else { s.countCe with pending := List.range 4096, wakeBy := s.now + wakeLimit }
  | .controllerSram n => if correctable then s.countCe else s.countUe.haltFc n 2
  | .datapath c id =>
    if correctable then s.countCe
    else
      match (s.ctx c).flights.find? (·.id == id) with
      | none => s
      | some f => s.countUe.poisonFlight c id ((f.lands.head?.map Landing.unit).getD 4) 0xFFFF
  | .matrix c id i j =>
    match (s.ctx c).flights.find? (·.id == id) with
    | none => s
    | some f =>
      let sub := 16 * f.unit.getD 0 + 4 * (i / 16) + j / 16
      (if correctable then s.countCe else s.countUe.poisonFlight c id 8 (0x100 + sub)).subBin (tileOf c) sub

/-- R441-R443. A storage or datapath error is detected: corrected and counted, or poisoned. -/
def execSoftError (site : Site) (correctable : Bool) (s : State) : Host.Outcome State Fault Refusal :=
  .next (s.softError site correctable)

/-- R458. The patrol scrub reads a place: it finds no error (0), one that it corrects (1), or one that it poisons (2). -/
def execPatrolScrub (site : Site) (err : Nat) (s : State) : Host.Outcome State Fault Refusal :=
  .next <| if s.dfld Dev.reCtl 0 32 32 = 0 ∨ err = 0 then s else s.softError site (err == 1)

/-! ### The noise source (R80, R453) -/

/-- The noise source of a tile. -/
def State.noiseOf (s : State) (tile : Nat) : Noise := SMap.get Noise.good s.noise tile

/-- R453. A health test fails (`test`: bit 0 repetition count, bit 1 adaptive proportion): the source stops delivering bits; the
third failure with no passing period of 1 s between retires the tile. -/
def execNoiseHealthFail (tile test : Nat) (s : State) : Host.Outcome State Fault Refusal :=
  let n := s.noiseOf tile
  let old := match n.failures with
    | [] => []
    | t :: _ => if t + 10 ^ 6 * cyclesPerUs ≤ s.now then [] else n.failures
  let s : State := { s with noise := SMap.set Noise.good s.noise tile ⟨true, s.now :: old⟩ }
  let s := s.record { kind := 8, source := 2 * tile, aux := test % 4 }
  .next (if 2 ≤ old.length then s.retireTile tile none (2 ^ 11) else s)

/-- R453. After 1,024 passing samples the source returns to service; its passing period begins. -/
def execNoiseSourceRestore (tile : Nat) (s : State) : Host.Outcome State Fault Refusal :=
  let n := s.noiseOf tile
  .next <| if n.failed then { s with noise := SMap.set Noise.good s.noise tile ⟨false, s.now :: n.failures.drop 1⟩ } else s

/-! ### The health store (R459, R460) -/

/-- R460: the security block writes the older copy, with the generation incremented. -/
def State.writeHealth (s : State) : State :=
  let h : Health := { s.health with generation := s.health.generation + 1 }
  { s with health := h, healthCopies := h :: s.healthCopies.take 1, healthChanged := false, healthAt := s.now }

/-- R460. The health store is written, at most once in each 60 s in which a count has changed. -/
def execHealthStoreUpdate (s : State) : Host.Outcome State Fault Refusal :=
  .next (if s.healthChanged && decide (s.healthAt + 60 * 10 ^ 6 * cyclesPerUs ≤ s.now) then s.writeHealth else s)

/-! ### The thermal trip (R24) -/

/-- R24: PFC pause on all four virtual channels of a port, which names them by a mask of virtual channels: the frame's form is the model's
own (log entry 27). -/
def pfcBytes : List Byte := [0x50, 0x0F]

/-- R24, R456, R460. A junction at 115 °C or more: issue stops at the next bundle boundary, the front end stops fetching, every port sends
PFC pause on all four channels, a record of KIND 7 is posted, and the health store is written. -/
def execThermalTrip (sensor temp : Nat) (s : State) : Host.Outcome State Fault Refusal :=
  if s.thermal ∨ temp < 115 then .next s
  else
    let s : State := { s with thermal := true, out := s.out ++ (List.range 8).map fun n => (2 ^ 16 + n, pfcBytes) }
    .next ((s.record { kind := 7, source := 0x0265, aux := sensor % 2 ^ 8 + temp % 2 ^ 16 * 2 ^ 16 }).writeHealth)

/-! ### Cold reset (R25, R358, R359, R460) -/

/-- R460: the health store at a cold reset: cleared on request; else the valid copy of the higher generation, or none. -/
def State.storedHealth (s : State) (valid0 valid1 : Bool) : Option Health :=
  if s.dfld Dev.reHclr 0 1 1 = 1 then some Health.zero
  else if valid0 then s.healthCopies[0]?
  else if valid1 then s.healthCopies[1]?
  else none

/-- R358: the bytes of the firmware image, as far as it reaches. -/
def State.firmwareBytes (s : State) : List Byte :=
  (List.range ((s.firmware.map fun (k, _) => k + 1).foldl Nat.max 0)).flatMap fun i => toLE 4 (SMap.get 0 s.firmware i).toNat

/-- R358: the firmware image is measured. -/
def State.measure (s : State) : State :=
  let d := sm3 s.firmwareBytes
  (List.range 4).foldl (fun s i => s.dset (Dev.secMeas0 + 8 * i) 0 (BitVec.ofNat 64 (natAt d (8 * i) 8))) s

/-- R25, R358: the machine after its reset and the steps of the security block; `ok`: the firmware's signature holds. -/
def State.bootWith (s : State) (h : Option Health) (ok : Bool) : State :=
  let store := h.getD Health.zero
  let copies := if h.isNone || s.dfld Dev.reHclr 0 1 1 == 1 then [Health.zero, Health.zero] else s.healthCopies
  let t : State := { State.reset with
    now := s.now, agenda := s.agenda, fresh := s.fresh, out := s.out, firmware := s.firmware, health := store, healthCopies := copies, healthAt := s.now
    fcs := if s.now = 0 ∧ s.firmware = [] then [] else (List.range 4).map fun n => (n, { Controller.init with frameAt := s.now, isram := s.firmware }) }
  let mask := store.retired.foldl (fun m tile => m ||| 2 ^ clusterOf tile) 0
  let t := t.dsetFld Dev.pmMap 0 24 24 mask
  let t := if h.isNone then t.record { kind := 6, source := 0x0265 } else t
  t.measure.dset Dev.feStat 0 (if ok then 1 else 2)

/-- R25, R358. Cold reset. -/
def execColdReset (s : State) : Host.Outcome State Fault Refusal :=
  let (n, s) := s.draw
  .next (s.bootWith (s.storedHealth (Config.flashValid (2 * n)) (Config.flashValid (2 * n + 1))) (Config.firmwareOk n))

/-! ### Attestation (R404) -/

/-- R404: the configuration that is measured. -/
def State.configBytes (s : State) : List Byte :=
  ((List.range 4).flatMap fun i => toLE 8 (s.dget (Dev.feFeatEn0 + 8 * i) 0).toNat) ++ toLE 8 (s.dget Dev.pmMap 0).toNat ++
    (List.range 64).flatMap fun v => toLE 8 (s.dget Dev.mmVdcfg v).toNat

/-- R404: the report, but for its signature. -/
def State.reportBytes (s : State) : List Byte :=
  toLE 4 0x54415A53 ++ toLE 2 1 ++ toLE 2 (s.dfld Dev.fxChipid 0 0 16) ++
    ((List.range 4).flatMap fun i => toLE 8 (s.dget (Dev.secNonce0 + 8 * i) 0).toNat) ++
    ((List.range 4).flatMap fun i => toLE 8 (s.dget (Dev.secMeas0 + 8 * i) 0).toNat) ++
    sm3 s.configBytes ++ toLE 8 s.time.toNat ++ zeros 16 ++ (List.range 64).map Config.sm2Key

/-- R404: the security block writes its report, and GO reads 0 again. -/
def State.attest (s : State) : State :=
  let (n, s) := s.draw
  s.physWrite (s.dget Dev.secAttaddr 0).toNat (s.reportBytes ++ (List.range 64).map (Config.sm2Sign n))

/-- R404. SEC_ATTCTL is written: GO asks for a report. -/
def execAttestationRequest (val : Nat) (s : State) : Host.Outcome State Fault Refusal :=
  .next (s.configWrite fun s => if fldB val 0 then s.attest else s)

end Sys2Proof.Machine
end

