-- ==== Sys2Proof/Machine/RegEvents.lean ====
section
/-!
DEFINITION. Writes of device registers by their endpoints (R353-R356) and what each brings about, the reads that clear, and the
management port.
-/

namespace Sys2Proof.Machine

/-! ### Writes with a rule of their own -/

/-- R334: a write of FE_QCFG. While EN is 1, VD and LOG2N stay; a write of EN = 1 starts the queue anew. -/
def State.qcfgWrite (s : State) (q val : Nat) : State :=
  let on := s.dfld Dev.feQcfg q 63 1 = 1
  if fldB val 63 then
    if fld val 48 5 < 4 || 16 < fld val 48 5 then s
    else
      let s := (if on then s else s.storeReg Dev.feQcfg q val).forgetQueue q
      ((s.dsetFld Dev.feQcfg q 62 1 0).dset Dev.feQhead q 0).dset Dev.feQtail q 0
  else if on then s.dsetFld Dev.feQcfg q 63 1 0
  else s.storeReg Dev.feQcfg q val

/-- R353: a write of FE_SEMA by endpoint `who`. -/
def State.semaWrite (s : State) (who val : Nat) : State :=
  let owner := s.dfld Dev.feSema 0 0 2
  let v := val % 4
  if owner = 0 ∧ v = who ∧ who ≠ 0 then s.dsetFld Dev.feSema 0 0 2 who
  else if v = 0 ∧ owner = who then s.dsetFld Dev.feSema 0 0 2 0
  else s

/-- R353: a configuration write that is refused is counted. -/
def State.cfgDeny (s : State) : State := s.dset Dev.feCfgdeny 0 (s.dget Dev.feCfgdeny 0 + 1)

/-- R356: FE_CEBIND is written; a hold of CE-B on FE_SEMA ends when CONN changes. -/
def State.cebind (s : State) (val : Nat) : State :=
  let old := s.dfld Dev.feCebind 0 32 16
  let s := s.storeReg Dev.feCebind 0 val
  if fld val 32 16 ≠ old ∧ s.dfld Dev.feSema 0 0 2 = 2 then s.dsetFld Dev.feSema 0 0 2 0 else s

/-- R354: FE_FEAT_ENn is written; with a task group queued or running it is ignored and counted. -/
def State.featWrite (s : State) (n val : Nat) : State :=
  if 4 ≤ n then s
  else if s.groups.isEmpty then
    s.dset (Dev.feFeatEn0 + 8 * n) 0 (BitVec.ofNat 64 val &&& s.dget (Dev.feFeatSup0 + 8 * n) 0)
  else s.cfgDeny

/-- R468, R358: the controllers that FE_FCRST names are restarted with verified firmware; a check that fails takes the front end
out of service. -/
def State.restartFcs (s : State) (mask : Nat) : State :=
  (List.range 4).foldl (fun s n =>
    if !fldB mask n then s
    else
      let (k, s) := s.draw
      if Config.firmwareOk k then
        let f := s.fc n
        s.setFc n { f with
          halted := false, cause := 0, frameAt := s.now, regs := [], preds := 0, csr := Ctx.resetCsr, pc := 0, count := 0, isram := s.firmware }
      else s.dset Dev.feStat 0 2) (if mask % 16 = 0 then s else s.measure)

/-- R352: FE_POOL_CFG is written; setting EN fills the pool, and clearing it is ignored while a unit is backed; FREE stays then. -/
def State.poolCfgWrite (s : State) (val : Nat) : State :=
  let units := s.dfld Dev.fePoolSize 0 0 32
  if s.dfld Dev.fePoolCfg 0 63 1 = 1 then
    if fldB val 63 || s.pool.length < units then s
    else s.dsetFld Dev.fePoolCfg 0 63 1 0
  else
    let s := s.storeReg Dev.fePoolCfg 0 val
    if fldB val 63 then { s with pool := List.range units } else s

/-- R460: RE_HCLR is written: a clear is requested. -/
def State.hclrWrite (s : State) (val : Nat) : State := if fldB val 0 then s.dset Dev.reHclr 0 2 else s

/-- The instances of a connection's state. -/
def connKeys (conn : Nat) : List Nat := (List.range 4).map (connKey conn)

/-- R463, R464: the requests of a connection's state that are open end with a status. -/
def State.endReqs (s : State) (k code : Nat) : State :=
  { s with fabReqs := s.fabReqs.map fun (r : FabReq) => if r.conn = k ∧ r.reply.isNone ∧ r.err = 0 then { r with err := code } else r }

/-- R353, R395, R464: a connection is reset. Requests still open on it end as on a failed one. -/
def State.resetConn (s : State) (conn : Nat) : State :=
  (connKeys conn).foldl (fun s k => (s.endReqs k 12).setConn k Conn.init) (s.cebGone conn)

/-- R395: FX_RQHEAD is written, unless more slots than there are would be held. -/
def State.rqHeadWrite (s : State) (val : Nat) : State :=
  let conn := s.selected .rq
  let k := connKey conn 0
  let c := s.conn k
  let slots := 2 ^ (((s.connEntry conn).map fun e => natAt e 0x30 1).getD 0)
  if slots < (c.rqTail + 2 ^ 32 - val % 2 ^ 32) % 2 ^ 32 then s else s.setConn k { c with rqHead := val % 2 ^ 32 }

/-- R318: an entry of a weight set's Ring table is in use. -/
def State.ringTableUsed (s : State) (ws : Nat) : Bool := (s.entries ws).any fun v => v.state != 0

/-! ### The effect of a write (R355) -/

/-- A write that keeps the fields outside `mask` as they stand. -/
def State.storeMasked (s : State) (off inst mask val : Nat) : State :=
  s.storeReg off inst ((BitVec.ofNat 64 val &&& BitVec.ofNat 64 mask) ||| (s.dget off inst &&& ~~~(BitVec.ofNat 64 mask))).toNat

/-- R291, R308, R310, R318, R323, R334, R352, R371, R381, R390: a register whose writes are ignored in part or whole. -/
def State.guardedStore (s : State) (off inst val : Nat) : State :=
  let store := s.storeReg off inst val
  if off = Dev.feQbase then (if s.dfld Dev.feQcfg inst 63 1 = 1 then s else store)
  else if off = Dev.fePoolSize then (if s.dfld Dev.fePoolCfg 0 63 1 = 1 then s else store)
  else if off = Dev.feActwin then (if s.dfld Dev.feActwin inst 63 1 = 1 then s.dsetFld Dev.feActwin inst 63 1 (fld val 63 1) else store)
  else if off = Dev.feActlen then (if s.dfld Dev.feActwin inst 63 1 = 1 then s else store)
  else if off = Dev.scVdsave then (if (s.slots inst).any (s.slotHolds inst) then s else store)
  else if off = Dev.mmInvalx then (if s.dfld Dev.mmInval 0 63 1 = 1 then s else store)
  else if off = Dev.rlWscfg then
    if s.dfld Dev.rlWscfg inst 63 1 = 0 then store
    else if fldB val 63 || s.ringTableUsed inst then s
    else s.dsetFld Dev.rlWscfg inst 63 1 0
  else if off = Dev.nbXcfg then (if (s.extent inst 0).state ≠ 0 ∨ (s.extent inst 1).state ≠ 0 then s else store)
  else if off = Dev.hwdRegion then
    if s.dfld Dev.hwdRegion 0 63 1 = 0 then store
    else if fldB val 63 || !s.hlines.isEmpty then s
    else s.dsetFld Dev.hwdRegion 0 63 1 0
  else if off = Dev.hwdRsize then (if s.dfld Dev.hwdRegion 0 63 1 = 1 then s else store)
  else if off = Dev.hwdDkey0 ∨ off = Dev.hwdDkey1 then
    if s.hlines.any fun l => l.vd == fld inst 8 6 && l.dom == fld inst 0 8 then s else store
  else if off = Dev.fxVcmap then
    let p (i : Nat) := fld val (4 * i) 3
    if p 0 = p 1 ∨ p 0 = p 2 ∨ p 0 = p 3 ∨ p 1 = p 2 ∨ p 1 = p 3 ∨ p 2 = p 3 then s else store
  else store

/-- The instance of a register that its selector names. -/
def State.instOf (s : State) (off : Nat) : Nat := s.selected (((regSpec off).map (·.sel)).getD .none)

/-- R355: what a write that takes effect does. -/
def State.regEffect (s : State) (off val : Nat) : State :=
  let inst := s.instOf off
  if off = Dev.feQcfg then s.qcfgWrite inst val
  else if Dev.feFeatEn0 ≤ off ∧ off ≤ Dev.feFeatEn3 then s.featWrite ((off - Dev.feFeatEn0) / 8) val
  else if off = Dev.feFcrst then s.restartFcs (val % 16)
  else if off = Dev.feNq then s.ringSetup ringNq inst 6 16 val
  else if off = Dev.fePoolCfg then s.poolCfgWrite val
  else if off = Dev.scVdctl then
    match val % 4 with
    | 1 => s.vdStop inst
    | 2 => s.vdResume inst
    | 3 => s.vdDiscard inst
    | _ => s
  else if off = Dev.mmInval then s.invalidate val
  else if off = Dev.mmPrq then s.prqWrite val
  else if off = Dev.mmPrreply then s.pageReply val
  else if off = Dev.mmDlog then s.dlogWrite val
  else if off = Dev.mmEvq then s.ringSetup ringEvq 0 6 16 val
  else if off = Dev.fxCreset then (if fldB val 63 then (s.resetConn (fld val 0 16)).storeReg Dev.fxCreset 0 (val % 2 ^ 63) else s.storeReg Dev.fxCreset 0 val)
  else if off = Dev.fxRqhead then s.rqHeadWrite val
  else if off = Dev.reHclr then s.hclrWrite val
  else if off = Dev.reLog then s.ringSetup ringLog 0 6 16 val
  else if off = Dev.reEq then s.ringSetup ringEq inst 6 16 val
  else if off = Dev.secAttctl then (if fldB val 0 then s.attest else s)
  else s.guardedStore off inst val

/-- R372: the VD of the queue that FE_QSEL names is stopped, so that HEAD and TAIL may be written. -/
def State.queueStopped (s : State) (q : Nat) : Bool := SMap.get 0 s.vdState (s.dfld Dev.feQcfg q 56 6) == 2

/-- R356: the connection of CE-B, where it is bound. -/
def State.ceb (s : State) : Option Nat :=
  let n := s.dfld Dev.feCebind 0 32 16
  if n = 0xFFFF then none
  else
    match s.connEntry n with
    | some e => if connRoce e then some n else none
    | none => none

/-- R353: FE_SEMA is free again where the entry of CE-B's connection is no longer in service. -/
def State.releaseSema (s : State) : State :=
  if s.dfld Dev.feSema 0 0 2 = 2 ∧ s.ceb.isNone then s.dsetFld Dev.feSema 0 0 2 0 else s

/-- R353-R356: a write of a device register by endpoint `who`: 1 CE-A, 2 CE-B, 3 the firmware, 0 none, whose writes are counted. -/
def State.regWrite (s : State) (who off val : Nat) : State :=
  if s.thermal ∨ (who = 2 ∧ s.ceb.isNone) then s
  else if 0x100000 ≤ off then (if off < 0x108000 then s.notifyStore ((off - 0x100000) / 8) (val % 2 ^ 64) else s)
  else
    match regSpec off with
    | none => s
    | some r =>
      if off = Dev.feSema ∧ who ≠ 0 then s.semaWrite who val
      else if off = Dev.feQhead ∨ off = Dev.feQtail then
        let q := s.selected .queue
        if !s.ready || (who ≠ 0 && !s.queueStopped q) then s
        else if who = 0 ∨ s.dfld Dev.feSema 0 0 2 ≠ who then s.cfgDeny
        else s.dset off q (BitVec.ofNat 64 (val % 2 ^ 32))
      else if !s.ready then s
      else if r.rw = 0 then (if who = 0 then s.cfgDeny else s)
      else if who = 0 ∨ s.dfld Dev.feSema 0 0 2 ≠ who ∨ (off = Dev.feCebind ∧ who ≠ 1) then s.cfgDeny
      else if off = Dev.feCebind then s.cebind val
      else s.regEffect off val

/-! ### The events of register writes -/

/-- R334. FE_QCFG is written, for the queue that FE_QSEL names. -/
def execFeQcfgWrite (val : Nat) (s : State) : Host.Outcome State Fault Refusal :=
  .next (s.configWrite fun s => s.qcfgWrite (s.selected .queue) val)

/-- R353. FE_SEMA is written by an endpoint. -/
def execFeSemaWrite (master val : Nat) (s : State) : Host.Outcome State Fault Refusal := .next (s.regWrite (master % 4) Dev.feSema val)

/-- R356. FE_CEBIND is written by CE-A. -/
def execFeCebindWrite (val : Nat) (s : State) : Host.Outcome State Fault Refusal := .next (s.regWrite 1 Dev.feCebind val)

/-- R354. FE_FEAT_ENn is written. -/
def execFeFeatEnWrite (n val : Nat) (s : State) : Host.Outcome State Fault Refusal := .next (s.configWrite fun s => s.featWrite n val)

/-- R468. FE_FCRST is written. -/
def execFcRestart (val : Nat) (s : State) : Host.Outcome State Fault Refusal := .next (s.configWrite fun s => s.restartFcs (val % 16))

/-- R436. FE_NQ is written, for the VD that FE_NQSEL names. -/
def execFeNqWrite (val : Nat) (s : State) : Host.Outcome State Fault Refusal :=
  .next (s.configWrite fun s => s.ringSetup ringNq (s.selected .nq) 6 16 val)

/-- R352. FE_POOL_CFG is written. -/
def execFePoolCfgWrite (val : Nat) (s : State) : Host.Outcome State Fault Refusal := .next (s.configWrite fun s => s.poolCfgWrite val)

/-- R457. RE_LOG is written. -/
def execReLogWrite (val : Nat) (s : State) : Host.Outcome State Fault Refusal :=
  .next (s.configWrite fun s => s.ringSetup ringLog 0 6 16 val)

/-- R457. RE_EQ is written, for the VD that RE_EQSEL names. -/
def execReEqWrite (val : Nat) (s : State) : Host.Outcome State Fault Refusal :=
  .next (s.configWrite fun s => s.ringSetup ringEq (s.selected .eq) 6 16 val)

/-- R460. RE_HCLR is written. -/
def execHealthClearRequest (val : Nat) (s : State) : Host.Outcome State Fault Refusal := .next (s.configWrite fun s => s.hclrWrite val)

/-- R464. FX_CRESET is written. -/
def execConnectionReset (val : Nat) (s : State) : Host.Outcome State Fault Refusal :=
  .next (s.configWrite fun s => s.regEffect Dev.fxCreset val)

/-- R395. FX_RQHEAD is written. -/
def execFxRqheadWrite (val : Nat) (s : State) : Host.Outcome State Fault Refusal := .next (s.configWrite fun s => s.rqHeadWrite val)

/-- R353, R355. A device register is written by the holder of FE_SEMA; `addr` is its offset. -/
def execConfigRegisterWrite (addr val : Nat) (s : State) : Host.Outcome State Fault Refusal :=
  .next (s.regWrite (if s.dfld Dev.feSema 0 0 2 = 0 then 1 else s.dfld Dev.feSema 0 0 2) addr val)

/-! ### Reads that clear (R6) -/

/-- R6, R24: what a read of a register leaves; after a thermal trip none is accepted. -/
def State.readClears (s : State) (off : Nat) : State := if s.thermal then s else (s.regRead off).1

/-- R353. FE_CFGDENY is read. -/
def execFeCfgdenyRead (s : State) : Host.Outcome State Fault Refusal := .next (s.readClears Dev.feCfgdeny)

/-- R363. SC_STAT is read. -/
def execScStatRead (s : State) : Host.Outcome State Fault Refusal := .next (s.readClears Dev.scStat)

/-- R464. FX_ERR0 is read. -/
def execFxErr0Read (s : State) : Host.Outcome State Fault Refusal := .next (s.readClears Dev.fxErr0)

/-- R464. FX_ERR1 is read. -/
def execFxErr1Read (s : State) : Host.Outcome State Fault Refusal := .next (s.readClears Dev.fxErr1)

/-- R458. RE_STAT is read. -/
def execReStatRead (s : State) : Host.Outcome State Fault Refusal := .next (s.readClears Dev.reStat)

/-- R439. HWD_ERR is read. -/
def execHwdErrRead (s : State) : Host.Outcome State Fault Refusal := .next (s.readClears Dev.hwdErr)

/-- R436. FE_NQDROP is read, for the VD that FE_NQSEL names. -/
def execFeNqdropRead (s : State) : Host.Outcome State Fault Refusal := .next (s.readClears Dev.feNqdrop)

/-- R429. MM_PRSTAT is read, for the VD that MM_VDSEL names. -/
def execMmPrstatRead (s : State) : Host.Outcome State Fault Refusal := .next (s.readClears Dev.mmPrstat)

/-! ### The management port (R356) -/

/-- R356: a datagram of the right length that breaks the request format. -/
def badDatagram (b : List Byte) : Bool :=
  natAt b 0 1 != 1 || !(natAt b 1 1 == 1 || natAt b 1 1 == 2) || natAt b 2 2 != 0 || natAt b 0x18 8 != 0 || natAt b 8 8 % 8 != 0

/-- R356: the reply to a request. -/
def replyBytes (b : List Byte) (status : Nat) (value : W64) : List Byte :=
  slice b 0 2 ++ toLE 1 status ++ zeros 1 ++ slice b 4 12 ++ toLE 8 value.toNat ++ zeros 8

/-- A reply is sent. -/
def State.send (s : State) (d : Datagram) (bs : List Byte) : State := { s with out := s.out ++ [(d.sender, bs)] }

/-- R356: a well-formed request is performed and answered; one whose SEQ is that of the last is only answered again. -/
def State.mgmt (s : State) (d : Datagram) (perform : State → State × Nat × W64) : State :=
  let seq := natAt d.bytes 4 4
  match s.lastMgmt with
  | some (q, reply) =>
    if q = seq then s.send d reply
    else
      let (s, status, v) := perform s
      let r := replyBytes d.bytes status v
      { s.send d r with lastMgmt := some (seq, r) }
  | none =>
    let (s, status, v) := perform s
    let r := replyBytes d.bytes status v
    { s.send d r with lastMgmt := some (seq, r) }

/-- R356: a well-formed request with an operation. -/
def isRequest (op : Nat) (d : Datagram) : Bool := d.bytes.length == 32 && !badDatagram d.bytes && natAt d.bytes 1 1 == op

/-- R356. A management datagram reads a register. -/
def execMgmtRead (dg : Datagram) (s : State) : Host.Outcome State Fault Refusal :=
  .next <| if !isRequest 1 dg || s.thermal then s
    else s.mgmt dg fun s => let (s, v) := s.regRead (natAt dg.bytes 8 8); (s, 0, v)

/-- R356. A management datagram writes a register; STATUS 1 says that the configuration write was refused. -/
def execMgmtWrite (dg : Datagram) (s : State) : Host.Outcome State Fault Refusal :=
  .next <| if !isRequest 2 dg || s.thermal then s
    else s.mgmt dg fun s =>
      let t := s.regWrite 1 (natAt dg.bytes 8 8) (natAt dg.bytes 0x10 8)
      (t, if t.dget Dev.feCfgdeny 0 = s.dget Dev.feCfgdeny 0 then 0 else 1, BitVec.ofNat 64 (natAt dg.bytes 0x10 8))

/-- R356. A malformed request is answered with STATUS 2; a datagram of another length is dropped. -/
def execMgmtMalformedRequest (dg : Datagram) (s : State) : Host.Outcome State Fault Refusal :=
  .next <| if dg.bytes.length ≠ 32 ∨ !badDatagram dg.bytes ∨ s.thermal then s
    else s.send dg (overlay dg.bytes 2 [2])

/-- R353. The connection of the endpoint that holds FE_SEMA is lost: the semaphore is free. -/
def execEndpointConnectionLoss (s : State) : Host.Outcome State Fault Refusal :=
  .next (if s.thermal then s else if s.dfld Dev.feSema 0 0 2 = 1 ∨ s.dfld Dev.feSema 0 0 2 = 2 then s.dsetFld Dev.feSema 0 0 2 0 else s)

end Sys2Proof.Machine
end

