-- ==== Sys2Proof/Machine/Controller.lean ====
section
/-!
DEFINITION. The controllers of the front end as they execute (R342, R343): the bundles of their firmware, and their frames (R344).
What the firmware does for the commands of its queues is given by the rules of those commands (log entry 6).
-/

namespace Sys2Proof.Machine

/-- The bundles of a controller's instruction SRAM of 64 KiB, as far as its firmware reaches. -/
def Controller.bundles (f : Controller) : List (List W32) :=
  let n := Nat.min 16384 ((f.isram.map fun (k, _) => k + 1).foldl Nat.max 0)
  (splitBundles ((List.range n).map fun i => SMap.get 0 f.isram i) []).filter fun b => ((pairWords b).getLast?.map fun (w, _) => fldB w 31).getD false

/-- R343: the control registers that a controller has beside those of R137: `mbtail` and `mbhead`. -/
def fcCsr (num : Nat) : Bool := num == 0x100 || num == 0x101

/-- R342: a word decoded for a controller: it accepts these instructions, and it has two control registers more. -/
def fcDecode (w : Nat) (x : Option Nat) : Option Instr :=
  let check (i : Instr) : Bool :=
    match i with
    | .add .. | .sub .. | .mul .. | .mulh .. | .mulhu .. | .and .. | .or .. | .xor .. | .andn .. | .shl .. | .shr .. | .sra .. | .min ..
    | .max .. | .minu .. | .maxu .. | .seq .. | .slt .. | .sltu .. | .sel .. | .clz .. | .popc .. | .bext .. | .bins .. | .lih ..
    | .div .. | .rem .. | .movg .. | .movfg .. | .setp .. | .ldw .. | .ldd .. | .stw .. | .std .. | .br .. | .brz .. | .brnz .. | .brp ..
    | .call .. | .ret .. | .jmpr .. | .nop .. | .csrr .. | .csrw .. | .tsc .. => true
    | _ => false
  match decodeNat w x with
  | .ok i => if check i then some i else none
  | .error .registerRange =>
    match rawInstr (Fields.ofWord w) (x.getD 0) with
    | .ok i =>
      if encodeNat i ≠ some (w, x) then none
      else
        match i with
        | .csrr h d num => if fcCsr num then some (.csrr h d num) else none
        | .csrw h a num => if fcCsr num && num != 0x100 then some (.csrw h a num) else none
        | _ => none
    | .error _ => none
  | .error _ => none

/-- R342: a bundle of a controller that passes its checks: at most three words, in slots S0, S1, L and C. -/
def fcBundle (ws : List W32) : Option (List (Nat × Instr)) :=
  let ps := pairWords ws
  if 3 < ps.length ∨ (bundleChk 0 0 [] [] ps).isSome then none
  else
    let go := ps.foldl (fun acc (w, x) =>
      match acc, fcDecode w x with
      | some (ns, l), some i => some (if fld w 26 4 = 1 then ns + 1 else ns, l ++ [(slotIn ns (fld w 26 4), i)])
      | _, _ => none) (some (0, ([] : List (Nat × Instr))))
    go.map fun (_, l) => bySlot l

/-- The context number under which the scalar operations see a controller's registers. -/
abbrev fcCtx : Nat := 2 ^ 20

/-- A controller's registers, as a context holds them: those of R137 that name a tile, a bank or a version read zero (log entry 6). -/
def Controller.asCtx (f : Controller) : Ctx :=
  { Ctx.init with
    s := f.regs.filter fun (k, _) => k < 64, g := (f.regs.filter fun (k, _) => 64 ≤ k).map fun (k, v) => (k - 64, v), p := f.preds
    csr := f.csr, count := f.count + 1 }

/-- A controller with the registers of a context. -/
def Controller.withRegs (f : Controller) (x : Ctx) : Controller := { f with regs := x.s ++ x.g.map fun (k, v) => (k + 64, v), preds := x.p }

/-- What a word of a controller does: results that land, a target of control, a change of the machine; `none`: it traps. -/
structure FcOut where
  state : State
  lands : List Landing
  target : Option Nat

/-- R342: an effective address: data SRAM, or a physical address. -/
def fcAddr (ea n : Nat) : Option (Nat ⊕ Nat) :=
  if ea % n ≠ 0 then none
  else if ea < 0x40000 then some (.inl ea)
  else if 2 ^ 63 ≤ ea then some (.inr (ea % 2 ^ 52))
  else none

/-- R342, R356: a load of a controller. -/
def State.fcLoad (s : State) (n d ea k : Nat) : Option FcOut :=
  match fcAddr ea k with
  | none => none
  | some (.inl a) => some ⟨s, [.sreg d (bitsOfBytes 64 (memRead (s.fc n).dsram a k))], none⟩
  | some (.inr pa) =>
    if apertureBase ≤ pa then
      let (s, v) := if k = 8 then s.regRead (pa - apertureBase) else (s, 0)
      some ⟨s, [.sreg d v], none⟩
    else
      let s := s.needPhys pa k
      some ⟨s, [.sreg d (bitsOfBytes 64 (s.phys pa k))], none⟩

/-- R342, R356: a store of a controller; one to the aperture is a write of the firmware endpoint. -/
def State.fcStore (s : State) (n ea k : Nat) (v : W64) : Option FcOut :=
  match fcAddr ea k with
  | none => none
  | some (.inl a) => some ⟨s.setFc n { s.fc n with dsram := memWrite (s.fc n).dsram a (toLE k v.toNat) }, [], none⟩
  | some (.inr pa) =>
    if apertureBase ≤ pa then some ⟨if k = 8 then s.regWrite 3 (pa - apertureBase) v.toNat else s, [], none⟩
    else some ⟨(s.needPhys pa k).perform pa (toLE k v.toNat), [], none⟩

/-- R112, R342: a target of control. A controller has one run of bundles, which SEG = 0xFFFF names. -/
def fcTarget (count seg bun : Nat) : Option Nat := if seg = 0xFFFF ∧ bun < count then some bun else none

/-- R136, R343: a control register of a controller. -/
def Controller.csrValue (f : Controller) (num : Nat) : W64 :=
  if num = 0x100 then BitVec.ofNat 64 (f.filled % 2 ^ 32)
  else if num = 0x101 then BitVec.ofNat 64 (f.consumed % 2 ^ 32)
  else f.asCtx.csrValue 0 ⟨0xFFFF, f.pc⟩ num

/-- R343: the count of consumed slots that `mbhead` reads as `v`: the last before the count of filled slots, or the first after it. -/
def Controller.headAt (f : Controller) (v : Nat) : Nat :=
  let d := (f.filled % 2 ^ 32 + 2 ^ 32 - v % 2 ^ 32) % 2 ^ 32
  if d ≤ f.filled then f.filled - d else f.filled + (2 ^ 32 - d)

/-- R136, R139, R343: a control register of a controller is written. -/
def State.fcCsrw (s : State) (n num : Nat) (v : W64) : FcOut :=
  let f := s.fc n
  if num = 0x101 then
    let c := f.headAt v.toNat
    ⟨s.setFc n { f with consumed := c, mailbox := f.mailbox.filter fun (k, _) => c ≤ k }, [], none⟩
  else if num = csrPreds then ⟨s, [.preds (v.extractLsb' 0 7)], none⟩
  else ⟨s.setFc n { f with csr := (f.asCtx.csrWrite num v).csr }, [], none⟩

/-- R342: one word of a controller, of a bundle of which there are `count`; its sources are the registers `x`. -/
def State.fcWord (s : State) (n count : Nat) (x : Ctx) (i : Instr) : Option FcOut :=
  let jump (seg bun : Nat) (lands : List Landing) : Option FcOut := (fcTarget count seg bun).map fun t => ⟨s, lands, some t⟩
  let link : W64 := BitVec.ofNat 64 (0xFFFF * 2 ^ 16 + ((s.fc n).pc + 1))
  let linked : Bool := decide ((s.fc n).pc + 1 < count)
  match i with
  | .ldw _ d a off => s.fcLoad n d (x.ea32 a off) 4
  | .ldd _ d a off => s.fcLoad n d (x.ea32 a off) 8
  | .stw _ d a off => s.fcStore n (x.ea32 a off) 4 (x.sget d)
  | .std _ d a off => s.fcStore n (x.ea32 a off) 8 (x.sget d)
  | .br _ seg bun => jump seg bun []
  | .brz _ a seg bun => if x.sget a == 0 then jump seg bun [] else some ⟨s, [], none⟩
  | .brnz _ a seg bun => if x.sget a != 0 then jump seg bun [] else some ⟨s, [], none⟩
  | .brp _ a b seg bun => if predOf x.preds a != (b == 1) then jump seg bun [] else some ⟨s, [], none⟩
  | .call _ d seg bun => if linked then jump seg bun [.sreg d link] else none
  | .ret _ a => let t := targetOf (x.sget a); jump t.1 t.2 []
  | .jmpr _ d a => if linked then (let t := targetOf (x.sget a); jump t.1 t.2 [.sreg d link]) else none
  | .csrr _ d num => some ⟨s, [.sreg d ((s.fc n).csrValue num)], none⟩
  | .csrw _ a num => some (s.fcCsrw n num (x.sget a))
  | i =>
    let m := semOf i
    let t := { s with cur := { IssueWord.none with ctx := fcCtx, preds := x.preds } }.setCtx fcCtx x
    if (m.chk t).isSome then none else some ⟨s, ((m.eff t).ctx fcCtx).flights.flatMap (·.lands), none⟩

/-- R342: a controller executes its next bundle: every word reads the registers as they stand before it, and every result has landed
after it. A trap halts the controller, and so does control that passes the last bundle (R131). One without firmware does nothing. -/
def State.fcStep (s : State) (n : Nat) : State :=
  let f := s.fc n
  let bs := f.bundles
  match bs[f.pc]? with
  | none => if bs.isEmpty then s else s.haltFc n 1
  | some ws =>
    match fcBundle ws with
    | none => s.haltFc n 1
    | some words =>
      let x := f.asCtx
      let go := (words.filter fun (_, i) => predOf x.preds (predField i)).foldl (fun acc (_, i) =>
        match acc with
        | none => none
        | some (o : FcOut) =>
          (o.state.fcWord n bs.length x i).map fun (r : FcOut) => ⟨r.state, o.lands ++ r.lands, r.target.orElse fun _ => o.target⟩)
        (some ⟨s, [], none⟩)
      match go with
      | none => s.haltFc n 1
      | some o =>
        let y := o.lands.foldl (fun y l => y.landOne none l) x
        o.state.setFc n { (o.state.fc n).withRegs y with pc := o.target.getD (f.pc + 1), count := f.count + 1 }

/-- R342, R344, R468. A controller's frame: one that begins more than 4 µs after it was due halts it; in a frame, the controller
executes the next bundle of its firmware. -/
def execControllerFrame (fc : Nat) (s : State) : Host.Outcome State Fault Refusal :=
  let f := s.fc fc
  .next <| if !s.ready || f.halted || s.thermal || decide (4 ≤ fc) then s
    else if f.frameAt + 8 * cyclesPerUs < s.now then s.haltFc fc 3
    else if f.frameAt + 4 * cyclesPerUs ≤ s.now then s.setFc fc { f with frameAt := s.now }
    else s.fcStep fc

end Sys2Proof.Machine
end

