-- ==== Sys2Proof/Machine/Bamug.lean ====
section
/-!
DEFINITION. The Bamug transport (R396-R400, R461-R463): receive checks, imports (R392, R466), acknowledgement and resending, and what
each packet does; the answers to requests of this chip (R401, R462).
-/

namespace Sys2Proof.Machine

/-! ### A received packet (R396, R397) -/

/-- The fields of a received packet. -/
structure Rx where
  ver : Nat
  opc : Nat
  flags : Nat
  vc : Nat
  src : Nat
  conn : Nat
  psn : Nat
  apsn : Nat
  nak : Nat
  key : Nat
  dom : Nat
  off : Nat
  payload : List Byte
  clean : Bool

/-- R397: an opcode has an address block. -/
def hasBlock (opc : Nat) : Bool := [1, 2, 4, 8, 9].contains opc

/-- R396: the bytes of a packet before its CRC. -/
def rxBody (bs : List Byte) : List Byte := bs.take (32 + (if hasBlock (natAt bs 1 1) then 16 else 0) + natAt bs 0x14 4)

/-- R461 step 1: a packet is whole, and its CRC holds. -/
def rxWhole (bs : List Byte) : Bool :=
  let n := 32 + (if hasBlock (natAt bs 1 1) then 16 else 0) + natAt bs 0x14 4
  decide (n + 4 ≤ bs.length) && natAt bs n 4 == (crc32c (rxBody bs)).toNat

/-- R396: the fields; `clean`: every reserved bit and zero field of the header and the address block is zero. -/
def rxOf (bs : List Byte) : Rx :=
  let block := if hasBlock (natAt bs 1 1) then 16 else 0
  { ver := natAt bs 0 1, opc := natAt bs 1 1, flags := natAt bs 2 2, vc := natAt bs 4 1, src := natAt bs 6 2, conn := natAt bs 0xC 4
    psn := natAt bs 0x10 3, apsn := natAt bs 0x18 3, nak := natAt bs 0x1C 1
    key := if block = 0 then 0 else natAt bs 32 4, dom := if block = 0 then 0 else natAt bs 36 1
    off := if block = 0 then 0 else natAt bs 40 8, payload := slice bs (32 + block) (natAt bs 0x14 4)
    clean := natAt bs 2 2 / 16 == 0 && natAt bs 4 1 < 4 && natAt bs 5 1 == 0 && natAt bs 0xA 2 == 0 && natAt bs 0x13 1 == 0 &&
      natAt bs 0x1B 1 == 0 && natAt bs 0x1D 3 == 0 &&
      (block == 0 || (natAt bs 37 3 == 0 && (natAt bs 1 1 == 9 || natAt bs 36 1 == 0))) }

/-- R397: the operand block of an ATOMIC_REQ has its zero fields and a code of R197. -/
def atomicOk (b : List Byte) : Bool :=
  natAt b 0 1 < 8 && natAt b 1 1 < 4 && natAt b 2 6 == 0 && (natAt b 0 1 == 7 || natAt b 0x10 8 == 0) &&
    (natAt b 1 1 % 2 == 1 || (natAt b 0xC 4 == 0 && natAt b 0x14 4 == 0))

/-- R397, R461 step 5: LENGTH is allowed for the opcode. -/
def lengthOk (opc n : Nat) : Bool :=
  match opc with
  | 1 => decide (0 < n ∧ n ≤ 4096) && (n % 16 == 0 || n == 4 || n == 8)
  | 2 => n == 4
  | 3 => decide (n ≤ 4096)
  | 4 => n == 24
  | 5 => n == 8
  | 6 | 7 => n == 0
  | 8 => n == 8
  | 9 => n % 16 == 0 && decide (1 ≤ n / 16 ∧ n / 16 ≤ 25)
  | 10 => n % 160 == 0 && decide (1 ≤ n / 160 ∧ n / 160 ≤ 25)
  | 11 => decide (8 ≤ n ∧ n ≤ 4096)
  | _ => false

/-- R461 step 5. -/
def malformed (p : Rx) : Bool :=
  !p.clean || !lengthOk p.opc p.payload.length || (p.opc == 4 && !atomicOk p.payload) || (p.opc == 11 && natAt p.payload 5 3 != 0)

/-- R398: the distance from one PSN to another, within the window of 2^23. -/
def psnAhead (a b : Nat) : Nat := (a + 2 ^ 24 - b) % 2 ^ 24

/-! ### Imports (R392, R466) -/

/-- What an import entry gives an access: the VD, the place, and whether it is a notify entry. -/
structure Import where
  vd : Nat
  ipa : Nat
  notify : Bool

/-- R392: the entry of an import index. -/
def State.importEntry (s : State) (key : Nat) : List Byte := s.phys (s.dfld Dev.fxImp 0 12 40 * 4096 + 32 * (key / 2 ^ 20 % 4096)) 32

/-- R392: the entry of a key is in service. -/
def State.importValid (s : State) (key : Nat) : Bool := s.dfld Dev.fxImp 0 63 1 == 1 && fldB (natAt (s.importEntry key) 0 1) 0

/-- R392: the checks of an access of `n` bytes at offset `off`, aligned to `al`; the error is the failing check of R475. `right`: 1
reads, 2 writes, 3 atomics. An atomic that is not aligned fails the bounds check. -/
def State.importCheck (s : State) (src key off n al right : Nat) (value : Nat) : Except Nat Import :=
  let e := s.importEntry key
  let flags := natAt e 0 1
  let vd := natAt e 1 1 % 64
  if !s.importValid key then .error 1
  else if natAt e 4 4 % 2 ^ 20 ≠ key % 2 ^ 20 then .error 2
  else if natAt e 2 2 ≠ 0xFFFF ∧ natAt e 2 2 ≠ src then .error 3
  else if !fldB flags right then .error 4
  else if natAt e 0x10 8 < off + n ∨ off % al ≠ 0 then .error 5
  else if !fldB flags 4 then .ok ⟨vd, natAt e 8 8 + off, false⟩
  else if right ≠ 2 ∨ n ≠ 8 ∨ off % 8 ≠ 0 ∨ 32768 ≤ off ∨ al ≠ 1 then .error 5
  else if s.dfld Dev.feQcfg (off / 8) 56 6 ≠ vd then .error 6
  else .ok ⟨vd, value, true⟩

/-- R466: a record of KIND 18, at most one for a connection in each 1 ms. -/
def State.refusal (s : State) (conn port src key check : Nat) : State :=
  let k := connKey conn 0
  let c := s.conn k
  let late := match c.lastRefusal with
    | none => true
    | some t => decide (t + 1000 * cyclesPerUs ≤ s.now)
  if !late then s
  else
    (s.setConn k { c with lastRefusal := some s.now }).record {
      kind := 18, source := 0x300 + port, vd := if s.importValid key then natAt (s.importEntry key) 1 1 % 64 else 0xFF
      addr := src % 2 ^ 16 + key % 2 ^ 32 * 2 ^ 16, aux := check }

/-- R392: a page of an imported range through the VD's stage 2. -/
def State.importPage (s : State) (vd ipa : Nat) (w : Bool) : Except XlErr (Leaf × Xlat) :=
  match s.stage2 vd ipa with
  | .error e => .error (e.toXl vd 0)
  | .ok l =>
    if (!w && !l.r) || (w && !l.w) then .error ((WalkErr.perm 2 (ipa / 2 ^ 16 * 2 ^ 16) false).toXl vd 0)
    else if l.fab then .error (.fail 5 2)
    else
      let pa := l.place ipa
      if s.inHeartwood pa then .error (.fail 6 2)
      else if !inMap pa then .error (.fail 5 2)
      else .ok (l, ⟨pa, .rc, none, ipa / 2 ^ 16 * 2 ^ 16, l.cnt⟩)

/-- An imported range: the address, length, leaf and translation of each page of it; nothing is changed. -/
def State.importRange (s : State) (vd ipa n : Nat) (w : Bool) : Except XlErr (List (Nat × Nat × Leaf × Xlat)) :=
  (splitPages (n / 2 ^ 16 + 2) ipa n 0).foldl (fun acc (a, m, _) =>
    match acc with
    | .error e => .error e
    | .ok l =>
      match s.importPage vd a w with
      | .error e => .error e
      | .ok (leaf, x) => .ok (l ++ [(a, m, leaf, x)])) (.ok [])

/-- R384, R386: the marks that an accepted access leaves: dirty bits and access counts. -/
def State.importMarks (s : State) (vd : Nat) (w : Bool) (l : List (Nat × Nat × Leaf × Xlat)) : State :=
  l.foldl (fun s (a, _, leaf, x) => (if w then s.markDirty vd a leaf else s).countAccess vd x) s

/-- The bytes of an imported range. -/
def State.importRead (s : State) (l : List (Nat × Nat × Leaf × Xlat)) : List Byte := l.flatMap fun (_, m, _, x) => s.phys x.pa m

/-- Bytes are written into an imported range. -/
def State.importWrite (s : State) : List (Nat × Nat × Leaf × Xlat) → List Byte → State
  | [], _ => s
  | (_, m, _, x) :: rest, bs => (s.perform x.pa (bs.take m)).importWrite rest (bs.drop m)

/-! ### Requests of this chip that are answered (R401, R462) -/

/-- A request of a load or a posted write of a context has ended: its bytes come, its write is performed, or its context is dead. -/
def State.settleOne (s : State) (r : FabReq) : State :=
  let s := s.dropReq r.id
  match r.user with
  | .load c f i =>
    match ((s.ctx c).flights.find? (·.id == f)).bind fun fl => fl.load.bind fun l => (l.pieces[i]?).map fun p => (l, p) with
    | none => s
    | some (l, p) =>
      if p.freq ≠ some r.id ∨ !s.alive c then s
      else if r.err ≠ 0 then s.accessDead c 3 p.va 2 l.amo.isSome
      else s.modCtx c fun x => x.modPiece f i fun q => { q with val := some (slice (r.reply.getD []) 0 q.len), freq := none }
  | .posted id =>
    match s.posted.find? fun p => p.id == id && p.freq == some r.id with
    | none => s
    | some p => if r.err = 0 then s.unpost id else if s.alive p.ctx then s.accessDead p.ctx 3 p.va 2 true else s.unpost id
  | .signal source vd gid addr code => if r.err = 0 then s else s.unsignalled source vd gid addr code
  | .cmd .. | .queue .. | .dep .. => s

/-- A request is answered, and no unit of the front end or engine is still to take its answer. -/
def State.settles (s : State) (r : FabReq) : Bool :=
  (r.reply.isSome || r.err != 0) &&
    match r.user with
    | .load .. | .posted .. | .signal .. => true
    | .cmd id _ => !(s.cmds.any fun k => k.id == id)
    | .queue .. | .dep .. => false

/-- The requests that have been answered come to their users. -/
def State.settle (s : State) : State := (s.fabReqs.filter s.settles).foldl (fun s r => s.settleOne r) s

/-- A request of a connection's state changed. -/
def State.modReq (s : State) (id : Nat) (f : FabReq → FabReq) : State :=
  { s with fabReqs := s.fabReqs.map fun r => if r.id = id then f r else r }

/-- R398: every PSN up to `apsn` is acknowledged: its packets are no longer kept, and the writes among them are performed. -/
def State.acked (s : State) (k apsn : Nat) : State :=
  let c := s.conn k
  let done (psn : Nat) : Bool := decide (psnAhead apsn psn < 2 ^ 23)
  let left := c.unacked.filter fun p => !done p.psn
  let s := if left.length < c.unacked.length then s.setConn k { c with unacked := left, progressAt := s.now, retries := 0, rnr := 0 } else s
  { s with fabReqs := s.fabReqs.map fun (r : FabReq) =>
      if r.conn = k ∧ !r.read ∧ done r.psn ∧ (c.unacked.any fun p => p.psn == r.psn) ∧ r.reply.isNone ∧ r.err = 0 then { r with reply := some [] } else r }

/-- R463: a connection has failed. -/
def State.failConn (s : State) (k : Nat) : State :=
  let c := s.conn k
  let port := ((s.connEntry (k / 4)).map fun e => natAt e 1 1).getD 0
  let old := (c.unacked.head?.map (·.psn)).getD c.sendPsn
  let s := s.setConn k { c with failed := true, unacked := [] }
  let s := (s.dcount Dev.fxErr1 0 0 16).record { kind := 16, source := 0x300 + port, addr := k / 4, aux := old }
  (s.endReqs k 12).settle

/-- R464: FX_RLIM. -/
def State.rlim (s : State) : Nat := Nat.max 1 (s.dfld Dev.fxRlim 0 0 8)

/-- R398, R463: every packet that is not acknowledged is sent again, or the connection fails. -/
def State.resend (s : State) (k : Nat) : State :=
  let c := s.conn k
  match c.unacked, s.connEntry (k / 4) with
  | p :: _, some e =>
    if s.rlim ≤ p.times then s.failConn k
    else
      let s := s.setConn k { c with
        unacked := c.unacked.map fun (q : SentPacket) => { q with times := q.times + 1 }, progressAt := s.now }
      if !s.bamugOn then s else c.unacked.foldl (fun s q => s.enqueue (natAt e 1 1) (k % 4) (k / 4) q.bytes) s
  | _, _ => s

/-- R398. FX_RTO passes without progress on a connection's virtual channel (`conn` is 4·connection + channel). -/
def execBamugRetransmitTimeout (conn : Nat) (s : State) : Host.Outcome State Fault Refusal :=
  let c := s.conn conn
  .next <| if c.failed || c.unacked.isEmpty || decide (s.now < c.progressAt + Nat.max 1 (s.dfld Dev.fxRto 0 0 32) * cyclesPerUs) ||
      ((s.connEntry (conn / 4)).map connRoce).getD true then s
    else (s.dcount Dev.fxErr1 0 16 16).resend conn

/-! ### Receiving (R398, R461, R462) -/

/-- What a packet that passes its checks does: refused with a check of R475, waiting for a page or for a migration to commit, or applied with the answer that it
sends. -/
inductive Applied where
  | refused (check : Nat)
  | page (k : FKey) (w : Bool)
  | again
  | done (s : State)

/-- R462: a packet is refused with a NAK of code 2, 3 or 4, and the connection goes on. -/
def State.nakPast (s : State) (k : Nat) (e : List Byte) (p : Rx) (code : Nat) (counted : State → State) : State :=
  let c := s.conn k
  let s := s.setConn k { c with
    expPsn := (c.expPsn + 1) % 2 ^ 24, nakSent := false, held := none, behind := []
    refusedPsns := (p.psn, code) :: c.refusedPsns.filter fun (q, _) => q != p.psn && decide (psnAhead p.psn q < 2 ^ 23) }
  (counted s).sendCtl p.conn (k % 4) e 0x07 p.psn (psnAhead c.expPsn 1) code

/-- R398, R461: the acknowledgement of a packet that asks for one. -/
def State.ackPsn (s : State) (k : Nat) (e : List Byte) (p : Rx) (psn : Nat) : State := s.sendCtl p.conn (k % 4) e 0x06 psn psn 0

/-- R461 steps 1 and 2: the connection of a packet, or its silent drop. -/
def State.rxConn (s : State) (bs : List Byte) : State × Option (Rx × List Byte × Nat) :=
  if !rxWhole bs then (s.dcount Dev.fxErr0 0 48 16, none)
  else
    let p := rxOf bs
    let s := if p.vc < 4 then s.dset (Dev.fxVcrx0 + 8 * p.vc) 0 (s.dget (Dev.fxVcrx0 + 8 * p.vc) 0 + BitVec.ofNat 64 p.payload.length) else s
    let k := connKey p.conn (p.vc % 4)
    match (if p.conn < 4096 then s.connEntry p.conn else none) with
    | none => (s.dcount Dev.fxErr0 0 32 16, none)
    | some e =>
      if connRoce e || natAt e 2 2 != p.src || (s.conn k).failed then (s.dcount Dev.fxErr0 0 32 16, none)
      else (s, some (p, e, k))

/-- R461 steps 4 to 7, R462, R424: the expected packet is refused, is held for a page, or is applied. -/
def State.rxExpected (s : State) (self : Instr) (p : Rx) (e : List Byte) (k : Nat) (apply : State → Applied) : State :=
  let c := s.conn k
  if p.ver ≠ 1 ∨ p.opc = 0 ∨ 11 < p.opc then s.nakPast k e p 2 fun s => s.dcount Dev.fxErr0 0 16 16
  else if malformed p then s.nakPast k e p 3 fun s => s.dcount Dev.fxErr0 0 0 16
  else if !s.bamugOn then s.nakPast k e p 4 fun s => s.dcount Dev.fxErr1 0 48 16
  else
    let refuse (s : State) (check : Nat) : State :=
      (s.nakPast k e p 4 fun s => s.dcount Dev.fxErr1 0 48 16).refusal p.conn (natAt e 1 1) p.src p.key check
    match apply s with
    | .refused check => refuse s check
    | .page key w =>
      if c.held = some key then refuse s 0
      else (s.setConn k { c with held := some key, behind := [self] }).request key w false (0x300 + natAt e 1 1)
    | .again => s.setConn k { c with held := some s.migrKey, behind := [self] }
    | .done t =>
      if Config.happens 41 k s.now then (s.dcount Dev.fxErr1 0 32 16).sendCtl p.conn (k % 4) e 0x07 p.psn (psnAhead c.expPsn 1) 5
      else
        let t := t.setConn k { t.conn k with
          expPsn := (c.expPsn + 1) % 2 ^ 24, nakSent := false, held := none, behind := []
          refusedPsns := c.refusedPsns.filter fun (q, _) => q != p.psn }
        if p.flags % 2 = 1 ∧ !([2, 4, 9].contains p.opc) then t.ackPsn k e p p.psn else t

/-- R398, R399, R462: a duplicate: refused again, acknowledged again, or answered again. -/
def State.rxDuplicate (s : State) (p : Rx) (e : List Byte) (k : Nat) (again : State → State) : State :=
  let c := s.conn k
  if !s.bamugOn then (s.dcount Dev.fxErr1 0 48 16).sendCtl p.conn (k % 4) e 0x07 p.psn (psnAhead c.expPsn 1) 4 else
  match c.refusedPsns.find? fun (q, _) => q == p.psn with
  | some (_, code) => s.sendCtl p.conn (k % 4) e 0x07 p.psn (psnAhead c.expPsn 1) code
  | none =>
    match p.opc with
    | 2 | 4 | 9 => again s
    | 1 | 8 | 11 => s.ackPsn k e p (psnAhead c.expPsn 1)
    | _ => if p.flags % 2 = 1 then s.ackPsn k e p (psnAhead c.expPsn 1) else s

/-- R398, R424, R461: a packet with a PSN is received. -/
def State.rxSeq (s : State) (self : Instr) (bs : List Byte) (opcs : List Nat) (apply again : Rx → List Byte → Nat → State → Applied) : State :=
  if s.thermal || !(rxWhole bs → opcs.contains (natAt bs 1 1) ∧ natAt bs 0 1 = 1) then s
  else
    match s.rxConn bs with
    | (s, none) => s
    | (s, some (p, e, k)) =>
      let c := s.conn k
      let d := psnAhead p.psn c.expPsn
      if c.held.isSome && !c.behind.isEmpty && decide (d < 2 ^ 23) then
        (if c.behind.contains self then s else s.setConn k { c with behind := c.behind ++ [self] })
      else if d = 0 then s.rxExpected self p e k (apply p e k)
      else if d < 2 ^ 23 then
        if c.nakSent then s
        else (s.setConn k { c with nakSent := true }).sendCtl p.conn (k % 4) e 0x07 c.expPsn (psnAhead c.expPsn 1) 1
      else s.rxDuplicate p e k fun s => match again p e k s with | .done t => t | _ => s

/-- An applied packet whose duplicates do nothing. -/
def noAgain (_ : Rx) (_ : List Byte) (_ : Nat) (s : State) : Applied := .done s

/-- How a range of an accepted access stands, and what it does when every page is there. -/
def withRange (s : State) (p : Rx) (off n al right value : Nat) (go : State → Import → List (Nat × Nat × Leaf × Xlat) → State) : Applied :=
  match s.importCheck p.src p.key off n al right value with
  | .error check => .refused check
  | .ok i =>
    if i.notify then .done (go s i [])
    else
      let w := right ≠ 1
      match s.importRange i.vd i.ipa n w with
      | .error (.request k) => .page k w
      | .error (.fail _ _) => .refused 0
      | .error .later => .again
      | .ok l => .done (go (s.importMarks i.vd w l) i l)

/-- R397, R392: a WRITE; one to a notify entry notifies its queue. -/
def applyWrite (p : Rx) (_ : List Byte) (_ : Nat) (s : State) : Applied :=
  withRange s p p.off p.payload.length 1 2 (leNat p.payload) fun s i l =>
    if i.notify then s.notifyStore (p.off / 8) (leNat p.payload) else s.importWrite l p.payload

/-- R397. A WRITE is received. -/
def execBamugWrite (p : BamugPacket) (s : State) : Host.Outcome State Fault Refusal :=
  .next (s.rxSeq (.bamugWrite p) p.bytes [1] applyWrite noAgain)

/-- R397: the packets of an answer with data, the last marked; each acknowledges its request. -/
def State.respond (s : State) (conn vc : Nat) (e : List Byte) (opc psn : Nat) : Nat → List Byte → State
  | 0, _ => s
  | fuel + 1, bs =>
    if bs.length ≤ 4096 then s.sendSeq conn vc e opc (fAckReq + fLast + fAckV) psn none bs
    else (s.sendSeq conn vc e opc (fAckReq + fAckV) psn none (bs.take 4096)).respond conn vc e opc psn fuel (bs.drop 4096)

/-- R397: a READ_REQ is executed and answered. -/
def applyRead (p : Rx) (e : List Byte) (k : Nat) (s : State) : Applied :=
  let n := natAt p.payload 0 4
  withRange s p p.off n 1 1 0 fun s _ l => s.respond p.conn (k % 4) e 0x03 p.psn (n / 4096 + 1) (s.importRead l)

/-- R397. A READ_REQ is received. -/
def execBamugReadReq (p : BamugPacket) (s : State) : Host.Outcome State Fault Refusal :=
  .next (s.rxSeq (.bamugReadReq p) p.bytes [2] applyRead applyRead)

/-- The open request of this chip that a response answers. -/
def State.answers (s : State) (k psn : Nat) : Option FabReq :=
  s.fabReqs.find? fun r => r.conn == k && r.psn == psn && r.read && r.reply.isNone && r.err == 0

/-- R397, R398: a response acknowledges its request and brings its data. -/
def applyResp (p : Rx) (_ : List Byte) (k : Nat) (s : State) : Applied :=
  let s := if fldB p.flags 2 then s.acked k p.apsn else s
  match s.answers k p.apsn with
  | none => .done s.settle
  | some r =>
    let c := s.conn k
    let all := c.msg ++ p.payload
    if fldB p.flags 1 then .done (((s.setConn k { c with msg := [] }).modReq r.id fun r => { r with reply := some all }).settle)
    else .done (s.setConn k { c with msg := all })

/-- R397. A READ_RESP is received. -/
def execBamugReadResp (p : BamugPacket) (s : State) : Host.Outcome State Fault Refusal :=
  .next (s.rxSeq (.bamugReadResp p) p.bytes [3] applyResp noAgain)

/-- R197, R397: the atomic of an ATOMIC_REQ. -/
def rxAtomic (b : List Byte) : AmoOp :=
  let dbl := natAt b 1 1 % 2 == 1
  ⟨natAt b 0 1, dbl, natAt b 1 1 / 2 == 1, BitVec.ofNat 64 (natAt b 8 8), BitVec.ofNat 64 (natAt b 16 8)⟩

/-- R399: an ATOMIC_REQ is applied, its old value kept, and answered. -/
def applyAtomic (p : Rx) (e : List Byte) (k : Nat) (s : State) : Applied :=
  let a := rxAtomic p.payload
  let n := if a.dbl then 8 else 4
  withRange s p p.off n n 3 0 fun s _ l =>
    let old := leNat (s.importRead l)
    let s := s.importWrite l (toLE n (amoNew a old))
    let c := s.conn k
    let s := s.setConn k { c with cache := (c.cache ++ [(p.psn, BitVec.ofNat 64 old)]).drop (c.cache.length + 1 - 256) }
    s.respond p.conn (k % 4) e 0x05 p.psn 1 (toLE 8 old)

/-- R399: a duplicate is answered with the kept value. -/
def againAtomic (p : Rx) (e : List Byte) (k : Nat) (s : State) : Applied :=
  match (s.conn k).cache.reverse.find? fun (q, _) => q == p.psn with
  | some (_, old) => .done (s.respond p.conn (k % 4) e 0x05 p.psn 1 (toLE 8 old.toNat))
  | none => .done s

/-- R399. An ATOMIC_REQ is received. -/
def execBamugAtomicReq (p : BamugPacket) (s : State) : Host.Outcome State Fault Refusal :=
  .next (s.rxSeq (.bamugAtomicReq p) p.bytes [4] applyAtomic againAtomic)

/-- R397. An ATOMIC_RESP is received. -/
def execBamugAtomicResp (p : BamugPacket) (s : State) : Host.Outcome State Fault Refusal :=
  .next (s.rxSeq (.bamugAtomicResp p) p.bytes [5] applyResp noAgain)

/-- R270, R397: a FLAG_ADD adds to its word. -/
def applyFlagAdd (p : Rx) (_ : List Byte) (_ : Nat) (s : State) : Applied :=
  withRange s p p.off 8 8 2 0 fun s _ l => s.importWrite l (toLE 8 (leNat (s.importRead l) + leNat p.payload))

/-- R397. A FLAG_ADD is received. -/
def execBamugFlagAdd (p : BamugPacket) (s : State) : Host.Outcome State Fault Refusal :=
  .next (s.rxSeq (.bamugFlagAdd p) p.bytes [8] applyFlagAdd noAgain)

/-- R397: what a NAME_RESP says of a name. -/
def State.nameAnswer (s : State) (vd dom : Nat) (name : List Byte) : List Byte :=
  match (if s.dfld Dev.feFeatEn0 0 2 1 = 1 then s.hline vd dom name else none) with
  | some l => name ++ [0, BitVec.ofNat 8 l.node.toNat] ++ zeros 14 ++ bytesOfBits 128 l.data
  | none => name ++ [1] ++ zeros 143

/-- R397: a NAME_REQ is answered. -/
def applyNames (p : Rx) (e : List Byte) (k : Nat) (s : State) : Applied :=
  match s.importCheck p.src p.key 0 0 1 1 0 with
  | .error check => .refused check
  | .ok i =>
    if i.notify then .refused 5
    else
      .done (s.respond p.conn (k % 4) e 0x0A p.psn 1
        ((List.range (p.payload.length / 16)).flatMap fun j => s.nameAnswer i.vd p.dom (slice p.payload (16 * j) 16)))

/-- R397. A NAME_REQ is received. -/
def execBamugNameReq (p : BamugPacket) (s : State) : Host.Outcome State Fault Refusal :=
  .next (s.rxSeq (.bamugNameReq p) p.bytes [9] applyNames applyNames)

/-- R263. A NAME_RESP is received. -/
def execBamugNameResp (p : BamugPacket) (s : State) : Host.Outcome State Fault Refusal :=
  .next (s.rxSeq (.bamugNameResp p) p.bytes [10] applyResp noAgain)

/-- R260, R397: a COLL_DATA packet is kept for its step. -/
def applyColl (p : Rx) (_ : List Byte) (k : Nat) (s : State) : Applied :=
  let b := p.payload
  .done { s with collIn := s.collIn ++
    [⟨natAt b 0 2, k % 4, natAt b 2 2, p.src, fldB p.flags 1, natAt b 4 1 != 0, b.drop 8⟩] }

/-- R260. A COLL_DATA packet is received. -/
def execBamugCollData (p : BamugPacket) (s : State) : Host.Outcome State Fault Refusal :=
  .next (s.rxSeq (.bamugCollData p) p.bytes [11] applyColl noAgain)

/-- R461 step 4. A packet with an unknown VER or OPC is received. -/
def execBamugUnknownOpcode (p : BamugPacket) (s : State) : Host.Outcome State Fault Refusal :=
  let bs := p.bytes
  .next <| if s.thermal || (rxWhole bs && natAt bs 0 1 == 1 && decide (1 ≤ natAt bs 1 1 ∧ natAt bs 1 1 ≤ 11)) then s
    else
      match s.rxConn bs with
      | (s, none) => s
      | (s, some (p', e, k)) =>
        let c := s.conn k
        let d := psnAhead p'.psn c.expPsn
        if c.held.isSome && !c.behind.isEmpty && decide (d < 2 ^ 23) then
          (if c.behind.contains (.bamugUnknownOpcode p) then s else s.setConn k { c with behind := c.behind ++ [.bamugUnknownOpcode p] })
        else if d = 0 then s.rxExpected (.bamugUnknownOpcode p) p' e k fun s => .done s
        else if d < 2 ^ 23 then
          if c.nakSent then s
          else (s.setConn k { c with nakSent := true }).sendCtl p'.conn (k % 4) e 0x07 c.expPsn (psnAhead c.expPsn 1) 1
        else s.rxDuplicate p' e k id

/-- R398, R461: an ACK or NAK, which takes no PSN, is received; a refusal is taken before what its APSN acknowledges. One that is
malformed is answered with NAK 3. -/
def State.rxCtl (s : State) (bs : List Byte) (opc : Nat) (go : State → Rx → Nat → State) : State :=
  if s.thermal || !(rxWhole bs → natAt bs 1 1 = opc ∧ natAt bs 0 1 = 1) then s
  else
    match s.rxConn bs with
    | (s, none) => s
    | (s, some (p, e, k)) =>
      if malformed p then (s.dcount Dev.fxErr0 0 0 16).sendCtl p.conn (k % 4) e 0x07 p.psn (psnAhead (s.conn k).expPsn 1) 3
      else if !s.bamugOn then (s.dcount Dev.fxErr1 0 48 16).sendCtl p.conn (k % 4) e 0x07 p.psn (psnAhead (s.conn k).expPsn 1) 4
      else
        let ack (s : State) : State := if fldB p.flags 2 then s.acked k p.apsn else s
        (if opc = 7 ∧ 2 ≤ p.nak ∧ p.nak ≤ 4 then ack (go s p k) else go (ack s) p k).settle

/-- R398. An ACK is received. -/
def execBamugAck (p : BamugPacket) (s : State) : Host.Outcome State Fault Refusal := .next (s.rxCtl p.bytes 6 fun s _ _ => s)

/-- R462: a packet that was refused is no longer kept, and its request ends with the status of the NAK's code. -/
def State.refusedBy (s : State) (k psn code : Nat) : State :=
  let c := s.conn k
  let s := s.setConn k { c with unacked := c.unacked.filter (·.psn != psn), progressAt := s.now }
  { s with fabReqs := s.fabReqs.map fun (r : FabReq) => if r.conn = k ∧ r.psn = psn ∧ r.reply.isNone ∧ r.err = 0 then { r with err := code } else r }

/-- R398, R462: what a NAK does by its code. -/
def State.nakFor (s : State) (p : Rx) (k : Nat) : State :=
  match p.nak with
  | 1 => s.resend k
  | 2 => s.refusedBy k p.psn 16
  | 3 => s.refusedBy k p.psn 2
  | 4 => s.refusedBy k p.psn 14
  | 5 =>
    let c := s.conn k
    s.setConn k { c with
      unacked := c.unacked.map fun (q : SentPacket) => if q.psn = p.psn then { q with times := q.times - 1 } else q, progressAt := s.now }
  | _ => s

/-- R462. A NAK is received. -/
def execBamugNak (p : BamugPacket) (s : State) : Host.Outcome State Fault Refusal := .next (s.rxCtl p.bytes 7 fun s p k => s.nakFor p k)

end Sys2Proof.Machine
end

