-- ==== Sys2Proof/Machine/Roce.lean ====
section
/-!
DEFINITION. RoCE v2 (R394, R395, R437, R465), CE-B's register path (R356), and the ports (R389, R390, R403, R409).
-/

namespace Sys2Proof.Machine

/-! ### Queue pairs (R393, R394) -/

/-- R393: the connection whose local QP a packet names. -/
def State.qpConn (s : State) (qpn : Nat) : Option (Nat × List Byte) :=
  (List.range (s.dfld Dev.fxConn 0 0 12 + 1)).findSome? fun n =>
    match s.connEntry n with
    | some e => if connRoce e && natAt e 4 3 == qpn then some (n, e) else none
    | none => none

/-- A packet of the responder or of congestion control, which takes no PSN of its own; a NAK's code stands in its first operand. -/
def State.sendRoceCtl (s : State) (conn : Nat) (e : List Byte) (code psn : Nat) (operand : W64) (payload : List Byte) : State :=
  s.enqueue (natAt e 1 1) 0 conn (roceBytes code (natAt e 8 3) psn 0 0 payload.length operand 0 payload)

/-- The NAK codes of the model's packets (log entry 20): PSN sequence error, invalid request, remote access error, remote operational
error, receiver not ready. -/
abbrev nakSeq : Nat := 0
abbrev nakInvalid : Nat := 1
abbrev nakAccess : Nat := 2
abbrev nakRnr : Nat := 32

/-- R394: a congestion notification for an arrival marked CE, at most one in 50 µs. -/
def State.cnpFor (s : State) (n : Nat) (e : List Byte) (m : RoceMsg) : State :=
  let k := connKey n 0
  let c := s.conn k
  let free := match c.cnpOut with | none => true | some t => decide (t + 50 * cyclesPerUs ≤ s.now)
  if m.ce && free then (s.setConn k { c with cnpOut := some s.now }).sendRoceCtl n e roCnp 0 0 [] else s

/-- R394, R464: the QP of a packet; one for an unknown QP, or for a QP in Error, is dropped and counted. -/
def State.roceConn (s : State) (m : RoceMsg) : State × Option (Nat × List Byte) :=
  if s.thermal then (s, none)
  else
    match s.qpConn m.qpn with
    | none => (s.dcount Dev.fxErr0 0 32 16, none)
    | some (n, e) => if (s.conn (connKey n 0)).failed then (s.dcount Dev.fxErr0 0 32 16, none) else (s.cnpFor n e m, some (n, e))

/-! ### The responder (R394, R395, R465) -/

/-- What a request that has its PSN does: refused as invalid, refused by a check of R392 (with a record), turned away by CE-B's rule,
not ready, waiting for a page, or applied; `take` PSNs are used. -/
inductive RApplied where
  | invalid
  | access (check : Nat)
  | denied
  | notReady
  | page (k : FKey) (w : Bool)
  | again
  | done (s : State) (take : Nat)

/-- A request is refused with a NAK, and the QP stays in service. -/
def State.roceNak (s : State) (n : Nat) (e : List Byte) (psn code : Nat) : State :=
  let k := connKey n 0
  let c := s.conn k
  (s.setConn k { c with expPsn := (c.expPsn + 1) % 2 ^ 24, nakSent := false, held := none, behind := [], msg := [] }).sendRoceCtl n e roNak psn
    (BitVec.ofNat 64 code) []

/-- R466: a refused import. -/
def State.roceRefused (s : State) (n : Nat) (e : List Byte) (m : RoceMsg) (check : Nat) : State :=
  ((s.dcount Dev.fxErr1 0 48 16).roceNak n e m.psn nakAccess).refusal n (natAt e 1 1) (natAt e 2 2) m.rkey check

/-- R394, R424, R465: a request or a message is received in the order of its QP. -/
def State.roceRx (s : State) (self : Instr) (m : RoceMsg) (apply : Nat → List Byte → State → RApplied) (again : Nat → List Byte → State → State)
    (acks : Bool) : State :=
  match s.roceConn m with
  | (s, none) => s
  | (s, some (n, e)) =>
    let k := connKey n 0
    let c := s.conn k
    let d := psnAhead m.psn c.expPsn
    if c.held.isSome && !c.behind.isEmpty && decide (d < 2 ^ 23) then
      (if c.behind.contains self then s else s.setConn k { c with behind := c.behind ++ [self] })
    else if d = 0 then
      match apply n e s with
      | .invalid => s.roceNak n e m.psn nakInvalid
      | .access check => s.roceRefused n e m check
      | .denied => (s.dcount Dev.fxErr1 0 48 16).roceNak n e m.psn nakAccess
      | .notReady => s.sendRoceCtl n e roNak m.psn (BitVec.ofNat 64 nakRnr) []
      | .page key w =>
        if c.held = some key then s.roceRefused n e m 0
        else (s.setConn k { c with held := some key, behind := [self] }).request key w false (0x300 + natAt e 1 1)
      | .again => s.setConn k { c with held := some s.migrKey, behind := [self] }
      | .done t take =>
        let t := t.setConn k { t.conn k with expPsn := (c.expPsn + take) % 2 ^ 24, nakSent := false, held := none, behind := [] }
        if acks && m.ackReq then t.sendRoceCtl n e roAck m.psn 0 [] else t
    else if d < 2 ^ 23 then
      if c.nakSent then s
      else (s.setConn k { c with nakSent := true }).sendRoceCtl n e roNak c.expPsn (BitVec.ofNat 64 nakSeq) []
    else again n e s

/-- A duplicate that is only acknowledged again. -/
def ackAgain (n : Nat) (e : List Byte) (s : State) : State :=
  s.sendRoceCtl n e roAck (psnAhead (s.conn (connKey n 0)).expPsn 1) 0 []

/-- R437: the notification queue of a connection's VD has room. -/
def State.recordRoom (s : State) (e : List Byte) : Bool := !s.ringFull ringNq (natAt e 0x26 1 % 64)

/-- R395: a slot of the receive ring is free. -/
def State.slotRoom (s : State) (n : Nat) (e : List Byte) : Bool :=
  let c := s.conn (connKey n 0)
  decide ((c.rqTail + 2 ^ 32 - c.rqHead) % 2 ^ 32 < 2 ^ natAt e 0x30 1)

/-- R394, R395, R437: a packet of a SEND message; the message fills its slot, and then its record is posted. -/
def applySend (m : RoceMsg) (n : Nat) (e : List Byte) (s : State) : RApplied :=
  let k := connKey n 0
  let c := s.conn k
  let all := (if m.first then [] else c.msg) ++ m.payload
  if m.imm.isSome || decide (4096 < all.length) then .invalid
  else if (m.first || m.last) && !(s.slotRoom n e && s.recordRoom e) then .notReady
  else if !m.last then .done (s.setConn k { c with msg := all }) 1
  else
    let a := natAt e 0x28 8 + 4096 * (c.rqTail % 2 ^ natAt e 0x30 1)
    let s := (s.needPhys a all.length).perform a all
    let s := s.setConn k { c with msg := [], rqTail := (c.rqTail + 1) % 2 ^ 32 }
    .done (s.notify (natAt e 0x26 1 % 64) 4 (0x300 + natAt e 1 1) 0 (BitVec.ofNat 64 c.rqTail) 0 0) 1

/-- R395. A packet of a SEND is received. -/
def execRoceSend (p : RoceMsg) (s : State) : Host.Outcome State Fault Refusal := .next (s.roceRx (.roceSend p) p (applySend p) ackAgain true)

/-- R392, R424: an access of a RoCE request through the import table. -/
def roceRange (s : State) (e : List Byte) (key va n al right value : Nat) (go : State → Import → List (Nat × Nat × Leaf × Xlat) → RApplied) : RApplied :=
  let base := natAt (s.importEntry key) 8 8
  let off := if fldB (natAt (s.importEntry key) 0 1) 4 then va else va - base
  let low := !fldB (natAt (s.importEntry key) 0 1) 4 && decide (va < base)
  match s.importCheck (natAt e 2 2) key (if low then 2 ^ 64 else off) n al right value with
  | .error check => .access check
  | .ok i =>
    if i.notify then go s i []
    else
      let w := right ≠ 1
      match s.importRange i.vd i.ipa n w with
      | .error (.request k) => .page k w
      | .error (.fail _ _) => .access 0
      | .error .later => .again
      | .ok l => go (s.importMarks i.vd w l) i l

/-- R356: a request of CE-B to the range of the registers. -/
def State.cebRange (s : State) (n va : Nat) : Bool := s.ceb == some n && decide (apertureBase ≤ va ∧ va < apertureBase + 2 ^ 32)

/-- R356: it has the form that reaches a register. -/
def State.cebForm (s : State) (va key len : Nat) : Bool :=
  len == 8 && va % 8 == 0 && key == 0xFFF00000 + s.dfld Dev.feCebind 0 0 20

/-- R394: a packet of an RDMA WRITE. -/
def applyRdmaWrite (m : RoceMsg) (n : Nat) (e : List Byte) (s : State) : RApplied :=
  let k := connKey n 0
  let c := s.conn k
  let va := if m.first then m.va else c.writeAt
  let key := if m.first then m.rkey else c.writeKey
  if 4096 < m.payload.length then .invalid
  else if m.imm.isSome && !s.recordRoom e then .notReady
  else
    let fin (s : State) : RApplied :=
      let c := s.conn k
      let s := s.setConn k { c with writeAt := va + m.payload.length, writeKey := key }
      match m.imm with
      | some v => if m.last then .done (s.notify (natAt e 0x26 1 % 64) 5 (0x300 + natAt e 1 1) 0 (v.zeroExtend 64) 0 0) 1 else .done s 1
      | none => .done s 1
    if s.cebRange n va then
      if s.cebForm va key m.payload.length && m.first && m.last then fin (s.regWrite 2 (va - apertureBase) (leNat m.payload)) else .denied
    else if m.payload.isEmpty then fin s
    else roceRange s e key va m.payload.length 1 2 (leNat m.payload) fun s i l =>
      fin (if i.notify then s.notifyStore (va / 8) (leNat m.payload) else s.importWrite l m.payload)

/-- R394. A packet of an RDMA WRITE is received. -/
def execRoceRdmaWrite (p : RoceMsg) (s : State) : Host.Outcome State Fault Refusal :=
  .next (s.roceRx (.roceRdmaWrite p) p (applyRdmaWrite p) ackAgain true)

/-- The packets that answer a read, the last marked in its second operand. -/
def State.answerRead (s : State) (n : Nat) (e : List Byte) (psn : Nat) : Nat → List Byte → State
  | 0, _ => s
  | fuel + 1, bs =>
    let last := decide (bs.length ≤ 4096)
    let s := s.enqueue (natAt e 1 1) 0 n (roceBytes roResp (natAt e 8 3) psn 0 0 (bs.take 4096).length 0 (BitVec.ofNat 64 last.toNat) (bs.take 4096))
    if last then s else s.answerRead n e ((psn + 1) % 2 ^ 24) fuel (bs.drop 4096)

/-- R394: an RDMA READ request. -/
def applyRdmaRead (m : RoceMsg) (n : Nat) (e : List Byte) (s : State) : RApplied :=
  let take := Nat.max 1 ((m.len + 4095) / 4096)
  if s.cebRange n m.va then
    if s.cebForm m.va m.rkey m.len then
      let (s, v) := s.regRead (m.va - apertureBase)
      .done (s.answerRead n e m.psn 1 (toLE 8 v.toNat)) take
    else .denied
  else if m.len = 0 then .done (s.answerRead n e m.psn 1 []) take
  else roceRange s e m.rkey m.va m.len 1 1 0 fun s _ l => .done (s.answerRead n e m.psn take (s.importRead l)) take

/-- R394. An RDMA READ request is received; a duplicate is executed again. -/
def execRoceRdmaRead (p : RoceMsg) (s : State) : Host.Outcome State Fault Refusal :=
  .next (s.roceRx (.roceRdmaRead p) p (applyRdmaRead p)
    (fun n e s => match applyRdmaRead p n e s with | .done t _ => t | _ => s) false)

/-- R394: an atomic of 8 bytes. -/
def applyRoceAtomic (a : AmoOp) (m : RoceMsg) (n : Nat) (e : List Byte) (s : State) : RApplied :=
  if m.va % 8 ≠ 0 then .invalid
  else if s.cebRange n m.va then .denied
  else roceRange s e m.rkey m.va 8 1 3 0 fun s _ l =>
    let old := leNat (s.importRead l)
    let s := s.importWrite l (toLE 8 (amoNew a old))
    let k := connKey n 0
    let c := s.conn k
    let s := s.setConn k { c with cache := (c.cache ++ [(m.psn, BitVec.ofNat 64 old)]).drop (c.cache.length + 1 - 256) }
    .done (s.sendRoceCtl n e roAck m.psn (BitVec.ofNat 64 old) []) 1

/-- R394: a duplicate of an atomic is answered with the value that was kept. -/
def againRoceAtomic (m : RoceMsg) (n : Nat) (e : List Byte) (s : State) : State :=
  match (s.conn (connKey n 0)).cache.reverse.find? fun (q, _) => q == m.psn with
  | some (_, old) => s.sendRoceCtl n e roAck m.psn old []
  | none => s

/-- R394. A compare-swap is received. -/
def execRoceCompareSwap (p : RoceMsg) (s : State) : Host.Outcome State Fault Refusal :=
  .next (s.roceRx (.roceCompareSwap p) p (applyRoceAtomic ⟨7, true, false, p.operand, p.compare⟩ p) (againRoceAtomic p) false)

/-- R394. A fetch-add is received. -/
def execRoceFetchAdd (p : RoceMsg) (s : State) : Host.Outcome State Fault Refusal :=
  .next (s.roceRx (.roceFetchAdd p) p (applyRoceAtomic ⟨0, true, false, p.operand, 0⟩ p) (againRoceAtomic p) false)

/-- R394. An unsupported opcode is answered with NAK Invalid Request; a packet for an unknown QP is dropped and counted. -/
def execRoceUnsupportedPacket (p : RoceMsg) (s : State) : Host.Outcome State Fault Refusal :=
  .next <| match s.roceConn p with
    | (s, none) => s
    | (s, some (n, e)) =>
      if p.psn = (s.conn (connKey n 0)).expPsn then s.roceNak n e p.psn nakInvalid else s.sendRoceCtl n e roNak p.psn (BitVec.ofNat 64 nakInvalid) []

/-! ### The requester (R394, R465) -/

/-- R353, R465: a QP enters Error: `code` is the status with which its operations end, `aux` the cause of R475. -/
def State.qpError (s : State) (n code aux : Nat) : State :=
  let k := connKey n 0
  let port := ((s.connEntry n).map fun e => natAt e 1 1).getD 0
  let s := s.setConn k { s.conn k with failed := true, unacked := [], rnrTimer := none }
  let s := ((s.cebGone n).dcount Dev.fxErr1 0 0 16).record { kind := 17, source := 0x300 + port, addr := n, aux := aux }
  (s.endReqs k code).settle

/-- Every packet that is not acknowledged is sent again. -/
def State.roceAgain (s : State) (n : Nat) (e : List Byte) : State :=
  let k := connKey n 0
  let c := s.conn k
  let s := s.setConn k { c with progressAt := s.now, rnrTimer := none }
  c.unacked.foldl (fun s q => s.enqueue (natAt e 1 1) 0 n q.bytes) s

/-- R464, R465: the packets are sent again, or the retries are exhausted. -/
def State.roceRetry (s : State) (n : Nat) (e : List Byte) : State :=
  let k := connKey n 0
  let c := s.conn k
  if Nat.min s.rlim 7 ≤ c.retries then s.qpError n 12 0
  else (s.setConn k { c with retries := c.retries + 1 }).roceAgain n e

/-- R394. A packet of a read response is received; one that no open request waits for is discarded. -/
def execRoceReadResponse (p : RoceMsg) (s : State) : Host.Outcome State Fault Refusal :=
  .next <| match s.roceConn p with
    | (s, none) => s
    | (s, some (n, _)) =>
      let k := connKey n 0
      match s.fabReqs.find? fun r => r.conn == k && r.read && r.reply.isNone && r.err == 0 with
      | none => s
      | some r =>
        let c := s.conn k
        let i := psnAhead p.psn r.psn
        if i ≠ c.msg.length / 4096 then s
        else
          let s := s.acked k r.psn
          let c := s.conn k
          let all := c.msg ++ p.payload
          if p.last then ((s.setConn k { c with msg := [] }).modReq r.id fun r => { r with reply := some all }).settle
          else s.setConn k { c with msg := all }

/-- R401. An acknowledgement or an atomic's response is received. -/
def execRoceAcknowledge (p : RoceMsg) (s : State) : Host.Outcome State Fault Refusal :=
  .next <| match s.roceConn p with
    | (s, none) => s
    | (s, some (n, _)) =>
      let k := connKey n 0
      let s := s.acked k p.psn
      (match s.answers k p.psn with
       | some r => s.modReq r.id fun r => { r with reply := some (toLE 8 p.operand.toNat) }
       | none => s).settle

/-- R437, R465. A NAK is received: the packets are sent again, after a time where the receiver is not ready, or the QP enters Error. -/
def execRoceNakReceived (p : RoceMsg) (s : State) : Host.Outcome State Fault Refusal :=
  .next <| match s.roceConn p with
    | (s, none) => s
    | (s, some (n, e)) =>
      let k := connKey n 0
      let s := (s.acked k (psnAhead p.psn 1)).settle
      if p.code = nakSeq then s.roceRetry n e
      else if p.code = nakRnr then s.setConn k { s.conn k with rnrTimer := some (s.now + 4 * p.operand.toNat) }
      else s.qpError n 14 1

/-- R465. The local ACK time-out of a QP passes. -/
def execRoceAckTimeout (conn : Nat) (s : State) : Host.Outcome State Fault Refusal :=
  let c := s.conn (connKey conn 0)
  .next <| match s.connEntry conn with
    | none => s
    | some e =>
      if !connRoce e || c.failed || c.unacked.isEmpty || c.rnrTimer.isSome ||
          decide (s.now < c.progressAt + Nat.max 1 (s.dfld Dev.fxRto 0 0 32) * cyclesPerUs) then s
      else (s.dcount Dev.fxErr1 0 16 16).roceRetry conn e

/-- R465. The RNR timer of a QP expires: the packets are sent again, up to 7 times. -/
def execRoceRnrRetryTimer (conn : Nat) (s : State) : Host.Outcome State Fault Refusal :=
  let k := connKey conn 0
  let c := s.conn k
  .next <| match s.connEntry conn, c.rnrTimer with
    | some e, some t =>
      if s.now < t then s
      else if 7 ≤ c.rnr then s.qpError conn 12 0
      else (s.setConn k { c with rnr := c.rnr + 1 }).roceAgain conn e
    | _, _ => s

/-- R394. A congestion notification halves the send rate, which stays at 1 Gb/s or more. -/
def execRoceCnp (p : RoceMsg) (s : State) : Host.Outcome State Fault Refusal :=
  .next <| if s.thermal then s else match s.qpConn p.qpn with
    | none => s.dcount Dev.fxErr0 0 32 16
    | some (n, _) =>
      let k := connKey n 0
      let c := s.conn k
      s.setConn k { c with rate := Nat.max 1000 (c.rate / 2), cnpIn := s.now }

/-- R394. After 55 µs without a notification the rate rises by 5% of line rate. -/
def execRoceRateRecovery (conn : Nat) (s : State) : Host.Outcome State Fault Refusal :=
  let k := connKey conn 0
  let c := s.conn k
  .next <| if c.rate < 800000 ∧ c.cnpIn + 55 * cyclesPerUs ≤ s.now then
      s.setConn k { c with rate := Nat.min 800000 (c.rate + 40000), cnpIn := s.now }
    else s

/-! ### CE-B (R356) -/

/-- A request of CE-B in the order of its QP. -/
def State.cebMsg (s : State) (addr : Nat) (payload : List Byte) : Option RoceMsg :=
  s.ceb.bind fun n => (s.connEntry n).map fun e =>
    { port := natAt e 1 1, qpn := natAt e 4 3, psn := (s.conn (connKey n 0)).expPsn, first := true, last := true, ackReq := true, imm := none
      va := addr, rkey := 0xFFF00000 + s.dfld Dev.feCebind 0 0 20, len := 8, operand := 0, compare := 0, code := 0, payload := payload, ce := false }

/-- R356. CE-B reads a register: an RDMA READ of 8 bytes with its key, the next of its QP. -/
def execCebRegisterRead (addr : Nat) (s : State) : Host.Outcome State Fault Refusal :=
  .next <| match s.cebMsg addr [] with
    | none => s
    | some m => s.roceRx (.roceRdmaRead m) m (applyRdmaRead m) (fun _ _ s => s) false

/-- R356. CE-B writes a register: an RDMA WRITE of 8 bytes with its key, the next of its QP. -/
def execCebRegisterWrite (addr val : Nat) (s : State) : Host.Outcome State Fault Refusal :=
  .next <| match s.cebMsg addr (toLE 8 val) with
    | none => s
    | some m => s.roceRx (.roceRdmaWrite m) m (applyRdmaWrite m) ackAgain true

/-! ### Ports (R389, R390, R403, R409) -/

/-- A fabric port. -/
def State.port (s : State) (n : Nat) : Port := SMap.get Port.init s.ports n

/-- A port changed. -/
def State.setPort (s : State) (n : Nat) (p : Port) : State := { s with ports := SMap.set Port.init s.ports n p }

/-- R389. A PFC frame pauses or resumes one virtual channel of a port. -/
def execPfcPause (port vc : Nat) (paused : Bool) (s : State) : Host.Outcome State Fault Refusal :=
  let p := s.port port
  .next <| if 8 ≤ port ∨ 4 ≤ vc ∨ s.thermal then s
    else s.setPort port { p with paused := if paused then (if p.paused.contains vc then p.paused else vc :: p.paused) else p.paused.filter (· != vc) }

/-- R389. A port's link comes up or goes down. -/
def execPortLinkChange (port : Nat) (up : Bool) (s : State) : Host.Outcome State Fault Refusal :=
  .next (if 8 ≤ port then s else s.setPort port { s.port port with up := up })

/-- R403. A PTP message gives the offset of the counter and corrects its rate, by at most 200 ppm. -/
def execPtpMessage (offset : Int) (rate : Int) (s : State) : Host.Outcome State Fault Refusal :=
  let lock := decide (-50 ≤ offset ∧ offset ≤ 50)
  let rate := if rate < -200 then -200 else if 200 < rate then 200 else rate
  .next <| if s.thermal then s else { s.dset Dev.tsStat 0 (BitVec.ofNat 64 (lock.toNat * 2 ^ 32 + (BitVec.ofInt 32 offset).toNat)) with tscRate := rate }

/-- R390, R396: the frame of a packet, with Ethernet, VLAN, IP and UDP headers and check sequence. -/
def State.frameLen (s : State) (e : Egress) : Nat :=
  let v6 := ((s.connEntry e.conn).map fun b => fldB (natAt b 0 1) 2).getD false
  e.bytes.length + 18 + (if v6 then 40 else 20) + 8 + 4

/-- The first packet of a virtual channel of a port. -/
def State.headOf (s : State) (port vc : Nat) : Option Egress := s.egress.find? fun e => e.port == port && e.vc == vc

/-- R390: the weight of a virtual channel in credit bytes. -/
def State.vcQuantum (s : State) (vc : Nat) : Nat := 4096 * Nat.max 1 (s.dfld Dev.fxVcwt 0 (8 * (vc - 1)) 8)

/-- R390: VC1-VC3 that take part in a round: they have a packet, and are not paused. -/
def State.vcActive (s : State) (port : Nat) : List Nat :=
  [1, 2, 3].filter fun vc => (s.headOf port vc).isSome && !(s.port port).paused.contains vc

/-- R390: a round begins: each channel that takes part receives credit, and the others keep none. -/
def State.newRound (s : State) (port : Nat) : State :=
  let p := s.port port
  let act := s.vcActive port
  s.setPort port { p with
    turn := 1
    credit := act.foldl (fun m vc => SMap.set 0 m vc (SMap.get 0 p.credit vc + s.vcQuantum vc)) [] }

/-- R390: in the order of the round, the channel from `turn` on that can send its next packet. -/
def State.roundPick (s : State) (port : Nat) : Option (Nat × Egress) :=
  let p := s.port port
  ([1, 2, 3].filter fun vc => p.turn ≤ vc && (s.vcActive port).contains vc).findSome? fun vc =>
    (s.headOf port vc).bind fun e => if s.frameLen e ≤ SMap.get 0 p.credit vc then some (vc, e) else none

/-- R390: rounds pass until a channel can send. -/
def State.nextRounds (s : State) (port : Nat) : Nat → State × Option (Nat × Egress)
  | 0 => (s, none)
  | n + 1 =>
    match s.roundPick port with
    | some r => (s, some r)
    | none => (s.newRound port).nextRounds port n

/-- R409: a packet leaves, and the bytes of a Bamug payload are counted. -/
def State.transmit (s : State) (e : Egress) : State :=
  let s : State := { s with egress := s.egress.filter (·.id != e.id), out := s.out ++ [(2 ^ 16 + e.port, e.bytes)] }
  if natAt e.bytes 0 1 = 1 then
    s.dset (Dev.fxVctx0 + 8 * e.vc) 0 (s.dget (Dev.fxVctx0 + 8 * e.vc) 0 + BitVec.ofNat 64 (natAt e.bytes 0x14 4))
  else s

/-- R390, R409. A port sends its next packet: of VC0, or of VC1-VC3 by deficit round robin; a channel with nothing left to
send keeps no credit. A packet of another turn is not sent. -/
def execEgressPacketTransmit (port id : Nat) (s : State) : Host.Outcome State Fault Refusal :=
  let p := s.port port
  .next <| if !p.up then s
    else
      match (if p.paused.contains 0 then none else s.headOf port 0) with
      | some e => if e.id = id then s.transmit e else s
      | none =>
        if (s.vcActive port).isEmpty then s
        else
          match s.nextRounds port 8 with
          | (t, some (vc, e)) =>
            if e.id ≠ id then s
            else
              let p := t.port port
              let left := if (t.egress.filter fun o => o.port == port && o.vc == vc).length = 1 then 0 else SMap.get 0 p.credit vc - t.frameLen e
              (t.setPort port { p with turn := vc, credit := SMap.set 0 p.credit vc left }).transmit e
          | (_, none) => s

end Sys2Proof.Machine
end

