-- ==== Sys2Proof/Machine/Dispatch.lean ====
section
/-!
DEFINITION. The dispatch: one arm for each instruction and each event.
-/

namespace Sys2Proof.Machine

/-- What an instruction or an event does. -/
def exec (i : Instr) (s : State) : Host.Outcome State Fault Refusal :=
  match i with
  | .sched stop pd wait waiters pf => Sys2Proof.Machine.execSched stop pd wait waiters pf s
  | .add h d a b => Sys2Proof.Machine.execAdd h d a b s
  | .sub h d a b => Sys2Proof.Machine.execSub h d a b s
  | .mul h d a b => Sys2Proof.Machine.execMul h d a b s
  | .mulh h d a b => Sys2Proof.Machine.execMulh h d a b s
  | .mulhu h d a b => Sys2Proof.Machine.execMulhu h d a b s
  | .and h d a b => Sys2Proof.Machine.execAnd h d a b s
  | .or h d a b => Sys2Proof.Machine.execOr h d a b s
  | .xor h d a b => Sys2Proof.Machine.execXor h d a b s
  | .andn h d a b => Sys2Proof.Machine.execAndn h d a b s
  | .shl h d a b => Sys2Proof.Machine.execShl h d a b s
  | .shr h d a b => Sys2Proof.Machine.execShr h d a b s
  | .sra h d a b => Sys2Proof.Machine.execSra h d a b s
  | .min h d a b => Sys2Proof.Machine.execMin h d a b s
  | .max h d a b => Sys2Proof.Machine.execMax h d a b s
  | .minu h d a b => Sys2Proof.Machine.execMinu h d a b s
  | .maxu h d a b => Sys2Proof.Machine.execMaxu h d a b s
  | .seq h d a b => Sys2Proof.Machine.execSeq h d a b s
  | .slt h d a b => Sys2Proof.Machine.execSlt h d a b s
  | .sltu h d a b => Sys2Proof.Machine.execSltu h d a b s
  | .sel h d a b => Sys2Proof.Machine.execSel h d a b s
  | .clz h d a => Sys2Proof.Machine.execClz h d a s
  | .popc h d a => Sys2Proof.Machine.execPopc h d a s
  | .bext h d a sx lm1 pos => Sys2Proof.Machine.execBext h d a sx lm1 pos s
  | .bins h d a lm1 pos => Sys2Proof.Machine.execBins h d a lm1 pos s
  | .lih h d a imm => Sys2Proof.Machine.execLih h d a imm s
  | .div h d a b k u => Sys2Proof.Machine.execDiv h d a b k u s
  | .rem h d a b k u => Sys2Proof.Machine.execRem h d a b k u s
  | .movg h d a => Sys2Proof.Machine.execMovg h d a s
  | .movfg h d a => Sys2Proof.Machine.execMovfg h d a s
  | .setp h cond a b => Sys2Proof.Machine.execSetp h cond a b s
  | .vadd h d a b x => Sys2Proof.Machine.execVadd h d a b x s
  | .vsub h d a b x => Sys2Proof.Machine.execVsub h d a b x s
  | .vmul h d a b x => Sys2Proof.Machine.execVmul h d a b x s
  | .vfma h d a b x => Sys2Proof.Machine.execVfma h d a b x s
  | .vfms h d a b x => Sys2Proof.Machine.execVfms h d a b x s
  | .vmax h d a b x => Sys2Proof.Machine.execVmax h d a b x s
  | .vmin h d a b x => Sys2Proof.Machine.execVmin h d a b x s
  | .vabs h d a x => Sys2Proof.Machine.execVabs h d a x s
  | .vneg h d a x => Sys2Proof.Machine.execVneg h d a x s
  | .vfloor h d a x => Sys2Proof.Machine.execVfloor h d a x s
  | .vceil h d a x => Sys2Proof.Machine.execVceil h d a x s
  | .vmov h d a x => Sys2Proof.Machine.execVmov h d a x s
  | .vcmp h d a b x => Sys2Proof.Machine.execVcmp h d a b x s
  | .vsel h d a b x => Sys2Proof.Machine.execVsel h d a b x s
  | .vexp2 h d a x => Sys2Proof.Machine.execVexp2 h d a x s
  | .vlog2 h d a x => Sys2Proof.Machine.execVlog2 h d a x s
  | .vrcp h d a x => Sys2Proof.Machine.execVrcp h d a x s
  | .vrsqrt h d a x => Sys2Proof.Machine.execVrsqrt h d a x s
  | .vexpb h d a b x => Sys2Proof.Machine.execVexpb h d a b x s
  | .vcvt h d a x => Sys2Proof.Machine.execVcvt h d a x s
  | .vcvtTag h d a x => Sys2Proof.Machine.execVcvtTag h d a x s
  | .vpack h d a b x => Sys2Proof.Machine.execVpack h d a b x s
  | .vunpk h d a x => Sys2Proof.Machine.execVunpk h d a x s
  | .vredadd h d a x => Sys2Proof.Machine.execVredadd h d a x s
  | .vredmax h d a x => Sys2Proof.Machine.execVredmax h d a x s
  | .vscan h d a x => Sys2Proof.Machine.execVscan h d a x s
  | .vperm h d a b x => Sys2Proof.Machine.execVperm h d a b x s
  | .vbcast h d a b x => Sys2Proof.Machine.execVbcast h d a b x s
  | .viadd h d a b x => Sys2Proof.Machine.execViadd h d a b x s
  | .vimul h d a b x => Sys2Proof.Machine.execVimul h d a b x s
  | .vand h d a b x => Sys2Proof.Machine.execVand h d a b x s
  | .vor h d a b x => Sys2Proof.Machine.execVor h d a b x s
  | .vxor h d a b x => Sys2Proof.Machine.execVxor h d a b x s
  | .vshl h d a b x => Sys2Proof.Machine.execVshl h d a b x s
  | .vshr h d a b x => Sys2Proof.Machine.execVshr h d a b x s
  | .vrng h d x => Sys2Proof.Machine.execVrng h d x s
  | .vffs h d a x => Sys2Proof.Machine.execVffs h d a x s
  | .vany h a x => Sys2Proof.Machine.execVany h a x s
  | .mma h d a b unit cpat cop gm1 gs => Sys2Proof.Machine.execMma h d a b unit cpat cop gm1 gs s
  | .mmaz h d a b unit cpat cop gm1 gs => Sys2Proof.Machine.execMmaz h d a b unit cpat cop gm1 gs s
  | .mmat h d a b unit cpat cop gm1 gs => Sys2Proof.Machine.execMmat h d a b unit cpat cop gm1 gs s
  | .mzero h d fmt => Sys2Proof.Machine.execMzero h d fmt s
  | .mcvt h d a fmt rm q => Sys2Proof.Machine.execMcvt h d a fmt rm q s
  | .mfmt h d a fmt => Sys2Proof.Machine.execMfmt h d a fmt s
  | .mtv h d a k r => Sys2Proof.Machine.execMtv h d a k r s
  | .mvt h d a r => Sys2Proof.Machine.execMvt h d a r s
  | .mcsel h d a b unit min init => Sys2Proof.Machine.execMcsel h d a b unit min init s
  | .ldw h d a off => Sys2Proof.Machine.execLdw h d a off s
  | .ldd h d a off => Sys2Proof.Machine.execLdd h d a off s
  | .stw h d a off => Sys2Proof.Machine.execStw h d a off s
  | .std h d a off => Sys2Proof.Machine.execStd h d a off s
  | .vld h d a b fmt off => Sys2Proof.Machine.execVld h d a b fmt off s
  | .vst h d a b off => Sys2Proof.Machine.execVst h d a b off s
  | .ldt h d a fmt t r nrm1 sw => Sys2Proof.Machine.execLdt h d a fmt t r nrm1 sw s
  | .tld h d a b fmt r nrm1 sw => Sys2Proof.Machine.execTld h d a b fmt r nrm1 sw s
  | .tst h d a b r nrm1 sw => Sys2Proof.Machine.execTst h d a b r nrm1 sw s
  | .ldg h d a b k sz ord scope fmt => Sys2Proof.Machine.execLdg h d a b k sz ord scope fmt s
  | .stg h d a b sz ord scope => Sys2Proof.Machine.execStg h d a b sz ord scope s
  | .vgat h d a b k fmt mv => Sys2Proof.Machine.execVgat h d a b k fmt mv s
  | .vsct h d a b mv => Sys2Proof.Machine.execVsct h d a b mv s
  | .amo h d a b k aop sz u ord scope opr cmp => Sys2Proof.Machine.execAmo h d a b k aop sz u ord scope opr cmp s
  | .alloc h a b => Sys2Proof.Machine.execAlloc h a b s
  | .free h a b => Sys2Proof.Machine.execFree h a b s
  | .vldc h d a k fmt => Sys2Proof.Machine.execVldc h d a k fmt s
  | .vstc h d a => Sys2Proof.Machine.execVstc h d a s
  | .pref h a b lvl lnm1 => Sys2Proof.Machine.execPref h a b lvl lnm1 s
  | .inv h a b lnm1 => Sys2Proof.Machine.execInv h a b lnm1 s
  | .sbind h d a => Sys2Proof.Machine.execSbind h d a s
  | .sunbind h d => Sys2Proof.Machine.execSunbind h d s
  | .sflush h a k scope => Sys2Proof.Machine.execSflush h a k scope s
  | .sstat h a b => Sys2Proof.Machine.execSstat h a b s
  | .sskip h a b => Sys2Proof.Machine.execSskip h a b s
  | .xcopy h d g c k scope => Sys2Proof.Machine.execXcopy h d g c k scope s
  | .xlist h d g c k scope => Sys2Proof.Machine.execXlist h d g c k scope s
  | .xfill h d g c k scope => Sys2Proof.Machine.execXfill h d g c k scope s
  | .xred h d g c k scope => Sys2Proof.Machine.execXred h d g c k scope s
  | .xstat h d g c k scope => Sys2Proof.Machine.execXstat h d g c k scope s
  | .br h seg bun => Sys2Proof.Machine.execBr h seg bun s
  | .brz h a seg bun => Sys2Proof.Machine.execBrz h a seg bun s
  | .brnz h a seg bun => Sys2Proof.Machine.execBrnz h a seg bun s
  | .brp h a b seg bun => Sys2Proof.Machine.execBrp h a b seg bun s
  | .call h d seg bun => Sys2Proof.Machine.execCall h d seg bun s
  | .ret h a => Sys2Proof.Machine.execRet h a s
  | .jmpr h d a => Sys2Proof.Machine.execJmpr h d a s
  | .loop h a n seg bun => Sys2Proof.Machine.execLoop h a n seg bun s
  | .exit h => Sys2Proof.Machine.execExit h s
  | .trap h code => Sys2Proof.Machine.execTrap h code s
  | .nop h => Sys2Proof.Machine.execNop h s
  | .segpf h seg => Sys2Proof.Machine.execSegpf h seg s
  | .fence h scope => Sys2Proof.Machine.execFence h scope s
  | .fenceAll h scope => Sys2Proof.Machine.execFenceAll h scope s
  | .fenceDrain h => Sys2Proof.Machine.execFenceDrain h s
  | .wait h d a b loc sz acq scope exp => Sys2Proof.Machine.execWait h d a b loc sz acq scope exp s
  | .waitArm h d a b loc sz acq scope exp => Sys2Proof.Machine.execWaitArm h d a b loc sz acq scope exp s
  | .waitAny h d => Sys2Proof.Machine.execWaitAny h d s
  | .waitClr h => Sys2Proof.Machine.execWaitClr h s
  | .sync h a => Sys2Proof.Machine.execSync h a s
  | .fadd h a b scope val => Sys2Proof.Machine.execFadd h a b scope val s
  | .fset h a b scope off val => Sys2Proof.Machine.execFset h a b scope off val s
  | .fwait h d a b acq scope thr => Sys2Proof.Machine.execFwait h d a b acq scope thr s
  | .promote h a => Sys2Proof.Machine.execPromote h a s
  | .csrr h d num => Sys2Proof.Machine.execCsrr h d num s
  | .csrw h a num => Sys2Proof.Machine.execCsrw h a num s
  | .trn h d a rights l2s => Sys2Proof.Machine.execTrn h d a rights l2s s
  | .hinv h d => Sys2Proof.Machine.execHinv h d s
  | .hinvAll h => Sys2Proof.Machine.execHinvAll h s
  | .commit h => Sys2Proof.Machine.execCommit h s
  | .sig h a => Sys2Proof.Machine.execSig h a s
  | .brk h code => Sys2Proof.Machine.execBrk h code s
  | .tsc h d => Sys2Proof.Machine.execTsc h d s
  | .glook h d g c k scope => Sys2Proof.Machine.execGlook h d g c k scope s
  | .gins h d g c k scope => Sys2Proof.Machine.execGins h d g c k scope s
  | .gref h d g c k scope => Sys2Proof.Machine.execGref h d g c k scope s
  | .gunref h d g c k scope => Sys2Proof.Machine.execGunref h d g c k scope s
  | .kvapp h d g c k scope => Sys2Proof.Machine.execKvapp h d g c k scope s
  | .kvtrunc h d g c k scope => Sys2Proof.Machine.execKvtrunc h d g c k scope s
  | .hla h d g c k scope => Sys2Proof.Machine.execHla h d g c k scope s
  | .hrd h d g c k scope => Sys2Proof.Machine.execHrd h d g c k scope s
  | .hrel h d g c k scope => Sys2Proof.Machine.execHrel h d g c k scope s
  | .hswp h d g c k scope => Sys2Proof.Machine.execHswp h d g c k scope s
  | .hnode h d g c k scope => Sys2Proof.Machine.execHnode h d g c k scope s
  | .hcpo h d g c k scope => Sys2Proof.Machine.execHcpo h d g c k scope s
  | .publish h d g c k scope => Sys2Proof.Machine.execPublish h d g c k scope s
  | .adopt h d g c k scope seqb => Sys2Proof.Machine.execAdopt h d g c k scope seqb s
  | .vers h d g c k scope => Sys2Proof.Machine.execVers h d g c k scope s
  | .flrec h d g c k scope => Sys2Proof.Machine.execFlrec h d g c k scope s
  | .flcommit h d g c k scope => Sys2Proof.Machine.execFlcommit h d g c k scope s
  | .fltake h d g c k scope => Sys2Proof.Machine.execFltake h d g c k scope s
  | .flack h d g c k scope => Sys2Proof.Machine.execFlack h d g c k scope s
  | .nbmv h d g c k scope => Sys2Proof.Machine.execNbmv h d g c k scope s
  | .nbmat h d g c k scope => Sys2Proof.Machine.execNbmat h d g c k scope s
  | .nbstat h d g c k scope => Sys2Proof.Machine.execNbstat h d g c k scope s
  | .coll h d g c k scope => Sys2Proof.Machine.execColl h d g c k scope s
  | .fput h d g c k scope => Sys2Proof.Machine.execFput h d g c k scope s
  | .fget h d g c k scope => Sys2Proof.Machine.execFget h d g c k scope s
  | .famo h d g c k scope => Sys2Proof.Machine.execFamo h d g c k scope s
  | .fnfetch h d g c k scope => Sys2Proof.Machine.execFnfetch h d g c k scope s
  | .fixedResultLands ctx id => Sys2Proof.Machine.execFixedResultLands ctx id s
  | .taggedResultLands ctx id => Sys2Proof.Machine.execTaggedResultLands ctx id s
  | .matrixResultComplete ctx id => Sys2Proof.Machine.execMatrixResultComplete ctx id s
  | .tileTransferComplete ctx id => Sys2Proof.Machine.execTileTransferComplete ctx id s
  | .segmentExpansionDone ctx => Sys2Proof.Machine.execSegmentExpansionDone ctx s
  | .segmentFallThrough ctx => Sys2Proof.Machine.execSegmentFallThrough ctx s
  | .syncArrival ctx => Sys2Proof.Machine.execSyncArrival ctx s
  | .syncRestart ctx => Sys2Proof.Machine.execSyncRestart ctx s
  | .monitorFire ctx idx reason => Sys2Proof.Machine.execMonitorFire ctx idx reason s
  | .flagPush ctx => Sys2Proof.Machine.execFlagPush ctx s
  | .waitTimeout ctx => Sys2Proof.Machine.execWaitTimeout ctx s
  | .hangTimeout ctx => Sys2Proof.Machine.execHangTimeout ctx s
  | .promotionArrival id => Sys2Proof.Machine.execPromotionArrival id s
  | .promotionAck id => Sys2Proof.Machine.execPromotionAck id s
  | .streamFetch ctx q => Sys2Proof.Machine.execStreamFetch ctx q s
  | .engineCommandEnd id => Sys2Proof.Machine.execEngineCommandEnd id s
  | .materialisationEnd ext => Sys2Proof.Machine.execMaterialisationEnd ext s
  | .adoptTimeout id => Sys2Proof.Machine.execAdoptTimeout id s
  | .nbmatQueuedStart ws => Sys2Proof.Machine.execNbmatQueuedStart ws s
  | .refusalRetry id => Sys2Proof.Machine.execRefusalRetry id s
  | .heldFaultPost vd => Sys2Proof.Machine.execHeldFaultPost vd s
  | .drainComplete ctx => Sys2Proof.Machine.execDrainComplete ctx s
  | .deadDrainComplete ctx => Sys2Proof.Machine.execDeadDrainComplete ctx s
  | .taskGroupEnd serial => Sys2Proof.Machine.execTaskGroupEnd serial s
  | .rerunEnd ctx => Sys2Proof.Machine.execRerunEnd ctx s
  | .retirementCommit tile => Sys2Proof.Machine.execRetirementCommit tile s
  | .scannerVisit queue => Sys2Proof.Machine.execScannerVisit queue s
  | .controllerFrame fc => Sys2Proof.Machine.execControllerFrame fc s
  | .nopCommand fc => Sys2Proof.Machine.execNopCommand fc s
  | .launch fc => Sys2Proof.Machine.execLaunch fc s
  | .launchPlacement serial place => Sys2Proof.Machine.execLaunchPlacement serial place s
  | .graph fc => Sys2Proof.Machine.execGraph fc s
  | .repart fc => Sys2Proof.Machine.execRepart fc s
  | .badcmd fc => Sys2Proof.Machine.execBadcmd fc s
  | .graphNodeLaunch node => Sys2Proof.Machine.execGraphNodeLaunch node s
  | .activationDiscard buf => Sys2Proof.Machine.execActivationDiscard buf s
  | .bufferReplay buf => Sys2Proof.Machine.execBufferReplay buf s
  | .sliceEnd serial => Sys2Proof.Machine.execSliceEnd serial s
  | .checkpointSave ctx => Sys2Proof.Machine.execCheckpointSave ctx s
  | .contextRestore slot tile bank => Sys2Proof.Machine.execContextRestore slot tile bank s
  | .vdStopped vd => Sys2Proof.Machine.execVdStopped vd s
  | .collStepTimeout id => Sys2Proof.Machine.execCollStepTimeout id s
  | .matrixComputePhaseEnd ctx id => Sys2Proof.Machine.execMatrixComputePhaseEnd ctx id s
  | .writePerformed id => Sys2Proof.Machine.execWritePerformed id s
  | .waitReadReturn ctx => Sys2Proof.Machine.execWaitReadReturn ctx s
  | .noiseLogReadAhead ctx => Sys2Proof.Machine.execNoiseLogReadAhead ctx s
  | .quantumExpiry ctx => Sys2Proof.Machine.execQuantumExpiry ctx s
  | .egressPacketTransmit port id => Sys2Proof.Machine.execEgressPacketTransmit port id s
  | .bamugRetransmitTimeout conn => Sys2Proof.Machine.execBamugRetransmitTimeout conn s
  | .roceAckTimeout conn => Sys2Proof.Machine.execRoceAckTimeout conn s
  | .roceRateRecovery conn => Sys2Proof.Machine.execRoceRateRecovery conn s
  | .roceRnrRetryTimer conn => Sys2Proof.Machine.execRoceRnrRetryTimer conn s
  | .bamugWrite p => Sys2Proof.Machine.execBamugWrite p s
  | .bamugReadReq p => Sys2Proof.Machine.execBamugReadReq p s
  | .bamugReadResp p => Sys2Proof.Machine.execBamugReadResp p s
  | .bamugAtomicReq p => Sys2Proof.Machine.execBamugAtomicReq p s
  | .bamugAtomicResp p => Sys2Proof.Machine.execBamugAtomicResp p s
  | .bamugFlagAdd p => Sys2Proof.Machine.execBamugFlagAdd p s
  | .bamugNameReq p => Sys2Proof.Machine.execBamugNameReq p s
  | .bamugNameResp p => Sys2Proof.Machine.execBamugNameResp p s
  | .bamugCollData p => Sys2Proof.Machine.execBamugCollData p s
  | .bamugUnknownOpcode p => Sys2Proof.Machine.execBamugUnknownOpcode p s
  | .roceSend p => Sys2Proof.Machine.execRoceSend p s
  | .roceRdmaWrite p => Sys2Proof.Machine.execRoceRdmaWrite p s
  | .roceRdmaRead p => Sys2Proof.Machine.execRoceRdmaRead p s
  | .roceReadResponse p => Sys2Proof.Machine.execRoceReadResponse p s
  | .roceCompareSwap p => Sys2Proof.Machine.execRoceCompareSwap p s
  | .roceFetchAdd p => Sys2Proof.Machine.execRoceFetchAdd p s
  | .roceAcknowledge p => Sys2Proof.Machine.execRoceAcknowledge p s
  | .roceNakReceived p => Sys2Proof.Machine.execRoceNakReceived p s
  | .reclaimLine => Sys2Proof.Machine.execReclaimLine s
  | .softError site correctable => Sys2Proof.Machine.execSoftError site correctable s
  | .noiseHealthFail tile test => Sys2Proof.Machine.execNoiseHealthFail tile test s
  | .noiseSourceRestore tile => Sys2Proof.Machine.execNoiseSourceRestore tile s
  | .patrolScrub site err => Sys2Proof.Machine.execPatrolScrub site err s
  | .healthStoreUpdate => Sys2Proof.Machine.execHealthStoreUpdate s
  | .thermalTrip sensor temp => Sys2Proof.Machine.execThermalTrip sensor temp s
  | .coldReset => Sys2Proof.Machine.execColdReset s
  | .notifyStore queue tail => Sys2Proof.Machine.execNotifyStore queue tail s
  | .scannerWake => Sys2Proof.Machine.execScannerWake s
  | .repartCommit => Sys2Proof.Machine.execRepartCommit s
  | .vdStop vd => Sys2Proof.Machine.execVdStop vd s
  | .vdResume vd => Sys2Proof.Machine.execVdResume vd s
  | .vdDiscard vd => Sys2Proof.Machine.execVdDiscard vd s
  | .invalWholeVd val => Sys2Proof.Machine.execInvalWholeVd val s
  | .invalStage1Pages val => Sys2Proof.Machine.execInvalStage1Pages val s
  | .invalStage2Pages val => Sys2Proof.Machine.execInvalStage2Pages val s
  | .invalidationComplete => Sys2Proof.Machine.execInvalidationComplete s
  | .pageReply val => Sys2Proof.Machine.execPageReply val s
  | .mmPrqWrite val => Sys2Proof.Machine.execMmPrqWrite val s
  | .mmDlogWrite val => Sys2Proof.Machine.execMmDlogWrite val s
  | .mmEvqWrite val => Sys2Proof.Machine.execMmEvqWrite val s
  | .mmEvqtailWrite val => Sys2Proof.Machine.execMmEvqtailWrite val s
  | .evictionRequestService => Sys2Proof.Machine.execEvictionRequestService s
  | .feQcfgWrite val => Sys2Proof.Machine.execFeQcfgWrite val s
  | .feSemaWrite master val => Sys2Proof.Machine.execFeSemaWrite master val s
  | .feCebindWrite val => Sys2Proof.Machine.execFeCebindWrite val s
  | .feFeatEnWrite n val => Sys2Proof.Machine.execFeFeatEnWrite n val s
  | .fcRestart val => Sys2Proof.Machine.execFcRestart val s
  | .feNqWrite val => Sys2Proof.Machine.execFeNqWrite val s
  | .fePoolCfgWrite val => Sys2Proof.Machine.execFePoolCfgWrite val s
  | .reLogWrite val => Sys2Proof.Machine.execReLogWrite val s
  | .reEqWrite val => Sys2Proof.Machine.execReEqWrite val s
  | .healthClearRequest val => Sys2Proof.Machine.execHealthClearRequest val s
  | .attestationRequest val => Sys2Proof.Machine.execAttestationRequest val s
  | .connectionReset val => Sys2Proof.Machine.execConnectionReset val s
  | .fxRqheadWrite val => Sys2Proof.Machine.execFxRqheadWrite val s
  | .configRegisterWrite addr val => Sys2Proof.Machine.execConfigRegisterWrite addr val s
  | .feCfgdenyRead => Sys2Proof.Machine.execFeCfgdenyRead s
  | .scStatRead => Sys2Proof.Machine.execScStatRead s
  | .fxErr0Read => Sys2Proof.Machine.execFxErr0Read s
  | .fxErr1Read => Sys2Proof.Machine.execFxErr1Read s
  | .reStatRead => Sys2Proof.Machine.execReStatRead s
  | .hwdErrRead => Sys2Proof.Machine.execHwdErrRead s
  | .feNqdropRead => Sys2Proof.Machine.execFeNqdropRead s
  | .mmPrstatRead => Sys2Proof.Machine.execMmPrstatRead s
  | .mgmtRead dg => Sys2Proof.Machine.execMgmtRead dg s
  | .mgmtWrite dg => Sys2Proof.Machine.execMgmtWrite dg s
  | .cebRegisterRead addr => Sys2Proof.Machine.execCebRegisterRead addr s
  | .cebRegisterWrite addr val => Sys2Proof.Machine.execCebRegisterWrite addr val s
  | .endpointConnectionLoss => Sys2Proof.Machine.execEndpointConnectionLoss s
  | .bamugAck p => Sys2Proof.Machine.execBamugAck p s
  | .bamugNak p => Sys2Proof.Machine.execBamugNak p s
  | .roceCnp p => Sys2Proof.Machine.execRoceCnp p s
  | .pfcPause port vc paused => Sys2Proof.Machine.execPfcPause port vc paused s
  | .ptpMessage offset rate => Sys2Proof.Machine.execPtpMessage offset rate s
  | .portLinkChange port up => Sys2Proof.Machine.execPortLinkChange port up s
  | .roceUnsupportedPacket p => Sys2Proof.Machine.execRoceUnsupportedPacket p s
  | .mgmtMalformedRequest dg => Sys2Proof.Machine.execMgmtMalformedRequest dg s
  | .scannerGating gated => Sys2Proof.Machine.execScannerGating gated s

end Sys2Proof.Machine
end

