-- ==== Sys2Proof/Machine/Due.lean ====
section
/-!
DEFINITION. The events that fall due in a cycle: those the spec bounds, in their last cycle at the latest, and those that units bring
about on their own, in the cycles that a free value picks (log entry 2). An event whose condition no longer holds when its turn comes
changes nothing (log entry 15).
-/

namespace Sys2Proof.Machine

/-- A unit takes a step of a kind in this cycle. -/
def State.may (s : State) (kind n : Nat) : Bool := Config.happens kind n s.now

/-- One event, where a test holds. -/
def onlyIf (b : Bool) (e : Instr) : List Instr := if b then [e] else []

/-! ### Results, writes and waits -/

/-- R173: compute phases that end, before any result of the cycle lands. -/
def State.duePhases (s : State) : List Instr :=
  s.ctxs.flatMap fun (c, x) => x.flights.flatMap fun f =>
    onlyIf (f.kind != .transfer && decide (f.phaseEnd ≤ s.now) && (f.unit.isSome || (f.kind == .matrix && !f.rd.isEmpty))) (.matrixComputePhaseEnd c f.id)

/-- R283: a piece of a flight stands in a reserved entry, and is to be serviced by this cycle. -/
def Flight.reservedBy (f : Flight) (now : Nat) : Bool :=
  match f.load with
  | some l => l.pieces.any fun p => p.val.isNone && p.freq.isNone && (match p.tries with | .reserved b => decide (b ≤ now) | _ => false)
  | none => false

/-- R106, R108, R173, R185: a result may land from its first cycle on, and lands in its last; a load that a write near its bound waits for
(R272), or whose request stands in a reserved entry (R283), goes on. -/
def State.dueFlight (s : State) (c : Nat) (f : Flight) : List Instr :=
  if f.first ≤ s.now then
    if f.retries s.now then [.refusalRetry f.id]
    else if (match f.bound with | some b => decide (b ≤ s.now) | none => false) || s.pressed c f || f.reservedBy s.now || s.may 1 f.id then
      match f.kind with
      | .fixed => [.fixedResultLands c f.id]
      | .tagged => onlyIf (f.cmd.isNone || (f.overdue s.now && !(f.late && f.lands.isEmpty))) (.taggedResultLands c f.id)
      | .matrix => [.matrixResultComplete c f.id]
      | .transfer => [.tileTransferComplete c f.id]
    else []
  else []

/-- The results of every context, in the order of their issue. -/
def State.dueFlights (s : State) : List Instr := s.ctxs.flatMap fun (c, x) => x.flights.flatMap (s.dueFlight c)

/-- R272, R283: posted writes, in the order of their issue. -/
def State.duePosted (s : State) : List Instr :=
  s.posted.flatMap fun p =>
    if p.wait.isSome || p.freq.isSome then []
    else match p.tries with
      | .none => onlyIf (decide (p.bound ≤ s.now) || s.may 2 p.id) (.writePerformed p.id)
      | .refused _ again => onlyIf (decide (again ≤ s.now)) (.refusalRetry p.id)
      | .reserved b => onlyIf (decide (b ≤ s.now) || s.may 2 p.id) (.writePerformed p.id)

/-- R223: promotions that arrive, and those whose acknowledgement returns. -/
def State.duePromotions (s : State) : List Instr :=
  s.promotions.flatMap fun p =>
    if p.upto.isNone then onlyIf (s.may 3 p.id) (.promotionArrival p.id) else onlyIf (s.promoted p && s.may 4 p.id) (.promotionAck p.id)

/-- R211: the first monitor of a context that has fired, and the monitors whose line its home slice reports lost. -/
def State.dueMonitors (s : State) (c : Nat) : List Instr :=
  let mine := (s.monitors.filter (·.ctx == c)).zipIdx
  (match mine.find? fun (m, _) => m.fired.isSome with
   | some (m, i) => onlyIf ((s.ctx c).onMonitors && s.may 5 c) (.monitorFire c i (m.fired.getD 0))
   | none => []) ++
    mine.flatMap fun (m, i) => if m.scratch || m.arming || m.fired.isSome then [] else onlyIf (s.may 6 (16 * c + i)) (.monitorFire c i stEvict)

/-- R56, R211-R214, R221, R422: what ends the waits of a context. -/
def State.dueWaits (s : State) (c : Nat) : List Instr :=
  s.dueMonitors c ++
    (match s.flags.find? (·.ctx == c) with
     | some f =>
       if f.pushed.isEmpty && !f.lost then []
       else match f.window with
         | some (a, b) => onlyIf (decide (a ≤ s.now) && (decide (b ≤ s.now) || s.may 7 c)) (.flagPush c)
         | none => onlyIf (s.may 7 c) (.flagPush c)
     | none => []) ++
    (if s.mayReturn c then onlyIf (s.may 8 c) (.waitReadReturn c) else []) ++
    onlyIf (s.waitOver c) (.waitTimeout c) ++ onlyIf (s.hangs c) (.hangTimeout c)

/-- R50, R84, R202: what a context fetches ahead. -/
def State.dueFetches (s : State) (c : Nat) : List Instr :=
  let x := s.ctx c
  (if x.mayExpand then onlyIf (s.may 9 c) (.segmentExpansionDone c) else []) ++
    ((List.range 8).flatMap fun q => if x.mayFetch q then onlyIf (s.may 10 (8 * c + q)) (.streamFetch c q) else []) ++
    (if x.mayReadAhead then onlyIf (s.may 11 c) (.noiseLogReadAhead c) else [])

/-- R36, R134, R364, R365, R434, R448: drains, reruns and quanta of a context. -/
def State.dueDrain (s : State) (c : Nat) : List Instr :=
  let x := s.ctx c
  (match x.st with
   | .draining =>
     if (x.rerun.bind (·.ended)).isSome then onlyIf (s.may 12 c) (.rerunEnd c)
     else match x.drainTo with
       | .save _ _ => onlyIf (s.may 13 c) (.checkpointSave c)
       | .none => []
       | _ => onlyIf (s.may 14 c) (.drainComplete c)
   | .dead => onlyIf (s.may 15 c) (.deadDrainComplete c)
   | _ => []) ++
    (match x.group, x.quantumFrom with
     | some n, some t => onlyIf (!x.quantumOver && decide (t + s.dfld Dev.scQmin 0 0 32 * cyclesPerUs ≤ s.now) && decide (t + s.quantum n * cyclesPerUs ≤ s.now)) (.quantumExpiry c)
     | _, _ => [])

/-- Everything of the contexts that is due. -/
def State.dueCtxs (s : State) : List Instr :=
  s.ctxs.flatMap fun (c, _) => s.dueWaits c ++ s.dueFetches c ++ s.dueDrain c

/-! ### Engines and translation -/

/-- R229: the immediate status that waits for a command nears its bound, so that its engine goes on with it (log entry 28). -/
def State.cmdPressed (s : State) (k : Cmd) : Bool :=
  (s.ctx k.ctx).flights.any fun f => f.cmd == some k.id && match f.bound with | some b => decide (b ≤ s.now + 16) && decide (s.now ≤ b) | none => false

/-- R227, R314, R326, R327, R467, R474: the engines. -/
def State.dueEngines (s : State) : List Instr :=
  (s.cmds.flatMap fun k =>
    onlyIf (s.adoptLate k) (.adoptTimeout k.id) ++ onlyIf (s.collLate k) (.collStepTimeout k.id) ++ onlyIf (s.may 16 k.id || s.cmdPressed k) (.engineCommandEnd k.id)) ++
    (s.extents.flatMap fun (n, e) => if e.state = 1 then onlyIf (s.may 17 n) (.materialisationEnd n) else []) ++
    (s.matQueue.flatMap fun (ws, _) => if s.queuedReady ws then onlyIf (s.may 18 ws) (.nbmatQueuedStart ws) else []) ++
    (if s.hlines.any (·.reclaiming) then onlyIf (s.may 19 0) .reclaimLine else [])

/-- R381, R387, R429: invalidations, held faults and evictions. -/
def State.dueTranslation (s : State) : List Instr :=
  (match s.invals with
   | v :: _ => if s.invalOpen v then [] else onlyIf (s.may 20 v.upto) .invalidationComplete
   | [] => []) ++
    ((s.held.map (·.key.vd)).eraseDups.map fun vd => .heldFaultPost vd) ++
    (if s.migr.isSome || (s.dfld Dev.mmEvq 0 63 1 == 1 && s.dfld Dev.mmEvqhead 0 0 32 != s.dfld Dev.mmEvqtail 0 0 32) then
      onlyIf (s.may 21 0) .evictionRequestService else [])

/-! ### The front end -/

/-- The event that serves a command (R335, R337). -/
def State.serveEvent (s : State) (n : Nat) (k : Command) : Instr :=
  if !s.commandOk k then .badcmd n
  else match k.opc with
    | 0 => .nopCommand n
    | 1 => .launch n
    | 2 => .graph n
    | _ => .repart n

/-- R342-R344: a controller's frame that is due, a bundle of its firmware, and the commands of the polling slot that begins. -/
def State.dueFc (s : State) (n : Nat) : List Instr :=
  let f := s.fc n
  if f.halted then []
  else
    let t := s.now - f.frameAt
    onlyIf (decide (4 * cyclesPerUs ≤ t) || (!f.isram.isEmpty && s.now % cyclesPerLlc == 0)) (.controllerFrame n) ++
      (if 2 * t % 125 < 2 then ((s.candidates n).filter fun (_, k) => s.inSlot n k).map fun (_, k) => s.serveEvent n k else [])

/-- R340, R341: the scanner, which visits a queue in each LLC cycle. -/
def State.dueScanner (s : State) : List Instr :=
  if s.pending.isEmpty then []
  else if s.gated then onlyIf (decide (s.wakeBy ≤ s.now) || s.may 22 0) .scannerWake
  else match s.nextVisit with
    | some q => onlyIf (s.now % cyclesPerLlc == 0) (.scannerVisit q)
    | none => []

/-- R373, R408: the images that find a bank, oldest first. -/
def State.dueRestores (s : State) : List Instr :=
  s.images.flatMap fun i =>
    let slot := i.vd * 2 ^ 16 + i.slot
    match (if s.may 31 slot then s.imageMayReturn i else none) with
    | none => []
    | some g =>
      if (s.imageBad i.vd i.slot).isSome then [.contextRestore slot 0 0]
      else match s.clusterFor g i with
        | none => []
        | some cl =>
          let tile := tileIn cl i.lx i.ly
          (match s.bankFor g.mode tile (imagePins (s.imageOn i)) with
           | some b => [.contextRestore slot tile b]
           | none => [])

/-- R31-R34, R345, R361: launches that wait for placement, groups whose slice ends, and groups that end. -/
def State.dueGroups (s : State) : List Instr :=
  (s.groups.flatMap fun g => if s.may 32 g.serial && s.mayPlace g then [.launchPlacement g.serial ((s.findPlace g).getD [])] else []) ++
    (s.groups.flatMap fun g => onlyIf (g.placed && s.dfld Dev.scSlice 0 0 32 != 0 && !(s.groupCtxs g.serial).isEmpty) (.sliceEnd g.serial)) ++
    (s.groups.flatMap fun g =>
      if s.groupOver g || (g.ending && !(s.groupImages g.serial).isEmpty) then onlyIf (s.may 23 g.serial) (.taskGroupEnd g.serial) else [])

/-- R350, R351: the nodes of task graphs. -/
def State.dueNodes (s : State) : List Instr :=
  (match s.poolLow, s.nextDiscard with
   | true, some n => onlyIf (s.may 24 n) (.activationDiscard n)
   | _, _ => []) ++
    s.nodes.flatMap fun k =>
      (if k.discarded && k.error != 7 then onlyIf (s.may 25 k.id) (.bufferReplay k.id) else []) ++
        (if s.nodeTurn k then onlyIf (s.may 26 k.id) (.graphNodeLaunch k.id) else [])

/-- R360, R372, R450: moves and stops. -/
def State.dueMoves (s : State) : List Instr :=
  (s.moves.flatMap fun m => match m.retireTile with
    | some t => onlyIf (s.may 27 t) (.retirementCommit t)
    | none => onlyIf (s.may 28 0) .repartCommit) ++
    s.vdState.flatMap fun (vd, st) => if st = 1 then onlyIf (s.may 29 vd) (.vdStopped vd) else []

/-- Everything of the front end that is due. -/
def State.dueFrontEnd (s : State) : List Instr :=
  if !s.ready then []
  else (if s.thermal then [] else ((List.range 4).flatMap s.dueFc) ++ s.dueScanner) ++ s.dueMoves ++ s.dueRestores ++ s.dueNodes ++ s.dueGroups

/-! ### The fabric -/

/-- R390: the packet that a port sends next. -/
def State.nextSent (s : State) (port : Nat) : Option Egress :=
  match (if (s.port port).paused.contains 0 then none else s.headOf port 0) with
  | some e => some e
  | none => if (s.vcActive port).isEmpty then none else (s.nextRounds port 8).2.map (·.2)

/-- R390, R394, R398, R465: ports that send, and the timers of connections. -/
def State.dueFabric (s : State) : List Instr :=
  (s.ports.flatMap fun (n, p) =>
    if !p.up then [] else match s.nextSent n with | some e => onlyIf (s.may 30 n) (.egressPacketTransmit n e.id) | none => []) ++
    s.conns.flatMap fun (k, c) =>
      let roce := ((s.connEntry (k / 4)).map connRoce).getD false
      let late := !c.unacked.isEmpty && !c.failed && decide (c.progressAt + Nat.max 1 (s.dfld Dev.fxRto 0 0 32) * cyclesPerUs ≤ s.now)
      (if late then [if roce then .roceAckTimeout (k / 4) else .bamugRetransmitTimeout k] else []) ++
        onlyIf (roce && (match c.rnrTimer with | some t => decide (t ≤ s.now) | none => false)) (.roceRnrRetryTimer (k / 4)) ++
        onlyIf (roce && decide (c.rate < 800000) && decide (c.cnpIn + 55 * cyclesPerUs ≤ s.now)) (.roceRateRecovery (k / 4))

/-! ### The sync line -/

/-- R42: the sync bundles that restart in this cycle are marked; of two on one core, that of bank A goes first, and that of bank B in
the next cycle. -/
def State.markRestarts (s : State) : State :=
  let now := if s.thermal then [] else (s.ctxs.filter fun (c, x) => x.st == .syncHeld && s.restartAt c == some s.now).map (·.1)
  now.foldl (fun s c =>
    let pair := now.contains (if c % 2 = 1 then c - 1 else c + 1)
    s.modCtx c fun x => { x with syncAt := some (if c % 2 = 1 && pair then s.now + 1 else s.now), syncPair := pair }) s

/-- R53: the contexts that restart in this cycle. -/
def State.dueRestarts (s : State) : List Instr :=
  s.ctxs.flatMap fun (c, x) => onlyIf (!s.thermal && x.st == .syncHeld && x.syncAt == some s.now) (.syncRestart c)

/-! ### A cycle -/

/-- The events of the cycle that begins. -/
def State.dueEvents (s : State) : List Instr :=
  s.duePhases ++ s.dueFlights ++ s.duePosted ++ s.duePromotions ++ s.dueCtxs ++ s.dueEngines ++ s.dueTranslation ++ s.dueFrontEnd ++
    s.dueFabric ++ onlyIf (s.healthChanged && decide (s.healthAt + 60 * 10 ^ 6 * cyclesPerUs ≤ s.now)) .healthStoreUpdate ++ s.dueRestarts

/-- R258, R326: materialisations go on, one leaf at a time, in cycles that a free value picks (log entry 2). -/
def State.matProgress (s : State) : State :=
  s.extents.foldl (fun s (n, e) => if e.state = 1 ∧ s.may 48 n then s.matLeaf (n / 2) (n % 2) else s) s

/-- R302, R326, R332, R353: what goes on in every cycle by itself, unless a thermal trip has stopped the device (R24). -/
def State.background (s : State) : State := if s.thermal then s else s.retryPins.retryRings.matProgress.releaseSema

/-- R21, R403: a cycle ends and the next begins: the counter advances by 0.25 ns at its corrected rate, and what is due in the cycle is
listed. -/
def State.tickCycle (s : State) : State :=
  let s : State := { s with now := s.now + 1, tsc := ((s.tsc : Int) + 25000000 + 25 * s.tscRate).toNat, visit := 0 }
  let s := s.markRestarts.background
  { s with due := s.dueEvents }

end Sys2Proof.Machine
end

