-- ==== Sys2Proof/Machine/Step.lean ====
section
/-!
DEFINITION. One step of the machine.
-/

namespace Sys2Proof.Machine

/-- The machine stops where the device has addressed memory that does not exist. -/
def orFault (o : Host.Outcome State Fault Refusal) : Host.Outcome State Fault Refusal :=
  match o with
  | .next s => match s.bad with | some f => .fault f | none => .next s
  | o => o

/-- A word in hand issues. -/
def runTodo (s : State) (w : IssueWord) (rest : List IssueWord) : Host.Outcome State Fault Refusal :=
  orFault (exec w.instr ({ s with todo := rest }.issueWord w))

/-- One step: the next word in hand issues; or an event that is due happens; or one that the outside world brings; or the
merge stage of a core finds words to issue, the first of which issues; or the cycle ends. -/
def step (s : State) : Host.Outcome State Fault Refusal :=
  match s.bad with
  | some f => .fault f
  | none =>
    match s.todo with
    | w :: rest => runTodo s w rest
    | [] =>
      match s.due with
      | e :: rest => orFault (exec e { s with due := rest })
      | [] =>
        match s.arriving with
        | some (e, rest) => orFault (exec e { s with agenda := rest })
        | none =>
          match s.scan s.tilesLeft with
          | some t =>
            match t.todo with
            | w :: rest => runTodo t w rest
            | [] => orFault (.next t)
          | none => .next s.tickCycle

/-- The state with an instruction placed where the next step fetches (log entry 9): bank A of core 0 is Running, and its
loop buffer holds one bundle with the instruction, ended by a `nop` where the instruction does not end it. -/
def State.withFetchWord (s : State) (nbits w : Nat) : State := s.withBundle (fetchBundle nbits w)

end Sys2Proof.Machine
end

