-- ==== Sys2Proof/Safety.lean ====
section
/-!
DEFINITION. What counts as a safe step, one that goes on; and the terms in which statements about words and events are
written.
-/

namespace Sys2Proof.Safety

open Machine

/-- A step goes on: it neither faults nor refuses. -/
def goesOn (s : State) : Prop := ∃ t, step s = .next t

/-- An instruction goes on in a state. -/
def completes (i : Instr) (s : State) : Prop := ∃ t, exec i s = .next t

/-- R104, R442: the word in hand has a true predicate, and no register of its context is poisoned. -/
def goes (h : Hdr) (s : State) : Prop := predOf s.cur.preds h.pred = true ∧ s.me.poison = []

/-- R96, R184, R442: beside that, the word passes the checks of its entry, and no stream entry that it pops is poisoned. -/
def passes (h : Hdr) (i : Instr) (s : State) : Prop := goes h s ∧ (semOf i).chk s = none ∧ (semOf i).popped s = none

/-- R114: the operations that the table lists. -/
def assigned (cls op : Nat) : Bool :=
  match cls with
  | 1 => op ≤ 24 || (26 ≤ op && op ≤ 30)
  | 2 => op ≤ 31
  | 3 => op ≤ 8
  | 4 => op ≤ 6 || (8 ≤ op && op ≤ 20)
  | 5 => op ≤ 4
  | 6 => op ≤ 4
  | 7 => op ≤ 11
  | 8 => op ≤ 6
  | 9 => op ≤ 7
  | 10 => op ≤ 5
  | 11 => op ≤ 5
  | 12 => op ≤ 6
  | 13 => op ≤ 2
  | 14 => op ≤ 4
  | _ => false

/-- The header of an instruction word; the scheduling control word and the events have none. -/
def header : Instr → Option Hdr
  | .add h .. => some h
  | .sub h .. => some h
  | .mul h .. => some h
  | .mulh h .. => some h
  | .mulhu h .. => some h
  | .and h .. => some h
  | .or h .. => some h
  | .xor h .. => some h
  | .andn h .. => some h
  | .shl h .. => some h
  | .shr h .. => some h
  | .sra h .. => some h
  | .min h .. => some h
  | .max h .. => some h
  | .minu h .. => some h
  | .maxu h .. => some h
  | .seq h .. => some h
  | .slt h .. => some h
  | .sltu h .. => some h
  | .sel h .. => some h
  | .clz h .. => some h
  | .popc h .. => some h
  | .bext h .. => some h
  | .bins h .. => some h
  | .lih h .. => some h
  | .div h .. => some h
  | .rem h .. => some h
  | .movg h .. => some h
  | .movfg h .. => some h
  | .setp h .. => some h
  | .vadd h .. => some h
  | .vsub h .. => some h
  | .vmul h .. => some h
  | .vfma h .. => some h
  | .vfms h .. => some h
  | .vmax h .. => some h
  | .vmin h .. => some h
  | .vabs h .. => some h
  | .vneg h .. => some h
  | .vfloor h .. => some h
  | .vceil h .. => some h
  | .vmov h .. => some h
  | .vcmp h .. => some h
  | .vsel h .. => some h
  | .vexp2 h .. => some h
  | .vlog2 h .. => some h
  | .vrcp h .. => some h
  | .vrsqrt h .. => some h
  | .vexpb h .. => some h
  | .vcvt h .. => some h
  | .vcvtTag h .. => some h
  | .vpack h .. => some h
  | .vunpk h .. => some h
  | .vredadd h .. => some h
  | .vredmax h .. => some h
  | .vscan h .. => some h
  | .vperm h .. => some h
  | .vbcast h .. => some h
  | .viadd h .. => some h
  | .vimul h .. => some h
  | .vand h .. => some h
  | .vor h .. => some h
  | .vxor h .. => some h
  | .vshl h .. => some h
  | .vshr h .. => some h
  | .vrng h .. => some h
  | .vffs h .. => some h
  | .vany h .. => some h
  | .mma h .. => some h
  | .mmaz h .. => some h
  | .mmat h .. => some h
  | .mzero h .. => some h
  | .mcvt h .. => some h
  | .mfmt h .. => some h
  | .mtv h .. => some h
  | .mvt h .. => some h
  | .mcsel h .. => some h
  | .ldw h .. => some h
  | .ldd h .. => some h
  | .stw h .. => some h
  | .std h .. => some h
  | .vld h .. => some h
  | .vst h .. => some h
  | .ldt h .. => some h
  | .tld h .. => some h
  | .tst h .. => some h
  | .ldg h .. => some h
  | .stg h .. => some h
  | .vgat h .. => some h
  | .vsct h .. => some h
  | .amo h .. => some h
  | .alloc h .. => some h
  | .free h .. => some h
  | .vldc h .. => some h
  | .vstc h .. => some h
  | .pref h .. => some h
  | .inv h .. => some h
  | .sbind h .. => some h
  | .sunbind h .. => some h
  | .sflush h .. => some h
  | .sstat h .. => some h
  | .sskip h .. => some h
  | .xcopy h .. => some h
  | .xlist h .. => some h
  | .xfill h .. => some h
  | .xred h .. => some h
  | .xstat h .. => some h
  | .br h .. => some h
  | .brz h .. => some h
  | .brnz h .. => some h
  | .brp h .. => some h
  | .call h .. => some h
  | .ret h .. => some h
  | .jmpr h .. => some h
  | .loop h .. => some h
  | .exit h => some h
  | .trap h .. => some h
  | .nop h => some h
  | .segpf h .. => some h
  | .fence h .. => some h
  | .fenceAll h .. => some h
  | .fenceDrain h => some h
  | .wait h .. => some h
  | .waitArm h .. => some h
  | .waitAny h .. => some h
  | .waitClr h => some h
  | .sync h .. => some h
  | .fadd h .. => some h
  | .fset h .. => some h
  | .fwait h .. => some h
  | .promote h .. => some h
  | .csrr h .. => some h
  | .csrw h .. => some h
  | .trn h .. => some h
  | .hinv h .. => some h
  | .hinvAll h => some h
  | .commit h => some h
  | .sig h .. => some h
  | .brk h .. => some h
  | .tsc h .. => some h
  | .glook h .. => some h
  | .gins h .. => some h
  | .gref h .. => some h
  | .gunref h .. => some h
  | .kvapp h .. => some h
  | .kvtrunc h .. => some h
  | .hla h .. => some h
  | .hrd h .. => some h
  | .hrel h .. => some h
  | .hswp h .. => some h
  | .hnode h .. => some h
  | .hcpo h .. => some h
  | .publish h .. => some h
  | .adopt h .. => some h
  | .vers h .. => some h
  | .flrec h .. => some h
  | .flcommit h .. => some h
  | .fltake h .. => some h
  | .flack h .. => some h
  | .nbmv h .. => some h
  | .nbmat h .. => some h
  | .nbstat h .. => some h
  | .coll h .. => some h
  | .fput h .. => some h
  | .fget h .. => some h
  | .famo h .. => some h
  | .fnfetch h .. => some h
  | .sched .. => none
  | .fixedResultLands .. => none
  | .taggedResultLands .. => none
  | .matrixResultComplete .. => none
  | .tileTransferComplete .. => none
  | .segmentExpansionDone .. => none
  | .segmentFallThrough .. => none
  | .syncArrival .. => none
  | .syncRestart .. => none
  | .monitorFire .. => none
  | .flagPush .. => none
  | .waitTimeout .. => none
  | .hangTimeout .. => none
  | .promotionArrival .. => none
  | .promotionAck .. => none
  | .streamFetch .. => none
  | .engineCommandEnd .. => none
  | .materialisationEnd .. => none
  | .adoptTimeout .. => none
  | .nbmatQueuedStart .. => none
  | .refusalRetry .. => none
  | .heldFaultPost .. => none
  | .drainComplete .. => none
  | .deadDrainComplete .. => none
  | .taskGroupEnd .. => none
  | .rerunEnd .. => none
  | .retirementCommit .. => none
  | .scannerVisit .. => none
  | .controllerFrame .. => none
  | .nopCommand .. => none
  | .launch .. => none
  | .launchPlacement .. => none
  | .graph .. => none
  | .repart .. => none
  | .badcmd .. => none
  | .graphNodeLaunch .. => none
  | .activationDiscard .. => none
  | .bufferReplay .. => none
  | .sliceEnd .. => none
  | .checkpointSave .. => none
  | .contextRestore .. => none
  | .vdStopped .. => none
  | .collStepTimeout .. => none
  | .matrixComputePhaseEnd .. => none
  | .writePerformed .. => none
  | .waitReadReturn .. => none
  | .noiseLogReadAhead .. => none
  | .quantumExpiry .. => none
  | .egressPacketTransmit .. => none
  | .bamugRetransmitTimeout .. => none
  | .roceAckTimeout .. => none
  | .roceRateRecovery .. => none
  | .roceRnrRetryTimer .. => none
  | .bamugWrite .. => none
  | .bamugReadReq .. => none
  | .bamugReadResp .. => none
  | .bamugAtomicReq .. => none
  | .bamugAtomicResp .. => none
  | .bamugFlagAdd .. => none
  | .bamugNameReq .. => none
  | .bamugNameResp .. => none
  | .bamugCollData .. => none
  | .bamugUnknownOpcode .. => none
  | .roceSend .. => none
  | .roceRdmaWrite .. => none
  | .roceRdmaRead .. => none
  | .roceReadResponse .. => none
  | .roceCompareSwap .. => none
  | .roceFetchAdd .. => none
  | .roceAcknowledge .. => none
  | .roceNakReceived .. => none
  | .reclaimLine => none
  | .softError .. => none
  | .noiseHealthFail .. => none
  | .noiseSourceRestore .. => none
  | .patrolScrub .. => none
  | .healthStoreUpdate => none
  | .thermalTrip .. => none
  | .coldReset => none
  | .notifyStore .. => none
  | .scannerWake => none
  | .repartCommit => none
  | .vdStop .. => none
  | .vdResume .. => none
  | .vdDiscard .. => none
  | .invalWholeVd .. => none
  | .invalStage1Pages .. => none
  | .invalStage2Pages .. => none
  | .invalidationComplete => none
  | .pageReply .. => none
  | .mmPrqWrite .. => none
  | .mmDlogWrite .. => none
  | .mmEvqWrite .. => none
  | .mmEvqtailWrite .. => none
  | .evictionRequestService => none
  | .feQcfgWrite .. => none
  | .feSemaWrite .. => none
  | .feCebindWrite .. => none
  | .feFeatEnWrite .. => none
  | .fcRestart .. => none
  | .feNqWrite .. => none
  | .fePoolCfgWrite .. => none
  | .reLogWrite .. => none
  | .reEqWrite .. => none
  | .healthClearRequest .. => none
  | .attestationRequest .. => none
  | .connectionReset .. => none
  | .fxRqheadWrite .. => none
  | .configRegisterWrite .. => none
  | .feCfgdenyRead => none
  | .scStatRead => none
  | .fxErr0Read => none
  | .fxErr1Read => none
  | .reStatRead => none
  | .hwdErrRead => none
  | .feNqdropRead => none
  | .mmPrstatRead => none
  | .mgmtRead .. => none
  | .mgmtWrite .. => none
  | .cebRegisterRead .. => none
  | .cebRegisterWrite .. => none
  | .endpointConnectionLoss => none
  | .bamugAck .. => none
  | .bamugNak .. => none
  | .roceCnp .. => none
  | .pfcPause .. => none
  | .ptpMessage .. => none
  | .portLinkChange .. => none
  | .roceUnsupportedPacket .. => none
  | .mgmtMalformedRequest .. => none
  | .scannerGating .. => none


/-! ### Vector words -/

/-- R62: an element of a register in a format. -/
def elem (t : Fmt) (v : BitVec 2048) (i : Nat) : Nat := v.toNat / 2 ^ (t.width * i) % 2 ^ t.width

/-- R62: a 32-bit lane of a register. -/
def lane (v : BitVec 2048) (i : Nat) : BitVec 32 := v.extractLsb' (32 * i) 32

/-- R101, R148: what the source codes of a vector word read, each with its tag; `fixed` is the place that the instruction fixes
as I32. -/
def sources (s : State) (codes : List Nat) (x : VExt) (fixed : Option Nat) : List VReg :=
  let vs := s.me.vsrcs x.xs codes
  (vs.zip (resolveTags fixed x.fmt vs)).map fun (v, t) => ⟨v.data, v.side, t⟩

/-- One of them. -/
def source (s : State) (codes : List Nat) (x : VExt) (fixed : Option Nat) (n : Nat) : VReg := (sources s codes x fixed).getD n VReg.zero

/-- R149, R445: the state with the stream entries popped that the source codes of the word in hand name; with a stream as its
destination `d` the phase is no longer replayable. -/
def afterPops (s : State) (codes : List Nat) (d : Nat) : State :=
  let t := if (streamCode d).isSome then s.modCtx s.cur.ctx Ctx.unreplay else s
  t.modCtx s.cur.ctx fun x => x.popAll codes

/-- The flags of `n` elements together. -/
def allFlags (n : Nat) (f : Nat → Nat) : Nat := (List.range n).foldl (fun a i => a ||| f i) 0

/-- The noise bits that the elements before the `n`th take (R82). -/
def bitsBefore (e : Nat → Elem) (n : Nat) : Nat := ((List.range n).map fun k => (e k).w).sum

/-- R82: of the bits that a word takes, those of its element `n`, as a number. -/
def noiseOf (e : Nat → Elem) (bs : List Bool) (n : Nat) : Nat := bitsNat ((bs.drop (bitsBefore e n)).take (e n).w)

/-- R82: the noise bits that a word takes for `cnt` elements, and the state after them. -/
def noiseFor (s : State) (e : Nat → Elem) (cnt : Nat) : State × List Bool × Bool := s.takeBits (bitsBefore e cnt)

/-- The code of element `n` of a word that rounds `cnt` of them, in `w` bits. -/
def codeOf (s : State) (e : Nat → Elem) (cnt w n : Nat) : Nat := ((e n).out (noiseOf e (noiseFor s e cnt).2.1 n)).1 % 2 ^ w

/-- The flags of the elements of a word together, and rlog where the noise log ended (R83). -/
def flagsOf (s : State) (e : Nat → Elem) (cnt : Nat) : Nat :=
  allFlags cnt (fun n => ((e n).out (noiseOf e (noiseFor s e cnt).2.1 n)).2) ||| if (noiseFor s e cnt).2.2 then flRlog else 0

/-- R74, R149, R150: the word pops its sources, rounds `cnt` elements `e` under the mode it uses, and puts a register, of which `P`
speaks by the codes of its elements, in flight with the elements' flags and those that `xf` gives for it. With SR each element takes
noise bits, in element order; in the other modes none is taken, and beside the pops nothing else changes. -/
def Rounds (i : Instr) (s : State) (codes : List Nat) (rm bound d cnt w : Nat) (part : Bool) (e : Nat → Nat → Elem) (xf : VReg → Nat)
    (P : VReg → (Nat → Nat) → Prop) : Prop :=
  let u := afterPops s codes d
  let el := e (s.mode rm)
  ∃ v : VReg, exec i s = .next ((noiseFor u el cnt).1.landVector bound d v (flagsOf u el cnt ||| xf v) part) ∧ P v (codeOf u el cnt w)

/-- R150-R153: as `Rounds`, for a word that rounds every element of a register of a plain format. -/
def RoundsElements (i : Instr) (s : State) (codes : List Nat) (rm bound d : Nat) (t : Fmt) (e : Nat → Nat → Elem)
    (xf : VReg → Nat := fun _ => 0) : Prop :=
  Rounds i s codes rm bound d (countOf t) t.width false e xf fun v c =>
    v.tag = t ∧ v.side = 0 ∧ ∀ n, n < countOf t → elem t v.data n = c n

/-- The value of an element of a source that carries a plain format (R62). -/
def valueAt (r : VReg) (n : Nat) : Machine.Num := (r.tag.decode (elem r.tag r.data n)).1

/-- The value of an element of a source with its unit in the last place, whatever its format (R68-R70). -/
def valueUlpAt (r : VReg) (n : Nat) : Machine.Num × Option Int :=
  ((r.tag.values r.data r.side).map fun p => (p.1, some p.2)).getD n (.fin false 0 0 false, some 0)

/-- The value of an element of a tile row (R62). -/
def tileValue (t : TReg) (i k : Nat) : Machine.Num := ((t.row i).vals t.tag).getD k (.fin false 0 0 false)

/-- The word computes a register without rounding and without flags, and puts it in flight. -/
def Computes (i : Instr) (s : State) (codes : List Nat) (bound d : Nat) (P : VReg → Prop) : Prop :=
  ∃ v : VReg, exec i s = .next ((afterPops s codes d).landVector bound d v 0) ∧ P v

/-- R166: an exact integer brought into `w` bits: it wraps, or with `sat` it saturates. -/
def intoBits (w : Nat) (sat : Bool) (v : Int) : BitVec w :=
  BitVec.ofInt w (if sat then max (-(2 ^ (w - 1))) (min (2 ^ (w - 1) - 1) v) else v)

/-- The state after a vector word whose elements round as listed. -/
def vectorOut (s : State) (codes : List Nat) (bound d : Nat) (es : List Elem) (fin : List Nat → VReg) (fl : List Nat → Nat)
    (part : Bool) : State :=
  let r := (afterPops s codes d).roundAll es
  r.1.landVector bound d (fin r.2.1) (r.2.2 ||| fl r.2.1) part

/-! ### Memory, streams, synchronisation, engines -/

/-- R183: a byte of the scratchpad of a tile. -/
def scrByte (s : State) (tile a : Nat) : Byte := (s.sline tile a).data.extractLsb' (8 * (a % 128)) 8

/-- No line of a tile's scratchpad is poisoned. -/
def Unpoisoned (s : State) (tile : Nat) : Prop := ∀ a, (s.sline tile a).poison = none

/-- Two contexts agree in every register: scalar, staging, vector, tile, predicate, handle, stream and control registers. -/
def SameRegisters (x y : Ctx) : Prop :=
  y.s = x.s ∧ y.g = x.g ∧ y.v = x.v ∧ y.t = x.t ∧ y.p = x.p ∧ y.h = x.h ∧ y.q = x.q ∧ y.csr = x.csr

/-- The program counter, the state and the results in flight of two contexts agree. -/
def SameProgress (x y : Ctx) : Prop := y.pc = x.pc ∧ y.st = x.st ∧ y.flights = x.flights ∧ y.pend = x.pend ∧ y.phase = x.phase

/-- A state in which, beside bytes of one tile's scratchpad and the monitors that watch it, nothing differs. -/
def OnlyScratchBytes (s t : State) : Prop :=
  t = { s with scratch := t.scratch, monitors := t.monitors } ∧
  ∀ tile a, (t.sline tile a).pin = (s.sline tile a).pin ∧ (t.sline tile a).eng = (s.sline tile a).eng

/-- The bytes of a tile's scratchpad are those of a list from `ea` on, and elsewhere as they were. -/
def ScratchTakes (s t : State) (tile ea : Nat) (bs : List Byte) : Prop :=
  ∀ k a, a < 2 ^ 22 →
    scrByte t k a = if k = tile ∧ ea ≤ a ∧ a < ea + bs.length then bs.getD (a - ea) 0 else scrByte s k a

/-- R309, R378, R380: the core of the word in hand holds a translation, with both rights, of the page of an address, which does not
lead to the Heartwood region. -/
def Mapped (s : State) (vd va : Nat) (x : Xlat) : Prop :=
  ∃ e : TlbEntry, s.tlbFind 1 s.tile vd (va % 2 ^ 55) = some e ∧ e.r = true ∧ e.w = true ∧ x = e.at (va % 2 ^ 55) ∧
    (x.fab = none → s.inHeartwood x.pa = false)

/-- The engine commands: what each is at acceptance, with its fields d, g, c, its tag and its scope. -/
def engine : Instr → Option (EngSpec × Nat × Nat × Nat × Nat × Nat)
  | .xcopy _ d g c k scope => some (specCopy false, d, g, c, k, scope)
  | .xlist _ d g c k scope => some (specXlist, d, g, c, k, scope)
  | .xfill _ d g c k scope => some (specXfill, d, g, c, k, scope)
  | .xred _ d g c k scope => some (specCopy true, d, g, c, k, scope)
  | .glook _ d g c k scope => some (specGrove 0, d, g, c, k, scope)
  | .gins _ d g c k scope => some (specGrove 1, d, g, c, k, scope)
  | .gref _ d g c k scope => some (specRef 2, d, g, c, k, scope)
  | .gunref _ d g c k scope => some (specRef 3, d, g, c, k, scope)
  | .kvapp _ d g c k scope => some (specKvapp, d, g, c, k, scope)
  | .kvtrunc _ d g c k scope => some (specKvtrunc, d, g, c, k, scope)
  | .hla _ d g c k scope => some (specHla 0, d, g, c, k, scope)
  | .hrd _ d g c k scope => some (specHrd, d, g, c, k, scope)
  | .hrel _ d g c k scope => some (specHrel, d, g, c, k, scope)
  | .hswp _ d g c k scope => some (specHswp, d, g, c, k, scope)
  | .hnode _ d g c k scope => some (specHla 4, d, g, c, k, scope)
  | .hcpo _ d g c k scope => some (specHcpo, d, g, c, k, scope)
  | .publish _ d g c k scope => some (specPublish scope, d, g, c, k, scope)
  | .adopt _ d g c k scope seqb => some (specAdopt seqb, d, g, c, k, scope)
  | .vers _ d g c k scope => some (specVers, d, g, c, k, scope)
  | .flrec _ d g c k scope => some (specFlrec, d, g, c, k, scope)
  | .flcommit _ d g c k scope => some (specFlcommit, d, g, c, k, scope)
  | .fltake _ d g c k scope => some (specFltake, d, g, c, k, scope)
  | .flack _ d g c k scope => some (specFlack, d, g, c, k, scope)
  | .nbmv _ d g c k scope => some (specNbmv, d, g, c, k, scope)
  | .nbmat _ d g c k scope => some (specNbmat, d, g, c, k, scope)
  | .nbstat _ d g c k scope => some (specNbstat, d, g, c, k, scope)
  | .coll _ d g c k scope => some (specColl, d, g, c, k, scope)
  | .fput _ d g c k scope => some (specFab 1, d, g, c, k, scope)
  | .fget _ d g c k scope => some (specFab 2, d, g, c, k, scope)
  | .famo _ d g c k scope => some (specFamo, d, g, c, k, scope)
  | .fnfetch _ d g c k scope => some (specFnfetch, d, g, c, k, scope)
  | _ => none

/-! ### Control -/

/-- R112, R113, R130, R48, R50: what control passing from the word in hand to a target makes of a state: inside the pass, only the program
counter moves; to another segment while words are pending, control waits for them; else the pass ends, and a new one begins in the segment
where the loop buffer holds it, with count zero and the CRC register at its initial value, and no bundle within three cycles; where it
does not hold it, the expansion of the segment starts. -/
def Arrives (s : State) (seg bun : Nat) (t : State) : Prop :=
  let x := s.me
  let begins (ex idle : Option Half) : State := s.modCtx s.cur.ctx fun x =>
    { x with pc := ⟨seg, bun⟩, entry := bun, count := 0, crc := 0xFFFFFFFF#32, exec := ex, idle := idle, jump := none
             notBefore := Nat.max x.notBefore (s.now + 3), lastFirst := s.now }
  (seg = 0xFFFF → t = s.modCtx s.cur.ctx fun x => { x with pc := ⟨s.cur.pc.seg, bun⟩ }) ∧
  (seg ≠ 0xFFFF → x.pend ≠ [] → t = s.modCtx s.cur.ctx fun x => { x with leave := some (⟨seg, bun⟩, s.cur.pc, s.now, 0) }) ∧
  (seg ≠ 0xFFFF → x.pend = [] → x.rerun = none → x.passMismatch = none → ∀ h, x.exec = some h →
    (h.seg = seg → h.fail = none → bun < h.bundles.length → t = begins (some h) x.idle) ∧
    (h.seg ≠ seg → ∀ k, x.idle = some k → k.seg = seg → k.ready = true → k.fail = none → bun < k.bundles.length →
      t = begins (some k) (some h)) ∧
    (h.seg ≠ seg → (x.idle.map (·.seg)) ≠ some seg → t = s.modCtx s.cur.ctx fun x =>
      { x with idle := some (Half.fetching seg), jump := some (⟨seg, bun⟩, s.cur.pc, s.now, 0) }))

/-! ### Configuration -/

/-- R24, R353, R358: configuration writes take effect: the front end is in service, no thermal trip has come, and an endpoint holds
FE_SEMA. -/
def Configurable (s : State) : Prop := s.ready = true ∧ s.thermal = false ∧ s.dfld Dev.feSema 0 0 2 ≠ 0

/-! ### Fabric -/

/-- R396, R398, R461: a whole packet comes on a connection that is in service for Bamug. -/
def Receives (s : State) (bs e : List Byte) : Prop :=
  let p := rxOf bs
  s.thermal = false ∧ rxWhole bs = true ∧ p.conn < 4096 ∧ s.connEntry p.conn = some e ∧ connRoce e = false ∧ natAt e 2 2 = p.src ∧
  (s.conn (connKey p.conn (p.vc % 4))).failed = false

/-- R398, R424: and it is the next in the order of its virtual channel, on which no packet waits for a page. -/
def InOrder (s : State) (bs e : List Byte) : Prop :=
  let p := rxOf bs
  let c := s.conn (connKey p.conn (p.vc % 4))
  Receives s bs e ∧ p.psn = c.expPsn ∧ c.held = none

/-- R461: and it is well formed, with a known opcode, and the fabric is enabled. -/
def Acceptable (s : State) (bs e : List Byte) (opc : Nat) : Prop :=
  InOrder s bs e ∧ natAt bs 0 1 = 1 ∧ natAt bs 1 1 = opc ∧ malformed (rxOf bs) = false ∧ s.dfld Dev.feFeatEn0 0 5 1 = 1

/-- R392: an import entry admits `n` bytes at an offset, with the right of bit `right`, as bytes of a VD's intermediate memory. -/
def Imports (s : State) (src key off n al right vd ipa : Nat) : Prop :=
  let e := s.importEntry key
  s.importValid key = true ∧ natAt e 4 4 % 2 ^ 20 = key % 2 ^ 20 ∧ (natAt e 2 2 = 0xFFFF ∨ natAt e 2 2 = src) ∧
  (natAt e 0 1).testBit right = true ∧ off + n ≤ natAt e 0x10 8 ∧ off % al = 0 ∧ (natAt e 0 1).testBit 4 = false ∧
  vd = natAt e 1 1 % 64 ∧ ipa = natAt e 8 8 + off

/-- R392: they lie in one page, which stage 2 of the VD maps with the right to read or write, at a physical address; the page is dirty
already and not counted. -/
def ImportedPage (s : State) (vd ipa n : Nat) (w : Bool) (pa : Nat) : Prop :=
  ∃ l x, s.importPage vd ipa w = .ok (l, x) ∧ x.pa = pa ∧ l.dirty = true ∧ x.cnt = false ∧ 0 < n ∧ ipa % 2 ^ 16 + n ≤ 2 ^ 16 ∧
    pa + n ≤ apertureBase

/-- Memory holds bytes from an address on, and elsewhere what it held. -/
def MemoryTakes (s t : State) (a : Nat) (bs : List Byte) : Prop :=
  ∀ k, memByte t.mem k = if a ≤ k ∧ k < a + bs.length then bs.getD (k - a) 0 else memByte s.mem k

/-- R393, R394: a RoCE v2 packet names the local QP of connection `n`, whose entry is `e`, and the QP is not in Error. -/
def QpReceives (s : State) (m : RoceMsg) (n : Nat) (e : List Byte) : Prop :=
  s.thermal = false ∧ s.qpConn m.qpn = some (n, e) ∧ (s.conn (connKey n 0)).failed = false

/-- R394, R424: it is the next request in the order of its QP, on which no packet waits for a page. -/
def QpInOrder (s : State) (m : RoceMsg) (n : Nat) (e : List Byte) : Prop :=
  QpReceives s m n e ∧ m.psn = (s.conn (connKey n 0)).expPsn ∧ (s.conn (connKey n 0)).held = none

/-- R392, R394: a RoCE v2 request reaches `n` bytes at a physical address through the import entry of its key. -/
def QpImports (s : State) (e : List Byte) (key va n right : Nat) (pa : Nat) : Prop :=
  let base := natAt (s.importEntry key) 8 8
  base ≤ va ∧ ∃ vd, Imports s (natAt e 2 2) key (va - base) n 1 right vd va ∧ ImportedPage s vd va n (right != 1) pa

end Sys2Proof.Safety
end

