-- ==== Sys2Proof/WellFormed.lean ====
section
/-!
DEFINITION. Well-formed instructions: the fields fit their encoding, and the checks of R92 and R100 pass.
-/

namespace Sys2Proof

/-- `n` fits `k` bits. -/
def below (k n : Nat) : Bool := decide (n < 2 ^ k)

/-- R90: the predicate field has three bits. -/
def Hdr.fits (h : Hdr) : Bool := below 3 h.pred

/-- R103: a b source fits its field or the extension word. -/
def SrcB.fits : SrcB → Bool
  | .reg n => below 6 n
  | .imm x => below 32 x

/-- R146: the fields of a class-2 extension fit. -/
def VExt.fits (x : VExt) : Bool :=
  below 8 x.opx && below 4 x.fmt && below 3 x.rm && below 6 x.c &&
    below 6 x.xs


/-- Every field of an instruction fits the bits that its encoding gives it; an event has no encoding. -/
def fits : Instr → Bool
  | .sched _ pd wait waiters _ => below 4 pd && below 8 wait && below 7 waiters
  | .add h d a b => h.fits && below 6 d && below 6 a && b.fits
  | .sub h d a b => h.fits && below 6 d && below 6 a && b.fits
  | .mul h d a b => h.fits && below 6 d && below 6 a && b.fits
  | .mulh h d a b => h.fits && below 6 d && below 6 a && b.fits
  | .mulhu h d a b => h.fits && below 6 d && below 6 a && b.fits
  | .and h d a b => h.fits && below 6 d && below 6 a && b.fits
  | .or h d a b => h.fits && below 6 d && below 6 a && b.fits
  | .xor h d a b => h.fits && below 6 d && below 6 a && b.fits
  | .andn h d a b => h.fits && below 6 d && below 6 a && b.fits
  | .shl h d a b => h.fits && below 6 d && below 6 a && b.fits
  | .shr h d a b => h.fits && below 6 d && below 6 a && b.fits
  | .sra h d a b => h.fits && below 6 d && below 6 a && b.fits
  | .min h d a b => h.fits && below 6 d && below 6 a && b.fits
  | .max h d a b => h.fits && below 6 d && below 6 a && b.fits
  | .minu h d a b => h.fits && below 6 d && below 6 a && b.fits
  | .maxu h d a b => h.fits && below 6 d && below 6 a && b.fits
  | .seq h d a b => h.fits && below 6 d && below 6 a && b.fits
  | .slt h d a b => h.fits && below 6 d && below 6 a && b.fits
  | .sltu h d a b => h.fits && below 6 d && below 6 a && b.fits
  | .sel h d a b => h.fits && below 6 d && below 6 a && below 6 b
  | .clz h d a => h.fits && below 6 d && below 6 a
  | .popc h d a => h.fits && below 6 d && below 6 a
  | .bext h d a _ lm1 pos => h.fits && below 6 d && below 6 a && below 6 lm1 && below 6 pos
  | .bins h d a lm1 pos => h.fits && below 6 d && below 6 a && below 6 lm1 && below 6 pos
  | .lih h d a imm => h.fits && below 6 d && below 6 a && below 32 imm
  | .div h d a b k _ => h.fits && below 6 d && below 6 a && below 6 b && below 3 k
  | .rem h d a b k _ => h.fits && below 6 d && below 6 a && below 6 b && below 3 k
  | .movg h d a => h.fits && below 6 d && below 6 a
  | .movfg h d a => h.fits && below 6 d && below 6 a
  | .setp h cond a b => h.fits && below 6 cond && below 6 a && below 6 b
  | .vadd h d a b x => h.fits && below 6 d && below 6 a && below 6 b && x.all VExt.fits
  | .vsub h d a b x => h.fits && below 6 d && below 6 a && below 6 b && x.all VExt.fits
  | .vmul h d a b x => h.fits && below 6 d && below 6 a && below 6 b && x.all VExt.fits
  | .vfma h d a b x => h.fits && below 6 d && below 6 a && below 6 b && x.fits
  | .vfms h d a b x => h.fits && below 6 d && below 6 a && below 6 b && x.fits
  | .vmax h d a b x => h.fits && below 6 d && below 6 a && below 6 b && x.all VExt.fits
  | .vmin h d a b x => h.fits && below 6 d && below 6 a && below 6 b && x.all VExt.fits
  | .vabs h d a x => h.fits && below 6 d && below 6 a && x.all VExt.fits
  | .vneg h d a x => h.fits && below 6 d && below 6 a && x.all VExt.fits
  | .vfloor h d a x => h.fits && below 6 d && below 6 a && x.all VExt.fits
  | .vceil h d a x => h.fits && below 6 d && below 6 a && x.all VExt.fits
  | .vmov h d a x => h.fits && below 6 d && below 6 a && x.all VExt.fits
  | .vcmp h d a b x => h.fits && below 6 d && below 6 a && below 6 b && x.fits
  | .vsel h d a b x => h.fits && below 6 d && below 6 a && below 6 b && x.all VExt.fits
  | .vexp2 h d a x => h.fits && below 6 d && below 6 a && x.all VExt.fits
  | .vlog2 h d a x => h.fits && below 6 d && below 6 a && x.all VExt.fits
  | .vrcp h d a x => h.fits && below 6 d && below 6 a && x.all VExt.fits
  | .vrsqrt h d a x => h.fits && below 6 d && below 6 a && x.all VExt.fits
  | .vexpb h d a b x => h.fits && below 6 d && below 6 a && below 6 b && x.all VExt.fits
  | .vcvt h d a x => h.fits && below 6 d && below 6 a && x.fits
  | .vcvtTag h d a x => h.fits && below 6 d && below 6 a && x.fits
  | .vpack h d a b x => h.fits && below 6 d && below 6 a && below 6 b && x.fits
  | .vunpk h d a x => h.fits && below 6 d && below 6 a && x.fits
  | .vredadd h d a x => h.fits && below 6 d && below 6 a && x.all VExt.fits
  | .vredmax h d a x => h.fits && below 6 d && below 6 a && x.all VExt.fits
  | .vscan h d a x => h.fits && below 6 d && below 6 a && x.all VExt.fits
  | .vperm h d a b x => h.fits && below 6 d && below 6 a && below 6 b && x.all VExt.fits
  | .vbcast h d a b x => h.fits && below 6 d && below 6 a && below 6 b && x.all VExt.fits
  | .viadd h d a b x => h.fits && below 6 d && below 6 a && below 6 b && x.all VExt.fits
  | .vimul h d a b x => h.fits && below 6 d && below 6 a && below 6 b && x.all VExt.fits
  | .vand h d a b x => h.fits && below 6 d && below 6 a && below 6 b && x.all VExt.fits
  | .vor h d a b x => h.fits && below 6 d && below 6 a && below 6 b && x.all VExt.fits
  | .vxor h d a b x => h.fits && below 6 d && below 6 a && below 6 b && x.all VExt.fits
  | .vshl h d a b x => h.fits && below 6 d && below 6 a && below 6 b && x.all VExt.fits
  | .vshr h d a b x => h.fits && below 6 d && below 6 a && below 6 b && x.all VExt.fits
  | .vrng h d x => h.fits && below 6 d && x.fits
  | .vffs h d a x => h.fits && below 6 d && below 6 a && x.all VExt.fits
  | .vany h a x => h.fits && below 6 a && x.all VExt.fits
  | .mma h d a b unit cpat cop gm1 gs => h.fits && below 6 d && below 6 a && below 6 b && below 2 unit && below 3 cpat && below 2 cop && below 4 gm1 && below 4 gs
  | .mmaz h d a b unit cpat cop gm1 gs => h.fits && below 6 d && below 6 a && below 6 b && below 2 unit && below 3 cpat && below 2 cop && below 4 gm1 && below 4 gs
  | .mmat h d a b unit cpat cop gm1 gs => h.fits && below 6 d && below 6 a && below 6 b && below 2 unit && below 3 cpat && below 2 cop && below 4 gm1 && below 4 gs
  | .mzero h d fmt => h.fits && below 6 d && fmt.all (below 4)
  | .mcvt h d a fmt rm q => h.fits && below 6 d && below 6 a && below 4 fmt && below 3 rm && below 3 q
  | .mfmt h d a fmt => h.fits && below 6 d && below 6 a && below 4 fmt
  | .mtv h d a k r => h.fits && below 6 d && below 6 a && below 3 k && below 6 r
  | .mvt h d a r => h.fits && below 6 d && below 6 a && below 6 r
  | .mcsel h d a b unit _ _ => h.fits && below 6 d && below 6 a && below 6 b && below 2 unit
  | .ldw h d a off => h.fits && below 6 d && below 6 a && off.all (below 32)
  | .ldd h d a off => h.fits && below 6 d && below 6 a && off.all (below 32)
  | .stw h d a off => h.fits && below 6 d && below 6 a && off.all (below 32)
  | .std h d a off => h.fits && below 6 d && below 6 a && off.all (below 32)
  | .vld h d a b fmt off => h.fits && below 6 d && below 6 a && below 6 b && below 4 fmt && below 28 off
  | .vst h d a b off => h.fits && below 6 d && below 6 a && below 6 b && below 28 off
  | .ldt h d a fmt _ r nrm1 sw => h.fits && below 6 d && below 6 a && below 4 fmt && below 6 r && below 6 nrm1 && below 15 sw
  | .tld h d a b fmt r nrm1 sw => h.fits && below 6 d && below 6 a && below 6 b && below 4 fmt && below 6 r && below 6 nrm1 && below 15 sw
  | .tst h d a b r nrm1 sw => h.fits && below 6 d && below 6 a && below 6 b && below 6 r && below 6 nrm1 && below 15 sw
  | .ldg h d a b k sz ord scope fmt => h.fits && below 6 d && below 6 a && below 6 b && below 3 k && below 2 sz && below 2 ord && below 2 scope && below 4 fmt
  | .stg h d a b sz ord scope => h.fits && below 6 d && below 6 a && below 6 b && below 2 sz && below 2 ord && below 2 scope
  | .vgat h d a b k fmt mv => h.fits && below 6 d && below 6 a && below 6 b && below 3 k && below 4 fmt && below 6 mv
  | .vsct h d a b mv => h.fits && below 6 d && below 6 a && below 6 b && below 6 mv
  | .amo h d a b k aop _ _ ord scope opr cmp => h.fits && below 6 d && below 6 a && below 6 b && below 3 k && below 3 aop && below 2 ord && below 2 scope && below 6 opr && below 6 cmp
  | .alloc h a b => h.fits && below 6 a && below 6 b
  | .free h a b => h.fits && below 6 a && below 6 b
  | .vldc h d a k fmt => h.fits && below 6 d && below 6 a && below 3 k && below 4 fmt
  | .vstc h d a => h.fits && below 6 d && below 6 a
  | .pref h a b _ lnm1 => h.fits && below 6 a && below 6 b && below 12 lnm1
  | .inv h a b lnm1 => h.fits && below 6 a && below 6 b && below 12 lnm1
  | .sbind h d a => h.fits && below 6 d && below 6 a
  | .sunbind h d => h.fits && below 6 d
  | .sflush h a k scope => h.fits && below 6 a && below 3 k && below 2 scope
  | .sstat h a b => h.fits && below 6 a && below 6 b
  | .sskip h a b => h.fits && below 6 a && below 6 b
  | .xcopy h d g c k scope => h.fits && below 6 d && below 6 g && below 6 c && below 3 k && below 2 scope
  | .xlist h d g c k scope => h.fits && below 6 d && below 6 g && below 6 c && below 3 k && below 2 scope
  | .xfill h d g c k scope => h.fits && below 6 d && below 6 g && below 6 c && below 3 k && below 2 scope
  | .xred h d g c k scope => h.fits && below 6 d && below 6 g && below 6 c && below 3 k && below 2 scope
  | .xstat h d g c k scope => h.fits && below 6 d && below 6 g && below 6 c && below 3 k && below 2 scope
  | .br h seg bun => h.fits && below 16 seg && below 13 bun
  | .brz h a seg bun => h.fits && below 6 a && below 16 seg && below 13 bun
  | .brnz h a seg bun => h.fits && below 6 a && below 16 seg && below 13 bun
  | .brp h a b seg bun => h.fits && below 6 a && below 6 b && below 16 seg && below 13 bun
  | .call h d seg bun => h.fits && below 6 d && below 16 seg && below 13 bun
  | .ret h a => h.fits && below 6 a
  | .jmpr h d a => h.fits && below 6 d && below 6 a
  | .loop h a n seg bun => h.fits && below 6 a && below 6 n && below 16 seg && below 13 bun
  | .exit h => h.fits
  | .trap h code => h.fits && below 32 code
  | .nop h => h.fits
  | .segpf h seg => h.fits && below 16 seg
  | .fence h scope => h.fits && below 2 scope
  | .fenceAll h scope => h.fits && below 2 scope
  | .fenceDrain h => h.fits
  | .wait h d a b _ _ _ scope exp => h.fits && below 6 d && below 6 a && below 6 b && below 2 scope && below 6 exp
  | .waitArm h d a b _ _ _ scope exp => h.fits && below 6 d && below 6 a && below 6 b && below 2 scope && below 6 exp
  | .waitAny h d => h.fits && below 6 d
  | .waitClr h => h.fits
  | .sync h a => h.fits && below 6 a
  | .fadd h a b scope val => h.fits && below 6 a && below 6 b && below 2 scope && below 6 val
  | .fset h a b scope off val => h.fits && below 6 a && below 6 b && below 2 scope && below 6 off && below 6 val
  | .fwait h d a b _ scope thr => h.fits && below 6 d && below 6 a && below 6 b && below 2 scope && below 6 thr
  | .promote h a => h.fits && below 6 a
  | .csrr h d num => h.fits && below 6 d && below 12 num
  | .csrw h a num => h.fits && below 6 a && below 12 num
  | .trn h d a rights l2s => h.fits && below 6 d && below 6 a && below 3 rights && below 6 l2s
  | .hinv h d => h.fits && below 6 d
  | .hinvAll h => h.fits
  | .commit h => h.fits
  | .sig h a => h.fits && below 6 a
  | .brk h code => h.fits && below 6 code
  | .tsc h d => h.fits && below 6 d
  | .glook h d g c k scope => h.fits && below 6 d && below 6 g && below 6 c && below 3 k && below 2 scope
  | .gins h d g c k scope => h.fits && below 6 d && below 6 g && below 6 c && below 3 k && below 2 scope
  | .gref h d g c k scope => h.fits && below 6 d && below 6 g && below 6 c && below 3 k && below 2 scope
  | .gunref h d g c k scope => h.fits && below 6 d && below 6 g && below 6 c && below 3 k && below 2 scope
  | .kvapp h d g c k scope => h.fits && below 6 d && below 6 g && below 6 c && below 3 k && below 2 scope
  | .kvtrunc h d g c k scope => h.fits && below 6 d && below 6 g && below 6 c && below 3 k && below 2 scope
  | .hla h d g c k scope => h.fits && below 6 d && below 6 g && below 6 c && below 3 k && below 2 scope
  | .hrd h d g c k scope => h.fits && below 6 d && below 6 g && below 6 c && below 3 k && below 2 scope
  | .hrel h d g c k scope => h.fits && below 6 d && below 6 g && below 6 c && below 3 k && below 2 scope
  | .hswp h d g c k scope => h.fits && below 6 d && below 6 g && below 6 c && below 3 k && below 2 scope
  | .hnode h d g c k scope => h.fits && below 6 d && below 6 g && below 6 c && below 3 k && below 2 scope
  | .hcpo h d g c k scope => h.fits && below 6 d && below 6 g && below 6 c && below 3 k && below 2 scope
  | .publish h d g c k scope => h.fits && below 6 d && below 6 g && below 6 c && below 3 k && below 2 scope
  | .adopt h d g c k scope _ => h.fits && below 6 d && below 6 g && below 6 c && below 3 k && below 2 scope
  | .vers h d g c k scope => h.fits && below 6 d && below 6 g && below 6 c && below 3 k && below 2 scope
  | .flrec h d g c k scope => h.fits && below 6 d && below 6 g && below 6 c && below 3 k && below 2 scope
  | .flcommit h d g c k scope => h.fits && below 6 d && below 6 g && below 6 c && below 3 k && below 2 scope
  | .fltake h d g c k scope => h.fits && below 6 d && below 6 g && below 6 c && below 3 k && below 2 scope
  | .flack h d g c k scope => h.fits && below 6 d && below 6 g && below 6 c && below 3 k && below 2 scope
  | .nbmv h d g c k scope => h.fits && below 6 d && below 6 g && below 6 c && below 3 k && below 2 scope
  | .nbmat h d g c k scope => h.fits && below 6 d && below 6 g && below 6 c && below 3 k && below 2 scope
  | .nbstat h d g c k scope => h.fits && below 6 d && below 6 g && below 6 c && below 3 k && below 2 scope
  | .coll h d g c k scope => h.fits && below 6 d && below 6 g && below 6 c && below 3 k && below 2 scope
  | .fput h d g c k scope => h.fits && below 6 d && below 6 g && below 6 c && below 3 k && below 2 scope
  | .fget h d g c k scope => h.fits && below 6 d && below 6 g && below 6 c && below 3 k && below 2 scope
  | .famo h d g c k scope => h.fits && below 6 d && below 6 g && below 6 c && below 3 k && below 2 scope
  | .fnfetch h d g c k scope => h.fits && below 6 d && below 6 g && below 6 c && below 3 k && below 2 scope
  | .fixedResultLands .. => false
  | .taggedResultLands .. => false
  | .matrixResultComplete .. => false
  | .tileTransferComplete .. => false
  | .segmentExpansionDone .. => false
  | .segmentFallThrough .. => false
  | .syncArrival .. => false
  | .syncRestart .. => false
  | .monitorFire .. => false
  | .flagPush .. => false
  | .waitTimeout .. => false
  | .hangTimeout .. => false
  | .promotionArrival .. => false
  | .promotionAck .. => false
  | .streamFetch .. => false
  | .engineCommandEnd .. => false
  | .materialisationEnd .. => false
  | .adoptTimeout .. => false
  | .nbmatQueuedStart .. => false
  | .reclaimLine => false
  | .refusalRetry .. => false
  | .heldFaultPost .. => false
  | .drainComplete .. => false
  | .deadDrainComplete .. => false
  | .taskGroupEnd .. => false
  | .rerunEnd .. => false
  | .retirementCommit .. => false
  | .softError .. => false
  | .noiseHealthFail .. => false
  | .noiseSourceRestore .. => false
  | .patrolScrub .. => false
  | .healthStoreUpdate => false
  | .thermalTrip .. => false
  | .coldReset => false
  | .notifyStore .. => false
  | .scannerWake => false
  | .scannerVisit .. => false
  | .controllerFrame .. => false
  | .nopCommand .. => false
  | .launch .. => false
  | .launchPlacement .. => false
  | .graph .. => false
  | .repart .. => false
  | .badcmd .. => false
  | .repartCommit => false
  | .graphNodeLaunch .. => false
  | .activationDiscard .. => false
  | .bufferReplay .. => false
  | .sliceEnd .. => false
  | .checkpointSave .. => false
  | .contextRestore .. => false
  | .vdStop .. => false
  | .vdStopped .. => false
  | .vdResume .. => false
  | .vdDiscard .. => false
  | .invalWholeVd .. => false
  | .invalStage1Pages .. => false
  | .invalStage2Pages .. => false
  | .invalidationComplete => false
  | .pageReply .. => false
  | .mmPrqWrite .. => false
  | .mmDlogWrite .. => false
  | .mmEvqWrite .. => false
  | .mmEvqtailWrite .. => false
  | .evictionRequestService => false
  | .feQcfgWrite .. => false
  | .feSemaWrite .. => false
  | .feCebindWrite .. => false
  | .feFeatEnWrite .. => false
  | .fcRestart .. => false
  | .feNqWrite .. => false
  | .fePoolCfgWrite .. => false
  | .reLogWrite .. => false
  | .reEqWrite .. => false
  | .healthClearRequest .. => false
  | .attestationRequest .. => false
  | .connectionReset .. => false
  | .fxRqheadWrite .. => false
  | .configRegisterWrite .. => false
  | .feCfgdenyRead => false
  | .scStatRead => false
  | .fxErr0Read => false
  | .fxErr1Read => false
  | .reStatRead => false
  | .hwdErrRead => false
  | .feNqdropRead => false
  | .mmPrstatRead => false
  | .mgmtRead .. => false
  | .mgmtWrite .. => false
  | .cebRegisterRead .. => false
  | .cebRegisterWrite .. => false
  | .endpointConnectionLoss => false
  | .bamugWrite .. => false
  | .bamugReadReq .. => false
  | .bamugReadResp .. => false
  | .bamugAtomicReq .. => false
  | .bamugAtomicResp .. => false
  | .bamugAck .. => false
  | .bamugNak .. => false
  | .bamugFlagAdd .. => false
  | .bamugNameReq .. => false
  | .bamugNameResp .. => false
  | .bamugCollData .. => false
  | .bamugRetransmitTimeout .. => false
  | .roceSend .. => false
  | .roceRdmaWrite .. => false
  | .roceRdmaRead .. => false
  | .roceReadResponse .. => false
  | .roceCompareSwap .. => false
  | .roceFetchAdd .. => false
  | .roceAcknowledge .. => false
  | .roceNakReceived .. => false
  | .roceAckTimeout .. => false
  | .roceCnp .. => false
  | .roceRateRecovery .. => false
  | .pfcPause .. => false
  | .ptpMessage .. => false
  | .collStepTimeout .. => false
  | .matrixComputePhaseEnd .. => false
  | .writePerformed .. => false
  | .waitReadReturn .. => false
  | .noiseLogReadAhead .. => false
  | .quantumExpiry .. => false
  | .egressPacketTransmit .. => false
  | .portLinkChange .. => false
  | .bamugUnknownOpcode .. => false
  | .roceUnsupportedPacket .. => false
  | .mgmtMalformedRequest .. => false
  | .roceRnrRetryTimer .. => false
  | .scannerGating .. => false

/-- The values by which instructions that share an operation value are told apart (R115, R160): `vffs` is the form
whose d is not zero, and OPX bit 0 tells `vcvt` from `vcvt.tag`. -/
def formOk : Instr → Bool
  | .vffs _ d _ _ => d != 0
  | .vcvt _ _ _ x => x.opx % 2 == 0
  | .vcvtTag _ _ _ x => x.opx % 2 == 1
  | _ => true

/-- A well-formed instruction: one that some word encodes and whose word raises no ILLEGAL trap by itself. -/
def wellFormed (i : Instr) : Bool := fits i && formOk i && (firstBad (fieldChecks i)).isNone

end Sys2Proof
end

