-- ==== Sys2Proof/Certificates/Slice0/Obligations.lean ====
section
/-!
DEFINITION. The statements for the provers.
-/

open Sys2Proof Sys2Proof.Machine Sys2Proof.Safety

/-! ### Scalar words -/

/-- R122: ops 0-18: f of s[a] and the b source is put in flight for s[d], within one cycle, the products within three. -/
def Obligations.ScalarArithmeticIssues : Prop :=
  ∀ (h : Hdr) (d a : Nat) (b : SrcB) (s : State), goes h s →
    let x := s.me.sget a
    let y := match b with
      | .reg n => s.me.sget n
      | .imm v => (BitVec.ofNat 32 v).signExtend 64
    let n := y.toNat % 64
    let gives (k : Nat) (v : W64) : Host.Outcome State Fault Refusal := .next (s.land k [.sreg d v])
    exec (.add h d a b) s = gives 1 (x + y) ∧
    exec (.sub h d a b) s = gives 1 (x - y) ∧
    exec (.mul h d a b) s = gives 3 (x * y) ∧
    exec (.mulh h d a b) s = gives 3 ((x.signExtend 128 * y.signExtend 128).extractLsb' 64 64) ∧
    exec (.mulhu h d a b) s = gives 3 ((x.zeroExtend 128 * y.zeroExtend 128).extractLsb' 64 64) ∧
    exec (.and h d a b) s = gives 1 (x &&& y) ∧
    exec (.or h d a b) s = gives 1 (x ||| y) ∧
    exec (.xor h d a b) s = gives 1 (x ^^^ y) ∧
    exec (.andn h d a b) s = gives 1 (x &&& ~~~y) ∧
    exec (.shl h d a b) s = gives 1 (x <<< n) ∧
    exec (.shr h d a b) s = gives 1 (x >>> n) ∧
    exec (.sra h d a b) s = gives 1 (x.sshiftRight n) ∧
    exec (.min h d a b) s = gives 1 (if x.toInt ≤ y.toInt then x else y) ∧
    exec (.max h d a b) s = gives 1 (if x.toInt ≤ y.toInt then y else x) ∧
    exec (.minu h d a b) s = gives 1 (if x.toNat ≤ y.toNat then x else y) ∧
    exec (.maxu h d a b) s = gives 1 (if x.toNat ≤ y.toNat then y else x) ∧
    exec (.seq h d a b) s = gives 1 (if x = y then 1 else 0) ∧
    exec (.slt h d a b) s = gives 1 (if x.toInt < y.toInt then 1 else 0) ∧
    exec (.sltu h d a b) s = gives 1 (if x.toNat < y.toNat then 1 else 0)

/-- R123, R124, R125, R127, R128: selection, counting, fields, constants and the moves to and from the staging registers; and the six
conditions of `setp`, of which the truth goes to p6. -/
def Obligations.ScalarBitsMovesAndComparesIssue : Prop :=
  (∀ (h : Hdr) (d a : Nat) (s : State), goes h s →
     let x := s.me.sget a
     let gives (v : W64) : Host.Outcome State Fault Refusal := .next (s.land 1 [.sreg d v])
     (∀ b, exec (.sel h d a b) s = gives (if s.cur.preds.getLsbD 6 then x else s.me.sget b)) ∧
     (∃ n, n ≤ 64 ∧ exec (.clz h d a) s = gives (BitVec.ofNat 64 n) ∧ (∀ j, j < n → x.getMsbD j = false) ∧
       (n < 64 → x.getMsbD n = true)) ∧
     exec (.popc h d a) s = gives (BitVec.ofNat 64 ((List.range 64).map fun j => (x.getLsbD j).toNat).sum) ∧
     (∀ sx lm1 pos, lm1 < 64 → ∃ v : W64, exec (.bext h d a sx lm1 pos) s = gives v ∧
       ∀ j, j < 64 → v.getLsbD j = if j ≤ lm1 then x.getLsbD (pos + j) else sx && x.getLsbD (pos + lm1)) ∧
     (∀ lm1 pos, lm1 < 64 → pos < 64 → ∃ v : W64, exec (.bins h d a lm1 pos) s = gives v ∧
       ∀ j, j < 64 → v.getLsbD j = if pos ≤ j ∧ j ≤ pos + lm1 then x.getLsbD (j - pos) else (s.me.sget d).getLsbD j) ∧
     (∀ imm, exec (.lih h d a imm) s = gives (BitVec.ofNat 32 imm ++ x.extractLsb' 0 32)) ∧
     exec (.movg h d a) s = .next (s.land 1 [.greg d x]) ∧
     exec (.movfg h d a) s = gives (s.me.gget a)) ∧
  (∀ (h : Hdr) (a b : Nat) (s : State), goes h s →
     let x := s.me.sget a
     let y := s.me.sget b
     let gives (t : Bool) : Host.Outcome State Fault Refusal := .next (s.land 1 [.p6 t])
     exec (.setp h 0 a b) s = gives (decide (x = y)) ∧
     exec (.setp h 1 a b) s = gives (decide (x ≠ y)) ∧
     exec (.setp h 2 a b) s = gives (decide (x.toInt < y.toInt)) ∧
     exec (.setp h 3 a b) s = gives (decide (y.toInt ≤ x.toInt)) ∧
     exec (.setp h 4 a b) s = gives (decide (x.toNat < y.toNat)) ∧
     exec (.setp h 5 a b) s = gives (decide (y.toNat ≤ x.toNat)))

/-- R126: division and remainder put a tagged result in flight, which lands from 12 to 70 cycles after its issue; the cases of the
rule, each for the signed and the unsigned form. -/
def Obligations.DivideGivesQuotientAndRemainder : Prop :=
  ∀ (h : Hdr) (d a b k : Nat) (s : State), goes h s →
    let x := s.me.sget a
    let y := s.me.sget b
    let gives (v : W64) : Host.Outcome State Fault Refusal := .next (s.launchTagged k 12 (some 70) [.sreg d v])
    (y = 0 → exec (.div h d a b k false) s = gives (-1) ∧ exec (.rem h d a b k false) s = gives x ∧
      exec (.div h d a b k true) s = gives 0xFFFFFFFFFFFFFFFF ∧ exec (.rem h d a b k true) s = gives x) ∧
    (y ≠ 0 → exec (.div h d a b k true) s = gives (BitVec.ofNat 64 (x.toNat / y.toNat)) ∧
      exec (.rem h d a b k true) s = gives (BitVec.ofNat 64 (x.toNat % y.toNat))) ∧
    (y ≠ 0 → ¬(x.toInt = -2 ^ 63 ∧ y.toInt = -1) → ∃ q r : W64,
      exec (.div h d a b k false) s = gives q ∧ exec (.rem h d a b k false) s = gives r ∧
      q.toInt = x.toInt.tdiv y.toInt ∧ r.toInt = x.toInt - y.toInt * q.toInt) ∧
    (x.toInt = -2 ^ 63 → y.toInt = -1 →
      exec (.div h d a b k false) s = gives x ∧ exec (.rem h d a b k false) s = gives 0)

/-! ### Vector words -/

/-- R152, R153: the sums, differences and products of float elements, exact and rounded once. -/
def Obligations.VectorArithmeticRoundsOnce : Prop :=
  ∀ (h : Hdr) (d a b : Nat) (s : State),
    (∀ x : Option VExt,
      let c := x.getD ⟨0, 0, 7, 0, 0⟩
      let A := source s [a, b] c none 0
      let B := source s [a, b] c none 1
      (passes h (.vadd h d a b x) s → RoundsElements (.vadd h d a b x) s [a, b] c.rm 2 d A.tag fun m n =>
        let r := addNum m (valueAt A n) (valueAt B n)
        A.tag.round m r.1 none r.2) ∧
      (passes h (.vsub h d a b x) s → RoundsElements (.vsub h d a b x) s [a, b] c.rm 2 d A.tag fun m n =>
        let r := addNum m (valueAt A n) (valueAt B n).neg
        A.tag.round m r.1 none r.2) ∧
      (passes h (.vmul h d a b x) s → RoundsElements (.vmul h d a b x) s [a, b] c.rm 4 d A.tag fun m n =>
        let r := mulNum (valueAt A n) (valueAt B n)
        A.tag.round m r.1 none r.2)) ∧
    (∀ x : VExt,
      let A := source s [a, b, x.c] x none 0
      let B := source s [a, b, x.c] x none 1
      let C := source s [a, b, x.c] x none 2
      (passes h (.vfma h d a b x) s → RoundsElements (.vfma h d a b x) s [a, b, x.c] x.rm 4 d A.tag fun m n =>
        let r := fmaNum m (valueAt A n) (valueAt B n) (valueAt C n)
        A.tag.round m r.1 none r.2) ∧
      (passes h (.vfms h d a b x) s → RoundsElements (.vfms h d a b x) s [a, b, x.c] x.rm 4 d A.tag fun m n =>
        let r := fmaNum m (valueAt A n) (valueAt B n) (valueAt C n).neg
        A.tag.round m r.1 none r.2))

/-- R158: the functions of float elements: the rounded value of the function of each. -/
def Obligations.VectorFunctionsRoundOnce : Prop :=
  ∀ (h : Hdr) (d a : Nat) (x : Option VExt) (s : State),
    let c := x.getD ⟨0, 0, 7, 0, 0⟩
    let A := source s [a] c none 0
    let gives (i : Instr) (fn : Fn) : Prop := passes h i s →
      RoundsElements i s [a] c.rm 8 d A.tag fun m n => fn.round A.tag m (elem A.tag A.data n) (valueAt A n) 0
    gives (.vexp2 h d a x) .exp2 ∧ gives (.vlog2 h d a x) .log2 ∧ gives (.vrcp h d a x) .rcp ∧ gives (.vrsqrt h d a x) .rsqrt

/-- R154, R155: maximum, minimum, absolute value, negation, floor and ceiling, element by element, and the copy. -/
def Obligations.VectorUnaryAndExtremes : Prop :=
  ∀ (h : Hdr) (d a b : Nat) (x : Option VExt) (s : State),
    let c := x.getD ⟨0, 0, 7, 0, 0⟩
    let U := source s [a] c none 0
    let A := source s [a, b] c none 0
    let B := source s [a, b] c none 1
    let code (r : VReg) (n : Nat) : Nat := elem r.tag r.data n
    let int (r : VReg) (n : Nat) : Int := sext r.tag.width (code r n)
    let wraps (r : VReg) (v : Int) : Elem := Elem.const (v % 2 ^ r.tag.width).toNat 0
    let quiet (r : VReg) (n v : Nat) : Elem :=
      if (valueAt r n).isNan then r.tag.round rmRNE (valueAt r n) none 0 else Elem.const v 0
    (passes h (.vmax h d a b x) s → RoundsElements (.vmax h d a b x) s [a, b] 0 2 d A.tag fun _ n =>
      if A.tag.isInt then wraps A (max (int A n) (int B n))
      else A.tag.round rmRNE (maxNum false (valueAt A n) (valueAt B n)).1 none (maxNum false (valueAt A n) (valueAt B n)).2) ∧
    (passes h (.vmin h d a b x) s → RoundsElements (.vmin h d a b x) s [a, b] 0 2 d A.tag fun _ n =>
      if A.tag.isInt then wraps A (min (int A n) (int B n))
      else A.tag.round rmRNE (maxNum true (valueAt A n) (valueAt B n)).1 none (maxNum true (valueAt A n) (valueAt B n)).2) ∧
    (passes h (.vabs h d a x) s → RoundsElements (.vabs h d a x) s [a] 0 2 d U.tag fun _ n =>
      if U.tag.isInt then wraps U (int U n).natAbs else quiet U n (code U n % 2 ^ (U.tag.width - 1))) ∧
    (passes h (.vneg h d a x) s → RoundsElements (.vneg h d a x) s [a] 0 2 d U.tag fun _ n =>
      if U.tag.isInt then wraps U (-(int U n)) else quiet U n (code U n ^^^ 2 ^ (U.tag.width - 1))) ∧
    (passes h (.vfloor h d a x) s → RoundsElements (.vfloor h d a x) s [a] 0 2 d U.tag fun _ n =>
      quiet U n ((U.tag.round rmRNE (integral false (valueAt U n)) none 0).out 0).1) ∧
    (passes h (.vceil h d a x) s → RoundsElements (.vceil h d a x) s [a] 0 2 d U.tag fun _ n =>
      quiet U n ((U.tag.round rmRNE (integral true (valueAt U n)) none 0).out 0).1) ∧
    (passes h (.vmov h d a x) s → Computes (.vmov h d a x) s [a] 2 d fun v => v = U)

/-- R156, R157, R170: the comparison of lanes into a MASK, the selection by the MASK in the old d, and the search of a MASK for its
lowest true lane, or for any. -/
def Obligations.VectorComparesAndMasks : Prop :=
  ∀ (h : Hdr) (d a b : Nat) (s : State),
    (∀ x : VExt, passes h (.vcmp h d a b x) s →
      let A := source s [a, b] x none 0
      let B := source s [a, b] x none 1
      ∃ (v : VReg) (fl : Nat), exec (.vcmp h d a b x) s = .next ((afterPops s [a, b] d).landVector 2 d v fl) ∧ v.tag = .mask ∧ v.side = 0 ∧
        ((A.tag = .i32 ∧ fl = 0 ∧ ∀ n, n < 64 → (lane v.data n).toNat = (cmpInt (x.opx % 16) (lane A.data n).toNat (lane B.data n).toNat).toNat) ∨
         (A.tag = .f32 ∧ (∀ n, n < 64 → (lane v.data n).toNat = (cmpFloat (x.opx % 16) (valueAt A n) (valueAt B n)).1.toNat) ∧
          ((∃ n, n < 64 ∧ (cmpFloat (x.opx % 16) (valueAt A n) (valueAt B n)).2 = true) → fl = flInvalid) ∧
          ((∀ n, n < 64 → (cmpFloat (x.opx % 16) (valueAt A n) (valueAt B n)).2 = false) → fl = 0)))) ∧
    (∀ x : Option VExt,
      let c := x.getD ⟨0, 0, 7, 0, 0⟩
      let A := source s [a, b] c none 0
      let B := source s [a, b] c none 1
      passes h (.vsel h d a b x) s → Computes (.vsel h d a b x) s [a, b] 2 d fun v => v.tag = A.tag ∧ v.side = 0 ∧
        ∀ n, n < 64 → lane v.data n = if (lane (s.me.vget d).data n).getLsbD 0 then lane A.data n else lane B.data n) ∧
    (∀ x : Option VExt,
      let M := source s [a] (x.getD ⟨0, 0, 0, 0, 0⟩) none 0
      let pops := s.modCtx s.cur.ctx fun y => y.popAll [a]
      (passes h (.vffs h d a x) s → ∃ n, n ≤ 64 ∧ exec (.vffs h d a x) s = .next (pops.land 6 [.sreg d (BitVec.ofNat 64 n)]) ∧
        (∀ j, j < n → (lane M.data j).getLsbD 0 = false) ∧ (n < 64 → (lane M.data n).getLsbD 0 = true)) ∧
      (passes h (.vany h a x) s → ∃ t, exec (.vany h a x) s = .next (pops.land 1 [.p6 t]) ∧
        (t = true ↔ ∃ n, n < 64 ∧ (lane M.data n).getLsbD 0 = true)))

/-- R164-R168: permutation, broadcast, integer and bitwise words and lane shifts. -/
def Obligations.VectorIntegerBitsAndLanes : Prop :=
  ∀ (h : Hdr) (d a b : Nat) (x : Option VExt) (s : State),
    let c := x.getD ⟨0, 0, 0, 0, 0⟩
    let A := source s [a, b] c none 0
    let B := source s [a, b] c none 1
    let I := source s [a, b] c (some 1) 1
    let L := source s [a] c none 0
    let bit (i : Instr) (f : W32 → W32 → W32) : Prop := passes h i s → Computes i s [a, b] 2 d fun v =>
      v.side = 0 ∧ v.tag = (if A.tag = .raw then B.tag else A.tag) ∧
      ∀ n, n < 64 → lane v.data n = if v.tag = .mask then f (lane A.data n) (lane B.data n) &&& 1 else f (lane A.data n) (lane B.data n)
    let int (i : Instr) (bound : Nat) (f : Int → Int → Int) : Prop := passes h i s → Computes i s [a, b] bound d fun v =>
      v.side = 0 ∧ v.tag = A.tag ∧ ∀ n, n < countOf A.tag → BitVec.ofNat A.tag.width (elem A.tag v.data n) =
        intoBits A.tag.width (c.opx / 2 % 2 = 1) (f (sext A.tag.width (elem A.tag A.data n)) (sext A.tag.width (elem A.tag B.data n)))
    (passes h (.vperm h d a b x) s → Computes (.vperm h d a b x) s [a, b] 3 d fun v => v.side = 0 ∧
      v.tag = (source s [a, b] c (some 1) 0).tag ∧
      ∀ n, n < 64 → lane v.data n = lane (source s [a, b] c (some 1) 0).data ((lane I.data n).toNat % 64)) ∧
    (passes h (.vbcast h d a b x) s → b < 64 → Computes (.vbcast h d a b x) s [a] 3 d fun v => v.side = 0 ∧ v.tag = L.tag ∧
      ∀ n, n < 64 → lane v.data n = lane L.data b) ∧
    int (.viadd h d a b x) 2 (fun p q => if c.opx % 2 = 1 then p - q else p + q) ∧
    int (.vimul h d a b x) 4 (fun p q => p * q) ∧
    bit (.vand h d a b x) (· &&& ·) ∧ bit (.vor h d a b x) (· ||| ·) ∧ bit (.vxor h d a b x) (· ^^^ ·) ∧
    (passes h (.vshl h d a b x) s → Computes (.vshl h d a b x) s [a, b] 2 d fun v => v.side = 0 ∧
      v.tag = (source s [a, b] c (some 1) 0).tag ∧
      ∀ n, n < 64 → lane v.data n = lane (source s [a, b] c (some 1) 0).data n <<< ((lane I.data n).toNat % 32)) ∧
    (passes h (.vshr h d a b x) s → Computes (.vshr h d a b x) s [a, b] 2 d fun v => v.side = 0 ∧
      v.tag = (source s [a, b] c (some 1) 0).tag ∧
      ∀ n, n < 64 → lane v.data n =
        if c.opx % 2 = 1 then (lane (source s [a, b] c (some 1) 0).data n).sshiftRight ((lane I.data n).toNat % 32)
        else lane (source s [a, b] c (some 1) 0).data n >>> ((lane I.data n).toNat % 32))

/-- R160, R161, R162: conversions, element by element and rounded once, into formats that are no block formats; the re-tagging of
bits; narrowing into a part of d; widening a part of a. -/
def Obligations.VectorConversions : Prop :=
  ∀ (h : Hdr) (d a b : Nat) (x : VExt) (s : State),
    let t := Fmt.ofCode x.fmt
    let A := source s [a] x none 0
    let P := source s [a, b] x none 0
    let Q := source s [a, b] x none 1
    let q := x.opx % 8
    let n := countOf P.tag
    let old := s.me.vget d
    (passes h (.vcvt h d a x) s → A.tag = .mask → Computes (.vcvt h d a x) s [a] 4 d fun v => v.tag = .i32 ∧ v.side = 0 ∧
      ∀ k, k < 64 → lane v.data k = lane A.data k &&& 1) ∧
    (passes h (.vcvt h d a x) s → t = .mask → Computes (.vcvt h d a x) s [a] 4 d fun v => v.tag = .mask ∧ v.side = 0 ∧
      ∀ k, k < 64 → lane v.data k = if lane A.data k = 0 then 0 else 1) ∧
    (passes h (.vcvt h d a x) s → A.tag ≠ .mask → t ≠ .mask → t ≠ .dx8 →
      RoundsElements (.vcvt h d a x) s [a] x.rm 4 d t fun m k => t.round m (valueUlpAt A k).1 (valueUlpAt A k).2 0) ∧
    (passes h (.vcvtTag h d a x) s → Computes (.vcvtTag h d a x) s [a] 4 d fun v => v = ⟨A.data, 0, t⟩) ∧
    (passes h (.vpack h d a b x) s → P.tag ≠ .i32 → t.isDx = false →
      Rounds (.vpack h d a b x) s [a, b] x.rm 4 d (2 * n) t.width (decide (1 < packParts P.tag t))
        (fun m k => let v := if k < n then valueUlpAt P k else valueUlpAt Q (k - n); t.round m v.1 v.2 0) (fun _ => 0)
        fun v c => v.tag = t ∧ v.side = 0 ∧ ∀ k, k < countOf t → elem t v.data k =
          if 2 * n * q ≤ k ∧ k < 2 * n * q + 2 * n then c (k - 2 * n * q)
          else if 1 < packParts P.tag t ∧ old.tag = t then elem t old.data k else 0) ∧
    (passes h (.vpack h d a b x) s → P.tag = .i32 →
      ∃ v : VReg, exec (.vpack h d a b x) s = .next ((afterPops s [a, b] d).landVector 4 d v 0 true) ∧ v.tag = .i8 ∧ v.side = 0 ∧
        ∀ k, k < 256 → BitVec.ofNat 8 (elem .i8 v.data k) =
          if 128 * q ≤ k ∧ k < 128 * q + 128 then
            let j := k - 128 * q
            BitVec.ofInt 8 (max (-128) (min 127 (if j < 64 then lane P.data j else lane Q.data (j - 64)).toInt))
          else if old.tag = .i8 then BitVec.ofNat 8 (elem .i8 old.data k) else 0) ∧
    (passes h (.vunpk h d a x) s → RoundsElements (.vunpk h d a x) s [a] x.rm 4 d t fun m k =>
      t.round m (valueUlpAt A (countOf t * q + k)).1 (valueUlpAt A (countOf t * q + k)).2 0)

/-- R160, R161, R77: the conversions into DX8 and DX4: blocks of 32 elements in the encoder's codes and exponents. -/
def Obligations.VectorBlockConversions : Prop :=
  ∀ (h : Hdr) (d a b : Nat) (x : VExt) (s : State),
    let t := Fmt.ofCode x.fmt
    let A := source s [a] x none 0
    let P := source s [a, b] x none 0
    let Q := source s [a, b] x none 1
    let values (r : VReg) : List (Machine.Num × Option Int) := (List.range (countOf r.tag)).map (valueUlpAt r)
    (passes h (.vcvt h d a x) s → t = .dx8 →
      Rounds (.vcvt h d a x) s [a] x.rm 4 d 256 8 false (fun m k => (encodeAll t m (values A)).1.getD k (Elem.const 0 0)) (fun _ => 0)
        fun v c => v.tag = t ∧ (∀ k, k < 256 → elem t v.data k = c k) ∧
          ∀ k, k < 16 → fld v.side.toNat (8 * k) 8 = (encodeAll t (s.mode x.rm) (values A)).2.getD k 0 % 256) ∧
    (passes h (.vpack h d a b x) s → t.isDx = true → ∃ (v : VReg) (u : State) (fl : Nat) (cs : List Nat),
      let es := encodeAll t (s.mode x.rm) (values P ++ values Q)
      exec (.vpack h d a b x) s = .next (u.landVector 4 d v fl (decide (1 < packParts P.tag t))) ∧
      (u, cs, fl) = (afterPops s [a, b] d).roundAll es.1 ∧ v.tag = t ∧
      v = packInto t (x.opx % 8) (if 1 < packParts P.tag t then s.me.vget d else VReg.zero) cs es.2)

/-- R163: reductions and scans: integer sums wrap, the maximum is signed; F32 values go through the pairwise tree of R89. -/
def Obligations.VectorReductions : Prop :=
  ∀ (h : Hdr) (d a : Nat) (x : Option VExt) (s : State),
    let A := source s [a] (x.getD ⟨0, 0, 7, 0, 0⟩) none 0
    let sum (n : Nat) : W32 := BitVec.ofInt 32 (((List.range n).map fun k => (lane A.data k).toInt).sum)
    let tree := treeLevels 6 ((List.range 64).map (valueAt A))
    let root : Machine.Num := (tree.1.getD 6 []).getD 0 (.fin false 0 0 false)
    let lands (i : Instr) (t : Fmt) (v : Nat → W32) (fl : Nat) : Prop := ∃ r : VReg,
      exec i s = .next ((afterPops s [a] d).landVector 6 d r fl) ∧ r.tag = t ∧ r.side = 0 ∧ ∀ n, n < 64 → lane r.data n = v n
    (passes h (.vredadd h d a x) s → A.tag = .i32 → lands (.vredadd h d a x) .i32 (fun _ => sum 64) 0) ∧
    (passes h (.vscan h d a x) s → A.tag = .i32 → lands (.vscan h d a x) .i32 (fun n => sum (n + 1)) 0) ∧
    (passes h (.vredmax h d a x) s → A.tag = .i32 → ∃ m : Nat, m < 64 ∧ lands (.vredmax h d a x) .i32 (fun _ => lane A.data m) 0 ∧
      ∀ n, n < 64 → (lane A.data n).toInt ≤ (lane A.data m).toInt) ∧
    (passes h (.vredadd h d a x) s → A.tag = .f32 → lands (.vredadd h d a x) .f32 (fun _ => BitVec.ofNat 32 (f32Code root)) tree.2) ∧
    (passes h (.vscan h d a x) s → A.tag = .f32 →
      let node (n : Nat) := scanAt tree.1 7 (n + 1) 0 none 0
      lands (.vscan h d a x) .f32 (fun n => BitVec.ofNat 32 (f32Code (node n).1)) (tree.2 ||| allFlags 64 fun n => (node n).2)) ∧
    (passes h (.vredmax h d a x) s → A.tag = .f32 →
      lands (.vredmax h d a x) .f32 (fun _ => BitVec.ofNat 32 (f32Code (extremum false ((List.range 64).map (valueAt A)))))
        (if (List.range 64).any fun n => (valueAt A n).sig then flInvalid else 0))

/-- R159, R169: the bound-offset exponent with its range flag, and the noise words, of which a lane takes 32 bits, or 24 as a
fraction. -/
def Obligations.VectorExponentAndNoise : Prop :=
  ∀ (h : Hdr) (d a b : Nat) (s : State),
    (∀ x : Option VExt,
      let c := x.getD ⟨0, 0, 7, 0, 0⟩
      let A := source s [a, b] c none 0
      let B := source s [a, b] c none 1
      let diff (n : Nat) := addNum rmRNE (valueAt A n) (valueAt B n).neg
      let rows := 2 ^ (c.opx % 4)
      let per := 64 / rows
      passes h (.vexpb h d a b x) s → RoundsElements (.vexpb h d a b x) s [a, b] c.rm 8 d .f32
        (fun m n => Fn.exp.round .f32 m (elem .f32 A.data n * 2 ^ 32 + elem .f32 B.data n) (diff n).1 (diff n).2)
        fun v => if (List.range rows).any fun r =>
            ((List.range per).any fun k => aboveBound (diff (r * per + k)).1) ||
            ((List.range per).all fun k => (valueAt v (r * per + k)).isNan || decide (elem .f32 v.data (r * per + k) < 0x33800000))
          then flRange else 0) ∧
    (∀ x : VExt,
      (passes h (.vrng h d x) s → x.fmt = 0 ∨ x.fmt = 8 →
        RoundsElements (.vrng h d x) s [] 0 3 d (Fmt.ofCode x.fmt) fun _ _ => ⟨32, fun n => (n, 0)⟩) ∧
      (passes h (.vrng h d x) s → x.fmt = 1 →
        RoundsElements (.vrng h d x) s [] 0 3 d .f32 fun _ _ => ⟨24, fun n => (f32Code (.fin false n (-24) false), 0)⟩))

/-! ### Matrix words -/

/-- R173, R175: the three multiply forms: the unit is taken for the compute phase, and the tile of chain results lands when it is
complete. -/
def Obligations.MatrixMultiplyAccumulates : Prop :=
  ∀ (h : Hdr) (d a b unit cpat cop gm1 gs : Nat) (s : State),
    let A := s.me.tget a
    let B := s.me.tget b
    let C := s.me.tget d
    let g := gm1 + 1
    let cyc := g * (if A.tag.width = 16 then 32 else if A.tag = .dx4 then 8 else 16)
    let gives (i : Instr) (el : Nat → Nat → Machine.Num) (start : Nat → Nat → Option Machine.Num) (rd : List Nat) : Prop := passes h i s →
      let cell (i j : Nat) := chain cop (cellGroups (s.me.cget (csrCpat + cpat)) ((List.range (32 * g)).map fun k => el i (32 * gs + k))
        ((List.range (32 * g)).map fun k => tileValue B j (32 * gs + k))) (start i j)
      ∃ v : TReg, exec i s = .next (s.launchTile (12 + cyc) true (some (unit, cyc)) rd [d]
          (.treg d v false :: flagLanding (allFlags 4096 fun n => (cell (n / 64) (n % 64)).2))) ∧
        v.tag = .f32 ∧ ∀ i, i < 64 → (v.row i).side = 0 ∧ ∀ j, j < 64 → lane (v.row i).data j = BitVec.ofNat 32 (f32Code (cell i j).1)
    gives (.mma h d a b unit cpat cop gm1 gs) (fun i k => tileValue A i k) (fun i j => some (tileValue C i j)) [a, b, d] ∧
    gives (.mmaz h d a b unit cpat cop gm1 gs) (fun i k => tileValue A i k) (fun _ _ => none) [a, b] ∧
    gives (.mmat h d a b unit cpat cop gm1 gs) (fun i k => tileValue A (k % 64) (64 * (k / 64) + i))
      (fun i j => some (tileValue C i j)) [a, b, d]

/-- R176-R180: zeroing, narrowing, re-tagging, and the moves of rows. -/
def Obligations.MatrixTileAndRowMoves : Prop :=
  ∀ (h : Hdr) (d a : Nat) (s : State),
    let A := s.me.tget a
    let C := s.me.tget d
    (∀ fmt, passes h (.mzero h d fmt) s →
      exec (.mzero h d fmt) s = .next (s.launchTile 4 false none [] [d] [.treg d ⟨[], Fmt.ofCode (fmt.getD 1)⟩ false])) ∧
    (∀ fmt, passes h (.mfmt h d a fmt) s → ∃ v : TReg,
      exec (.mfmt h d a fmt) s = .next (s.launchTile 4 false none [a] [d] [.treg d v false]) ∧ v.tag = Fmt.ofCode fmt ∧
      ∀ i, i < 64 → v.row i = ⟨(A.row i).data, 0⟩) ∧
    (∀ k r, passes h (.mtv h d a k r) s → exec (.mtv h d a k r) s = .next (s.addFlight
      { s.launchFlight .tagged (some 24) [.vreg d ⟨(A.row r).data, (A.row r).side, A.tag⟩ false] with
        tag := some k, first := s.now + 8, rd := [a] })) ∧
    (∀ r, passes h (.mvt h d a r) s →
      let src := s.me.vsrc a 0 0
      ∃ v : TReg, exec (.mvt h d a r) s = .next ((s.modCtx s.cur.ctx fun x => x.popAll [a]).launchTile 4 false none [] [d] [.treg d v true]) ∧
        v.tag = src.tag.getD .raw ∧ v.row r = ⟨src.data, src.side⟩ ∧
        ∀ i, i ≠ r → v.row i = if C.tag = v.tag then C.row i else Row.zero) ∧
    (∀ fmt rm q, passes h (.mcvt h d a fmt rm q) s → (Fmt.ofCode fmt).isDx = false →
      let t := Fmt.ofCode fmt
      let n := countOf A.tag
      let el (k : Nat) : Elem :=
        let v := valueUlpAt ⟨(A.row (k / n)).data, (A.row (k / n)).side, A.tag⟩ (k % n)
        t.round (s.mode rm) v.1 v.2 0
      ∃ v : TReg, exec (.mcvt h d a fmt rm q) s = .next ((noiseFor s el (64 * n)).1.launchTile 16 false none [a] [d]
          (.treg d v true :: flagLanding (flagsOf s el (64 * n) &&& (flInvalid ||| flOverflow ||| flRlog)))) ∧ v.tag = t ∧
        ∀ i k, i < 64 → k < countOf t → (v.row i).side = 0 ∧ elem t (v.row i).data k =
          if n * q ≤ k ∧ k < n * q + n then codeOf s el (64 * n) t.width (n * i + (k - n * q))
          else if C.tag = t then elem t (C.row i).data k else 0) ∧
    (∀ fmt rm q, passes h (.mcvt h d a fmt rm q) s → (Fmt.ofCode fmt).isDx = true →
      let t := Fmt.ofCode fmt
      let n := countOf A.tag
      let r := s.roundAll (mcvtElems t (s.mode rm) A).1
      ∃ v : TReg, exec (.mcvt h d a fmt rm q) s = .next (r.1.launchTile 16 false none [a] [d]
          (.treg d v true :: flagLanding (r.2.2 &&& (flInvalid ||| flOverflow ||| flRlog)))) ∧ v.tag = t ∧
        ∀ i, i < 64 →
          let p := packInto t q ⟨(C.row i).data, (C.row i).side, C.tag⟩ ((r.2.1.drop (n * i)).take n) ((mcvtElems t (s.mode rm) A).2.getD i [])
          v.row i = ⟨p.data, p.side⟩)

/-- R173, R181: a compare-select pass over the 64 scores of each row. -/
def Obligations.MatrixCompareSelects : Prop :=
  ∀ (h : Hdr) (d a b unit : Nat) (min init : Bool) (s : State), passes h (.mcsel h d a b unit min init) s →
    let A := s.me.tget a
    let C := s.me.tget d
    ∃ v : TReg, exec (.mcsel h d a b unit min init) s = .next (s.launchTile 20 true (some (unit, 8)) (if init then [a] else [a, d]) [d]
        [.treg d v false]) ∧ v.tag = .f32 ∧
      ∀ i, i < 64 → (v.row i).side = 0 ∧ (∀ j, 2 ≤ j → j < 64 → lane (v.row i).data j = 0) ∧
        let start : Machine.Num × Nat :=
          if init then (.inf (!min), 16777215)
          else ((Fmt.f32.decode (elem .f32 (C.row i).data 0)).1, indexOf (Fmt.f32.decode (elem .f32 (C.row i).data 1)).1)
        let best := mcselRow min (s.me.sget b).toNat ((List.range 64).map fun j => tileValue A i j) start
        (init = true ∨ best ≠ start → lane (v.row i).data 0 = BitVec.ofNat 32 (f32Code best.1) ∧
          lane (v.row i).data 1 = BitVec.ofNat 32 (f32Code (.fin false best.2 0 false))) ∧
        (init = false → best = start → lane (v.row i).data 0 = lane (C.row i).data 0 ∧ lane (v.row i).data 1 = lane (C.row i).data 1)

/-! ### Local memory -/

/-- R187, R188, R189, R190: loads of scalars, vectors and tile rows from scratchpad: the little-endian bytes at the effective address,
the exponent bytes of block formats, and the transpose of 16-byte memory rows. -/
def Obligations.ScratchpadLoadsReadTheirBytes : Prop :=
  ∀ (h : Hdr) (d a b fmt : Nat) (s : State),
    let byte (x : Nat) : Byte := scrByte s s.tile x
    let t := Fmt.ofCode fmt
    let sx (w off : Nat) : W64 := (BitVec.ofNat w off).signExtend 64
    let A := (s.me.sget a).toNat
    let B := (s.me.sget b).toNat
    let side (p : Nat) (r : BitVec 256) : Prop := ∀ k, k < 32 → r.extractLsb' (8 * k) 8 = if k < expBytes t then byte (p + k) else 0
    let transposed (p sw : Nat) (r : BitVec 2048) : Prop := ∀ m k, m < 128 / t.width → k < 16 →
      elem t r (16 * m + k) = bitsNat ((List.range t.width).map fun j =>
        let i := t.width * m + j
        (byte (p + k * 16 * sw + i / 8)).getLsbD (i % 8))
    (∀ off, passes h (.ldw h d a off) s →
      let ea := (s.me.sget a + sx 32 (off.getD 0)).toNat
      ∃ v : W64, exec (.ldw h d a off) s = .next (s.landPoison 6 [.sreg d v] (s.scrPoison s.tile ea 4)) ∧
        ∀ k, k < 8 → v.extractLsb' (8 * k) 8 = if k < 4 then byte (ea + k) else 0) ∧
    (∀ off, passes h (.ldd h d a off) s →
      let ea := (s.me.sget a + sx 32 (off.getD 0)).toNat
      ∃ v : W64, exec (.ldd h d a off) s = .next (s.landPoison 6 [.sreg d v] (s.scrPoison s.tile ea 8)) ∧
        ∀ k, k < 8 → v.extractLsb' (8 * k) 8 = byte (ea + k)) ∧
    (∀ off, passes h (.vld h d a b fmt off) s →
      let ea := (s.me.sget a + sx 28 off).toNat
      ∃ (v : VReg) (p : Option Origin), exec (.vld h d a b fmt off) s = .next (s.landPoison 6 [.vreg d v false] p) ∧ v.tag = t ∧
        (∀ k, k < 256 → v.data.extractLsb' (8 * k) 8 = byte (ea + k)) ∧ side B v.side ∧
        (p = none ↔ s.scrPoison s.tile ea 256 = none ∧ (t.isDx = true → s.scrPoison s.tile B (expBytes t) = none))) ∧
    (∀ r n sw, passes h (.ldt h d a fmt false r n sw) s → t.isDx = false →
      ∃ v : VReg, exec (.ldt h d a fmt false r n sw) s = .next (s.landPoison 8 [.vreg d v false] (s.rangesPoison (ldtRanges A sw 1))) ∧
        v.tag = t ∧ v.side = 0 ∧ transposed A sw v.data) ∧
    (∀ r n sw, passes h (.ldt h d a fmt true r n sw) s → t.isDx = false → r + n < 64 →
      ∃ v : TReg, exec (.ldt h d a fmt true r n sw) s = .next
          (s.launchTransfer (n + 1) [] [d] [.treg d v true] (s.rangesPoison (ldtRanges A sw (n + 1)))) ∧ v.tag = t ∧
        (∀ j, j ≤ n → (v.row (r + j)).side = 0 ∧ transposed (A + 256 * j * sw) sw (v.row (r + j)).data) ∧
        ∀ i, i < r ∨ r + n < i → v.row i = if (s.me.tget d).tag = t then (s.me.tget d).row i else Row.zero) ∧
    (∀ r n sw, passes h (.tld h d a b fmt r n sw) s → r + n < 64 →
      ∃ v : TReg, exec (.tld h d a b fmt r n sw) s = .next
          (s.launchTransfer (n + 1) [] [d] [.treg d v true] (s.rangesPoison (tileRanges t A B sw (n + 1)))) ∧ v.tag = t ∧
        (∀ j, j ≤ n → side (B + 32 * j) (v.row (r + j)).side ∧
          ∀ k, k < 256 → (v.row (r + j)).data.extractLsb' (8 * k) 8 = byte (A + 16 * sw * j + k)) ∧
        ∀ i, i < r ∨ r + n < i → v.row i = if (s.me.tget d).tag = t then (s.me.tget d).row i else Row.zero)

/-- R187, R188, R190, R205: stores to scratchpad write the bytes of their effective address and no other, and change no register, no
memory and no pinning; `sstat` stores the record of a stream and clears its OVR. -/
def Obligations.ScratchpadStoresWriteTheirBytes : Prop :=
  ∀ (h : Hdr) (d a b : Nat) (s : State),
    let sx (w off : Nat) : W64 := (BitVec.ofNat w off).signExtend 64
    let A := (s.me.sget a).toNat
    let B := (s.me.sget b).toNat
    (∀ off, passes h (.stw h d a off) s → ∃ t, exec (.stw h d a off) s = .next t ∧ OnlyScratchBytes s t ∧
      ScratchTakes s t s.tile (s.me.sget a + sx 32 (off.getD 0)).toNat (toLE 4 (s.me.sget d).toNat)) ∧
    (∀ off, passes h (.std h d a off) s → ∃ t, exec (.std h d a off) s = .next t ∧ OnlyScratchBytes s t ∧
      ScratchTakes s t s.tile (s.me.sget a + sx 32 (off.getD 0)).toNat (toLE 8 (s.me.sget d).toNat)) ∧
    (∀ off, passes h (.vst h d a b off) s →
      let src := s.me.vsrc d 0 0
      let u := s.modCtx s.cur.ctx fun x => x.popAll [d]
      let ea := (s.me.sget a + sx 28 off).toNat
      ((s.srcTag d).isDx = false → ∃ t, exec (.vst h d a b off) s = .next t ∧ OnlyScratchBytes u t ∧
        ScratchTakes s t s.tile ea (toLE 256 src.data.toNat)) ∧
      ((s.srcTag d).isDx = true → ∃ t m, exec (.vst h d a b off) s = .next t ∧ OnlyScratchBytes u t ∧
        ScratchTakes s m s.tile ea (toLE 256 src.data.toNat) ∧ ScratchTakes m t s.tile B (toLE (expBytes (s.srcTag d)) src.side.toNat))) ∧
    (∀ r n sw, passes h (.tst h d a b r n sw) s → (s.me.tget d).tag.isDx = false → 256 ≤ 16 * sw ∨ n = 0 →
      ∃ t, exec (.tst h d a b r n sw) s = .next (t.launchTransfer (n + 1) [d] [] [] none) ∧ OnlyScratchBytes s t ∧
        ∀ k x, x < 2 ^ 22 →
          ((∃ j, j ≤ n ∧ k = s.tile ∧ A + 16 * sw * j ≤ x ∧ x < A + 16 * sw * j + 256 ∧
              scrByte t k x = (((s.me.tget d).row (r + j)).data).extractLsb' (8 * (x - (A + 16 * sw * j))) 8) ∨
            ((∀ j, j ≤ n → ¬(k = s.tile ∧ A + 16 * sw * j ≤ x ∧ x < A + 16 * sw * j + 256)) ∧ scrByte t k x = scrByte s k x))) ∧
    (∀ r n sw, passes h (.tst h d a b r n sw) s → exec (.tst h d a b r n sw) s = .next
      (((List.range (n + 1)).foldl (fun u j =>
        let row := (s.me.tget d).row (r + j)
        let v := u.scrWrite s.tile (A + 16 * sw * j) (toLE 256 row.data.toNat)
        if (s.me.tget d).tag.isDx then v.scrWrite s.tile (B + 32 * j) (toLE (expBytes (s.me.tget d).tag) row.side.toNat) else v) s).launchTransfer
          (n + 1) [d] [] [] none)) ∧
    (passes h (.sstat h a b) s →
      let q := s.me.qget a
      let u := s.modCtx s.cur.ctx fun x => x.qset a { q with ovr := false }
      let faults : Bool := if q.write then s.posted.any fun p => decide (p.ctx = s.cur.ctx ∧ p.stream = some (a, q.gen) ∧ p.wait ≠ none) else q.blocked
      ∃ t, exec (.sstat h a b) s = .next t ∧ OnlyScratchBytes u t ∧ ScratchTakes s t s.tile B
        (if q.bound then toLE 8 q.pos ++ toLE 4 (if q.write then s.taken s.cur.ctx a q.gen else q.fetched.length) ++
            toLE 1 (1 + 2 * q.write.toNat + 4 * q.ovr.toNat + 8 * faults.toNat) ++ List.replicate 3 0
          else List.replicate 16 0))

/-- R191, R192, R193: pinning and unpinning of lines; loads from and stores to the scratchpad of a cluster mate. -/
def Obligations.PinningAndClusterMates : Prop :=
  ∀ (h : Hdr) (d a b : Nat) (s : State),
    let A := (s.me.sget a).toNat
    let n := (s.me.sget b).toNat
    let bank := bankOf s.cur.ctx
    let mine (x : Nat) : Prop := (s.sline s.tile x).pin = some bank
    let inside (x : Nat) : Prop := A ≤ x ∧ x < A + n
    (passes h (.alloc h a b) s → s.pinFails s.tile bank (linesOf A n) = true → exec (.alloc h a b) s = .next (s.land 1 [.p6 false])) ∧
    (passes h (.alloc h a b) s → s.pinFails s.tile bank (linesOf A n) = false →
      ∃ t : State, exec (.alloc h a b) s = .next (t.land 1 [.p6 true]) ∧ SameRegisters s.me t.me ∧
        ∀ k x, k < 96 → x < 2 ^ 22 → t.sline k x =
          if k = s.tile ∧ inside x ∧ ¬mine x then ({ SLine.free with pin := some bank } : SLine) else s.sline k x) ∧
    (passes h (.free h a b) s → ∃ t, exec (.free h a b) s = .next t ∧ t = { s with scratch := t.scratch } ∧
      ∀ k x, k < 96 → x < 2 ^ 22 → t.sline k x = if k = s.tile ∧ inside x ∧ mine x then SLine.free else s.sline k x) ∧
    (∀ k fmt, passes h (.vldc h d a k fmt) s → ∃ (v : VReg) (p : Option Origin),
      exec (.vldc h d a k fmt) s = .next (s.addFlight
        { s.launchFlight .tagged none [.vreg d v false] with tag := some k, poison := p }) ∧
      v.tag = Fmt.ofCode fmt ∧ v.side = 0 ∧
      ∀ j, j < 256 → v.data.extractLsb' (8 * j) 8 = match s.mate A with
        | none => 0
        | some m => scrByte s (tileOf m) (A % 2 ^ 22 + j)) ∧
    (passes h (.vstc h d a) s →
      let u := s.modCtx s.cur.ctx fun x => x.popAll [d]
      (s.mate A = none → exec (.vstc h d a) s = .next u) ∧
      ∀ m, s.mate A = some m → ∃ t, exec (.vstc h d a) s = .next t ∧ OnlyScratchBytes u t ∧
        ScratchTakes s t (tileOf m) (A % 2 ^ 22) (toLE 256 (s.me.vsrc d 0 0).data.toNat))

/-! ### Global memory -/

/-- R194-R197, R274: a load, an atomic or a gather issues as one tagged load, in parts: that of each page of the range, of the word, of
each active lane. One whose pages the core's TLB holds is in flight then, with the guest address, length and translation of each of its
parts, and changes no register and no byte of memory by issuing. -/
def Obligations.GlobalLoadsIssueTranslated : Prop :=
  ∀ (h : Hdr) (d a b k : Nat) (s : State), s.me.st ≠ .dead →
    let w := s.me.hget a
    let off := (s.me.sget b).toNat
    let va (o : Nat) : Nat := (w.base + o) % 2 ^ 55
    let part (o n dst : Nat) (x : Xlat) : Piece := ⟨va o, n, dst, some x, none, none, none, none, .none⟩
    let still (a n dst : Nat) : Piece := ⟨a, n, dst, none, none, none, none, none, .none⟩
    let u := s.modCtx s.cur.ctx fun y => { y with replay := false }
    let issues (i : Instr) (l : Load) : Prop := ∃ (t : State) (f : Flight), exec i s = .next t ∧ t.me.flights.getLast? = some f ∧
      f.id = s.serial ∧ f.kind = .tagged ∧ f.tag = some k ∧ f.first = s.now + 1 ∧ f.load = some l ∧
      t.mem = s.mem ∧ t.scratch = s.scratch ∧ t.posted = s.posted ∧ t.serial = s.serial + 1
    (∀ sz ord scope fmt, passes h (.ldg h d a b k sz ord scope fmt) s → sz ≤ 2 →
      let n := if sz = 0 then 4 else if sz = 1 then 8 else 256
      let first := min n (2 ^ 16 - va off % 2 ^ 16)
      exec (.ldg h d a b k sz ord scope fmt) s = .next (s.issueLoad k
        { pieces := if first = n then [still (va off) n 0] else [still (va off) first 0, still (va off + first) (n - first) first]
          dst := if sz = 2 then .vector d (Fmt.ofCode fmt) else .scalar d
          acq := if ord = 1 ∨ ord = 3 then some scope else none, rel := none, amo := none, gather := false, offsets := 0, vd := w.vd })) ∧
    (∀ aop sz us ord scope opr cmp, passes h (.amo h d a b k aop sz us ord scope opr cmp) s →
      exec (.amo h d a b k aop sz us ord scope opr cmp) s = .next (u.issueLoad k
        { pieces := [still (va off) (if sz then 8 else 4) 0], dst := .scalar d
          acq := if ord = 1 ∨ ord = 3 then some scope else none, rel := if ord = 2 ∨ ord = 3 then some scope else none
          amo := some ⟨aop, sz, us, s.me.sget opr, s.me.sget cmp⟩, gather := false, offsets := 0, vd := w.vd })) ∧
    (∀ fmt mv, passes h (.vgat h d a b k fmt mv) s →
      let offs := (s.me.vsrc b 0 0).data
      let lanes := (List.range 64).filter fun i => mv == 63 || (s.me.vget mv).data.getLsbD (32 * i)
      exec (.vgat h d a b k fmt mv) s = .next ((s.modCtx s.cur.ctx fun y => y.popAll [b]).issueLoad k
        { pieces := lanes.map fun i => still (va (lane offs i).toNat) 4 (4 * i), dst := .vector d (Fmt.ofCode fmt)
          acq := none, rel := none, amo := none, gather := true, offsets := offs, vd := w.vd })) ∧
    (∀ sz ord scope fmt x, passes h (.ldg h d a b k sz ord scope fmt) s → Mapped s w.vd (va off) x → sz ≤ 2 →
      let n := if sz = 0 then 4 else if sz = 1 then 8 else 256
      va off % 2 ^ 16 + n ≤ 2 ^ 16 →
      issues (.ldg h d a b k sz ord scope fmt)
        { pieces := [part off n 0 x], dst := if sz = 2 then .vector d (Fmt.ofCode fmt) else .scalar d
          acq := if ord = 1 ∨ ord = 3 then some scope else none, rel := none, amo := none, gather := false, offsets := 0, vd := w.vd }) ∧
    (∀ aop sz u ord scope opr cmp x, passes h (.amo h d a b k aop sz u ord scope opr cmp) s → Mapped s w.vd (va off) x → x.fab = none →
      issues (.amo h d a b k aop sz u ord scope opr cmp)
        { pieces := [part off (if sz then 8 else 4) 0 x], dst := .scalar d
          acq := if ord = 1 ∨ ord = 3 then some scope else none, rel := if ord = 2 ∨ ord = 3 then some scope else none
          amo := some ⟨aop, sz, u, s.me.sget opr, s.me.sget cmp⟩, gather := false, offsets := 0, vd := w.vd }) ∧
    (∀ fmt mv (x : Nat → Xlat), passes h (.vgat h d a b k fmt mv) s →
      let offs := (s.me.vsrc b 0 0).data
      let lanes := (List.range 64).filter fun i => mv == 63 || (s.me.vget mv).data.getLsbD (32 * i)
      (∀ i, i ∈ lanes → Mapped s w.vd (va (lane offs i).toNat) (x i)) →
      issues (.vgat h d a b k fmt mv)
        { pieces := lanes.map fun i => part (lane offs i).toNat 4 (4 * i) (x i), dst := .vector d (Fmt.ofCode fmt)
          acq := none, rel := none, amo := none, gather := true, offsets := offs, vd := w.vd })

/-- R195, R196, R198, R274, R275: a store is posted with its bytes, in the part of each page. One whose page the core's TLB holds takes its
place before the writes of its context's later bundles that have gone nowhere yet, and to an RC page it enters the cluster's write buffer
once nothing holds it back; to a UO page it goes into local memory. A scatter posts the element of every active lane, in lane order;
`pref` of the LLC changes nothing; `pref` and `inv` go over the lines of their range that lie in the window. -/
def Obligations.GlobalStoresPost : Prop :=
  ∀ (h : Hdr) (d a b : Nat) (s : State), s.me.st ≠ .dead →
    let w := s.me.hget a
    let off := (s.me.sget b).toNat
    let va (o : Nat) : Nat := (w.base + o) % 2 ^ 55
    let inWindow (n : Nat) : List Nat := ((List.range n).map fun i => off / 128 * 128 + 128 * i).filter fun o => o < 2 ^ w.l2s
    (∀ sz ord scope, passes h (.stg h d a b sz ord scope) s → sz ≤ 2 →
      let n := if sz = 0 then 4 else if sz = 1 then 8 else 256
      let bytes := if sz = 2 then toLE 256 (s.me.vsrc d 0 0).data.toNat else toLE n (s.me.sget d).toNat
      let rel : Option Nat := if ord = 2 ∨ ord = 3 then some scope else none
      let u := (s.modCtx s.cur.ctx fun y => y.unreplay).modCtx s.cur.ctx fun y => if sz = 2 then y.popAll [d] else y
      exec (.stg h d a b sz ord scope) s = .next (u.postStore s.cur.ctx w.vd { va := va off, bytes := bytes, rel := rel }) ∧
      ∀ x front back, Mapped s w.vd (va off) x → va off % 2 ^ 16 + n ≤ 2 ^ 16 → (∀ q, q ∈ s.posted → q.id ≠ s.serial) → s.posted = front ++ back →
        let later (q : Posted) : Prop := q.ctx = s.cur.ctx ∧ s.cur.bundle < q.bundle ∧ q.buf = false ∧ q.freq = none
        (∀ q, q ∈ front → ¬later q) → (∀ q, back.head? = some q → later q) →
        let p : Posted := {
          id := s.serial, ctx := s.cur.ctx, vd := w.vd, va := va off, bytes := bytes, op := .write, rel := rel, xl := some x, wait := none
          stream := none, log := none, promoted := false, bound := s.now + 8192, freq := none, bundle := s.cur.bundle }
        let placed : State := { u with serial := s.serial + 1, posted := front ++ p :: back }
        let local_ : Prop := x.attr = .uo ∧ x.fab = none ∧ x.pa < apertureBase
        (¬local_ → exec (.stg h d a b sz ord scope) s = .next (placed.settleWrites (clusterOf s.tile)) ∧
          ∃ t q, exec (.stg h d a b sz ord scope) s = .next t ∧ q ∈ t.posted ∧ q = { p with buf := q.buf } ∧
            (q.buf = true → x.attr = .rc ∧ x.fab = none)) ∧
        (local_ → placed.unheld p = true → (∀ q, q ∈ front → q.ctx = s.cur.ctx → q.touches x.pa n = false) →
          exec (.stg h d a b sz ord scope) s =
            .next (({ u with serial := s.serial + 1 }).writeUo s.cur.ctx x.pa (n / 128 + 2) bytes))) ∧
    (∀ mv, passes h (.vsct h d a b mv) s →
      let srcs := s.me.vsrcs 0 [d, b]
      let data := (srcs.getD 0 ⟨0, 0, none⟩).data
      let offs := (srcs.getD 1 ⟨0, 0, none⟩).data
      let lanes := (List.range 64).filter fun i => mv == 63 || (s.me.vget mv).data.getLsbD (32 * i)
      let u := (s.modCtx s.cur.ctx fun y => y.unreplay).modCtx s.cur.ctx fun y => y.popAll [d, b]
      exec (.vsct h d a b mv) s = .next (lanes.foldl (fun t i =>
        if (t.ctx s.cur.ctx).st ≠ .dead then t.postWrite s.cur.ctx w.vd { va := va (lane offs i).toNat, bytes := toLE 4 (lane data i).toNat }
        else t) u)) ∧
    (∀ n, passes h (.pref h a b true n) s → exec (.pref h a b true n) s = .next s) ∧
    (∀ n, passes h (.pref h a b false n) s → exec (.pref h a b false n) s = .next
      ((inWindow (n + 1)).foldl (fun t o => t.prefetchLine w.vd (va o)) s)) ∧
    (∀ n, passes h (.inv h a b n) s → exec (.inv h a b n) s = .next ((inWindow (n + 1)).foldl (fun t o => t.invLine w.vd (va o)) s))

/-! ### Streams -/

/-- R200-R204, R476: what binding, unbinding, flushing and skipping make of the stream they name, the others staying as they were. -/
def Obligations.StreamWordsMoveTheirStream : Prop :=
  ∀ (h : Hdr) (q a k : Nat) (s : State),
    let old := s.me.qget q
    let others (t : State) : Prop := ∀ n, n ≠ q → t.me.qget n = s.me.qget n
    (passes h (.sbind h q a) s →
      let ds := (List.range 6).map fun i => s.me.gget (a + i)
      let f (i lo n : Nat) : Nat := fld (ds.getD i 0).toNat lo n
      let dims := f 1 53 2 + 1
      ∃ t, exec (.sbind h q a) s = .next t ∧ others t ∧ t.posted = s.posted ∧
        let y := t.me.qget q
        y.bound = true ∧ y.write = (f 1 59 1 == 1) ∧ y.fmt = Fmt.ofCode (f 1 60 4) ∧ y.offset = f 0 0 64 ∧
        y.ext = [f 2 0 32, f 2 32 32, f 3 0 32, f 3 32 32].take dims ∧
        y.str = [sext 32 (f 4 0 32), sext 32 (f 4 32 32), sext 32 (f 5 0 32), sext 32 (f 5 32 32)].take dims ∧
        y.win = s.me.hget (f 1 55 4) ∧ y.pos = 0 ∧ y.ovr = false ∧ y.fetched = [] ∧ y.next = 0) ∧
    (passes h (.sunbind h q) s → ∃ t, exec (.sunbind h q) s = .next t ∧ others t ∧ t.posted = s.posted ∧ t.me.qget q = Stream.unbound) ∧
    (∀ scope, passes h (.sflush h q k scope) s →
      ∃ t f, exec (.sflush h q k scope) s = .next t ∧ others t ∧ t.posted = s.posted ∧ t.me.flights.getLast? = some f ∧ f.tag = some k ∧
        f.flush = some (q, old.gen, scope) ∧ f.lands = [] ∧
        t.me.qget q = if old.write then old else { old with fetched := [], next := old.pos, blocked := false }) ∧
    (passes h (.sskip h q a) s →
      let n := (s.me.sget a).toNat
      ∃ t, exec (.sskip h q a) s = .next t ∧ others t ∧ t.posted = s.posted ∧ t.mem = s.mem ∧
        (t.me.qget q).pos = min (old.pos + n) old.total ∧ (t.me.qget q).ovr = (old.ovr || decide (old.total < old.pos + n)) ∧
        (t.me.qget q).fetched = old.fetched.filter fun e => min (old.pos + n) old.total ≤ e.entry)

/-! ### Control words -/

/-- R112, R113, R130, R132: the branches, taken and not taken, and the link values. -/
def Obligations.BranchesPassControl : Prop :=
  ∀ (h : Hdr) (d a b seg bun : Nat) (s : State),
    let x := s.me.sget a
    let taken (i : Instr) (u : State) (seg bun : Nat) : Prop := ∃ t, exec i s = .next t ∧ Arrives u seg bun t
    let linked (p : Pc) : State := s.land 1 [.sreg d (BitVec.ofNat 64 (p.seg * 2 ^ 16 + p.bun))]
    let sg := x.toNat / 2 ^ 16 % 2 ^ 16
    let bn := x.toNat % 2 ^ 13
    (passes h (.br h seg bun) s → taken (.br h seg bun) s seg bun) ∧
    (passes h (.brz h a seg bun) s → x = 0 → taken (.brz h a seg bun) s seg bun) ∧
    (goes h s → x ≠ 0 → exec (.brz h a seg bun) s = .next s) ∧
    (passes h (.brnz h a seg bun) s → x ≠ 0 → taken (.brnz h a seg bun) s seg bun) ∧
    (goes h s → x = 0 → exec (.brnz h a seg bun) s = .next s) ∧
    (passes h (.brp h a b seg bun) s → s.cur.preds.getLsbD a ≠ decide (b = 1) → taken (.brp h a b seg bun) s seg bun) ∧
    (goes h s → s.cur.preds.getLsbD a = decide (b = 1) → exec (.brp h a b seg bun) s = .next s) ∧
    (∀ p, s.me.following s.cur.pc = some p →
      (passes h (.call h d seg bun) s → taken (.call h d seg bun) (linked p) seg bun) ∧
      (passes h (.jmpr h d a) s → taken (.jmpr h d a) (linked p) sg bn)) ∧
    (passes h (.ret h a) s → taken (.ret h a) s sg bn)

/-- R133: `loop` counts down, turns the window p0-p5 and drains through `epi`, and is taken until the drain passes are over. -/
def Obligations.LoopCountsAndDrains : Prop :=
  ∀ (h : Hdr) (a n seg bun : Nat) (s : State), passes h (.loop h a n seg bun) s → 1 ≤ n → n ≤ 8 →
    let ctr := s.me.sget a
    let epi := s.me.cget csrEpi
    let win : BitVec 6 := s.cur.preds.extractLsb' 0 6
    let left := if epi.getLsbD 7 then epi.toNat % 8 else n - 1
    (ctr ≠ 0 → ∃ t, exec (.loop h a n seg bun) s = .next t ∧
      Arrives (s.land 1 [.sreg a (ctr - 1), .window (win <<< 1 ||| 1#6)]) seg bun t) ∧
    (ctr = 0 → 0 < left → ∃ t, exec (.loop h a n seg bun) s = .next t ∧
      Arrives (s.land 1 [.window (win <<< 1), .csr csrEpi (BitVec.ofNat 64 (128 + (left - 1)))]) seg bun t) ∧
    (ctr = 0 → left = 0 → exec (.loop h a n seg bun) s = .next (s.land 1 [.csr csrEpi 0]))

/-- R47, R48, R98, R134, R135, R420, R448: `nop` does nothing; `segpf`, and a scheduling control word with PF, start the expansion of a
segment that the idle half does not hold; `exit` ends the pass: the context drains toward its end, a pass that does not match its header
fails, and in a rerun the rerun ends. -/
def Obligations.NopPrefetchAndExit : Prop :=
  (∀ (h : Hdr) (seg : Nat) (s : State),
     let starts (n : Nat) (t : State) : Prop :=
       (s.me.idle.map (·.seg) = some n → t = s) ∧
       (s.me.idle.map (·.seg) ≠ some n → t = s.modCtx s.cur.ctx fun x => { x with idle := some (Half.fetching n) })
     (goes h s → exec (.nop h) s = .next s) ∧
     (goes h s → let n := if seg = 0xFFFF then s.cur.pc.seg else seg
       ∃ t, exec (.segpf h seg) s = .next t ∧
         (∀ k, (s.segFetch s.cur.ctx n 0).2 = .ok k → starts n t) ∧
         (∀ g, s.groupOf s.cur.ctx = some g → g.scount ≤ n → t = s)) ∧
     (∀ stop pd w ws, exec (.sched stop pd w ws false) s = .next s) ∧
     (∀ stop pd w ws, ∃ t, exec (.sched stop pd w ws true) s = .next t ∧
       ∀ k, s.me.exec = some k → (k.next = 0xFFFF → t = s) ∧ (k.next ≠ 0xFFFF → starts k.next t))) ∧
  (∀ (h : Hdr) (s : State), goes h s →
     let x := s.me
     (x.rerun = none → x.passMismatch = none → exec (.exit h) s =
       .next (s.modCtx s.cur.ctx fun x => { x with st := .draining, drainTo := .exit })) ∧
     (∀ m, x.rerun = none → x.passMismatch = some m → exec (.exit h) s = .next (s.passFails s.cur.ctx m s.cur.pc)) ∧
     (∀ r, x.rerun = some r → exec (.exit h) s = .next (s.modCtx s.cur.ctx fun x =>
       x.rerunEnds r ⟨x.count, x.crc, none, false, 7, false⟩ none)))

/-- R135, R144, R411-R416: `trap` and `brk` trap SIG and BRK with their codes: the words in hand and the pending words of the context go,
the trap registers are written, and control passes to the bundle of the current segment that `tvec` names, where a new pass begins; the
bundle issues from the second cycle on. Nothing else changes. -/
def Obligations.TrapAndBrkVector : Prop :=
  ∀ (h : Hdr) (code : Nat) (s : State) (k : Half), predOf s.cur.preds h.pred = true → code < 2 ^ 32 →
    let c := s.cur.ctx
    let x := s.me
    let tv := x.cget csrTvec
    let bun := tv.toNat % 2 ^ 13
    let seg := tv.toNat / 2 ^ 16 % 2 ^ 16
    let after (cause : Nat) : Ctx := (((x.cset csrTcause (BitVec.ofNat 64 (s.cur.slot * 256 + cause))).cset csrTinfo
      (BitVec.ofNat 64 code)).cset csrTloc (BitVec.ofNat 64 (s.cur.pc.seg * 2 ^ 16 + s.cur.pc.bun)))
    let vectors (cause : Nat) (t : State) : Prop :=
      t = ({ s with todo := s.todo.filter (·.ctx ≠ c) }).setCtx c { after cause with
        pend := [], leave := none, lastTrap := some cause, st := .running, trapBundle := some ⟨k.seg, bun⟩, sleep := none, arrived := none
        syncAt := none, jump := none, pc := ⟨k.seg, bun⟩, entry := bun, count := 0, crc := 0xFFFFFFFF#32
        notBefore := s.now + 2, lastFirst := s.now }
    x.rerun = none → x.st = .running → tv.getLsbD 32 = true → x.exec = some k → (seg = 0xFFFF ∨ seg = k.seg) → bun < k.bundles.length →
    (∃ t, exec (.trap h code) s = .next t ∧ vectors 10 t) ∧ (∃ t, exec (.brk h code) s = .next t ∧ vectors 9 t)

/-! ### System words -/

/-- R73, R81, R84, R88, R105, R136-R139, R253: what `csrr` returns of each control register, in the cycle of an adoption's completion the old
version, and what `csrw` makes of each writable one: reserved fields keep zero, a value that `rnd` or `rng_mode` cannot hold is not stored,
`preds` lands a cycle later, and a write of a log register posts the partial line of logged bits and starts the buffer of the log anew. -/
def Obligations.ControlRegistersReadAndWrite : Prop :=
  (∀ (h : Hdr) (d num : Nat) (s : State), goes h s →
     let x := s.me
     let gives (v : W64) : Prop := exec (.csrr h d num) s = .next (s.land 2 [.sreg d v])
     (num = 0 → gives (BitVec.ofNat 64 x.lx)) ∧ (num = 1 → gives (BitVec.ofNat 64 x.ly)) ∧
     (num = 2 → gives (BitVec.ofNat 64 (s.cur.ctx % 2))) ∧
     (num = 3 → ∃ n, n < 2 ^ 32 ∧ (n + 1) % 2 ^ 32 = x.count % 2 ^ 32 ∧ gives (BitVec.ofNat 64 (n * 2 ^ 32 + (s.cur.pc.seg * 2 ^ 16 + s.cur.pc.bun)))) ∧
     (num = 4 → (∀ v, x.versOld ≠ some (s.now, v)) → gives (BitVec.ofNat 64 (x.wset * 2 ^ 32 + x.version))) ∧
     (∀ v, num = 4 → x.versOld = some (s.now, v) → gives v) ∧
     (num = 0x21 → gives ((1#57 : BitVec 57) ++ x.p)) ∧
     (5 ≤ num → num ≠ 0x21 → gives (x.cget num))) ∧
  (∀ (h : Hdr) (a num : Nat) (s : State), goes h s →
     let v := s.me.sget a
     let old := s.me.cget num
     let stores (x : W64) : Prop := exec (.csrw h a num) s = .next (s.modCtx s.cur.ctx fun c => c.cset num x)
     (num = 0x10 → stores (v &&& 0x1FFFF1FFF)) ∧ (num = 0x11 → stores (v &&& 0x7FF)) ∧ (num = 0x12 → stores v) ∧
     (num = 0x13 → stores (v &&& 0xFFFF1FFF)) ∧ (num = 0x20 → stores (v &&& 1)) ∧
     (num = 0x21 → exec (.csrw h a num) s = .next (s.land 1 [.preds (v.extractLsb' 0 7)])) ∧
     (num = 0x22 → stores (v &&& 0x87)) ∧ (num = 0x23 → stores v) ∧
     (num = 0x30 → stores (if v.toNat % 8 ≤ 4 then v &&& 7 else old)) ∧ (num = 0x31 → stores (v &&& 0x7F)) ∧
     (0x40 ≤ num → num ≤ 0x4F → stores (v &&& 0xFFFFFFFF)) ∧
     (0x32 ≤ num → num ≤ 0x35 →
       let x := if num = 0x32 then (if v.toNat % 4 = 3 then old else v &&& 3) else if num = 0x33 then v &&& 0x7FFFFFFFFFFF80 else v
       let starts (u : State) : State := u.modCtx s.cur.ctx fun c =>
         { c.cset num x with logBits := [], logStart := ((c.cset num x).cget 0x34).toNat, logTail := [] }
       let replays : Prop := (s.me.cget 0x34).toNat < s.me.replayEnd ∨ (s.me.cget 0x32).toNat % 4 = 2
       (s.me.logBits = [] ∨ replays → exec (.csrw h a num) s = .next (starts s)) ∧
       (s.me.logBits ≠ [] → ¬replays → ∃ p : Posted, p.id = s.serial ∧ p.ctx = s.cur.ctx ∧ p.vd = s.vdOf s.cur.ctx ∧ p.op = .write ∧
         p.va = ((s.me.cget 0x33).toNat + s.me.logStart / 8) % 2 ^ 55 ∧ p.log ≠ none ∧ p.stream = none ∧ p.rel = none ∧
         exec (.csrw h a num) s = .next (starts { s with serial := s.serial + 1, posted := s.posted ++ [p] }))))

/-- R140, R141, R144: `trn` gives a window with its rights; `hinv` takes the valid bit of a handle, and of those in flight to it; `tsc`
reads the time-stamp counter. -/
def Obligations.HandlesAndTime : Prop :=
  ∀ (h : Hdr) (d a : Nat) (s : State), goes h s →
    let base := (s.me.sget a).toNat
    let invalid (p : Nat → Bool) (t : State) : Prop :=
      (∀ n, (t.me.hget n).valid = ((s.me.hget n).valid && !p n)) ∧
      (∀ n, p n = false → t.me.hget n = s.me.hget n) ∧
      (∀ f, f ∈ t.me.flights → ∀ n w, Landing.handle n w ∈ f.lands → p n = false) ∧
      t.me.flights.map (·.id) = s.me.flights.map (·.id) ∧
      t = s.modCtx s.cur.ctx fun x => { x with h := t.me.h, flights := t.me.flights }
    (∀ rights l2s, base % 2 ^ l2s = 0 → base + 2 ^ l2s ≤ 2 ^ 55 → exec (.trn h d a rights l2s) s = .next (s.land 12 [.handle d
      ⟨true, s.vdOf s.cur.ctx, rights.testBit 0, rights.testBit 1, rights.testBit 2, l2s, base⟩])) ∧
    (∀ rights l2s, base % 2 ^ l2s ≠ 0 → exec (.trn h d a rights l2s) s = .next (s.trapWord s.cur ⟨7, 1, base % 2 ^ 48⟩)) ∧
    (∀ rights l2s, base % 2 ^ l2s = 0 → 2 ^ 55 < base + 2 ^ l2s →
      exec (.trn h d a rights l2s) s = .next (s.trapWord s.cur ⟨7, 2, base % 2 ^ 48⟩)) ∧
    (∃ t, exec (.hinv h d) s = .next t ∧ invalid (· == d) t) ∧
    (∃ t, exec (.hinvAll h) s = .next t ∧ invalid (fun _ => true) t) ∧
    exec (.tsc h d) s = .next (s.land 2 [.sreg d s.time])

/-- R142, R445, R446, R143: `commit` records the phase point at the bundle that follows, and the input list that goes with it; in the last
bundle of a segment without NEXT it traps; `sig` posts a notification after every earlier write, at system scope. -/
def Obligations.CommitAndSig : Prop :=
  ∀ (h : Hdr) (a : Nat) (s : State), goes h s →
    let x := s.me
    (∀ n, x.following s.cur.pc = some n →
      let wraps := n.seg ≠ s.cur.pc.seg ∨ n.bun ≤ s.cur.pc.bun
      exec (.commit h) s = .next (s.modCtx s.cur.ctx fun x => { x with
        phase := some { s := x.s, g := x.g, h := x.h, p := x.p, csr := x.csr, pc := n, count := if wraps then 0 else x.count
                        crc := if wraps then 0xFFFFFFFF#32 else x.crc, ts := s.time }
        replay := !x.inputOver, inputs := x.nextInputs, nextInputs := [], inputOver := false })) ∧
    (x.following s.cur.pc = none → exec (.commit h) s =
      .next (s.trapWord s.cur ⟨3, 4, s.cur.pc.seg * 2 ^ 16 + 0xFFFF⟩)) ∧
    (let u := s.modCtx s.cur.ctx fun y => { y with replay := false }
     exec (.sig h a) s = .next { u with
      serial := s.serial + 1
      posted := s.posted ++ [{ id := s.serial, ctx := s.cur.ctx, vd := s.vdOf s.cur.ctx, va := 0, bytes := [], op := .sig (x.sget a), rel := some 3
                               xl := none, wait := none, stream := none, log := none, promoted := false
                               bound := s.now + 8192, freq := none, bundle := s.cur.bundle }] })

/-! ### Synchronisation -/

/-- R208, R271, R278: once a fence issues, its acquire drops the clean copies of its core where its scope is wider than the tile, and marks
the writes before it, after which the context's later releases come; `fence.all` and `fence.drain` discard what the read streams have
fetched; a fence moves no register and no byte of memory. -/
def Obligations.FencesAcquire : Prop :=
  ∀ (h : Hdr) (scope : Nat) (s : State), goes h s →
    let cacheAt (scope : Nat) : List CLine :=
      if scope = 0 then s.cache else s.cache.filter fun l => !(l.tile == s.tile && l.dirty.isEmpty)
    let discards (t : State) : Prop := t.me.s = s.me.s ∧ t.me.g = s.me.g ∧ t.me.v = s.me.v ∧ t.me.t = s.me.t ∧ t.me.p = s.me.p ∧
      t.me.h = s.me.h ∧ t.me.csr = s.me.csr ∧ t.me.acqAt = s.serial ∧
      ∀ n, let q := s.me.qget n
        t.me.qget n = if n < 8 ∧ q.bound = true ∧ q.write = false then { q with fetched := [], next := q.pos, blocked := false } else q
    exec (.fence h scope) s = .next { (s.modCtx s.cur.ctx fun x => { x with acqAt := s.serial }) with cache := cacheAt scope } ∧
    (∃ t, exec (.fenceAll h scope) s = .next t ∧ discards t ∧ t = { s with cache := cacheAt scope, ctxs := t.ctxs }) ∧
    (∃ t, exec (.fenceDrain h) s = .next t ∧ discards t ∧ t = { s with cache := cacheAt 3, ctxs := t.ctxs })

/-- R210-R214: `wait` and `wait.arm` take a monitor of their core for the word they name, the one that watches it already or a free one of
16, and sleep until its first read comes back; without one the sleep ends with NO_SLOT. `wait.any` sleeps on the monitors of the context,
and `wait.clr` disarms them. -/
def Obligations.WaitsArmAndSleep : Prop :=
  ∀ (h : Hdr) (d a b : Nat) (loc sz acq : Bool) (scope exp : Nat) (s : State),
    let c := s.cur.ctx
    let w := s.me.hget a
    let e := s.me.sget exp
    let va := if loc then (s.me.sget a).toNat else (w.base + (s.me.sget b).toNat) % 2 ^ 55
    let vd := if loc then 0 else w.vd
    let m : Monitor := ⟨c, loc, vd, va, if loc then va else 0, sz, if sz then e else BitVec.ofNat 64 (e.toNat % 2 ^ 32),
      if acq then some scope else none, none, loc, true, if loc then none else some w⟩
    let same (k : Monitor) : Bool := k.ctx == c && k.scratch == loc && k.va == va && k.vd == vd && k.dbl == sz
    let room : Prop := (s.monitors.filter fun k => k.ctx / 2 == c / 2).length < 16
    let sleeps (u : State) (held arming : Bool) (st : Option Nat) : Host.Outcome State Fault Refusal :=
      .next (u.modCtx c fun x => { x with st := if held then x.st else .sleeping, sleep := some ⟨d, s.now, arming, held, false, st⟩ })
    let arms (i : Instr) (held : Bool) : Prop := passes h i s →
      ((∀ k, k ∈ s.monitors → same k = false) → room → exec i s = sleeps { s with monitors := s.monitors ++ [m] } held true none) ∧
      ((∀ k, k ∈ s.monitors → same k = false) → ¬room → exec i s = sleeps s held false (some 5)) ∧
      ((∃ k, k ∈ s.monitors ∧ same k = true) →
        exec i s = sleeps { s with monitors := s.monitors.map fun k => if same k then { m with addr := k.addr } else k } held true none)
    arms (.wait h d a b loc sz acq scope exp) false ∧ arms (.waitArm h d a b loc sz acq scope exp) true ∧
    (goes h s → exec (.waitAny h d) s = sleeps s false false (if ∃ k, k ∈ s.monitors ∧ k.ctx = c then none else some 7)) ∧
    (goes h s → exec (.waitClr h) s = .next { s with monitors := s.monitors.filter fun k => k.ctx != c })

/-- R217-R223: the sync word orders nothing by itself; `fadd` posts an atomic release add to its flag word, `fset` a group of release
writes, of its value to each word that its mask names; `fwait` binds a flag register of its core, one of 64, and sleeps, or ends
with NO_SLOT; `promote` sends a promotion to the task of the group that it names, where that is another one that runs, and holds its own
words back until it returns; else it is complete at once, and the core's clean copies go. -/
def Obligations.SyncFlagAndPromoteWords : Prop :=
  (∀ (h : Hdr) (d a b : Nat) (acq : Bool) (scope val off thr : Nat) (s : State),
     let c := s.cur.ctx
     let w := s.me.hget a
     let va := (w.base + (s.me.sget b).toNat) % 2 ^ 55
     let u := s.modCtx c fun x => { x with replay := false }
     (passes h (.sync h a) s → exec (.sync h a) s = .next u) ∧
     (passes h (.fadd h a b scope val) s → exec (.fadd h a b scope val) s = .next (u.postWrite c w.vd
       { va := va, bytes := List.replicate 8 0, op := .flagAdd (s.me.sget val), rel := some scope })) ∧
     (∀ x front back, passes h (.fadd h a b scope val) s → s.me.st ≠ .dead → Mapped s w.vd va x → s.posted = front ++ back →
       let later (q : Posted) : Prop := q.ctx = c ∧ s.cur.bundle < q.bundle ∧ q.buf = false ∧ q.freq = none
       (∀ q, q ∈ front → ¬later q) → (∀ q, back.head? = some q → later q) →
       let p : Posted := {
         id := s.serial, ctx := c, vd := w.vd, va := va, bytes := List.replicate 8 0, op := .flagAdd (s.me.sget val), rel := some scope
         xl := some x, wait := none, stream := none, log := none, promoted := false, bound := s.now + 8192, freq := none, bundle := s.cur.bundle }
       exec (.fadd h a b scope val) s =
         .next (({ u with serial := s.serial + 1, posted := front ++ p :: back } : State).settleWrites (clusterOf s.tile))) ∧
     (passes h (.fset h a b scope off val) s → exec (.fset h a b scope off val) s = .next
       ((((List.range 64).filter fun j => (s.me.sget b).getLsbD j).map fun j => (s.me.sget off).toNat + 8 * j).foldl (fun t o =>
         if (t.ctx c).st ≠ .dead then
           t.postWrite c w.vd { va := (w.base + o) % 2 ^ 55, bytes := toLE 8 (s.me.sget val).toNat, op := .flagSet s.serial, rel := some scope }
         else t) u)) ∧
     (passes h (.fwait h d a b acq scope thr) s →
       let room : Prop := (s.flags.filter fun f => f.ctx / 2 == c / 2).length < 64
       let sleeps (t : State) (arming : Bool) (st : Option Nat) : Host.Outcome State Fault Refusal :=
         .next (t.modCtx c fun x => { x with st := .sleeping, sleep := some ⟨d, s.now, arming, false, true, st⟩ })
       (room → exec (.fwait h d a b acq scope thr) s =
         sleeps { s with flags := s.flags ++ [⟨c, w.vd, va, none, s.me.sget thr, if acq then some scope else none, [], false, none, some w⟩] } true none) ∧
       (¬room → exec (.fwait h d a b acq scope thr) s = sleeps s false (some 5)))) ∧
  (∀ (h : Hdr) (a : Nat) (s : State) (g : Group), passes h (.promote h a) s → s.groupOf s.cur.ctx = some g →
     let n := (s.me.sget a).toNat
     let u := s.modCtx s.cur.ctx fun x => { x with replay := false }
     let task := s.taskCtx g.serial (n % g.gridX) (n / g.gridX)
     (task = none ∨ task = some s.cur.ctx → exec (.promote h a) s = .next { u with cache := s.cache.filter fun l => !(l.tile == s.tile && l.dirty.isEmpty) }) ∧
     (∀ o, task = some o → o ≠ s.cur.ctx → exec (.promote h a) s = .next
       (({ u with serial := s.serial + 1, promotions := s.promotions ++ ([⟨s.serial, s.cur.ctx, o, none⟩] : List Promotion) }).modCtx s.cur.ctx fun x =>
         { x with promoWait := some s.serial })))

/-! ### Engine commands -/

/-- R224, R228-R230, R239, R354: an engine command that is absent ends with UNSUPPORTED, one that breaks a limit with RANGE, one whose fate
its entry settles at acceptance with that status and its staging values; any other is accepted: it stands among the commands with its
staging snapshot, its scratchpad lines pass to it, and its status STARTED lands within 64 cycles, or, where its tag waits for staging
results, the status that is known at acceptance does, and another when it ends. `xstat` gives the number of the
context's class-6 commands that have not ended and the bytes done by the oldest. -/
def Obligations.EngineCommandsAreAccepted : Prop :=
  (∀ (i : Instr) (m : EngSpec) (d g c k scope : Nat) (h : Hdr) (s : State),
     engine i = some (m, d, g, c, k, scope) → header i = some h → passes h i s →
     let u := if (semOf i).once s then s.modCtx s.cur.ctx fun x => { x with replay := false } else s
     let gs := (List.range m.n).map fun n => s.me.gget (g + n)
     let comp := if c = 0 then none else some (s.me.sget c, s.me.sget (c + 1))
     let ends (status : Nat) : Host.Outcome State Fault Refusal := .next (u.addFlight
       { u.launchFlight .tagged (some 64) [.sreg d (BitVec.ofNat 64 status)] with tag := some k, first := s.now + 4 })
     let broken : Bool := m.bad u gs || (comp.map fun p => badEaddr p.1).getD false
     (m.absent u = true → exec i s = ends 16) ∧
     (m.absent u = false → broken = true → exec i s = ends 2) ∧
     (m.absent u = false → broken = false → ∀ code ws, m.early u gs = some (code, ws) →
       ∃ t f, exec i s = .next t ∧ t.me.flights.getLast? = some f ∧ f.kind = .tagged ∧ f.tag = some k ∧ f.first = t.now + 4 ∧
         f.bound = some (t.now + 64) ∧ f.lands = .sreg d (BitVec.ofNat 64 code) :: ws.map fun (n, v) => .greg (g + n) v) ∧
     (m.absent u = false → broken = false → m.early u gs = none →
       ∃ t f cmd, exec i s = .next t ∧ t.me.flights.getLast? = some f ∧ f.kind = .tagged ∧ f.tag = some k ∧ f.first = t.now + 4 ∧
         f.bound = some (t.now + 64) ∧ (if m.late then f.cmd = some s.serial ∧ f.word = d ∧ f.late = true ∧
           f.lands = (m.status.map fun n => Landing.sreg d (BitVec.ofNat 64 n)).toList else f.lands = [.sreg d 1] ∧ f.cmd = none ∧ f.late = false) ∧
         cmd ∈ t.cmds ∧ cmd.id = s.serial ∧ cmd.ctx = s.cur.ctx ∧ cmd.cls = m.cls ∧ cmd.op = m.op ∧ cmd.scope = scope ∧ cmd.g = gs ∧
         cmd.comp = comp ∧ cmd.handles = s.me.h ∧ cmd.ending = none ∧
         ∀ e, e ∈ m.uses u gs → e.take = true → ∀ l, l ∈ e.lines → (t.sline s.tile l).eng = some s.serial)) ∧
  (∀ (h : Hdr) (d g k scope : Nat) (s : State), passes h (.xstat h d g 0 k scope) s →
     let mine := s.cmds.filter fun x => x.ctx == s.cur.ctx && x.cls == 6 && some x.group == s.me.group && !x.abandoned
     mine.length ≤ 16 → exec (.xstat h d g 0 k scope) s = .next (s.addFlight
       { s.launchFlight .tagged (some 64) [.sreg d (BitVec.ofNat 64
           (mine.length * 256 + (match mine with | [] => 0 | x :: _ => x.target % 2 ^ 48) * 65536))] with
         tag := some k, first := s.now + 4 }))
/-! ### Results that land -/

/-- R99, R102, R106, R108, R109, R149, R173, R185, R229: a result in flight, once it may land, writes its registers and no other, and frees
its tag, its tiles and its unit from the next cycle on; nothing else of the machine changes. A result that is pushed comes behind the
earlier pushes of its slot; a load lands when all its parts have come, and acquires; the tag of a tagged result may be released later than
its lanes show (which show is open: log entry 2); the status of an engine command lands at its bound. The end of a compute phase frees
what the operation reads. -/
def Obligations.ResultsLand : Prop :=
  ∀ (ctx id : Nat) (s : State) (f : Flight), (s.ctx ctx).flight id = some f → f.first ≤ s.now →
    let x := s.ctx ctx
    let kept (ls : List Landing) : Prop := ∀ l, l ∈ ls → ∀ q g vd va v, l ≠ .push q g vd va v
    let writes (ls : List Landing) (y : Ctx) : Prop := y.st = x.st ∧ y.pc = x.pc ∧ y.q = x.q ∧
      (∀ n, y.sget n = ls.foldl (fun v l => match l with | .sreg d w => if d = n ∧ n ≠ 0 then w else v | _ => v) (x.sget n)) ∧
      (∀ n, y.gget n = ls.foldl (fun v l => match l with | .greg d w => if d = n then w else v | _ => v) (x.gget n)) ∧
      (∀ n, y.tget n = ls.foldl (fun v l => match l with | .treg d w _ => if d = n then w else v | _ => v) (x.tget n)) ∧
      (∀ n, y.hget n = ls.foldl (fun v l => match l with | .handle d w => if d = n then w else v | _ => v) (x.hget n)) ∧
      (∀ n, (n < 48 ∨ 52 ≤ n ∨ ∀ v, .last v ∉ ls) →
        y.vget n = ls.foldl (fun v l => match l with | .vreg d w _ => if d = n then w else v | _ => v) (x.vget n)) ∧
      (∀ v, ls = [.last v] → y.vget 48 = v ∧ y.vget 49 = x.vget 48 ∧ y.vget 50 = x.vget 49 ∧ y.vget 51 = x.vget 50) ∧
      y.p = ls.foldl (fun (v : BitVec 7) l => match l with
        | .p6 b => BitVec.ofBool b ++ v.extractLsb' 0 6 | .preds w => w | .window w => v.extractLsb' 6 1 ++ w | _ => v) x.p
    let freed (y : Ctx) : Prop := (∀ g, g ∈ y.flights → g.id ≠ id) ∧ y.flights.map (·.id) = (x.flights.map (·.id)).filter (· != id) ∧
      (∀ k, f.tag = some k → SMap.get 0 y.tagFree k = s.now + 1) ∧ (∀ k, k ∈ f.rd → SMap.get 0 y.rdFree k = s.now + 1) ∧
      (∀ k, k ∈ f.wr → SMap.get 0 y.wrFree k = s.now + 1) ∧ (∀ k, f.unit = some k → SMap.get 0 y.unitFree k = s.now + 1)
    let lands (e : Instr) (ls : List Landing) : Prop := kept ls → ∃ y, exec e s = .next (s.setCtx ctx y) ∧ writes ls y ∧ freed y
    (f.kind = .fixed → lands (.fixedResultLands ctx id) f.lands ∧
      exec (.fixedResultLands ctx id) s = .next ((s.pushesBefore ctx f).finishFlight ctx f f.poison f.lands)) ∧
    (f.kind = .tagged → f.cmd = none →
      exec (.taggedResultLands ctx id) s = .next (s.landTagged ctx id) ∧
      (f.load = none → f.flush = none → s.lingers ctx f = false → lands (.taggedResultLands ctx id) f.lands) ∧
      (∀ d v, f.load = none → f.flush = none → s.lingers ctx f = true → f.poison = none → f.lands = [.vreg d v false] →
        ∃ w, exec (.taggedResultLands ctx id) s = .next (s.setCtx ctx (x.vset d w)) ∧
          ∀ n, n < 64 → lane w.data n = lane v.data n ∨ lane w.data n = lane (x.vget d).data n) ∧
      (∀ l, f.load = some l → (∀ p, p ∈ l.pieces → p.val ≠ none ∧ p.xl ≠ none) → (∀ q g e, l.dst ≠ .stream q g e) →
        (l.acq = none → s.lingers ctx f = false → lands (.taggedResultLands ctx id) l.lands) ∧
        (∀ scope, l.acq = some scope → ∃ y, exec (.taggedResultLands ctx id) s = .next ((s.setCtx ctx y).acquireAt ctx scope) ∧
          writes l.lands y ∧ freed y))) ∧
    (f.kind = .tagged → f.cmd ≠ none →
      ((∀ b, f.bound = some b → s.now < b) → exec (.taggedResultLands ctx id) s = .next s) ∧
      (∀ b, f.bound = some b → b ≤ s.now → f.late = false → lands (.taggedResultLands ctx id) f.lands) ∧
      (∀ b, f.bound = some b → b ≤ s.now → f.late = true → kept f.lands → ∃ y, exec (.taggedResultLands ctx id) s = .next (s.setCtx ctx y) ∧
        writes f.lands y ∧ y.flights = x.flights.map fun g => if g.id = id then { g with lands := [] } else g)) ∧
    (f.kind = .matrix → lands (.matrixResultComplete ctx id) f.lands ∧
      exec (.matrixResultComplete ctx id) s = .next (s.finishFlight ctx f f.poison f.lands)) ∧
    (f.kind = .transfer → lands (.tileTransferComplete ctx id) f.lands ∧
      exec (.tileTransferComplete ctx id) s = .next (s.finishFlight ctx f f.poison f.lands)) ∧
    (f.kind ≠ .transfer → f.phaseEnd ≤ s.now → ∃ y, exec (.matrixComputePhaseEnd ctx id) s = .next (s.setCtx ctx y) ∧
      y = { x with flights := y.flights, rdFree := y.rdFree, unitFree := y.unitFree } ∧
      y.flights = x.flights.map (fun g => if g.id = id then { g with rd := [], unit := none } else g) ∧
      (∀ k, k ∈ f.rd → SMap.get 0 y.rdFree k = s.now + 1) ∧ (∀ k, k ∉ f.rd → SMap.get 0 y.rdFree k = SMap.get 0 x.rdFree k) ∧
      (∀ k, f.unit = some k → SMap.get 0 y.unitFree k = s.now + 1))

/-! ### Segments, synchronisation, waits -/

/-- R49, R50, R53, R131, R217: the expansion of a segment completes, and the branch that waits for it arrives; control falls through to the
segment that NEXT names; a sync bundle arrives, with its mask, and the restart of those that now have every arrival that they wait for is set 32 cycles after the
last; in that cycle its bundle issues, and the other context of its core does not. -/
def Obligations.SegmentsAndSyncBundles : Prop :=
  ∀ (ctx : Nat) (s : State),
    let x := s.ctx ctx
    (x.st = .running → x.waits = [] → ∀ h k n target loc cyc how u r, x.exec = some h → h.ready = true → x.idle = some k → k.ready = false →
      k.seg = n → x.jump = some (target, loc, cyc, how) → target.seg = n → h.seg ≠ n → s.segFetch ctx n (target.bun + n * 2 ^ 16) = (u, .ok r) → r.seg = n →
      r.ready = true → r.fail = none → target.bun < r.bundles.length → u.ctx ctx = x →
      exec (.segmentExpansionDone ctx) s = .next (u.setCtx ctx { x with
        exec := some r, idle := some h, jump := none, pc := target, entry := target.bun, count := 0, crc := 0xFFFFFFFF#32
        notBefore := Nat.max x.notBefore (cyc + 3), lastFirst := cyc })) ∧
    (x.sleep = none → x.notBefore ≤ s.now → x.leave = none → x.st = .running → s.thermal = false → x.pend = [] → x.jump = none →
      x.rerun = none → x.passMismatch = none → ∀ h, x.exec = some h → h.ready = true → h.seg = x.pc.seg → h.bundles.length ≤ x.pc.bun →
      let loc : Pc := ⟨x.pc.seg, x.pc.bun - 1⟩
      (h.next = 0xFFFF → exec (.segmentFallThrough ctx) s =
        .next (s.takeTrap ctx ⟨3, 4, loc.seg * 2 ^ 16 + 0xFFFF⟩ 7 false loc)) ∧
      (h.next ≠ 0xFFFF → h.next ≠ h.seg → x.idle = none → exec (.segmentFallThrough ctx) s = .next (s.setCtx ctx { x with
        idle := some (Half.fetching h.next), jump := some (⟨h.next, 0⟩, loc, x.lastFirst, 1) }))) ∧
    (x.mayExpand = true → exec (.segmentExpansionDone ctx) s = .next (s.expand ctx)) ∧
    (s.look ctx = .fall → exec (.segmentFallThrough ctx) s = .next (s.fallThrough ctx)) ∧
    (∀ w, s.look ctx = .arrive w → exec (.syncArrival ctx) s = .next (s.syncArrive ctx w)) ∧
    (∀ w h a, s.look ctx = .arrive w → w.instr = .sync h a → s.stops w = false →
      let u := s.setCtx ctx { x with st := .syncHeld, arrived := some s.now, restart := none, syncMask := (x.sget a).toNat }
      ∃ t, exec (.syncArrival ctx) s = .next t ∧ t = u.latchRestarts x.group ∧ (t.ctx ctx).restart = (u.gathered ctx).map (· + 32) ∧
        t.ctx ctx = { u.ctx ctx with restart := (t.ctx ctx).restart } ∧ t.mem = s.mem) ∧
    (s.restartsNow ctx = true → exec (.syncRestart ctx) s = .next (s.syncGo ctx)) ∧
    (∀ named b, s.thermal = false → x.st = .syncHeld → x.syncAt = none → x.restart = some s.now → s.syncNamed ctx x.syncMask = some named →
      (∀ p, p ∈ named → ∃ y, s.mateAt ctx p.1 p.2 = some y ∧
        ((∃ a, y.arrived = some a ∧ a + 32 ≤ s.now) ∨ ∃ r, y.restarted = some r ∧ s.now - 32 < r)) →
      x.bundleAt.map checkBundle = some (.ok b) →
      ∃ t, exec (.syncRestart ctx) s = .next t ∧ (t.ctx ctx).st = .running ∧ (t.ctx ctx).arrived = none ∧
        (t.ctx ctx).restarted = some s.now ∧ t.mem = s.mem ∧ (t.ctx ctx).s = x.s ∧
        (t.ctx (if ctx % 2 = 0 then ctx + 1 else ctx - 1)).hush = some s.now)

/-- R211-R214, R221, R223, R422: how a sleep ends: with the status of its first read, of a monitor that fired, of a flag that reached its
threshold, or of a time-out; the status goes to the register of the word, the monitors and the binding go, and the context runs from the
next cycle on. A context that hangs dies. A promotion that arrives widens the posted writes of its owner, which acknowledges it once they,
and those of its cluster that come before its releases, are performed. -/
def Obligations.WaitsEnd : Prop :=
  (∀ (ctx : Nat) (s : State) (sl : Sleep), (s.ctx ctx).sleep = some sl →
    let x := s.ctx ctx
    let wakes (u : State) (status : Nat) : State := u.setCtx ctx { x.sset sl.d (BitVec.ofNat 64 status) with
      st := if sl.held = true ∨ x.st ≠ .sleeping then x.st else .running, sleep := none, notBefore := Nat.max x.notBefore (s.now + 1)
      poison := x.poison.filter (·.1 != .s sl.d) }
    let gone : State := { s with monitors := s.monitors.filter fun m => m.ctx != ctx, flags := s.flags.filter fun f => f.ctx != ctx }
    let quiet : Prop := x.waits = [] ∧ x.faulted = false
    (∀ st, sl.status = some st → quiet → sl.since + (if sl.held then 2 else 1) ≤ s.now → exec (.waitReadReturn ctx) s = .next (wakes s st)) ∧
    (∀ m, sl.status = none → sl.arming = true → sl.flag = false → quiet → sl.since + (if sl.held then 2 else 1) ≤ s.now →
      s.monitors.find? (fun m => m.ctx == ctx && m.arming) = some m → m.scratch = true →
      let differs := (bitsOfBytes 64 (s.scr (tileOf ctx) m.addr (wordSize m.dbl))).toNat % 2 ^ (8 * wordSize m.dbl) ≠
        m.expected.toNat % 2 ^ (8 * wordSize m.dbl)
      let stays : State := { s with monitors := s.monitors.map fun k => if k = m then { k with arming := false, bound := true } else k }
      let armed (u : State) (status : Nat) : State :=
        u.setCtx ctx { x with sleep := some { sl with arming := false, status := some status, since := max sl.since (s.now - 1) } }
      (m.ctx = ctx → differs → sl.held = false → exec (.waitReadReturn ctx) s = .next (wakes { s with monitors := s.monitors.filter (· != m) } 0)) ∧
      (m.ctx = ctx → differs → sl.held = true → exec (.waitReadReturn ctx) s = .next (armed { s with monitors := s.monitors.filter (· != m) } 0)) ∧
      (m.ctx = ctx → ¬differs → sl.held = true → exec (.waitReadReturn ctx) s = .next (armed stays 6)) ∧
      (m.ctx = ctx → ¬differs → sl.held = false → exec (.waitReadReturn ctx) s =
        .next (stays.setCtx ctx { x with sleep := some { sl with arming := false } }))) ∧
    (∀ m, sl.status = none → sl.arming = true → sl.flag = false → quiet → sl.since + (if sl.held then 2 else 1) ≤ s.now →
      s.monitors.find? (fun m => m.ctx == ctx && m.arming) = some m → exec (.waitReadReturn ctx) s = .next (s.armReturns ctx sl.held m)) ∧
    (∀ f, sl.status = none → sl.arming = true → sl.flag = true → quiet → sl.since + (if sl.held then 2 else 1) ≤ s.now →
      s.flags.find? (·.ctx == ctx) = some f → exec (.waitReadReturn ctx) s = .next (s.bindReturns ctx f)) ∧
    (∀ m n reason, (s.monitors.filter (·.ctx == ctx))[n]? = some m → m.fired ≠ none ∨ (reason = 2 ∧ m.scratch = false ∧ m.arming = false) →
      let u : State := { s with monitors := s.monitors.map fun k => if k = m then { k with fired := k.fired.orElse fun _ => some reason } else k }
      exec (.monitorFire ctx n reason) s = .next (if x.onMonitors then u.sleepReturns ctx false else u)) ∧
    (∀ m r reason, s.monitors.filter (·.ctx == ctx) = [m] → m.fired = some r → r = 1 ∨ r = 2 → m.scratch = true → x.onMonitors = true →
      let differs := (bitsOfBytes 64 (s.scr (tileOf ctx) m.addr (wordSize m.dbl))).toNat % 2 ^ (8 * wordSize m.dbl) ≠
        m.expected.toNat % 2 ^ (8 * wordSize m.dbl)
      (differs → exec (.monitorFire ctx 0 reason) s = .next (wakes gone 0)) ∧
      (¬differs → exec (.monitorFire ctx 0 reason) s = .next (wakes gone r))) ∧
    (∀ f, s.flags.find? (·.ctx == ctx) = some f → sl.arming = false →
      ((∃ v, v ∈ f.pushed ∧ f.threshold.toNat ≤ v.toNat) →
        (f.acq = none → exec (.flagPush ctx) s = .next (wakes gone 0)) ∧
        ∀ scope, f.acq = some scope → exec (.flagPush ctx) s = .next ((s.acquireAt ctx scope).wakeAll ctx 0)) ∧
      ((∀ v, v ∈ f.pushed → v.toNat < f.threshold.toNat) → f.lost = true → exec (.flagPush ctx) s = .next (wakes gone 2)) ∧
      ((∀ v, v ∈ f.pushed → v.toNat < f.threshold.toNat) → f.lost = false → f.pushed ≠ [] → exec (.flagPush ctx) s =
        .next { s with flags := s.flags.map fun k => if k.ctx = ctx then { k with pushed := [], window := none } else k })) ∧
    (let lim := (x.cget csrTimeout).toNat % 2 ^ 32
     lim ≠ 0 → sl.held = false → sl.status = none → sl.arming = false → quiet → sl.since + 1024 * lim ≤ s.now →
      (sl.flag = true ∨ (∀ m, m ∈ s.monitors → m.ctx = ctx → m.fired = none) → exec (.waitTimeout ctx) s = .next (wakes gone 3)) ∧
      (sl.flag = false → exec (.waitTimeout ctx) s = .next (s.sleepReturns ctx true)))) ∧
  (∀ (ctx : Nat) (s : State),
    let x := s.ctx ctx
    let lim := (x.cget csrTimeout).toNat / 2 ^ 32
    x.st = .running ∨ x.st = .syncHeld ∨ x.st = .sleeping → lim ≠ 0 → x.issuedAt + 2 ^ 20 * lim ≤ s.now →
    ∃ t, exec (.hangTimeout ctx) s = .next t ∧ (t.ctx ctx).st = .dead ∧ (t.ctx ctx).deadRec = some (1, x.pc.seg * 2 ^ 16 + x.pc.bun) ∧
      (t.ctx ctx).flights = [] ∧ t.posted = s.posted.filter (·.ctx ≠ ctx) ∧ t.mem = s.mem) ∧
  (∀ (id : Nat) (s : State) (p : Promotion), s.promotions.find? (·.id == id) = some p → p.owner ≠ p.promoter →
    let owner := s.ctx p.owner
    let runs : Prop := owner.st ≠ .idle ∧ owner.st ≠ .dead ∧ owner.group = (s.ctx p.promoter).group
    (p.upto = none → runs → exec (.promotionArrival id) s = .next (({ s with
      serial := s.serial + 1
      promotions := s.promotions.map fun q => if q.id = id then { q with upto := some s.serial } else q
      posted := s.posted.map fun q => if q.ctx = p.owner then { q with promoted := true } else q } : State).modCtx p.owner fun x =>
        { x with promoHold := some id })) ∧
    (p.upto = none → ¬runs → exec (.promotionArrival id) s = .next (s.endPromotion p)) ∧
    (∀ n, p.upto = some n → ¬runs ∨ (∀ q, q ∈ s.posted → q.id < n → q.ctx ≠ p.owner ∧
        (clusterOf (tileOf q.ctx) = clusterOf (tileOf p.owner) → q.buf = true → owner.acqAt ≤ q.id)) → ∃ t, exec (.promotionAck id) s = .next t ∧
      t.promotions = s.promotions.filter (·.id != id) ∧ (t.ctx p.promoter).promoWait ≠ some id ∧ (t.ctx p.owner).promoHold ≠ some id ∧
      t.posted = s.posted ∧ t.mem = s.mem))

/-! ### Posted writes, streams, the noise log -/

/-- R219, R269, R272, R283: a posted write takes its next step: the writes of its cluster that nothing holds back enter the write buffer;
one that may be performed comes to its home slice, which takes it, and memory holds its bytes, or refuses it for 64 LLC cycles (whether it
does is open: log entry 2), while no later request of its tile to the slice comes; a retry finds the reserved entry of its tile, from which
it is serviced within 448 LLC cycles, or is refused again; a flag add adds to its word; a write to a UO page goes into local memory. -/
def Obligations.PostedWritesArePerformed : Prop :=
  ∀ (id : Nat) (s : State) (p : Posted), s.posted.find? (·.id == id) = some p →
    (p.tries.isRefused = false → exec (.writePerformed id) s = .next (s.advancePosted p)) ∧
    (p.tries.isRefused = true → exec (.refusalRetry id) s = .next (s.advancePosted p)) ∧
    (∀ x, p.xl = some x → p.isUoWrite = true → p.tries = .none → s.unheld p = true →
      (∀ q, q ∈ s.before p → q.ctx = p.ctx → q.touches x.place p.len = false) → exec (.writePerformed id) s =
        .next (({ s with posted := s.posted.filter (·.id != id) } : State).writeUo p.ctx x.pa (p.bytes.length / 128 + 2) p.bytes)) ∧
    (∀ x q,
      let u := s.settleWrites (clusterOf (tileOf p.ctx))
      p.xl = some x → x.fab = none → p.log = none → p.isUoWrite = false → u.posted.find? (·.id == id) = some q → u.mayPerform q = true →
      q.xl = p.xl → q.op = p.op → q.log = none → q.ctx = p.ctx → q.bytes = p.bytes → q.tries = p.tries →
      x.pa + p.bytes.length ≤ apertureBase → x.pa + 8 ≤ apertureBase →
      let others := u.triesAt (tileOf p.ctx) (homeSlice x.pa)
      let stands (r : Refusal283) : State := { u with posted := u.posted.map fun k => if k.id = id then { k with tries := r } else k }
      let takes (t : State) (bs : List Byte) : Prop := t.posted = u.posted.filter (·.id != id) ∧ t.ctxs = s.ctxs ∧ t.scratch = s.scratch ∧
        ∀ a, memByte t.mem a = if x.pa ≤ a ∧ a < x.pa + bs.length then bs.getD (a - x.pa) 0 else memByte s.mem a
      let comes (bs : List Byte) : Prop :=
        (p.tries = .none →
          ((∃ r, r ∈ others ∧ r.isRefused = true) → exec (.writePerformed id) s = .next u) ∧
          ((∀ r, r ∈ others → r.isRefused = false) →
            (Config.happens 40 id s.now = true → exec (.writePerformed id) s = .next (stands (.refused 1 (s.now + 128)))) ∧
            (Config.happens 40 id s.now = false → ∃ t, exec (.writePerformed id) s = .next t ∧ takes t bs))) ∧
        (∀ c, p.tries = .reserved c → ∃ t, exec (.writePerformed id) s = .next t ∧ takes t bs) ∧
        (∀ n again, p.tries = .refused n again →
          (s.now < again → exec (.refusalRetry id) s = .next u) ∧
          (again ≤ s.now → (∃ r, r ∈ others ∧ r.isReserved = true) →
            exec (.refusalRetry id) s = .next (stands (.refused (n + 1) (s.now + 128)))) ∧
          (again ≤ s.now → (∀ r, r ∈ others → r.isReserved = false) →
            exec (.refusalRetry id) s = .next (stands (.reserved (s.now + 896)))))
      (p.op = .write → comes p.bytes) ∧
      (∀ v, p.op = .flagAdd v → (∀ l, l ∈ s.cache → l.tile ≠ tileOf p.ctx) →
        comes (toLE 8 (leNat (memRead s.mem x.pa 8) + v.toNat))))

/-- R202, R84: a read stream asks for its next entry, which comes into its buffer or is on its way; a context that replays the noise log
reads a line of it ahead. -/
def Obligations.StreamsAndLogReadAhead : Prop :=
  ∀ (ctx : Nat) (s : State),
    let x := s.ctx ctx
    (∀ q e, let st := x.qget q
      x.mayFetch q = true → st.pos ≤ st.next → (∀ n, n < 8 → s.poolSlot st.win.vd n = none) → st.entryVa st.next % 2 ^ 16 + 256 ≤ 2 ^ 16 →
      s.tlbFind 1 (tileOf ctx) st.win.vd (st.entryVa st.next) = some e → e.r = true →
      (e.at (st.entryVa st.next)).fab = none → s.inHeartwood (e.at (st.entryVa st.next)).pa = false → (∀ f, f ∈ x.flights → f.id ≠ s.serial) →
      ∃ t, exec (.streamFetch ctx q) s = .next t ∧ ((t.ctx ctx).qget q).next = st.next + 1 ∧ ((t.ctx ctx).qget q).pos = st.pos ∧
        ((∃ f, f ∈ (t.ctx ctx).flights ∧ f.id = s.serial ∧ ∃ l, f.load = some l ∧ l.dst = .stream q st.gen st.next) ∨
          ∃ b, b ∈ ((t.ctx ctx).qget q).fetched ∧ b.entry = st.next)) ∧
    (∀ q, x.mayFetch q = true → exec (.streamFetch ctx q) s = .next (s.fetchEntry ctx q)) ∧
    (x.mayReadAhead = true → exec (.noiseLogReadAhead ctx) s = .next (s.readLog ctx)) ∧
    (∀ u bs, x.mayReadAhead = true →
      let pos := (x.cget csrLogPos).toNat
      let lo := if x.logBits = [] then pos else x.logStart + x.logBits.length
      let hi := min x.replayEnd (lo / 1024 * 1024 + 1024)
      let va := ((x.cget csrLogBase).toNat + lo / 1024 * 128) % 2 ^ 55
      (∀ p, p ∈ s.posted → p.ctx = ctx → p.log = none) → s.readGuest (tileOf ctx) (s.vdOf ctx) 2 va 128 = (u, .bytes bs none) →
      u.ctx ctx = x → exec (.noiseLogReadAhead ctx) s = .next (u.setCtx ctx { x with
        logBits := x.logBits ++ ((bs.flatMap fun b => (List.range 8).map b.getLsbD).drop (lo % 1024)).take (hi - lo)
        logStart := if x.logBits = [] then lo else x.logStart }))

/-! ### Engines -/

/-- R227, R230, R233, R258, R314, R326, R327, R467, R474: the last step of an engine command writes its completion word, returns its lines and
ends it, and a command that a death stopped is gone; a materialisation ends, well or ill, and a queued one starts; the reclaim engine
frees a leaf line; an adoption and a collective whose time is over end with TIMEOUT. -/
def Obligations.EnginesProceed : Prop :=
  (∀ (id : Nat) (s : State) (k : Cmd), s.cmds.find? (·.id == id) = some k →
    (k.stopped = true → k.abandoned = true → ∃ t, exec (.engineCommandEnd id) s = .next t ∧ ∀ c, c ∈ t.cmds ↔ c ∈ s.cmds ∧ c.id ≠ id) ∧
    (∀ code idx flag a v, SMap.wf SLine.free s.scratch = true → k.stopped = false → s.cmdGoes k = true → k.ending = some (code, idx, flag) →
      k.step ≠ 1000 → k.comp = some (a, v) →
      a.getLsbD 63 = false → a.toNat % 2 ^ 22 + 8 ≤ 2 ^ 22 → s.stillRuns k = true → k.cls ≠ 14 →
      let word : Nat := if code = 0 ∨ code = 17 then v.toNat else 2 ^ 63 + code * 2 ^ 48 + idx % 2 ^ 16 * 2 ^ 32 + v.toNat % 2 ^ 32
      ∃ t, exec (.engineCommandEnd id) s = .next t ∧ ScratchTakes s t (tileOf k.ctx) (a.toNat % 2 ^ 22) (toLE 8 word) ∧
        t.cmds = s.cmds.filter (·.id != id) ∧ ∀ a, (t.sline (tileOf k.ctx) a).eng ≠ some id) ∧
    (k.stopped = false ∨ k.abandoned = false → exec (.engineCommandEnd id) s = .next (s.cmdAdvance k)) ∧
    (∀ k' u, k.stopped = false → s.cmdGoes k = true → k.ending = none → k.asks = [] →
      (cmdBody k).run (s.setCmd { k with peers := 0 }) = .ok (.more k') u →
      exec (.engineCommandEnd id) s = .next (u.setCmd { k' with asks := [] })) ∧
    (s.adoptLate k = true → ∃ t, exec (.adoptTimeout id) s = .next t ∧
      ∀ c, c ∈ t.cmds → c.id = id → c.ending = some (12, 0, false)) ∧
    (s.collLate k = true → ∃ t, exec (.collStepTimeout id) s = .next t ∧
      ∀ c, c ∈ t.cmds → c.id = id → c.ending = some (12, 0xFFFF, false))) ∧
  (∀ (ws x : Nat) (s : State), x < 2 →
    let v := (s.extent ws x).version
    ((s.extent ws x).state = 1 → exec (.materialisationEnd (2 * ws + x)) s =
      .next ((s.cmds.filter fun k => k.awaits ws v).foldl (fun t k => ((t.cmdOf k.id).map t.cmdAdvance).getD t) (s.matEnd ws x))) ∧
    (s.queuedReady ws = true → exec (.nbmatQueuedStart ws) s = .next (s.queuedMat ws)) ∧
    (∀ u code, (s.extent ws x).state = 1 → s.matResult ws x = (u, code) → u.cmds = s.cmds → (∀ k, k ∈ s.cmds → k.awaits ws v = false) →
      ∃ t, exec (.materialisationEnd (2 * ws + x)) s = .next t ∧
        (code = 0 → (t.extent ws x).state = 2 ∧ (t.extent ws x).version = v) ∧ (code ≠ 0 → t.extent ws x = Extent.empty)) ∧
    (∀ e, s.matQueue.find? (·.1 == ws) = some (ws, e.version) → s.newest ws = some e → s.published ws e.version = some e →
      s.extOf ws e.version = none → s.pickExtent ws = some x → ∃ t, exec (.nbmatQueuedStart ws) s = .next t ∧ t.matQueue = s.matQueue.erase (ws, e.version) ∧
        (t.extent ws x).state = 1 ∧ (t.extent ws x).version = e.version)) ∧
  (∀ (s : State) (l : HLine), s.hlines.find? (·.reclaiming) = some l → exec .reclaimLine s = .next (s.reclaimOne l) ∧
    (l.node = false → exec .reclaimLine s = .next { s with hlines := s.hlines.erase l }))

/-! ### Device registers -/

/-- R353-R356, R334, R352, R354, R355, R385, R387, R395, R404, R436, R457, R460, R464, R468: what a write of a device register does. Before
READY and after a thermal trip it does nothing; while no one holds FE_SEMA it is refused and counted; else it has the effect of its
register, which the selector names. Whether firmware verifies is open (log entry 6). -/
def Obligations.ConfigurationWrites : Prop :=
  ∀ (s : State) (val : Nat),
    let q := s.selected .queue
    (∀ e : Nat → Instr, e = .feQcfgWrite ∨ e = .fcRestart ∨ e = .feNqWrite ∨ e = .fePoolCfgWrite ∨ e = .reLogWrite ∨ e = .reEqWrite ∨
        e = .healthClearRequest ∨ e = .connectionReset ∨ e = .fxRqheadWrite ∨ e = .mmPrqWrite ∨ e = .mmDlogWrite ∨ e = .mmEvqWrite ∨
        e = .mmEvqtailWrite ∨ e = .attestationRequest ∨ e = .pageReply ∨ e = .invalWholeVd ∨ e = .feFeatEnWrite 0 →
      (s.ready = false ∨ s.thermal = true → exec (e val) s = .next s) ∧
      (s.ready = true → s.thermal = false → s.dfld Dev.feSema 0 0 2 = 0 →
        exec (e val) s = .next (s.dset Dev.feCfgdeny 0 (s.dget Dev.feCfgdeny 0 + 1)))) ∧
    (Configurable s →
      (∀ (e : Nat → Instr) r inst, (e, r, inst) = (Instr.mmEvqWrite, ringEvq, 0) ∨ (e, r, inst) = (Instr.feNqWrite, ringNq, s.selected .nq) ∨
          (e, r, inst) = (Instr.reLogWrite, ringLog, 0) ∨ (e, r, inst) = (Instr.reEqWrite, ringEq, s.selected .eq) →
        (val.testBit 63 = true → val % 32 < 6 ∨ 16 < val % 32 → exec (e val) s = .next s) ∧
        (val.testBit 63 = true → 6 ≤ val % 32 → val % 32 ≤ 16 → ∃ t, exec (e val) s = .next t ∧ t.dfld r.cfg inst 63 1 = 1 ∧
          t.dfld r.cfg inst 0 5 = val % 32 ∧ t.dfld r.cfg inst 12 40 = val / 2 ^ 12 % 2 ^ 40 ∧ t.dget r.head inst = 0 ∧ t.dget r.tail inst = 0 ∧
          t = { s with dev := t.dev }) ∧
        (val.testBit 63 = false → ∃ t, exec (e val) s = .next t ∧ t.dfld r.cfg inst 63 1 = 0 ∧ t.dget r.head inst = s.dget r.head inst ∧
          t.dget r.tail inst = s.dget r.tail inst ∧ t = { s with dev := t.dev })) ∧
      (let vd := s.selected .mmVd
       (val.testBit 63 = true → s.dfld Dev.feFeatEn0 0 6 1 = 0 → exec (.mmDlogWrite val) s = .next s) ∧
       (val.testBit 63 = true → s.dfld Dev.feFeatEn0 0 6 1 = 1 → 6 ≤ val % 32 → val % 32 ≤ 20 → ∃ t, exec (.mmDlogWrite val) s = .next t ∧
         t.dfld Dev.mmDlog vd 63 1 = 1 ∧ t.dfld Dev.mmDlog vd 0 5 = val % 32 ∧ t.dget Dev.mmDlhead vd = 0 ∧ t.dget Dev.mmDltail vd = 0 ∧
         t = { s with dev := t.dev }) ∧
       (val.testBit 63 = true → 6 ≤ val % 32 → val % 32 ≤ 16 → s.openReqs vd = [] → ∃ t, exec (.mmPrqWrite val) s = .next t ∧
         t.dfld Dev.mmPrq vd 63 1 = 1 ∧ t.dfld Dev.mmPrq vd 0 5 = val % 32 ∧ t.dget Dev.mmPrqhead vd = 0 ∧ t.dget Dev.mmPrqtail vd = 0 ∧
         t = { s with dev := t.dev }) ∧
       (∀ r, val.testBit 63 = true → 6 ≤ val % 32 → val % 32 ≤ 16 → s.openReqs vd = [r] → r.id < 256 → val / 2 ^ 12 % 2 ^ 40 * 4096 + 32 ≤ hbmSize →
         ∃ t, exec (.mmPrqWrite val) s = .next t ∧ t.dget Dev.mmPrqhead vd = 0 ∧ t.dget Dev.mmPrqtail vd = 1 ∧
           memRead t.mem (val / 2 ^ 12 % 2 ^ 40 * 4096) 32 = r.bytes s.time.toNat ∧ t.reqs = s.reqs)) ∧
      (∃ t, exec (.mmEvqtailWrite val) s = .next t ∧ t.dfld Dev.mmEvqtail 0 0 32 = val % 2 ^ 32 ∧ t = { s with dev := t.dev }) ∧
      (let on := s.dfld Dev.feQcfg q 63 1 = 1
       (val.testBit 63 = true → 4 ≤ val / 2 ^ 48 % 32 → val / 2 ^ 48 % 32 ≤ 16 → ∃ t, exec (.feQcfgWrite val) s = .next t ∧
         t.dfld Dev.feQcfg q 63 1 = 1 ∧ t.dfld Dev.feQcfg q 62 1 = 0 ∧ t.dget Dev.feQhead q = 0 ∧ t.dget Dev.feQtail q = 0 ∧
         (¬on → t.dfld Dev.feQcfg q 56 6 = val / 2 ^ 56 % 64 ∧ t.dfld Dev.feQcfg q 48 5 = val / 2 ^ 48 % 32) ∧
         (on → t.dfld Dev.feQcfg q 56 6 = s.dfld Dev.feQcfg q 56 6 ∧ t.dfld Dev.feQcfg q 48 5 = s.dfld Dev.feQcfg q 48 5) ∧
         t = { s with
           dev := t.dev, devWaits := s.devWaits.filter (·.user ≠ .queue q)
           fabReqs := s.fabReqs.filter fun r => match r.user with | .queue p _ => p != q | _ => true }) ∧
       (val.testBit 63 = true → val / 2 ^ 48 % 32 < 4 ∨ 16 < val / 2 ^ 48 % 32 → exec (.feQcfgWrite val) s = .next s) ∧
       (val.testBit 63 = false → on → exec (.feQcfgWrite val) s = .next (s.dsetFld Dev.feQcfg q 63 1 0))) ∧
      (∀ n, n < 4 →
        (s.groups = [] → exec (.feFeatEnWrite n val) s =
          .next (s.dset (Dev.feFeatEn0 + 8 * n) 0 (BitVec.ofNat 64 val &&& s.dget (Dev.feFeatSup0 + 8 * n) 0))) ∧
        (s.groups ≠ [] → exec (.feFeatEnWrite n val) s = .next (s.dset Dev.feCfgdeny 0 (s.dget Dev.feCfgdeny 0 + 1)))) ∧
      (let draws (n : Nat) : Nat := s.fresh + ((List.range n).filter val.testBit).length
       ∃ t, exec (.fcRestart val) s = .next t ∧ t.fresh = draws 4 ∧
        (∀ n, n < 4 → t.fc n = if val.testBit n = true ∧ Config.firmwareOk (draws n) = true then
          { s.fc n with
            halted := false, cause := 0, frameAt := s.now, regs := [], preds := 0, csr := Ctx.resetCsr, pc := 0, count := 0, isram := s.firmware }
          else s.fc n) ∧
        (val % 16 ≠ 0 → ∀ n, n < 4 → t.dget (Dev.secMeas0 + 8 * n) 0 = BitVec.ofNat 64 (natAt (sm3 s.firmwareBytes) (8 * n) 8)) ∧
        (t.dget Dev.feStat 0 = if (List.range 4).any (fun n => val.testBit n && !Config.firmwareOk (draws n)) = true then 2 else s.dget Dev.feStat 0)) ∧
      (let units := s.dfld Dev.fePoolSize 0 0 32
       (s.dfld Dev.fePoolCfg 0 63 1 = 0 → val.testBit 63 = true → ∃ t, exec (.fePoolCfgWrite val) s = .next t ∧
         t.dfld Dev.fePoolCfg 0 63 1 = 1 ∧ t.dfld Dev.fePoolCfg 0 16 36 = val / 2 ^ 16 % 2 ^ 36 ∧ t.pool = List.range units) ∧
       (s.dfld Dev.fePoolCfg 0 63 1 = 1 → val.testBit 63 = false → units ≤ s.pool.length → exec (.fePoolCfgWrite val) s =
         .next (s.dsetFld Dev.fePoolCfg 0 63 1 0)) ∧
       (s.dfld Dev.fePoolCfg 0 63 1 = 1 → val.testBit 63 = true ∨ s.pool.length < units → exec (.fePoolCfgWrite val) s = .next s)) ∧
      (val.testBit 0 = true → exec (.healthClearRequest val) s = .next (s.dset Dev.reHclr 0 2)) ∧
      (val.testBit 0 = true → (s.dget Dev.secAttaddr 0).toNat + 256 ≤ hbmSize → ∃ t, exec (.attestationRequest val) s = .next t ∧
        memRead t.mem (s.dget Dev.secAttaddr 0).toNat 192 = s.reportBytes ∧
        (∀ i, i < 64 → memByte t.mem ((s.dget Dev.secAttaddr 0).toNat + 192 + i) = Config.sm2Sign s.fresh i) ∧ t.fresh = s.fresh + 1 ∧ t.ctxs = s.ctxs ∧ t.dev = s.dev) ∧
      (val.testBit 63 = true → let conn := val % 2 ^ 16
        ∃ t, exec (.connectionReset val) s = .next t ∧ (∀ k, t.conn k = if k / 4 = conn then Conn.init else s.conn k) ∧
          t.fabReqs = s.fabReqs.map (fun r => if r.conn / 4 = conn ∧ r.reply = none ∧ r.err = 0 then { r with err := 12 } else r) ∧
          t.dfld Dev.fxCreset 0 0 16 = conn ∧ t.dfld Dev.fxCreset 0 63 1 = 0 ∧ t.mem = s.mem ∧ t.ctxs = s.ctxs ∧
          t.dfld Dev.feSema 0 0 2 = if s.dfld Dev.feSema 0 0 2 = 2 ∧ s.dfld Dev.feCebind 0 32 16 = conn then 0 else s.dfld Dev.feSema 0 0 2) ∧
      (∀ e, let k := connKey (s.selected .rq) 0
        s.connEntry (s.selected .rq) = some e →
        let held := ((s.conn k).rqTail + 2 ^ 32 - val % 2 ^ 32) % 2 ^ 32
        (held ≤ 2 ^ natAt e 0x30 1 → exec (.fxRqheadWrite val) s = .next (s.setConn k { s.conn k with rqHead := val % 2 ^ 32 })) ∧
        (2 ^ natAt e 0x30 1 < held → exec (.fxRqheadWrite val) s = .next s)) ∧
      (∀ off, off = Dev.feQsel ∨ off = Dev.feNqsel ∨ off = Dev.scVdsel ∨ off = Dev.mmVdsel ∨ off = Dev.rlWsel ∨ off = Dev.gvPsel ∨
          off = Dev.hwdSel ∨ off = Dev.fxRqsel ∨ off = Dev.reEqsel ∨ off = Dev.scDrainMax ∨ off = Dev.scKillMin ∨ off = Dev.scQmin ∨
          off = Dev.fxRto ∨ off = Dev.fxImp ∨ off = Dev.reCtl ∨ off = Dev.secAttaddr → (s.dfld Dev.feSema 0 0 2 = 2 → s.ceb ≠ none) →
        ∃ r, regSpec off = some r ∧ exec (.configRegisterWrite off val) s =
          .next (s.dset off 0 ((s.dget off 0 &&& ~~~(BitVec.ofNat 64 r.rw)) ||| (BitVec.ofNat 64 val &&& BitVec.ofNat 64 r.rw)))) ∧
      (∀ off r, off < 0x100000 → regSpec off = some r → r.rw ≠ 0 → off ≠ Dev.feSema → off ≠ Dev.feQhead → off ≠ Dev.feQtail →
        (off = Dev.feCebind → s.dfld Dev.feSema 0 0 2 = 2) → (s.dfld Dev.feSema 0 0 2 = 2 → s.ceb ≠ none) →
        exec (.configRegisterWrite off val) s =
          .next (if off = Dev.feCebind then s.dset Dev.feCfgdeny 0 (s.dget Dev.feCfgdeny 0 + 1) else s.regEffect off val)) ∧
      (s.dfld Dev.feSema 0 0 2 = 1 → ∃ t, exec (.feCebindWrite val) s = .next t ∧ t = { s with dev := t.dev } ∧
        t.dfld Dev.feCebind 0 32 16 = val / 2 ^ 32 % 2 ^ 16 ∧ t.dfld Dev.feCebind 0 0 20 = val % 2 ^ 20)) ∧
    (∀ who, 0 < who → who < 4 → s.thermal = false → (who = 2 → s.ceb ≠ none) →
      (s.dfld Dev.feSema 0 0 2 = 0 → val % 4 = who → exec (.feSemaWrite who val) s = .next (s.dsetFld Dev.feSema 0 0 2 who)) ∧
      (s.dfld Dev.feSema 0 0 2 = who → val % 4 = 0 → exec (.feSemaWrite who val) s = .next (s.dsetFld Dev.feSema 0 0 2 0)) ∧
      (s.dfld Dev.feSema 0 0 2 ≠ 0 → s.dfld Dev.feSema 0 0 2 ≠ who → exec (.feSemaWrite who val) s = .next s))

/-- R6, R24, R353, R356: a read of a register with RC fields clears them, but after a thermal trip; the management port performs each well-formed request once and
answers it again when its SEQ comes again, and answers a malformed one with STATUS 2; the loss of an endpoint's connection frees FE_SEMA. -/
def Obligations.ReadsAndManagement : Prop :=
  (∀ (s : State) (e : Instr) (off inst mask : Nat),
    (e, off, inst, mask) = (.feCfgdenyRead, Dev.feCfgdeny, 0, 2 ^ 64 - 1) ∨ (e, off, inst, mask) = (.scStatRead, Dev.scStat, 0, 2 ^ 64 - 1) ∨
    (e, off, inst, mask) = (.fxErr0Read, Dev.fxErr0, 0, 2 ^ 64 - 1) ∨ (e, off, inst, mask) = (.fxErr1Read, Dev.fxErr1, 0, 2 ^ 64 - 1) ∨
    (e, off, inst, mask) = (.reStatRead, Dev.reStat, 0, 2 ^ 64 - 1) ∨ (e, off, inst, mask) = (.hwdErrRead, Dev.hwdErr, 0, 2 ^ 64 - 1) ∨
    (e, off, inst, mask) = (.feNqdropRead, Dev.feNqdrop, s.selected .nq, 2 ^ 64 - 2 ^ 16) ∨
    (e, off, inst, mask) = (.mmPrstatRead, Dev.mmPrstat, s.selected .mmVd, 2 ^ 64 - 2 ^ 48) →
    (s.thermal = false → exec e s = .next (s.dset off inst (s.dget off inst &&& ~~~(BitVec.ofNat 64 mask)))) ∧
    (s.thermal = true → exec e s = .next s)) ∧
  (∀ (s : State) (dg : Datagram), s.thermal = false →
    let b := dg.bytes
    let seq := natAt b 4 4
    let reply (status : Nat) (v : W64) : List Byte :=
      slice b 0 2 ++ toLE 1 status ++ [0] ++ slice b 4 12 ++ toLE 8 v.toNat ++ zeros 8
    let formed (op : Nat) : Prop := b.length = 32 ∧ natAt b 0 1 = 1 ∧ natAt b 1 1 = op ∧ natAt b 2 2 = 0 ∧ natAt b 0x18 8 = 0 ∧ natAt b 8 8 % 8 = 0
    let answered (t : State) (r : List Byte) : State := { t with out := t.out ++ [(dg.sender, r)], lastMgmt := some (seq, r) }
    (∀ r, s.lastMgmt = some (seq, r) → (formed 1 → exec (.mgmtRead dg) s = .next { s with out := s.out ++ [(dg.sender, r)] }) ∧
      (formed 2 → exec (.mgmtWrite dg) s = .next { s with out := s.out ++ [(dg.sender, r)] })) ∧
    ((∀ q r, s.lastMgmt = some (q, r) → q ≠ seq) →
      (formed 1 → exec (.mgmtRead dg) s = .next (answered (s.regRead (natAt b 8 8)).1 (reply 0 (s.regRead (natAt b 8 8)).2))) ∧
      (∀ r, formed 1 → natAt b 8 8 < 0x100000 → regSpec (natAt b 8 8) = some r → r.rc = 0 →
        exec (.mgmtRead dg) s = .next (answered s (reply 0 (s.regValue (natAt b 8 8) (s.selected r.sel))))) ∧
      (∀ r, formed 2 → natAt b 8 8 < 0x100000 → regSpec (natAt b 8 8) = some r → r.rw ≠ 0 → s.ready = true → natAt b 8 8 ≠ Dev.feSema →
        natAt b 8 8 ≠ Dev.feQhead → natAt b 8 8 ≠ Dev.feQtail → natAt b 8 8 ≠ Dev.feCebind →
        (s.dfld Dev.feSema 0 0 2 ≠ 1 → exec (.mgmtWrite dg) s = .next
          (answered (s.dset Dev.feCfgdeny 0 (s.dget Dev.feCfgdeny 0 + 1)) (reply 1 (BitVec.ofNat 64 (natAt b 0x10 8))))) ∧
        (s.dfld Dev.feSema 0 0 2 = 1 → let t := s.regEffect (natAt b 8 8) (natAt b 0x10 8)
          t.dget Dev.feCfgdeny 0 = s.dget Dev.feCfgdeny 0 →
          exec (.mgmtWrite dg) s = .next (answered t (reply 0 (BitVec.ofNat 64 (natAt b 0x10 8))))))) ∧
    (b.length = 32 → natAt b 0 1 ≠ 1 ∨ (natAt b 1 1 ≠ 1 ∧ natAt b 1 1 ≠ 2) ∨ natAt b 2 2 ≠ 0 ∨ natAt b 0x18 8 ≠ 0 ∨ natAt b 8 8 % 8 ≠ 0 →
      exec (.mgmtMalformedRequest dg) s = .next { s with out := s.out ++ [(dg.sender, overlay b 2 [2])] }) ∧
    (b.length ≠ 32 → exec (.mgmtMalformedRequest dg) s = .next s)) ∧
  (∀ s : State,
    (s.thermal = false → s.dfld Dev.feSema 0 0 2 = 1 ∨ s.dfld Dev.feSema 0 0 2 = 2 →
      exec .endpointConnectionLoss s = .next (s.dsetFld Dev.feSema 0 0 2 0)) ∧
    (s.thermal = true → exec .endpointConnectionLoss s = .next s) ∧
    (s.dfld Dev.feSema 0 0 2 ≠ 1 → s.dfld Dev.feSema 0 0 2 ≠ 2 → exec .endpointConnectionLoss s = .next s))

/-! ### The fabric -/

/-- R197, R260, R392, R396-R399, R461, R462: a request or a collective's packet that comes in its order, and whose checks hold, is
applied and acknowledged or answered; or, where the receiver has no room (open: log entry 2), it is turned away with NAK 5, and is still
expected. A packet with an unknown VER or OPC is refused with NAK 2; where the transport is disabled, one with a known OPC with NAK 4, which is
the model's choice (log entry 28). -/
def Obligations.BamugRequestsAreApplied : Prop :=
  ∀ (b : BamugPacket) (s : State) (e : List Byte),
    let bs := b.bytes
    let p := rxOf bs
    let k := connKey p.conn (p.vc % 4)
    let c := s.conn k
    let chip := s.dfld Dev.fxChipid 0 0 16
    let control (opc apsn nak : Nat) : Egress := ⟨s.serial, natAt e 1 1, p.vc % 4, p.conn, Pkt.bytes
      { opc := opc, flags := 4, vc := p.vc % 4, src := chip, dst := natAt e 2 2, conn := p.conn, psn := p.psn, apsn := apsn, nak := nak }⟩
    let busy (t : State) : Prop := t.egress = s.egress ++ [control 7 (psnAhead c.expPsn 1) 5] ∧ t.conns = s.conns ∧ t.mem = s.mem ∧
      t.ctxs = s.ctxs ∧ t.collIn = s.collIn
    let applied (i : Instr) (P : State → Prop) : Prop := ∃ t, exec i s = .next t ∧
      if Config.happens 41 k s.now = true then busy t
      else (t.conn k).expPsn = (c.expPsn + 1) % 2 ^ 24 ∧ (t.conn k).nakSent = false ∧ t.ctxs = s.ctxs ∧ P t
    let acks (t : State) : Prop := t.egress = s.egress ++ if p.flags % 2 = 1 then [control 6 p.psn 0] else []
    let answers (opc : Nat) (payload : List Byte) (t : State) : Prop :=
      let pkt := Pkt.bytes { opc := opc, flags := 7, vc := p.vc % 4, src := chip, dst := natAt e 2 2, conn := p.conn, psn := c.sendPsn, apsn := p.psn
                             payload := payload }
      t.egress = s.egress ++ [⟨s.serial, natAt e 1 1, p.vc % 4, p.conn, pkt⟩] ∧ (t.conn k).unacked = c.unacked ++ [⟨c.sendPsn, pkt, 1⟩] ∧
        (t.conn k).sendPsn = (c.sendPsn + 1) % 2 ^ 24
    (∀ vd ipa pa, Acceptable s bs e 1 → Imports s p.src p.key p.off p.payload.length 1 2 vd ipa →
      ImportedPage s vd ipa p.payload.length true pa →
      applied (.bamugWrite b) fun t => MemoryTakes s t pa p.payload ∧ acks t) ∧
    (∀ vd ipa pa, Acceptable s bs e 8 → Imports s p.src p.key p.off 8 8 2 vd ipa → ImportedPage s vd ipa 8 true pa →
      applied (.bamugFlagAdd b) fun t => MemoryTakes s t pa (toLE 8 (leNat (memRead s.mem pa 8) + leNat p.payload)) ∧ acks t) ∧
    (∀ vd ipa pa, let n := natAt p.payload 0 4
      n ≤ 4096 → Acceptable s bs e 2 → Imports s p.src p.key p.off n 1 1 vd ipa → ImportedPage s vd ipa n false pa →
      applied (.bamugReadReq b) fun t => t.mem = s.mem ∧ answers 3 (memRead s.mem pa n) t) ∧
    (∀ vd ipa pa, let a : AmoOp := ⟨natAt p.payload 0 1, (natAt p.payload 1 1).testBit 0, (natAt p.payload 1 1).testBit 1,
                                    BitVec.ofNat 64 (natAt p.payload 8 8), BitVec.ofNat 64 (natAt p.payload 16 8)⟩
      let n := if a.dbl then 8 else 4
      let old := leNat (memRead s.mem pa n)
      SMap.wf Conn.init s.conns = true → Acceptable s bs e 4 → Imports s p.src p.key p.off n n 3 vd ipa → ImportedPage s vd ipa n true pa →
      applied (.bamugAtomicReq b) fun t => MemoryTakes s t pa (toLE n (amoNew a old)) ∧ answers 5 (toLE 8 old) t ∧
        (t.conn k).cache.getLast? = some (p.psn, BitVec.ofNat 64 old)) ∧
    (∀ vd ipa, Acceptable s bs e 9 → Imports s p.src p.key 0 0 1 1 vd ipa →
      applied (.bamugNameReq b) fun t => t.mem = s.mem ∧
        answers 10 ((List.range (p.payload.length / 16)).flatMap fun j => s.nameAnswer vd p.dom (slice p.payload (16 * j) 16)) t) ∧
    (Acceptable s bs e 11 → applied (.bamugCollData b) fun t => t.mem = s.mem ∧ acks t ∧ t.collIn = s.collIn ++
      [⟨natAt p.payload 0 2, p.vc, natAt p.payload 2 2, p.src, p.flags.testBit 1, natAt p.payload 4 1 != 0, p.payload.drop 8⟩]) ∧
    (InOrder s bs e → natAt bs 0 1 = 1 → malformed p = false → s.dfld Dev.feFeatEn0 0 5 1 = 0 →
      ∀ i opc, (i, opc) = (Instr.bamugWrite b, 1) ∨ (i, opc) = (Instr.bamugReadReq b, 2) ∨ (i, opc) = (Instr.bamugAtomicReq b, 4) ∨
        (i, opc) = (Instr.bamugFlagAdd b, 8) ∨ (i, opc) = (Instr.bamugNameReq b, 9) ∨ (i, opc) = (Instr.bamugCollData b, 11) → natAt bs 1 1 = opc →
      ∃ t, exec i s = .next t ∧ t.egress = s.egress ++ [control 7 (psnAhead c.expPsn 1) 4] ∧ t.mem = s.mem ∧ t.ctxs = s.ctxs ∧ t.collIn = s.collIn) ∧
    (InOrder s bs e → natAt bs 0 1 ≠ 1 ∨ natAt bs 1 1 = 0 ∨ 11 < natAt bs 1 1 →
      ∃ t, exec (.bamugUnknownOpcode b) s = .next t ∧ t.egress = s.egress ++ [control 7 (psnAhead c.expPsn 1) 2] ∧
        (t.conn k).expPsn = (c.expPsn + 1) % 2 ^ 24 ∧ (p.psn, 2) ∈ (t.conn k).refusedPsns ∧ t.mem = s.mem ∧ t.ctxs = s.ctxs)

/-- R397, R398, R401, R462-R464: a response in its order brings its data to the load that asked for it, an acknowledgement ends a posted
write, a negative acknowledgement has what it acknowledges not before it sent again, or ends the request it refuses, or has it wait; and
a time-out without progress has every packet that is not acknowledged sent again, or the connection fails. -/
def Obligations.BamugAnswersReachTheirRequests : Prop :=
  (∀ (b : BamugPacket) (s : State) (e : List Byte),
    let bs := b.bytes
    let p := rxOf bs
    let k := connKey p.conn (p.vc % 4)
    let c := s.conn k
    let done (psn : Nat) : Bool := decide (psnAhead p.apsn psn < 2 ^ 23)
    let left := if p.flags.testBit 2 = true then c.unacked.filter (fun q => !done q.psn) else c.unacked
    let nothingEnds : Prop := ∀ r, r ∈ s.fabReqs → r.reply = none ∧ r.err = 0 ∧ (r.read = true ∨ done r.psn = false)
    (∀ i opc, (i, opc) = (Instr.bamugReadResp b, 3) ∨ (i, opc) = (Instr.bamugAtomicResp b, 5) ∨ (i, opc) = (Instr.bamugNameResp b, 10) →
      Acceptable s bs e opc → p.flags.testBit 1 = true → p.flags.testBit 2 = true → c.msg = [] →
      ∀ r, s.fabReqs = [r] → r.conn = k → r.psn = p.apsn → r.read = true → r.reply = none → r.err = 0 →
      (∀ cx id n f l q, r.user = .load cx id n → (s.ctx cx).flights.find? (·.id == id) = some f → f.load = some l → l.pieces[n]? = some q →
        q.freq = some r.id → (s.ctx cx).st ≠ .dead → ∃ t, exec i s = .next t ∧
          if Config.happens 41 k s.now = true then t.conns = s.conns ∧ t.fabReqs = s.fabReqs ∧ t.ctxs = s.ctxs
          else (t.conn k).expPsn = (c.expPsn + 1) % 2 ^ 24 ∧ t.fabReqs = [] ∧ t.mem = s.mem ∧
            t.ctx cx = (s.ctx cx).modPiece id n fun q => { q with val := some (slice p.payload 0 q.len), freq := none }) ∧
      (∀ id item, r.user = .cmd id item → (∃ m, m ∈ s.cmds ∧ m.id = id) → ∃ t, exec i s = .next t ∧
          if Config.happens 41 k s.now = true then t.conns = s.conns ∧ t.fabReqs = s.fabReqs ∧ t.ctxs = s.ctxs
          else (t.conn k).expPsn = (c.expPsn + 1) % 2 ^ 24 ∧ t.fabReqs = [{ r with reply := some p.payload }] ∧ t.ctxs = s.ctxs)) ∧
    (∀ i opc, (i, opc) = (Instr.bamugReadResp b, 3) ∨ (i, opc) = (Instr.bamugAtomicResp b, 5) ∨ (i, opc) = (Instr.bamugNameResp b, 10) →
      Acceptable s bs e opc → Config.happens 41 k s.now = false → ∃ t, exec i s = .next t ∧ (t.conn k).expPsn = (c.expPsn + 1) % 2 ^ 24) ∧
    (Receives s bs e → natAt bs 0 1 = 1 → malformed p = false → s.dfld Dev.feFeatEn0 0 5 1 = 1 →
      let u := s.dset (Dev.fxVcrx0 + 8 * p.vc) 0 (s.dget (Dev.fxVcrx0 + 8 * p.vc) 0 + BitVec.ofNat 64 p.payload.length)
      let ack (t : State) : State := if p.flags.testBit 2 = true then t.acked k p.apsn else t
      (natAt bs 1 1 = 6 → exec (.bamugAck b) s = .next (ack u).settle) ∧
      (natAt bs 1 1 = 7 → exec (.bamugNak b) s =
        .next (if 2 ≤ p.nak ∧ p.nak ≤ 4 then (ack (u.nakFor p k)).settle else ((ack u).nakFor p k).settle)) ∧
      (natAt bs 1 1 = 6 → p.flags.testBit 2 = true → ∀ r id w, s.fabReqs = [r] → r.conn = k → r.read = false → r.reply = none → r.err = 0 →
        r.user = .posted id → s.posted.find? (·.id == id) = some w → w.freq = some r.id → done r.psn = true → (∃ q, q ∈ c.unacked ∧ q.psn = r.psn) →
        ∃ t, exec (.bamugAck b) s = .next t ∧ t.fabReqs = [] ∧ t.posted = s.posted.filter (·.id != id) ∧
          (t.conn k).unacked = c.unacked.filter (fun q => !done q.psn) ∧ (t.conn k).progressAt = s.now ∧ t.mem = s.mem) ∧
      (natAt bs 1 1 = 7 →
        (∀ q rest, p.nak = 1 → left = q :: rest → q.times < Nat.max 1 (s.dfld Dev.fxRlim 0 0 8) → nothingEnds →
          ∃ t, exec (.bamugNak b) s = .next t ∧ (t.conn k).unacked = (q :: rest).map (fun q => { q with times := q.times + 1 }) ∧
            t.egress.map (fun g => (g.conn, g.vc, g.bytes)) = s.egress.map (fun g => (g.conn, g.vc, g.bytes)) ++
              (q :: rest).map (fun q => (p.conn, p.vc, q.bytes)) ∧ t.mem = s.mem ∧ t.ctxs = s.ctxs) ∧
        (∀ code, (p.nak, code) = (2, 16) ∨ (p.nak, code) = (3, 2) ∨ (p.nak, code) = (4, 14) → ∀ r id item, s.fabReqs = [r] → r.conn = k →
          r.psn = p.psn → r.reply = none → r.err = 0 → r.user = .cmd id item → (∃ m, m ∈ s.cmds ∧ m.id = id) →
          ∃ t, exec (.bamugNak b) s = .next t ∧ t.fabReqs = [{ r with err := code }] ∧ (∀ q, q ∈ (t.conn k).unacked → q ∈ c.unacked ∧ q.psn ≠ p.psn)) ∧
        (p.nak = 2 ∨ p.nak = 3 ∨ p.nak = 4 → ∀ r id w, s.fabReqs = [r] → r.conn = k → r.psn = p.psn → r.reply = none → r.err = 0 →
          r.user = .posted id → s.posted.find? (·.id == id) = some w → w.freq = some r.id → (s.ctx w.ctx).st ≠ .dead →
          ∃ t, exec (.bamugNak b) s = .next t ∧ t.fabReqs = [] ∧ (t.ctx w.ctx).st = .dead) ∧
        (p.nak = 5 → nothingEnds → ∃ t, exec (.bamugNak b) s = .next t ∧ (t.conn k).progressAt = s.now ∧
          (t.conn k).unacked = left.map (fun q => if q.psn = p.psn then { q with times := q.times - 1 } else q) ∧ t.egress = s.egress)))) ∧
  (∀ (k : Nat) (s : State) (e : List Byte) (q : SentPacket) (rest : List SentPacket),
    let c := s.conn k
    c.failed = false → c.unacked = q :: rest → s.connEntry (k / 4) = some e → connRoce e = false →
    c.progressAt + Nat.max 1 (s.dfld Dev.fxRto 0 0 32) * cyclesPerUs ≤ s.now →
    (s.dfld Dev.feFeatEn0 0 5 1 = 1 → q.times < Nat.max 1 (s.dfld Dev.fxRlim 0 0 8) → ∃ t, exec (.bamugRetransmitTimeout k) s = .next t ∧
      (t.conn k).unacked = c.unacked.map (fun q => { q with times := q.times + 1 }) ∧ (t.conn k).progressAt = s.now ∧ t.mem = s.mem ∧
      t.egress.map (fun g => (g.port, g.vc, g.conn, g.bytes)) = s.egress.map (fun g => (g.port, g.vc, g.conn, g.bytes)) ++
        c.unacked.map (fun q => (natAt e 1 1, k % 4, k / 4, q.bytes))) ∧
    (Nat.max 1 (s.dfld Dev.fxRlim 0 0 8) ≤ q.times → s.fabReqs = [] → ∃ t, exec (.bamugRetransmitTimeout k) s = .next t ∧
      (t.conn k).failed = true ∧ (t.conn k).unacked = [] ∧ t.egress = s.egress ∧ t.ctxs = s.ctxs))

/-- R356, R392, R394, R395, R437, R464: a RoCE v2 request that comes in the order of its QP and whose checks hold is applied, its PSN is
used, and it is acknowledged or answered; a SEND that finds no free slot or no room for its record is refused as not ready; an opcode
that is not supported is refused; a packet for an unknown QP is dropped and counted; and CE-B reads and writes registers through its QP.
The bytes of the packets are the model's own (log entry 20). -/
def Obligations.RoceRequestsAreApplied : Prop :=
  (∀ (m : RoceMsg) (s : State) (n : Nat) (e : List Byte),
    let k := connKey n 0
    let c := s.conn k
    let u := s.cnpFor n e m
    let port := natAt e 1 1
    let qp := natAt e 8 3
    let used (t : State) : State := t.setConn k { t.conn k with expPsn := (c.expPsn + 1) % 2 ^ 24, nakSent := false, held := none, behind := [] }
    let acked (t : State) : State := if m.ackReq = true then t.enqueue port 0 n (roceBytes roAck qp m.psn 0 0 0 0 0 []) else t
    let vd := natAt e 0x26 1 % 64
    let refused (t : State) (code : W64) : State := t.enqueue port 0 n (roceBytes roNak qp m.psn 0 0 0 code 0 [])
    (QpInOrder s m n e →
      (let all := (if m.first = true then [] else c.msg) ++ m.payload
       let a := natAt e 0x28 8 + 4096 * (c.rqTail % 2 ^ natAt e 0x30 1)
       let ready : Prop := (c.rqTail + 2 ^ 32 - c.rqHead) % 2 ^ 32 < 2 ^ natAt e 0x30 1 ∧ s.ringFull ringNq vd = false
       m.imm = none → all.length ≤ 4096 →
        (m.last = false → (m.first = true → ready) →
          exec (.roceSend m) s = .next (acked (used (u.setConn k { u.conn k with msg := all })))) ∧
        (m.last = true → ready → a + all.length ≤ hbmSize → exec (.roceSend m) s = .next (acked (used
          (((u.perform a all).setConn k { u.conn k with msg := [], rqTail := (c.rqTail + 1) % 2 ^ 32 }).notify vd 4 (0x300 + port) 0
            (BitVec.ofNat 64 c.rqTail) 0 0)))) ∧
        (m.first = true ∨ m.last = true → ¬ready → exec (.roceSend m) s = .next (refused u 32))) ∧
      (let va := if m.first = true then m.va else c.writeAt
       let key := if m.first = true then m.rkey else c.writeKey
       let put (t : State) : State := t.setConn k { t.conn k with writeAt := va + m.payload.length, writeKey := key }
       m.payload.length ≤ 4096 → s.cebRange n va = false →
        (∀ pa, QpImports s e key va m.payload.length 2 pa →
          (m.imm = none → exec (.roceRdmaWrite m) s = .next (acked (used (put (u.perform pa m.payload))))) ∧
          (∀ v, m.imm = some v → m.last = true → s.ringFull ringNq vd = false → exec (.roceRdmaWrite m) s = .next (acked (used
            ((put (u.perform pa m.payload)).notify vd 5 (0x300 + port) 0 (v.zeroExtend 64) 0 0))))) ∧
        (m.payload = [] → m.imm = none → exec (.roceRdmaWrite m) s = .next (acked (used (put u))))) ∧
      (m.len ≤ 4096 → s.cebRange n m.va = false → ∀ pa, QpImports s e m.rkey m.va m.len 1 pa → exec (.roceRdmaRead m) s =
        .next (used (u.enqueue port 0 n (roceBytes roResp qp m.psn 0 0 m.len 0 1 (memRead s.mem pa m.len))))) ∧
      (m.va % 8 = 0 → s.cebRange n m.va = false → ∀ pa, QpImports s e m.rkey m.va 8 3 pa →
        let old := leNat (memRead s.mem pa 8)
        let leaves (v : Nat) : State :=
          let t := u.perform pa (toLE 8 v)
          used ((t.setConn k { t.conn k with cache := ((t.conn k).cache ++ [(m.psn, BitVec.ofNat 64 old)]).drop ((t.conn k).cache.length + 1 - 256) }).enqueue
            port 0 n (roceBytes roAck qp m.psn 0 0 0 (BitVec.ofNat 64 old) 0 []))
        exec (.roceFetchAdd m) s = .next (leaves ((old + m.operand.toNat) % 2 ^ 64)) ∧
        exec (.roceCompareSwap m) s = .next (leaves (if old = m.compare.toNat then m.operand.toNat else old))) ∧
      exec (.roceUnsupportedPacket m) s = .next (refused (u.setConn k { u.conn k with
        expPsn := (c.expPsn + 1) % 2 ^ 24, nakSent := false, held := none, behind := [], msg := [] }) 1)) ∧
    (s.thermal = false → s.qpConn m.qpn = none → ∀ i, i = .roceSend m ∨ i = .roceRdmaWrite m ∨ i = .roceRdmaRead m ∨ i = .roceReadResponse m ∨
      i = .roceCompareSwap m ∨ i = .roceFetchAdd m ∨ i = .roceAcknowledge m ∨ i = .roceNakReceived m ∨ i = .roceCnp m ∨
      i = .roceUnsupportedPacket m → exec i s = .next (s.dcount Dev.fxErr0 0 32 16))) ∧
  (∀ (s : State) (n addr val : Nat) (e : List Byte), s.ceb = some n → s.connEntry n = some e → s.thermal = false →
    s.qpConn (natAt e 4 3) = some (n, e) → let k := connKey n 0
    let c := s.conn k
    c.failed = false → c.held = none → apertureBase ≤ addr → addr < apertureBase + 2 ^ 32 → addr % 8 = 0 →
    let used (t : State) : State := t.setConn k { t.conn k with expPsn := (c.expPsn + 1) % 2 ^ 24, nakSent := false, held := none, behind := [] }
    let qp := natAt e 8 3
    let psn := c.expPsn
    (let r := s.regRead (addr - apertureBase)
     exec (.cebRegisterRead addr) s = .next (used (r.1.enqueue (natAt e 1 1) 0 n (roceBytes roResp qp psn 0 0 8 0 1 (toLE 8 r.2.toNat))))) ∧
    (let t := s.regWrite 2 (addr - apertureBase) (val % 2 ^ 64)
     exec (.cebRegisterWrite addr val) s = .next ((used (t.setConn k { t.conn k with
       writeAt := addr + 8, writeKey := 0xFFF00000 + s.dfld Dev.feCebind 0 0 20 })).enqueue (natAt e 1 1) 0 n
         (roceBytes roAck qp psn 0 0 0 0 0 []))))

/-- R394, R401, R437, R465: a read response or an atomic's answer brings its bytes to the load that asked, an acknowledgement ends a posted
write; after a NAK for a lost packet, a time-out or an RNR wait the packets are sent again, until the retries are exhausted and the QP
enters Error; another NAK puts it in Error at once; and the send rate halves and recovers. -/
def Obligations.RoceAnswersAndRetries : Prop :=
  (∀ (m : RoceMsg) (s : State) (n : Nat) (e : List Byte), QpReceives s m n e →
    let k := connKey n 0
    let u := s.cnpFor n e m
    let c := u.conn k
    let brought (i : Instr) (r : FabReq) (bs : List Byte) : Prop := ∀ cx id j f l q, r.user = .load cx id j →
      (s.ctx cx).flights.find? (·.id == id) = some f → f.load = some l → l.pieces[j]? = some q → q.freq = some r.id → (s.ctx cx).st ≠ .dead →
      ∃ t, exec i s = .next t ∧ t.fabReqs = [] ∧ t.mem = s.mem ∧
        t.ctx cx = (s.ctx cx).modPiece id j fun q => { q with val := some (slice bs 0 q.len), freq := none }
    (∀ r, s.fabReqs = [r] → r.conn = k → r.reply = none → r.err = 0 →
      (r.read = true → psnAhead m.psn r.psn = c.msg.length / 4096 →
        (m.last = true → brought (.roceReadResponse m) r (c.msg ++ m.payload)) ∧
        (m.last = false → exec (.roceReadResponse m) s =
          .next ((u.acked k r.psn).setConn k { (u.acked k r.psn).conn k with msg := c.msg ++ m.payload }))) ∧
      (r.read = true → r.psn = m.psn → brought (.roceAcknowledge m) r (toLE 8 m.operand.toNat)) ∧
      (∀ id w, r.read = false → r.psn = m.psn → (∃ q, q ∈ c.unacked ∧ q.psn = r.psn) → r.user = .posted id → s.posted.find? (·.id == id) = some w →
        w.freq = some r.id → ∃ t, exec (.roceAcknowledge m) s = .next t ∧ t.fabReqs = [] ∧ t.posted = s.posted.filter (·.id != id) ∧
          (t.conn k).unacked = c.unacked.filter (fun q => !decide (psnAhead m.psn q.psn < 2 ^ 23)))) ∧
    (let before := psnAhead m.psn 1
     let v := (u.acked k before).conn k
     (∀ r, r ∈ s.fabReqs → r.reply = none ∧ r.err = 0 ∧ (r.read = true ∨ ¬psnAhead before r.psn < 2 ^ 23)) →
      (m.code = nakSeq → v.retries < Nat.min (Nat.max 1 (s.dfld Dev.fxRlim 0 0 8)) 7 → ∃ t, exec (.roceNakReceived m) s = .next t ∧
        (t.conn k).retries = v.retries + 1 ∧ (t.conn k).unacked = v.unacked ∧ (t.conn k).progressAt = s.now ∧
        t.egress.map (fun g => (g.conn, g.bytes)) = u.egress.map (fun g => (g.conn, g.bytes)) ++ v.unacked.map (fun q => (n, q.bytes))) ∧
      (m.code = nakRnr → ∃ t, exec (.roceNakReceived m) s = .next t ∧ (t.conn k).rnrTimer = some (s.now + 4 * m.operand.toNat) ∧
        (t.conn k).unacked = v.unacked ∧ t.egress = u.egress) ∧
      (m.code ≠ nakSeq → m.code ≠ nakRnr → (∀ r, r ∈ s.fabReqs → r.conn ≠ k) → ∃ t, exec (.roceNakReceived m) s = .next t ∧
        (t.conn k).failed = true ∧ (t.conn k).unacked = [] ∧ t.ctxs = s.ctxs))) ∧
  (∀ (s : State) (n : Nat) (e : List Byte), s.connEntry n = some e →
    let k := connKey n 0
    let c := s.conn k
    let again (t : State) : Prop := (t.conn k).unacked = c.unacked ∧ (t.conn k).progressAt = s.now ∧ (t.conn k).rnrTimer = none ∧ t.mem = s.mem ∧
      t.egress.map (fun g => (g.port, g.conn, g.bytes)) = s.egress.map (fun g => (g.port, g.conn, g.bytes)) ++
        c.unacked.map (fun q => (natAt e 1 1, n, q.bytes))
    let broken (t : State) : Prop := (t.conn k).failed = true ∧ (t.conn k).unacked = [] ∧ t.egress = s.egress
    (connRoce e = true → c.failed = false → c.unacked ≠ [] → c.rnrTimer = none →
      c.progressAt + Nat.max 1 (s.dfld Dev.fxRto 0 0 32) * cyclesPerUs ≤ s.now →
      (c.retries < Nat.min (Nat.max 1 (s.dfld Dev.fxRlim 0 0 8)) 7 →
        ∃ t, exec (.roceAckTimeout n) s = .next t ∧ again t ∧ (t.conn k).retries = c.retries + 1) ∧
      (Nat.min (Nat.max 1 (s.dfld Dev.fxRlim 0 0 8)) 7 ≤ c.retries → s.fabReqs = [] → ∃ t, exec (.roceAckTimeout n) s = .next t ∧ broken t)) ∧
    (∀ at_, c.rnrTimer = some at_ → at_ ≤ s.now →
      (c.rnr < 7 → ∃ t, exec (.roceRnrRetryTimer n) s = .next t ∧ again t ∧ (t.conn k).rnr = c.rnr + 1) ∧
      (7 ≤ c.rnr → s.fabReqs = [] → ∃ t, exec (.roceRnrRetryTimer n) s = .next t ∧ broken t))) ∧
  (∀ (m : RoceMsg) (s : State) (n : Nat) (e : List Byte), s.thermal = false → s.qpConn m.qpn = some (n, e) → let k := connKey n 0
    exec (.roceCnp m) s = .next (s.setConn k { s.conn k with rate := Nat.max 1000 ((s.conn k).rate / 2), cnpIn := s.now })) ∧
  (∀ (s : State) (n : Nat), let k := connKey n 0
    let c := s.conn k
    (c.rate < 800000 → c.cnpIn + 55 * cyclesPerUs ≤ s.now → exec (.roceRateRecovery n) s =
      .next (s.setConn k { c with rate := Nat.min 800000 (c.rate + 40000), cnpIn := s.now })) ∧
    (800000 ≤ c.rate → exec (.roceRateRecovery n) s = .next s))

/-- R389, R390, R396, R403, R409: PFC pauses and resumes a virtual channel; a link comes and goes; a PTP message sets offset, lock and rate;
and a port whose link is up sends its next packet: of VC0 before the others, else of VC1-VC3 by deficit round robin. -/
def Obligations.PortsSendInOrder : Prop :=
  (∀ (s : State) (port vc : Nat), port < 8 →
    (vc < 4 → s.thermal = false → (∃ t, exec (.pfcPause port vc true) s = .next t ∧ t = { s with ports := t.ports } ∧
        (t.port port) = { s.port port with paused := (t.port port).paused } ∧ ∀ v, v ∈ (t.port port).paused ↔ v = vc ∨ v ∈ (s.port port).paused) ∧
      (∃ t, exec (.pfcPause port vc false) s = .next t ∧ t = { s with ports := t.ports } ∧
        (t.port port) = { s.port port with paused := (t.port port).paused } ∧ ∀ v, v ∈ (t.port port).paused ↔ v ≠ vc ∧ v ∈ (s.port port).paused)) ∧
    (∀ up, exec (.portLinkChange port up) s = .next (s.setPort port { s.port port with up := up }))) ∧
  (∀ (s : State) (offset rate : Int), s.thermal = false → -2 ^ 31 ≤ offset → offset < 2 ^ 31 → ∃ t, exec (.ptpMessage offset rate) s = .next t ∧
    t.tscRate = max (-200) (min 200 rate) ∧ (t.dfld Dev.tsStat 0 32 1 = if -50 ≤ offset ∧ offset ≤ 50 then 1 else 0) ∧
    sext 32 (t.dfld Dev.tsStat 0 0 32) = offset ∧ t = { s with dev := t.dev, tscRate := t.tscRate }) ∧
  (∀ (s : State) (port : Nat) (g : Egress), let p := s.port port
    p.up = true →
    let sent (u t : State) (vc : Nat) : Prop := t.egress = u.egress.filter (·.id != g.id) ∧ t.out = u.out ++ [(2 ^ 16 + g.port, g.bytes)] ∧
      t.mem = u.mem ∧ t.ctxs = u.ctxs ∧
      (vc = g.vc → natAt g.bytes 0 1 = 1 → vc < 4 →
        t.dget (Dev.fxVctx0 + 8 * vc) 0 = u.dget (Dev.fxVctx0 + 8 * vc) 0 + BitVec.ofNat 64 (natAt g.bytes 0x14 4))
    let first (vc : Nat) : Option Egress := s.egress.find? fun h => h.port == port && h.vc == vc
    (0 ∉ p.paused → first 0 = some g → ∃ t, exec (.egressPacketTransmit port g.id) s = .next t ∧ sent s t 0 ∧ t.ports = s.ports) ∧
    (0 ∈ p.paused ∨ first 0 = none →
      let takes (q : Port) (vc : Nat) : Prop := q.turn ≤ vc ∧ vc ∉ q.paused ∧ ∃ h, first vc = some h ∧ s.frameLen h ≤ SMap.get 0 q.credit vc
      let turns (q : Port) (vc : Nat) : Prop := 1 ≤ vc ∧ vc ≤ 3 ∧ takes q vc ∧ (∀ v, 1 ≤ v → v < vc → ¬takes q v) ∧ first vc = some g →
        ∃ t, exec (.egressPacketTransmit port g.id) s = .next t ∧ sent s t vc ∧ (t.port port).turn = vc ∧
          SMap.get 0 (t.port port).credit vc = if (s.egress.filter fun o => o.port == port && o.vc == vc).length = 1 then 0
            else SMap.get 0 q.credit vc - s.frameLen g
      (∀ vc, turns p vc) ∧
      ((∀ v, 1 ≤ v → v ≤ 3 → ¬takes p v) → ∀ vc, turns ((s.newRound port).port port) vc)))

/-! ### Reliability -/

/-- R24, R25, R358, R441-R443, R451, R453, R458-R460, R468-R470: a detected error is counted, corrected, or poisons what it hit; a bin that
reaches its limit is a matter of retirement; the patrol scrub finds the same errors; the noise source stops and returns; the health store
is written; a thermal trip stops issue; and cold reset gives the machine of reset, with the stored health. What the flash and the firmware
give is open (log entry 6). -/
def Obligations.ErrorsAreCountedAndPoison : Prop :=
  (∀ (s : State),
    let ce := s.dcount Dev.reStat 0 48 16
    let ue := s.dcount Dev.reStat 0 32 16
    (∀ site c n, site = .scalar c (n + 1) ∨ site = .staging c n ∨ site = .handle c n ∨ site = .control c n ∨ site = .predicates c ∨
      site = .loopBuffer c n ∨ site = .queueState n ∨ site = .controllerSram n ∨ site = .datapath c n ∨ site = .pendingVector →
      exec (.softError site true) s = .next ce) ∧
    (∀ site c r, (∃ n, site = .scalar c (n + 1) ∧ r = .s (n + 1)) ∨ (∃ n, site = .staging c n ∧ r = .g n) ∨ (∃ n, site = .handle c n ∧ r = .h n) ∨
      (∃ n, site = .control c n ∧ r = .csr n) ∨ (site = .predicates c ∧ r = .preds) →
      ∃ t, exec (.softError site false) s = .next t ∧ (t.ctx c).poisonOf r = some (.tile 4 0xFFFF 0) ∧ SameRegisters (s.ctx c) (t.ctx c) ∧
        t = { ue with ctxs := t.ctxs }) ∧
    let limit := s.dfld Dev.reCtl 0 16 16
    let below (n : Nat) : Prop := limit = 0 ∨ n + 1 < limit
    (∀ c l site ce, (∃ n, site = Site.vector c n l) ∨ (∃ n, site = Site.tileReg c n l) → let n := SMap.get 0 s.health.lane (64 * tileOf c + l % 64)
      limit ≠ 0 → limit ≤ n + 1 → n + 1 < 2 ^ 16 → tileOf c ∉ s.health.retired → (∀ m, m ∈ s.moves → m.retireTile ≠ some (tileOf c)) →
      ∃ t m, exec (.softError site ce) s = .next t ∧ m ∈ t.moves ∧ m.retireTile = some (tileOf c)) ∧
    (∀ site c n l r u, (site, r, u) = (Site.vector c n l, PReg.v n, 2) ∨ (site, r, u) = (Site.tileReg c n l, PReg.t n, 3) →
      let bin := 64 * tileOf c + l % 64
      below (SMap.get 0 s.health.lane bin) →
      let counted (t : State) : Prop := t.healthChanged = true ∧ SMap.get 0 t.health.lane bin =
        if SMap.get 0 s.health.lane bin + 1 < 2 ^ 16 then SMap.get 0 s.health.lane bin + 1 else SMap.get 0 s.health.lane bin
      (∃ t, exec (.softError site true) s = .next t ∧ counted t ∧ t.dev = ce.dev ∧ t.ctxs = s.ctxs) ∧
      (∃ t, exec (.softError site false) s = .next t ∧ counted t ∧ t.dev = ue.dev ∧ (t.ctx c).poisonOf r = some (.tile u (l % 64) 0) ∧
        SameRegisters (s.ctx c) (t.ctx c))) ∧
    (∀ addr ch dirty, addr < hbmSize →
      (∃ t, exec (.softError (.hbm ch addr) true) s = .next t ∧ t.dev = ce.dev ∧ t.memPoison = s.memPoison ∧ t.mem = s.mem) ∧
      (∃ t, exec (.softError (.hbm ch addr) false) s = .next t ∧ t.linePoison (addr / 128) = some (.outside 6) ∧ t.recordSeq = s.recordSeq + 1) ∧
      (∃ t, exec (.softError (.llc addr dirty) true) s = .next t ∧ t.dev = ce.dev ∧ t.memPoison = s.memPoison ∧ t.mem = s.mem) ∧
      (∃ t, exec (.softError (.llc addr dirty) false) s = .next t ∧
        (dirty = true → t.linePoison (addr / 128) = some (.outside 5) ∧ t.recordSeq = s.recordSeq + 1) ∧ (dirty = false → t.memPoison = s.memPoison)) ∧
      exec (.softError (.line addr) true) s = .next ce ∧
      (∃ t, exec (.softError (.line addr) false) s = .next t ∧ t.linePoison (addr / 128) = some (.outside 6) ∧ t.recordSeq = s.recordSeq + 1)) ∧
    (∀ tile addr, below (SMap.get 0 s.health.lane (64 * tile + addr % 256 / 4)) → (s.sline tile addr).pin ≠ none →
      (∃ t, exec (.softError (.scratch tile addr) true) s = .next t ∧ t.scratch = s.scratch ∧ t.dev = ce.dev) ∧
      (∃ t, exec (.softError (.scratch tile addr) false) s = .next t ∧ t.dev = ue.dev ∧
        t.sline tile addr = { s.sline tile addr with poison := some (.tile 1 (addr % 256 / 4) addr) })) ∧
    (∀ tile addr l, below (SMap.get 0 s.health.lane (64 * tile + addr % 256 / 4)) → s.cached tile (addr / 128) = some l →
      (∃ t, exec (.softError (.cache tile addr) true) s = .next t ∧ t.cache = s.cache ∧ t.dev = ce.dev) ∧
      (l.dirty = [] → ∃ t, exec (.softError (.cache tile addr) false) s = .next t ∧ t.cached tile (addr / 128) = none ∧ t.mem = s.mem ∧ t.dev = ce.dev) ∧
      (l.dirty ≠ [] → ∃ t, exec (.softError (.cache tile addr) false) s = .next t ∧ t.cached tile (addr / 128) = none ∧
        t.linePoison (addr / 128) = some (.tile 1 (addr % 256 / 4) addr))) ∧
    (∀ c n, exec (.softError (.loopBuffer c n) false) s = .next (ue.modCtx c fun x => { x with exec := x.exec.map fun h => { h with bad := some n } })) ∧
    (∀ q, ∃ t, exec (.softError (.queueState q) false) s = .next t ∧ t.dfld Dev.feQcfg q 62 1 = 1 ∧ t.recordSeq = s.recordSeq + 1 ∧ t.ctxs = s.ctxs) ∧
    exec (.softError .pendingVector false) s = .next { ce with pending := List.range 4096, wakeBy := s.now + wakeLimit } ∧
    (∀ n, ∃ t, exec (.softError (.controllerSram n) false) s = .next t ∧ (t.fc n).halted = true ∧ (t.fc n).cause = 2 ∧ t.recordSeq = s.recordSeq + 1) ∧
    (∀ c id f, (s.ctx c).flights.find? (·.id == id) = some f →
      (∃ t, exec (.softError (.datapath c id) false) s = .next t ∧ t.dev = ue.dev ∧
        ∀ g, g ∈ (t.ctx c).flights → g.id = id → g.poison = some (.tile ((f.lands.head?.map Landing.unit).getD 4) 0xFFFF 0)) ∧
      (∀ i j, let sub := 16 * f.unit.getD 0 + 4 * (i / 16) + j / 16
        below (SMap.get 0 s.health.subArray (48 * tileOf c + sub)) →
        (∃ t, exec (.softError (.matrix c id i j) true) s = .next t ∧ t.dev = ce.dev ∧ t.ctxs = s.ctxs) ∧
        (∃ t, exec (.softError (.matrix c id i j) false) s = .next t ∧ t.dev = ue.dev ∧ t.healthChanged = true ∧
          ∀ g, g ∈ (t.ctx c).flights → g.id = id → g.poison = some (.tile 8 (0x100 + sub) 0)))) ∧
    (∀ site err, (s.dfld Dev.reCtl 0 32 32 ≠ 0 → err ≠ 0 → exec (.patrolScrub site err) s = exec (.softError site (err == 1)) s) ∧
      (s.dfld Dev.reCtl 0 32 32 = 0 ∨ err = 0 → exec (.patrolScrub site err) s = .next s))) ∧
  (∀ (tile test : Nat) (s : State), let n := SMap.get Noise.good s.noise tile
    (n.failures.length < 2 ∨ (∃ a r, n.failures = a :: r ∧ a + 10 ^ 6 * cyclesPerUs ≤ s.now) → ∃ t, exec (.noiseHealthFail tile test) s = .next t ∧
      (SMap.get Noise.good t.noise tile).failed = true ∧ (SMap.get Noise.good t.noise tile).failures.head? = some s.now ∧
      t.recordSeq = s.recordSeq + 1 ∧ t.moves = s.moves) ∧
    (2 ≤ n.failures.length → (∀ a r, n.failures = a :: r → s.now < a + 10 ^ 6 * cyclesPerUs) → tile ∉ s.health.retired →
      (∀ m, m ∈ s.moves → m.retireTile ≠ some tile) → ∃ t m, exec (.noiseHealthFail tile test) s = .next t ∧
      (SMap.get Noise.good t.noise tile).failed = true ∧ m ∈ t.moves ∧ m.retireTile = some tile) ∧
    (n.failed = true → ∃ t, exec (.noiseSourceRestore tile) s = .next t ∧ (SMap.get Noise.good t.noise tile).failed = false ∧
      t = { s with noise := t.noise })) ∧
  (∀ s : State,
    let stored : Health := { s.health with generation := s.health.generation + 1 }
    (s.healthChanged = true → s.healthAt + 60 * 10 ^ 6 * cyclesPerUs ≤ s.now → exec .healthStoreUpdate s = .next { s with
      health := stored, healthCopies := stored :: s.healthCopies.take 1, healthChanged := false, healthAt := s.now }) ∧
    (s.healthChanged = false ∨ s.now < s.healthAt + 60 * 10 ^ 6 * cyclesPerUs → exec .healthStoreUpdate s = .next s) ∧
    (∀ sensor temp, s.thermal = true ∨ temp < 115 → exec (.thermalTrip sensor temp) s = .next s) ∧
    (∀ sensor temp, s.thermal = false → 115 ≤ temp → ∃ t, exec (.thermalTrip sensor temp) s = .next t ∧ t.thermal = true ∧ t.health = stored ∧
      t.recordSeq = s.recordSeq + 1 ∧ t.out = s.out ++ (List.range 8).map (fun n => (2 ^ 16 + n, [0x50, 0x0F])) ∧ t.ctxs = s.ctxs) ∧
    (∃ t, exec .coldReset s = .next t ∧ t.ctxs = [] ∧ t.mem = [] ∧ t.scratch = [] ∧ t.cache = [] ∧ t.tlb = [] ∧ t.posted = [] ∧ t.cmds = [] ∧
      t.groups = [] ∧ t.thermal = false ∧ t.conns = [] ∧ t.dget Dev.feQcfg 0 = 0 ∧
      t.dget Dev.feStat 0 = (if Config.firmwareOk s.fresh = true then 1 else 2) ∧ t.firmware = s.firmware ∧
      (∀ i, i < 4 → t.dget (Dev.secMeas0 + 8 * i) 0 = BitVec.ofNat 64 (natAt (sm3 s.firmwareBytes) (8 * i) 8)) ∧
      t.health = (if s.dfld Dev.reHclr 0 1 1 = 1 then Health.zero
        else if Config.flashValid (2 * s.fresh) = true then s.healthCopies[0]?.getD Health.zero
        else if Config.flashValid (2 * s.fresh + 1) = true then s.healthCopies[1]?.getD Health.zero else Health.zero)))

/-! ### The front end -/

/-- R338, R340, R341, R470: a store to a queue's notify word moves its TAIL and sets its pending bit, or stops the queue where its value
names no place in the ring; a queue not in service ignores it; a notify wakes the scanner; and the scanner visits the next pending queue,
takes the entries that the first one names into its controller's mailbox, and moves HEAD past them (an NENT of 0, above 4 or beyond TAIL:
log entry 27). -/
def Obligations.QueuesAndScanner : Prop :=
  (∀ (s : State) (q v : Nat),
    let head := s.dfld Dev.feQhead q 0 32
    let tail := s.dfld Dev.feQtail q 0 32
    let d := (v % 2 ^ 32 + 2 ^ 32 - head) % 2 ^ 32
    let runs : Prop := s.ready = true ∧ s.thermal = false ∧ s.dfld Dev.feQcfg q 63 1 = 1 ∧ s.dfld Dev.feQcfg q 62 1 = 0
    (runs → v < 2 ^ 32 → d ≤ 2 ^ s.dfld Dev.feQcfg q 48 5 → ∃ t, exec (.notifyStore q v) s = .next t ∧
      t = { s with dev := t.dev, pending := t.pending, wakeBy := t.wakeBy } ∧
      (∀ p, p ∈ t.pending ↔ p = q ∨ p ∈ s.pending) ∧ t.dfld Dev.feQtail q 0 32 = if (tail + 2 ^ 32 - head) % 2 ^ 32 < d then v else tail) ∧
    (∀ reason, runs → (2 ^ 32 ≤ v ∧ reason = 2) ∨ (v < 2 ^ 32 ∧ 2 ^ s.dfld Dev.feQcfg q 48 5 < d ∧ reason = 1) → ∃ t,
      exec (.notifyStore q v) s = .next t ∧ t.dfld Dev.feQcfg q 62 1 = 1 ∧ t.pending = s.pending ∧ t.recordSeq = s.recordSeq + 1) ∧
    (¬runs → exec (.notifyStore q v) s = .next s)) ∧
  (∀ s : State, exec .scannerWake s = .next (if s.pending = [] then s else { s with gated := false }) ∧
    ∀ g, exec (.scannerGating g) s = .next { s with gated := g, wakeBy := if s.gated = true then s.wakeBy else s.now + wakeLimit }) ∧
  (∀ (s : State) (q : Nat), s.ready = true → s.gated = false → s.thermal = false → q ∈ s.pending →
    (∀ p, p ∈ s.pending → p ≠ q → (q + 4096 - s.scanPos - 1) % 4096 < (p + 4096 - s.scanPos - 1) % 4096) →
    let u : State := { s with pending := s.pending.erase q, scanPos := q }
    let head := s.dfld Dev.feQhead q 0 32
    let left := (s.dfld Dev.feQtail q 0 32 + 2 ^ 32 - head) % 2 ^ 32
    let f := s.fc (q % 4)
    (s.queueRuns q = false ∨ left = 0 → exec (.scannerVisit q) s = .next u) ∧
    (s.queueRuns q = true → left ≠ 0 → 64 ≤ f.backlog → exec (.scannerVisit q) s = .next (u.setPending q)) ∧
    (s.queueRuns q = true → left ≠ 0 → f.backlog < 64 →
      let ends (v : State) (r : DevRead) : Prop :=
        (r = .waits → exec (.scannerVisit q) s = .next (v.setPending q)) ∧ (r = .poisoned → exec (.scannerVisit q) s = .next (v.stopQueue q 4)) ∧
        (r = .fails → exec (.scannerVisit q) s = .next (v.stopQueue q 3))
      (∀ v r, u.queueEntries q head 1 = (v, r) → ends v r) ∧
      (∀ v w e r, u.queueEntries q head 1 = (v, .bytes e) → let n := natAt e 1 1
        v.queueEntries q head (Nat.max 1 (Nat.min n 4)) = (w, r) → ends w r ∧
        ∀ bs, r = .bytes bs → w.fc (q % 4) = f → w.pending = u.pending → ∃ t, exec (.scannerVisit q) s = .next t ∧
          (t.fc (q % 4)).mailbox = f.mailbox ++ [(f.filled, ⟨q, w.dfld Dev.feQcfg q 56 6, bs, w.now, none⟩)] ∧ (t.fc (q % 4)).filled = f.filled + 1 ∧
          t.dget Dev.feQhead q = BitVec.ofNat 64 ((head + n) % 2 ^ 32) ∧ (∀ i, t.queueReply q i = none) ∧
          t.pending = if (head + n) % 2 ^ 32 = s.dfld Dev.feQtail q 0 32 then u.pending else (u.setPending q).pending)))

/-- R28, R34, R335-R337, R342-R346, R349, R360, R468, R471: a command whose dependences are met is admitted: a NOP signals, a LAUNCH queues
its group, a GRAPH loads its nodes, a REPART starts or moves the boundary; a malformed one ends with BADCMD, and a grid that its
partition does not hold with GRID; a REPART ends when every bank is Idle; and a controller that is late or executes an illegal bundle
halts, and else goes on with its firmware. -/
def Obligations.CommandsAreAdmitted : Prop :=
  (∀ (s u : State) (n slot : Nat) (k : Command),
    let is (op : Nat) : Command → Bool := fun k => k.opc == op && s.commandOk k
    let ends (v : State) (start : W64) (code : Nat) (w : State) : Prop :=
      v.writeSignal (.fc n) (0x0100 + n) k.vd (k.at 4 4) (k.at 8 8) (BitVec.ofNat 64 (k.at 0x30 8)) start code = (w, true)
    (s.dependences n slot k = (u, .met) →
      (s.served n (is 0) = [(slot, k)] → ∀ w, ends u u.time 0 w → exec (.nopCommand n) s = .next (w.consumeSlot n slot)) ∧
      (s.served n (is 1) = [(slot, k)] → (∀ g, g ∈ u.groups → g.mail ≠ some (n, slot)) →
        (u.gridOk (k.at 0x4C 1 == 1) (k.at 0x4D 1) (k.at 0x4A 1) (k.at 0x4B 1) = true → ∃ t g, exec (.launch n) s = .next t ∧
          t.groups = u.groups ++ [g] ∧ g.serial = u.gseq ∧ g.gid = k.at 4 4 ∧ g.vd = k.vd ∧ g.stab = k.at 0x40 8 ∧ g.scount = k.at 0x48 2 ∧
          g.gridX = k.at 0x4A 1 ∧ g.gridY = k.at 0x4B 1 ∧ g.prio = k.at 0x4E 2 ∧ g.placed = false ∧ g.mail = some (n, slot) ∧ g.queuedAt = k.placedAt ∧
          g.args = (List.range 15).map (fun i => BitVec.ofNat 64 (k.at (0x60 + 8 * i) 8)) ∧ t.gseq = (u.gseq + 1) % 2 ^ 32 ∧ t.fcs = u.fcs ∧
          t.ctxs = u.ctxs) ∧
        (u.gridOk (k.at 0x4C 1 == 1) (k.at 0x4D 1) (k.at 0x4A 1) (k.at 0x4B 1) = false → ∀ w, ends u u.time 1 w →
          exec (.launch n) s = .next (w.consumeSlot n slot))) ∧
      (s.served n (is 1) = [(slot, k)] → (∃ g, g ∈ u.groups ∧ g.mail = some (n, slot)) → exec (.launch n) s = .next u) ∧
      (s.served n (is 2) = [(slot, k)] → 16384 < u.nodes.length + k.at 4 4 → ∀ w, ends u u.time 2 w →
        exec (.graph n) s = .next (w.consumeSlot n slot)) ∧
      (s.served n (is 2) = [(slot, k)] → u.nodes.length + k.at 4 4 ≤ 16384 → ∀ v w bs l, u.devRead (.fc n) 0x0105 k.vd (k.at 0x38 8) (64 * k.at 4 4) = (v, .bytes bs) →
        nodesOf v.serial k.vd bs (k.at 4 4) = some l → v.graphOk l = true → ends v v.time 0 w →
        exec (.graph n) s = .next (({ w with nodes := w.nodes ++ l, serial := w.serial + 1 } : State).consumeSlot n slot)) ∧
      (s.served n (is 3) = [(slot, k)] → s.repartRuns = false → u.repartRuns = false → let new := k.at 0x38 3
        let moving (cl : Nat) : Prop := cl < 24 ∧ ((u.dfld Dev.pmMap 0 0 24).testBit cl ≠ new.testBit cl) ∧ u.retiredCl cl = false ∧
          ∀ m, m ∈ u.moves → cl ∉ m.clusters
        ((∀ cl, ¬moving cl) → ∀ w, ends u u.time 0 w → exec (.repart n) s = .next ((w.dsetFld Dev.pmMap 0 0 24 new).consumeSlot n slot)) ∧
        (∀ cl, moving cl → ∃ t m, exec (.repart n) s = .next t ∧ t.moves = u.moves ++ [m] ∧ m.newMask = new ∧ m.command = some k ∧
          m.retireTile = none ∧ (∀ c, c ∈ m.clusters ↔ moving c) ∧ t.dget Dev.pmMap 0 = u.dget Dev.pmMap 0))) ∧
    (∀ op i, (op, i) = (0, Instr.nopCommand n) ∨ (op, i) = (1, Instr.launch n) ∨ (op, i) = (2, Instr.graph n) ∨ (op, i) = (3, Instr.repart n) →
      s.served n (is op) = [(slot, k)] → (op = 3 → s.repartRuns = false) →
      (s.dependences n slot k = (u, .failed) → ∀ w, ends (u.unqueue n slot) (u.unqueue n slot).time 3 w → exec i s = .next (w.consumeSlot n slot)) ∧
      (s.dependences n slot k = (u, .open_) → exec i s = .next (u.unqueue n slot)) ∧
      (s.dependences n slot k = (u, .asked) → exec i s = .next u)) ∧
    (s.repartRuns = true → exec (.repart n) s = .next s) ∧
    (exec (.nopCommand n) s = .next (s.letIn n (fun t slot k => t.endCommand n slot k 0 id) (s.served n (is 0)))) ∧
    (exec (.graph n) s = .next (s.letIn n (fun t slot k => t.loadGraph n slot k) (s.served n (is 2)))) ∧
    (s.served n (fun k => !s.commandOk k) = [(slot, k)] → ∀ w, ends s s.time 2 w → exec (.badcmd n) s = .next (w.consumeSlot n slot))) ∧
  (∀ (s : State) (vd gid addr code : Nat) (user : DevUser) (source : Nat) (value start : W64), addr ≠ 0 → addr % 32 = 0 → ∀ v x,
    s.devXlat user source vd addr true = (v, .ok x) → x.fab = none → x.pa + 32 ≤ apertureBase →
    ∃ w, s.writeSignal user source vd gid addr value start code = (w, true) ∧
      MemoryTakes v w x.pa (toLE 8 value.toNat ++ toLE 8 start.toNat ++ toLE 8 (v.stamp source).2.toNat ++ toLE 4 code ++ zeros 4)) ∧
  (∀ (s : State) (m : Move) (k : Command) (w : State), s.moves.find? (fun m => m.retireTile.isNone) = some m → m.command = some k →
    (∀ c, c < 192 → clusterOf (tileOf c) ∈ m.clusters → (s.ctx c).st = .idle) → ∀ signalled,
    (s.dsetFld Dev.pmMap 0 0 24 m.newMask).writeSignal (.fc m.aux) (0x0100 + m.aux) k.vd (k.at 4 4) (k.at 8 8) (BitVec.ofNat 64 (k.at 0x30 8))
      m.startTs 0 = (w, signalled) →
    exec .repartCommit s = .next (if signalled = true then { w with moves := w.moves.filter fun r => r.retireTile.isSome } else w)) ∧
  (∀ (s : State) (n : Nat), let f := s.fc n
    n < 4 → s.ready = true → f.halted = false → s.thermal = false →
    (f.frameAt + 8 * cyclesPerUs < s.now → ∃ t, exec (.controllerFrame n) s = .next t ∧ (t.fc n).halted = true ∧ (t.fc n).cause = 3) ∧
    (s.now ≤ f.frameAt + 8 * cyclesPerUs → f.frameAt + 4 * cyclesPerUs ≤ s.now →
      exec (.controllerFrame n) s = .next (s.setFc n { f with frameAt := s.now })) ∧
    (s.now < f.frameAt + 4 * cyclesPerUs → f.bundles.length ≤ f.pc →
      (f.bundles = [] → exec (.controllerFrame n) s = .next s) ∧
      (f.bundles ≠ [] → ∃ t, exec (.controllerFrame n) s = .next t ∧ (t.fc n).halted = true ∧ (t.fc n).cause = 1)) ∧
    (s.now < f.frameAt + 4 * cyclesPerUs → ∀ ws, f.bundles[f.pc]? = some ws →
      (∀ slot h d num, fcBundle ws = some [(slot, .csrr h d num)] → h.pred = 7 → d < 64 → ∃ t, exec (.controllerFrame n) s = .next t ∧
        (t.fc n).pc = f.pc + 1 ∧ t.mem = s.mem ∧ ∀ r, r < 64 → (t.fc n).asCtx.sget r = if r = d ∧ d ≠ 0 then
          (if num = 0x100 then BitVec.ofNat 64 (f.filled % 2 ^ 32) else if num = 0x101 then BitVec.ofNat 64 (f.consumed % 2 ^ 32)
           else f.asCtx.csrValue 0 ⟨0xFFFF, f.pc⟩ num) else f.asCtx.sget r) ∧
      (∀ slot h a, fcBundle ws = some [(slot, .csrw h a 0x101)] → h.pred = 7 → f.filled < 2 ^ 32 → (f.asCtx.sget a).toNat ≤ f.filled → ∃ t,
        exec (.controllerFrame n) s = .next t ∧ (t.fc n).pc = f.pc + 1 ∧ (t.fc n).consumed = (f.asCtx.sget a).toNat ∧
        ∀ e, e ∈ (t.fc n).mailbox ↔ e ∈ f.mailbox ∧ (f.asCtx.sget a).toNat ≤ e.1) ∧
      (fcBundle ws = none → ∃ t, exec (.controllerFrame n) s = .next t ∧ (t.fc n).halted = true ∧ (t.fc n).cause = 1) ∧
      (∀ slot h bun, fcBundle ws = some [(slot, .br h 0xFFFF bun)] → h.pred = 7 → bun < f.bundles.length → ∃ t,
        exec (.controllerFrame n) s = .next t ∧ (t.fc n).pc = bun ∧ (∀ r, (t.fc n).asCtx.sget r = f.asCtx.sget r) ∧ t.mem = s.mem ∧ t.ctxs = s.ctxs) ∧
      (∀ slot h d a b, fcBundle ws = some [(slot, .add h d a (.reg b))] → h.pred = 7 → d < 64 → ∃ t,
        exec (.controllerFrame n) s = .next t ∧ (t.fc n).pc = f.pc + 1 ∧ t.mem = s.mem ∧
        ∀ r, r < 64 → (t.fc n).asCtx.sget r = if r = d ∧ d ≠ 0 then f.asCtx.sget a + f.asCtx.sget b else f.asCtx.sget r)))

/-- R28, R31-R34, R57, R345, R346, R349-R352, R361, R364: the next group in order whose placement is given starts all its tasks in one
step, each with its arguments and nothing else in its registers; a quantum and a slice end; a group of which nothing runs any more signals
and is gone; a node whose predecessors have ended is launched; and activation buffers are discarded and brought back by replay. -/
def Obligations.GroupsStartAndEnd : Prop :=
  (∀ (s : State) (g : Group) (n : Nat) (place : List (Nat × Nat)), s.group n = some g → s.mayPlace g = true →
    (s.gridOk g.learner g.mode g.gridX g.gridY = false → g.mail = none → exec (.launchPlacement n place) s =
      .next (s.modGroup n fun g => { g with placed := true, ending := true, error := 1, mail := none, startTs := s.time })) ∧
    (s.gridOk g.learner g.mode g.gridX g.gridY = true →
      (∀ l, place ≠ [] → s.seats g place = some l → s.isNext g = true → g.serial = n → ∃ t, exec (.launchPlacement n place) s = .next t ∧
        (∀ lx ly c, (lx, ly, c) ∈ l → let x := t.ctx c
          x.st = .running ∧ x.group = some n ∧ x.lx = lx ∧ x.ly = ly ∧ x.pc = ⟨0, 0⟩ ∧ x.exec.map (·.seg) = some 0 ∧
          (∀ i, x.sget i = if i = 0 then 0 else g.args.getD (i - 1) 0) ∧ x.g = [] ∧ x.v = [] ∧ x.t = [] ∧ x.p = 0 ∧ x.h = [] ∧ x.q = [] ∧
          x.csr = Ctx.resetCsr ∧ x.flights = [] ∧ x.poison = []) ∧
        (∀ c, (∀ lx ly, (lx, ly, c) ∉ l) → t.ctx c = s.ctx c) ∧
        (∀ k, k ∈ t.groups → k.serial = n → k.placed = true ∧ k.startTs = s.time ∧ k.startedAt = s.now) ∧ t.mem = s.mem) ∧
      (place = [] → (s.findPlace g).isSome = true → exec (.launchPlacement n place) s = .next s) ∧
      (place = [] → s.findPlace g = none → exec (.launchPlacement n place) s = .next (s.makeRoom g)) ∧
      (∀ v, place = [] → s.findPlace g = none → s.victims g = [v] →
        let leaving := (s.groups.filter s.leaves).map (·.serial)
        (s.without leaving).findPlace g = none → ((s.without (leaving ++ [v.serial])).findPlace g).isSome = true → v.class = 0 →
        exec (.launchPlacement n place) s =
          .next ((s.modGroup v.serial fun g => { g with drainChosen := true }).dcount Dev.scStat 0 0 16)))) ∧
  (∀ (s : State) (c n t₀ : Nat), (s.ctx c).group = some n → (s.ctx c).quantumFrom = some t₀ →
    let q := Nat.max (s.dfld Dev.scQmin 0 0 32) (s.saveCost n)
    (t₀ + q * cyclesPerUs ≤ s.now → exec (.quantumExpiry c) s = .next (s.modCtx c fun x => { x with quantumOver := true })) ∧
    (s.now < t₀ + q * cyclesPerUs → exec (.quantumExpiry c) s = .next s)) ∧
  (∀ (s : State) (g : Group) (n : Nat), s.group n = some g → let slice := s.dfld Dev.scSlice 0 0 32
    let q := s.quantum n
    slice ≠ 0 → g.placed = true → s.leaves g = false → s.groupCtxs n ≠ [] → g.sliceAt + Nat.max slice q * cyclesPerUs ≤ s.now →
    let u := (if slice < q then s.dcount Dev.scStat 0 48 16 else s).modGroup n fun g => { g with sliceAt := s.now }
    (s.withinQuantum n = true ∨ (∀ w, w ∈ s.groups → w.placed = true ∨ w.prio ≠ g.prio) →
      exec (.sliceEnd n) s = .next u) ∧
    (∀ w, s.withinQuantum n = false → w ∈ u.groups → u.mayPlace w = true → w.prio = g.prio → g.class = 0 →
      exec (.sliceEnd n) s = .next ((u.modGroup g.serial fun g => { g with drainChosen := true }).dcount Dev.scStat 0 0 16))) ∧
  (∀ (s : State) (g : Group) (n : Nat), s.group n = some g →
    (g.placed = true → s.groupCtxs g.serial = [] → s.groupImages g.serial = [] → s.groupImages n = [] → (∀ k, k ∈ s.cmds → k.group ≠ g.serial) →
      ∀ v signalled, s.writeSignal (.group n) 0x0105 g.vd g.gid g.sigAddr g.sigVal g.startTs g.error = (v, signalled) →
      exec (.taskGroupEnd n) s = .next (if signalled = true then { v.nodeEnds g with groups := v.groups.filter fun o => o.serial != n } else v)) ∧
    (g.ending = true → s.groupImages n ≠ [] → ∃ t, exec (.taskGroupEnd n) s = .next t ∧ t.groups = s.groups ∧
      ∀ i, i ∈ t.images → i ∈ s.images ∧ i.group ≠ n)) ∧
  (∀ (s v : State) (k : Node) (n : Nat) (bs : List Byte), s.node n = some k → s.ready = true → SMap.get 0 s.vdState k.vd = 0 → k.phase = 0 →
    (∀ p, p ∈ k.preds → ∃ o, s.node p = some o ∧ o.phase = 2 ∧ o.error = 0 ∧ o.discarded = false) →
    s.devRead (.node k.id) 0x0105 k.vd k.launch 256 = (v, .bytes bs) → v.nodes = s.nodes →
    natAt bs 0 1 = 1 → natAt bs 1 1 = 4 → natAt bs 2 2 = 0 → natAt bs 0x38 8 = 0 → natAt bs 8 8 % 32 = 0 → launchOk bs = true → ∀ w d, v.depsOf (.node k.id) (.dep 4 k.id) 0x0105 k.vd bs = (w, d) →
    (d = .open_ ∨ d = .asked → exec (.graphNodeLaunch n) s = .next w) ∧ (d = .failed → exec (.graphNodeLaunch n) s = .next (w.nodeFails k bs 3)) ∧
    (d = .met → let fits := w.gridOk (natAt bs 0x4C 1 == 1) (natAt bs 0x4D 1) (natAt bs 0x4A 1) (natAt bs 0x4B 1)
      (fits = false → exec (.graphNodeLaunch n) s = .next (w.nodeFails k bs 1)) ∧
      (fits = true → ∀ x b, w.backNode k = (x, b) →
        (b = .done → exec (.graphNodeLaunch n) s =
          .next ((x.queueGroup (x.groupOfBlock k.vd bs x.now (some k.id) none)).modNode k.id fun k => { k with phase := if k.phase = 3 then 4 else 1 })) ∧
        (b = .waits → exec (.graphNodeLaunch n) s = .next x) ∧ (b = .impossible → exec (.graphNodeLaunch n) s = .next (x.nodeFails k bs 2))))) ∧
  (∀ (s : State) (k : Node) (b : Nat), s.node b = some k →
    (s.ready = true → s.pool.length < s.dfld Dev.fePoolWm 0 0 32 → s.nextDiscard = some b → (∀ p u, (p, u) ∈ k.backed → s.pageBusy (s.unitAt u) = false) →
      ∃ t, exec (.activationDiscard b) s = .next t ∧ t.pool = s.pool ++ k.backed.map (·.2) ∧ t.ctxs = s.ctxs ∧
        (∀ g, g ∈ t.groups → g.placed = true ∨ ∀ o, o ∈ s.nodes → g.node = some o.id → b ∈ o.preds → o.phase ≠ 1) ∧
        ∀ o, o ∈ t.nodes → o.id = b → o.backed = [] ∧ o.discarded = true) ∧
    (k.discarded = true → k.error ≠ 7 → (∃ c, c ∈ s.nodes ∧ b ∈ c.preds ∧ s.nodeTurn c = true ∧ c.replayFor ≠ some b) →
      (∀ o, o ∈ s.nodes → o.replayFor ≠ some b) →
      let sub (o : Node) : Bool := decide (k.rstart ≤ o.id ∧ o.id < k.rstart + k.rcount) && o.graph == k.graph
      let again (o : Node) : Node := if (s.nodes.filter sub).any (fun m => m.id == o.id) then { o with phase := 3, replayFor := some b } else o
      (∀ o, o ∈ s.nodes → sub o = true → o.phase = 2 ∧ o.replayFor = none) → (∃ o, o ∈ s.nodes ∧ sub o = true) →
      (∀ v, s.backNode k = (v, .done) → exec (.bufferReplay b) s = .next { v with nodes := v.nodes.map again }) ∧
      (∀ v, s.backNode k = (v, .waits) → exec (.bufferReplay b) s = .next v) ∧
      (∀ v, s.backNode k = (v, .impossible) → exec (.bufferReplay b) s = .next (v.modNode b fun o => { o with error := 7 }))))

/-- R372: a virtual device stops: its contexts leave their banks, and when all are Idle it is stopped; it resumes; its images are
discarded, and their groups end. -/
def Obligations.VirtualDevicesStopAndResume : Prop :=
  ∀ (s : State) (vd : Nat), Configurable s →
    (SMap.get 0 s.vdState vd = 0 → ∃ t, exec (.vdStop vd) s = .next t ∧ t = { s with vdState := t.vdState, ctxs := t.ctxs } ∧
      SMap.get 0 t.vdState vd = 1 ∧ (∀ v, v ≠ vd → SMap.get 0 t.vdState v = SMap.get 0 s.vdState v) ∧
      (∀ c, (s.ctx c).group = none ∨ s.vdOf c ≠ vd → t.ctx c = s.ctx c) ∧
      (∀ c x g slot, s.ctxs = [(c, x)] → c < 192 → s.groupOf c = some g → g.vd = vd → x.stays = true → g.ending = false → g.class ≠ 0 →
        slot ∈ s.slots vd → s.slotHolds vd slot = false → ∃ free, (t.ctx c).st = .draining ∧ (t.ctx c).drainTo = .save 3 free ∧
          free ∈ s.slots vd ∧ s.slotHolds vd free = false)) ∧
    (SMap.get 0 s.vdState vd ≠ 0 → exec (.vdStop vd) s = .next s) ∧
    (SMap.get 0 s.vdState vd = 1 → (∀ c x, (c, x) ∈ s.ctxs → x.group = none ∨ s.vdOf c ≠ vd) → ∃ t, exec (.vdStopped vd) s = .next t ∧
      t = { s with vdState := t.vdState } ∧ SMap.get 0 t.vdState vd = 2) ∧
    (SMap.get 0 s.vdState vd = 2 → (∀ n, n ∈ s.slots vd → s.slotHolds vd n = true → ∃ i, i ∈ s.images ∧ i.vd = vd ∧ i.slot = n) →
      ∃ t, exec (.vdResume vd) s = .next t ∧ t = { s with vdState := t.vdState } ∧ SMap.get 0 t.vdState vd = 0) ∧
    (∀ n, SMap.get 0 s.vdState vd = 2 → (s.slots vd).filter (s.slotHolds vd) = [n] → (∀ i, i ∈ s.images → i.vd ≠ vd ∨ i.slot ≠ n) →
      ∃ t i, exec (.vdResume vd) s = .next t ∧ SMap.get 0 t.vdState vd = 0 ∧ t.images = s.images ++ [i] ∧ i.vd = vd ∧ i.slot = n ∧ i.foreign = true ∧
        (∃ g, g ∈ t.groups ∧ g.vd = vd ∧ g.serial = i.group ∧ g.serial = natAt (s.phys (s.slotBase vd n) 256) 0x4C 4)) ∧
    (∃ t, exec (.vdDiscard vd) s = .next t ∧ t.images = s.images.filter (fun i => i.vd != vd) ∧
      ∀ g, g ∈ t.groups → (∃ i, i ∈ s.images ∧ i.vd = vd ∧ i.group = g.serial) → g.ending = true)

/-! ### Translation -/

/-- R211, R222, R304, R369, R380-R383, R387, R424-R430: an invalidation drops the held translations that it covers, and with H the handles;
it is complete when the accesses of its VD that began before are performed; a reply closes a page request and lets what waited go on; a
held fault posts its request when there is room; and the eviction engine begins to move a page, commits it when every access that began
before is performed, or says why not. -/
def Obligations.TranslationsChange : Prop :=
  (∀ (s : State) (val : Nat), Configurable s → s.dfld Dev.mmInval 0 63 1 ≠ 1 → val.testBit 63 = true →
    let vd := val / 2 ^ 52 % 64
    let kind := val / 2 ^ 60 % 4
    let n := val % 2 ^ 16 + 1
    let va := s.dfld Dev.mmInvalx 0 0 3 * 2 ^ 36 + val / 2 ^ 16 % 2 ^ 36
    let ipa := val / 2 ^ 16 % 2 ^ 36
    let starts (i : Instr) (dropped : TlbEntry → Bool) (window : Handle → Bool) : Prop := ∃ t, exec i s = .next t ∧
      t.dev = (s.storeReg Dev.mmInval 0 val).dev ∧ t.tlb = s.tlb.filter (fun e => !(e.vd == vd && dropped e)) ∧ t.invals = s.invals ++ [⟨vd, s.serial⟩] ∧
      t.mem = s.mem ∧
      (val.testBit 62 = false → t.ctxs = s.ctxs ∧ t.invSeq = s.invSeq) ∧
      (val.testBit 62 = true → SMap.get 0 t.invSeq vd = SMap.get 0 s.invSeq vd + 1 ∧ ∀ c r, (t.ctx c).hget r =
        if ((s.ctx c).hget r).vd = vd ∧ window ((s.ctx c).hget r) = true then { (s.ctx c).hget r with valid := false } else (s.ctx c).hget r)
    (kind = 0 → starts (.invalWholeVd val) (fun _ => true) (fun _ => true)) ∧
    (kind = 1 → va + n ≤ 2 ^ 39 → starts (.invalStage1Pages val) (fun e => e.level == 3 || pagesMeet (e.va / 2 ^ 16) (2 ^ (e.size - 16)) va n)
      (fun h => pagesMeet (h.base / 2 ^ 16) (2 ^ (h.l2s - 16)) va n)) ∧
    (kind = 2 → starts (.invalStage2Pages val) (fun e => e.level == 3 || pagesMeet (e.xl.ipa / 2 ^ 16) (2 ^ (e.size - 16)) ipa n) (fun _ => true))) ∧
  (∀ (s : State) (v : Inval) (rest : List Inval), s.invals = v :: rest →
    (s.invalOpen v = false → exec .invalidationComplete s = .next (({ s with invals := rest } : State).dsetFld Dev.mmInval 0 63 1 0)) ∧
    (s.invalOpen v = true → exec .invalidationComplete s = .next s)) ∧
  (∀ (s : State) (val : Nat), Configurable s → let vd := s.selected .mmVd
    let id := val / 2 ^ 32 % 2 ^ 16
    let status := val % 2 ^ 8
    let u := s.storeReg Dev.mmPrreply vd val
    (∀ r, status < 2 → (s.openReqs vd).find? (·.id == id) = some r → let v := ({ u with reqs := u.reqs.erase r } : State).answerOthers r.key (status == 1)
      exec (.pageReply val) s = .next (v.ctxs.foldl (fun s (c, _) => if status = 0 then s.retryCtx r.key c else s.failCtx r.key c) v)) ∧
    (2 ≤ status ∨ (∀ r, r ∈ s.reqs → r.key.vd = vd → r.id ≠ id) → exec (.pageReply val) s = .next (u.dcount Dev.mmPrstat vd 48 16)) ∧
    (∀ r, status < 2 → (s.openReqs vd).find? (·.id == id) = some r → s.ctxs = [] → s.conns = [] → ∃ t, exec (.pageReply val) s = .next t ∧
      t.reqs = s.reqs.erase r ∧ t.dev = u.dev ∧ t.mem = s.mem ∧
      t.cmds = s.cmds.map (fun x => if x.wait = some r.key then { x with wait := none, denied := if status = 1 then some r.key else none } else x) ∧
      t.devWaits = if status = 1 then s.devWaits.map (fun w => if w.key = r.key then { w with denied := true } else w)
        else s.devWaits.filter (fun w => w.key != r.key)) ∧
    (∀ r c x va, (s.openReqs vd).find? (·.id == id) = some r → s.ctxs = [(c, x)] → x.waits = [(r.key, va)] → x.flights = [] → x.exec = none → x.idle = none →
      (∀ p, p ∈ s.posted → p.ctx ≠ c) →
      (status = 0 → x.faulted = true → x.st = .sleeping → x.sleep = none → ∃ t, exec (.pageReply val) s = .next t ∧ (t.ctx c).st = .running ∧
        (t.ctx c).waits = [] ∧ (t.ctx c).faulted = false ∧ (t.ctx c).notBefore = Nat.max x.notBefore (s.now + 1) ∧ t.reqs = s.reqs.erase r) ∧
      (status = 1 → ∃ t, exec (.pageReply val) s = .next t ∧ (t.ctx c).st = .dead ∧ t.reqs = s.reqs.erase r ∧
        (t.ctx c).deadRec = some (3, va / 2 ^ 16 % 2 ^ 39 + r.key.stage * 2 ^ 40)))) ∧
  (∀ (s : State) (vd : Nat) (r : PageReq), s.held.find? (·.key.vd == vd) = some r →
    (∀ i, s.freeReqId vd = some i → s.ringFull ringPrq vd = false → ∃ t, exec (.heldFaultPost vd) s = .next t ∧ t.held = s.held.erase r ∧
      t.reqs = s.reqs ++ [{ r with id := i }] ∧ t.dfld Dev.mmPrqtail vd 0 32 = (s.dfld Dev.mmPrqtail vd 0 32 + 1) % 2 ^ 32) ∧
    (s.freeReqId vd = none ∨ s.ringFull ringPrq vd = true → exec (.heldFaultPost vd) s = .next s)) ∧
  (∀ s : State,
    let head := s.dfld Dev.mmEvqhead 0 0 32
    let e := s.dfld Dev.mmEvq 0 12 40 * 4096 + 32 * (head % 2 ^ s.dfld Dev.mmEvq 0 0 5)
    let ipa := s.physNat e 8 % 2 ^ 52 / 2 ^ 16 * 2 ^ 16
    let new := s.physNat (e + 8) 8
    let vd := s.physNat (e + 0x10) 1 % 64
    (s.migr = none → s.dfld Dev.mmEvq 0 63 1 = 0 ∨ head = s.dfld Dev.mmEvqtail 0 0 32 → exec .evictionRequestService s = .next s) ∧
    (∀ m, s.migr = some m →
      (s.pageBusy m.old = true → exec .evictionRequestService s = .next s) ∧
      (s.pageBusy m.old = false → exec .evictionRequestService s = .next ((s.commitMigration m).evictEnds m.vd m.entry 1) ∧
        (s.commitMigration m).migr = none)) ∧
    (∀ old new k, k < 2 ^ 16 → old % 2 ^ 16 = 0 → new % 2 ^ 16 = 0 → Memory.wf s.mem = true →
      memByte (s.movePage old new).mem (new + k) = memByte s.mem (old + k)) ∧
    (s.migr = none → s.dfld Dev.mmEvq 0 63 1 = 1 → head ≠ s.dfld Dev.mmEvqtail 0 0 32 → e + 32 ≤ hbmSize →
      (∀ err, s.stage2 vd ipa = .error err → exec .evictionRequestService s = .next (s.evictEnds vd e 3)) ∧
      (∀ l, s.stage2 vd ipa = .ok l → l.size = 16 → l.fab = false → l.oa + 2 ^ 16 ≤ hbmSize → new + 2 ^ 16 ≤ hbmSize → new % 2 ^ 16 = 0 →
        s.inHeartwood l.oa = false → s.inHeartwood new = false →
        (s.poolPage vd ipa = none → ∃ t, exec .evictionRequestService s = .next t ∧ t.migr = some ⟨vd, ipa, l.oa, new, l.slot, e, none⟩ ∧
          t.mem = s.mem ∧ t.tlb = s.tlb.filter (fun k => !(k.vd == vd && (k.level == 3 || pagesMeet (k.xl.ipa / 2 ^ 16) (2 ^ (k.size - 16)) (ipa / 2 ^ 16) 1)))) ∧
        (∀ p i bs, s.poolPage vd ipa = some (p, i) → s.peek vd 2 (p.cbase + 16 * i) 16 = some bs →
          (0 < (Count.ofBytes bs).pin → exec .evictionRequestService s = .next (s.evictEnds vd e 2)) ∧
          ((Count.ofBytes bs).pin = 0 → exec .evictionRequestService s = .next
            (s.startMigration ⟨vd, ipa, l.oa, new, l.slot, e, some (p.cbase + 16 * i)⟩ (some (Count.ofBytes bs)))))) ∧
      (∀ status, s.ringFull ringNq vd = true → ∃ t, s.evictEnds vd e status = t ∧ memByte t.mem (e + 0x11) = BitVec.ofNat 8 status ∧
        t.dget Dev.mmEvqhead 0 = BitVec.ofNat 64 ((head + 1) % 2 ^ 32))))

/-! ### Drains, saving and restoring -/

/-- R36, R134, R362, R365, R367, R370-R373, R425, R434, R447-R451, R459: a draining context that is stuck on a page sleeps; one that leaves
its bank writes out what it has to, gives back what it holds, and leaves the bank Idle; a dead one leaves its record; a rerun ends by
running the phase once more, or, where the outcomes agree, by going on; a retirement takes the cluster out of service; a context that is
to be saved leaves its image in its slot; and an image is restored to the bank of its placement. -/
def Obligations.DrainsSavesAndRestores : Prop :=
  (∀ (s : State) (c : Nat), let x := s.ctx c
    x.st = .draining →
    (x.drainTo = .sleep → s.stuck c = true → exec (.drainComplete c) s = .next (s.setCtx c { x with st := .sleeping, drainTo := .none })) ∧
    (x.drainTo = .exit ∨ x.drainTo = .stop → s.landed c = true → x.streaming = false → s.writtenOut c = true → (∀ p, p ∈ s.posted → p.ctx ≠ c) →
      ∀ n u, x.group = some n → s.endHolds (taskKey n x.lx x.ly) false = (u, false) → exec (.drainComplete c) s = .next u) ∧
    (x.drainTo = .exit ∨ x.drainTo = .stop → s.landed c = true →
      (x.streaming = true → exec (.drainComplete c) s = .next (s.endStreams c)) ∧
      (x.streaming = false → s.writtenOut c = false → exec (.drainComplete c) s = .next (s.writeOut c)) ∧
      (x.streaming = false → s.writtenOut c = true → (∀ p, p ∈ s.posted → p.ctx ≠ c) → ∀ n u, x.group = some n →
        s.endHolds (taskKey n x.lx x.ly) false = (u, true) → ∃ t, exec (.drainComplete c) s = .next t ∧ t.ctx c = { Ctx.init with
          incarnation := ((u.dropReader x.wset x.version).ctx c).incarnation } ∧
          (∀ a l, (a, l) ∈ t.scratch → a / 2 ^ 15 = tileOf c → l.pin ≠ some (bankOf c)) ∧ (∀ m, m ∈ t.monitors → m.ctx ≠ c))) ∧
    (x.drainTo = .kill → s.cmdsOf c = [] → s.landed c = true → x.streaming = false → s.writtenOut c = true → (∀ p, p ∈ s.posted → p.ctx ≠ c) →
      ∀ n u, x.group = some n → s.endHolds (taskKey n x.lx x.ly) true = (u, true) →
        ∃ t, exec (.drainComplete c) s = .next t ∧ (t.ctx c).st = .idle ∧ (t.ctx c).group = none) ∧
    (∀ r, x.drainTo = .rollback → x.rerun = some r → r.refill = true → (∀ id, id ∈ r.cmds → ∀ k, k ∈ s.cmds → k.id ≠ id) →
      ∃ t, exec (.drainComplete c) s = .next t ∧ (t.ctx c).st = .running ∧ (t.ctx c).drainTo = .none ∧
        (t.ctx c).notBefore = Nat.max x.notBefore (s.now + 1) ∧ (t.ctx c).s = x.s ∧ (t.ctx c).pc = x.pc) ∧
    (∀ r o, x.drainTo = .rollback → x.rerun = some r → r.ended = some o → s.landed c = true → 2 ≤ r.run →
      let v := if r.origin = 1 then s.countHealth fun h => { h with unlocated := countUp 16 h.unlocated (tileOf c) } else s
      exec (.rerunEnd c) s = .next (if (r.first.map o.agrees).getD false = true then v.rerunAgrees c r o else v.retireTile (tileOf c) (some c) (2 ^ 9))) ∧
    (∀ r o, x.drainTo = .rollback → x.rerun = some r → r.ended = some o → s.landed c = true → r.run < 2 → exec (.rerunEnd c) s =
      .next (s.setCtx c { x with rerun := some { r with first := some o, ended := none, resume := none } })) ∧
    (∀ r o f, x.drainTo = .rollback → x.rerun = some r → r.ended = some o → s.landed c = true → r.run = 2 → r.first = some f → o.agrees f = true →
      o.trap = none → r.resume = none → x.exitPass = none → ∃ t, exec (.rerunEnd c) s = .next t ∧ (t.ctx c).st = .running ∧
        (t.ctx c).rerun = none ∧ (t.ctx c).drainTo = .none ∧ (t.ctx c).pc = x.pc ∧ SameRegisters x (t.ctx c)) ∧
    (∀ r o f, x.drainTo = .rollback → x.rerun = some r → r.ended = some o → s.landed c = true → r.run = 2 → r.first = some f → o.agrees f = false →
      tileOf c ∉ s.health.retired → (∀ m, m ∈ s.moves → m.retireTile ≠ some (tileOf c)) → ∃ t m, exec (.rerunEnd c) s = .next t ∧
        m ∈ t.moves ∧ m.retireTile = some (tileOf c)) ∧
    (∀ reason slot, x.drainTo = .save reason slot → s.readyToSave c = true →
      (s.writtenOut c = false → exec (.checkpointSave c) s = .next (s.writeOut c)) ∧
      (s.writtenOut c = true → (∀ p, p ∈ s.posted → p.ctx ≠ c) → exec (.checkpointSave c) s = .next (s.save c reason slot))) ∧
    (∀ reason slot n g, x.drainTo = .save reason slot → s.readyToSave c = true → s.writtenOut c = true → (∀ p, p ∈ s.posted → p.ctx ≠ c) →
      x.group = some n → s.group n = some g → let bs := s.imageBytes c g reason
      s.slotBase g.vd slot + bs.length ≤ hbmSize → ∃ t, exec (.checkpointSave c) s = .next t ∧
        memRead t.mem (s.slotBase g.vd slot) bs.length = bs ∧
        (∀ a, a < s.slotBase g.vd slot ∨ s.slotBase g.vd slot + bs.length ≤ a → memByte t.mem a = memByte s.mem a) ∧
        (t.ctx c).st = .idle ∧ (t.ctx c).group = none ∧ (∃ i, t.images = s.images ++ [i] ∧ i.vd = g.vd ∧ i.slot = slot ∧ i.group = g.serial ∧
          i.reason = reason ∧ i.lx = x.lx ∧ i.ly = x.ly ∧ i.foreign = false))) ∧
  (∀ (s u : State) (c n : Nat), let x := s.ctx c
    x.st = .dead → x.group = some n → s.deadCmds c = false → s.endHolds (taskKey n x.lx x.ly) true = (u, false) →
    exec (.deadDrainComplete c) s = .next u) ∧
  (∀ (s u : State) (c n : Nat), let x := s.ctx c
    x.st = .dead → x.group = some n → s.deadCmds c = false → s.endHolds (taskKey n x.lx x.ly) true = (u, true) →
    ∃ t, exec (.deadDrainComplete c) s = .next t ∧ (t.ctx c).st = .idle ∧ (t.ctx c).group = none ∧ u.recordSeq < t.recordSeq) ∧
  (∀ (s : State) (tile : Nat) (m : Move), s.moves.find? (fun m => m.retireTile == some tile) = some m →
    (∀ c, clusterOf (tileOf c) = clusterOf tile → c < 192 → (s.ctx c).st = .idle) → tile < 96 → ∃ t, exec (.retirementCommit tile) s = .next t ∧
      t.dfld Dev.pmMap 0 (24 + clusterOf tile) 1 = 1 ∧ tile ∈ t.health.retired ∧ t.health.generation = s.health.generation + 1 ∧
      t.moves = s.moves.filter (fun k => k.retireTile != some tile) ∧ t.recordSeq = s.recordSeq + 1) ∧
  (∀ (s : State) (i : Image) (g : Group) (tile b : Nat), s.images.find? (fun j => j.vd == i.vd && j.slot == i.slot) = some i → i.slot < 2 ^ 16 →
    s.imageMayReturn i = some g →
    (∀ reason, s.imageBad i.vd i.slot = some reason → exec (.contextRestore (i.vd * 2 ^ 16 + i.slot) tile b) s = .next (s.imageFails i reason)) ∧
    (∀ cl, s.imageBad i.vd i.slot = none → s.clusterFor g i = some cl → tileIn cl i.lx i.ly = tile →
      s.bankFor g.mode tile (imagePins (s.imageOn i)) = some b →
      exec (.contextRestore (i.vd * 2 ^ 16 + i.slot) tile b) s = .next (s.restore i (2 * tile + b)))) ∧
  (∀ (s : State) (i : Image) (g : Group) (cl b : Nat), s.images.find? (fun j => j.vd == i.vd && j.slot == i.slot) = some i → i.slot < 2 ^ 16 →
    s.imageMayReturn i = some g → s.imageBad i.vd i.slot = none → s.clusterFor g i = some cl →
    let tile := tileIn cl i.lx i.ly
    let bs := s.imageOn i
    let c := 2 * tile + b
    s.bankFor g.mode tile (imagePins bs) = some b → s.slotBase i.vd i.slot + 4 ≤ hbmSize → i.foreign = false → i.rerun = none → natAt bs 0x15 1 ≠ 1 →
    cursorsAt bs = [] → ∃ t, exec (.contextRestore (i.vd * 2 ^ 16 + i.slot) tile b) s = .next t ∧
      t.images = s.images.filter (fun j => !(j.vd == i.vd && j.slot == i.slot)) ∧ t.slotHolds i.vd i.slot = false ∧
      (t.ctx c).st = .running ∧ (t.ctx c).group = some i.group ∧ (t.ctx c).pc = ⟨natAt bs 0x18 2, natAt bs 0x1A 2⟩ ∧
      (t.ctx c).count = natAt bs 0x1C 4 ∧ (t.ctx c).p = BitVec.ofNat 7 (natAt bs 0x17 1) ∧
      (∀ n, 0 < n → n < 64 → (t.ctx c).sget n = BitVec.ofNat 64 (natAt bs ((sectionOf bs 0).1 + 8 * n) 8)) ∧
      (∀ n, n < 32 → (t.ctx c).gget n = BitVec.ofNat 64 (natAt bs ((sectionOf bs 1).1 + 8 * n) 8)) ∧
      (∀ n, n < 52 → (t.ctx c).vget n = vregAt bs ((sectionOf bs 8).1 + 304 * n)) ∧
      (∀ n, n < 24 → (t.ctx c).tget n = tregAt bs ((sectionOf bs 9).1 + 18448 * n)))

/-! ### Encoding -/

/-- R90-R93, R97, R98, R100, R112, R114, R115: a well-formed instruction is decoded from its own words, with every operand, and the
words that follow stay. -/
def Obligations.DecodeOfEncode : Prop :=
  ∀ (i : Instr) (rest : List W32), wellFormed i = true → decode (encode i ++ rest) = .ok (i, rest)

/-- R90, R98, R126, R133, R140, R146, R172, R195: words written out from the encoding entries and the worked encodings of the spec. -/
def Obligations.WrittenWordsDecode : Prop :=
  decode [0x9D5C0000#32] = .ok (.nop ⟨true, 7⟩, []) ∧
  decode [0x81000000#32] = .ok (.sched true 4 0 0 false, []) ∧
  decode [0xC75C7209#32, 0x40000001#32] = .ok (.div ⟨true, 7⟩ 7 8 9 2 true, []) ∧
  decode [0xDCFC0143#32, 0xFFFF0002#32] = .ok (.loop ⟨true, 7⟩ 5 3 0xFFFF 2, []) ∧
  decode [0xE45C2100#32, 0x00000314#32] = .ok (.trn ⟨true, 7⟩ 2 4 3 20, []) ∧
  decode [0xC87C507E#32, 0x00000147#32] = .ok (.vfma ⟨true, 7⟩ 5 1 62 ⟨0, 0, 0, 5, 7⟩, []) ∧
  decode [0x8BFC90C0#32] = .ok (.vffs ⟨true, 7⟩ 9 3 none, []) ∧
  decode [0xD15C7084#32, 0x6A800000#32] = .ok (.ldg ⟨true, 7⟩ 7 2 4 3 1 1 1 0, []) ∧
  decode [0xCC3C2146#32, 0x00E00000#32] = .ok (.mmaz ⟨true, 7⟩ 2 5 6 0 0 0 7 0, [])

/-- R92, R114, R417: a word of class 15, or of an operation that no class lists, is refused as ILLEGAL with reason 1, whatever its other
bits are and whatever word follows; no other word is refused for that. -/
def Obligations.UnassignedOperationsAreRefused : Prop :=
  ∀ (w : Nat) (x : Option Nat), fld w 26 4 ≠ 0 →
    (assigned (fld w 26 4) (fld w 21 5) = false → decodeNat w x = .error .unassignedOp) ∧
    (assigned (fld w 26 4) (fld w 21 5) = true → decodeNat w x ≠ .error .unassignedOp) ∧ Reject.unassignedOp.reason = 1

/-- R125: `lih` has op 24 of class 1, E = 1 and b = 0, and within one cycle s[d] takes the immediate above the low half of s[a]: after the
`add` of the rule, which gives its sum the low half, the 64-bit constant. -/
def Obligations.LihWritesTheHighHalf : Prop :=
  ∀ (h : Hdr) (d a imm : Nat), imm < 2 ^ 32 →
    encodeNat (.lih h d a imm) = some (wordOf h 1 1 24 d a 0, some imm) ∧
    ∀ s : State, goes h s →
      exec (.lih h d a imm) s = .next (s.land 1 [.sreg d (BitVec.ofNat 64 (imm * 2 ^ 32) ||| (s.me.sget a &&& 0xFFFFFFFF))]) ∧
      exec (.add h d 0 (.imm 0x56789ABC)) s = .next (s.land 1 [.sreg d 0x56789ABC]) ∧
      (s.me.sget a = 0x56789ABC → imm = 0x1234 → exec (.lih h d a imm) s = .next (s.land 1 [.sreg d 0x0000123456789ABC]))

/-! ### The step -/

/-- What a step runs. Every instruction and every event answers a next state in every state, be it a trap's entry or the end of a context.
The first word in hand; with none, the first event that is due; with none due, the event that the outside world
brings; and where a bundle of one instruction is what stands at the program counter of bank A of core 0, and its word is ready, the
instruction that its words decode to, in a state whose registers and memory are those of the state it is placed in. Each runs as `exec`
gives it, and the machine stops where it has addressed memory that does not exist (log entry 14; log entry 9 tells how an instruction is
placed; log entry 2, when an event comes). -/
def Obligations.StepRunsTheDecodedInstruction : Prop :=
  (∀ (i : Instr) (s : State), completes i s) ∧
  (∀ s f, s.bad = some f → step s = .fault f) ∧
  (∀ s w rest, s.bad = none → s.todo = w :: rest → step s = orFault (exec w.instr ({ s with todo := rest }.issueWord w))) ∧
  (∀ s e rest, s.bad = none → s.todo = [] → s.due = e :: rest → step s = orFault (exec e { s with due := rest })) ∧
  (∀ s n e rest, s.bad = none → s.todo = [] → s.due = [] → s.agenda = (n, e) :: rest → n ≤ s.now →
    step s = orFault (exec e { s with agenda := rest })) ∧
  (∀ (s : State) (i : Instr) (h : Hdr), wellFormed i = true → header i = some h → h.stop = true → isSync i = false →
    SMap.wf Ctx.init s.ctxs = true → s.thermal = false →
    let v := s.withBundle (encode i)
    let w : IssueWord := ⟨0, slotIn 0 (fld (wordNat i) 26 4), ⟨0, 0⟩, (s.ctx 0).preds, 0, 0, false, false, (s.ctx 0).bundles, i⟩
    v.wordsReady 0 [w] = true →
    ∃ (u : State) (b : Bool), step v = orFault (exec i (u.issueWord { w with begins := b })) ∧ u.todo = [] ∧ u.mem = s.mem ∧
      SameRegisters (s.ctx 0) (u.ctx 0) ∧ u.now = s.now)

/-- R104, R411, R412, R414, R416: an instruction word with a false predicate does nothing. One whose checks fail does not issue: the trap is
taken, which without a handler writes the three trap registers and drains the task to its end, every other register as it was. -/
def Obligations.PredicatesAndTraps : Prop :=
  ∀ (i : Instr) (h : Hdr) (s : State), header i = some h →
    let x := s.me
    (predOf s.cur.preds h.pred = false → x.poison = [] → exec i s = .next s) ∧
    (goes h s → ∀ t, (semOf i).chk s = some t → exec i s = .next (s.takeTrap s.cur.ctx t s.cur.slot s.cur.pend s.cur.pc)) ∧
    (goes h s → ∀ t, (semOf i).chk s = some t → t.cause < 8 → x.rerun = none → (x.cget csrTvec).getLsbD 32 = false → x.group = none →
      ∃ u, exec i s = .next u ∧
        let y := u.ctx s.cur.ctx
        y.st = .draining ∧ y.drainTo = .exit ∧ y.pend = [] ∧ u.todo = s.todo.filter (·.ctx ≠ s.cur.ctx) ∧
        y.cget csrTcause = BitVec.ofNat 64 (s.cur.slot * 256 + t.cause) ∧
        y.cget csrTinfo = BitVec.ofNat 64 (s.cur.pend.toNat * 2 ^ 63 + t.reason % 256 * 2 ^ 48 + t.detail % 2 ^ 48) ∧
        y.cget csrTloc = BitVec.ofNat 64 (s.cur.pc.seg * 2 ^ 16 + s.cur.pc.bun) ∧
        (∀ n, n ≠ csrTcause → n ≠ csrTinfo → n ≠ csrTloc → y.cget n = x.cget n) ∧
        y.s = x.s ∧ y.g = x.g ∧ y.v = x.v ∧ y.t = x.t ∧ y.p = x.p ∧ y.h = x.h ∧ y.q = x.q ∧ y.flights = x.flights ∧
        ∀ c, c ≠ s.cur.ctx → u.ctx c = s.ctx c)

/-! ### Invariants -/

/-- Every step keeps the canonical form of physical memory, in which equal memories are equal lists (the form, and that unlisted bytes read
as zero, are the model's own: log entry 1). -/
def Obligations.MemoryStaysCanonical : Prop :=
  ∀ s t : State, Memory.wf s.mem = true → step s = .next t → Memory.wf t.mem = true

/-- R25, R100, R358: the machine after cold reset: every bank is idle, with no task and no handle valid, no cluster is in the learner partition or
retired, the front end is not in service, and memory has its canonical form. That scalar registers and memory read as zero is the
model's choice (log entries 8 and 1). -/
def Obligations.ResetLeavesTheMachineIdle : Prop :=
  let s := State.reset
  (∀ c, (s.ctx c).st = .idle ∧ (s.ctx c).group = none ∧ (∀ n, ((s.ctx c).hget n).valid = false) ∧ ∀ n, (s.ctx c).sget n = 0) ∧
  s.dget Dev.pmMap 0 = 0 ∧ s.ready = false ∧ s.now = 0 ∧ Memory.wf s.mem = true ∧ ∀ a, memByte s.mem a = 0
end

