-- ==== Sys2Proof/Laws/SMap.lean ====
section
/-!
SUPPORT. Laws of the sparse tables: reading after a write, and their canonical form.
-/

set_option Elab.async false

namespace Sys2Proof.Machine

theorem SMap.get_nil {α : Type} (d : α) (n : Nat) : SMap.get d [] n = d := rfl

theorem SMap.get_del_self {α : Type} (d : α) (m : SMap α) (n : Nat) : SMap.get d (SMap.del m n) n = d := by
  induction m with
  | nil => rfl
  | cons p m ih =>
    simp only [SMap.del]
    split
    · exact ih
    · simp_all [SMap.get]

theorem SMap.get_del_other {α : Type} (d : α) (m : SMap α) {n k : Nat} (h : k ≠ n) :
    SMap.get d (SMap.del m n) k = SMap.get d m k := by
  induction m with
  | nil => rfl
  | cons p m ih =>
    obtain ⟨j, w⟩ := p
    simp only [SMap.del]
    by_cases hj : j = n
    · have hk : ¬ j = k := fun e => h (e ▸ hj)
      simp [hj, SMap.get, ih, hj ▸ hk]
    · simp [hj, SMap.get, ih]

theorem SMap.get_ins_self {α : Type} (d : α) (m : SMap α) (n : Nat) (v : α) (hn : n ∉ SMap.keys m) :
    SMap.get d (SMap.ins m n v) n = v := by
  induction m with
  | nil => simp [SMap.ins, SMap.get]
  | cons p m ih =>
    obtain ⟨j, w⟩ := p
    simp only [SMap.keys, List.map_cons, List.mem_cons, not_or] at hn
    simp only [SMap.ins]
    split
    · simp [SMap.get]
    · have hj : ¬ j = n := fun e => hn.1 e.symm
      simp [SMap.get, hj, ih hn.2]

theorem SMap.get_ins_other {α : Type} (d : α) (m : SMap α) {n k : Nat} (v : α) (h : k ≠ n) :
    SMap.get d (SMap.ins m n v) k = SMap.get d m k := by
  have hk : ¬ n = k := fun e => h e.symm
  induction m with
  | nil => simp [SMap.ins, SMap.get, hk]
  | cons p m ih =>
    obtain ⟨j, w⟩ := p
    simp only [SMap.ins]
    split
    · simp [SMap.get, hk]
    · simp [SMap.get, ih]

theorem SMap.notin_del {α : Type} (m : SMap α) (n : Nat) : n ∉ SMap.keys (SMap.del m n) := by
  induction m with
  | nil => simp [SMap.del, SMap.keys]
  | cons p m ih =>
    obtain ⟨j, w⟩ := p
    simp only [SMap.del]
    split
    · exact ih
    · rename_i h
      simp only [SMap.keys, List.map_cons, List.mem_cons, not_or]
      exact ⟨fun e => h e.symm, ih⟩

theorem SMap.del_absent {α : Type} (m : SMap α) (n : Nat) (h : n ∉ SMap.keys m) : SMap.del m n = m := by
  induction m with
  | nil => rfl
  | cons e m ih =>
    obtain ⟨k, w⟩ := e
    simp only [SMap.keys, List.map_cons, List.mem_cons, not_or] at h
    simp only [SMap.del]
    rw [if_neg fun e => h.1 e.symm, ih h.2]

theorem SMap.del_ins {α : Type} (m : SMap α) (n : Nat) (a : α) (h : n ∉ SMap.keys m) :
    SMap.del (SMap.ins m n a) n = m := by
  induction m with
  | nil => simp [SMap.ins, SMap.del]
  | cons e m ih =>
    obtain ⟨k, w⟩ := e
    have h' := h
    simp only [SMap.keys, List.map_cons, List.mem_cons, not_or] at h'
    have hk : ¬ k = n := fun e => h'.1 e.symm
    simp only [SMap.ins]
    split
    · simp only [SMap.del, if_true, if_neg hk, SMap.del_absent m n h'.2]
    · simp only [SMap.del, if_neg hk, ih h'.2]

/-- Of two writes of one entry the second stands. -/
theorem SMap.set_set {α : Type} [DecidableEq α] (d : α) (m : SMap α) (n : Nat) (a b : α) :
    SMap.set d (SMap.set d m n a) n b = SMap.set d m n b := by
  have h : SMap.del (SMap.set d m n a) n = SMap.del m n := by
    unfold SMap.set
    split
    · exact SMap.del_absent _ _ (SMap.notin_del m n)
    · exact SMap.del_ins _ _ _ (SMap.notin_del m n)
  have e : ∀ k : SMap α, SMap.set d k n b = if b = d then SMap.del k n else SMap.ins (SMap.del k n) n b := fun _ => rfl
  rw [e, e m, h]

/-- A read after a write of the same entry gives what was written. -/
@[simp] theorem SMap.get_set_self {α : Type} [DecidableEq α] (d : α) (m : SMap α) (n : Nat) (v : α) :
    SMap.get d (SMap.set d m n v) n = v := by
  unfold SMap.set
  split
  · rename_i h; rw [SMap.get_del_self, h]
  · exact SMap.get_ins_self d _ n v (SMap.notin_del m n)

/-- A write leaves every other entry alone. -/
theorem SMap.get_set_other {α : Type} [DecidableEq α] (d : α) (m : SMap α) {n k : Nat} (v : α) (h : k ≠ n) :
    SMap.get d (SMap.set d m n v) k = SMap.get d m k := by
  unfold SMap.set
  split
  · exact SMap.get_del_other d m h
  · rw [SMap.get_ins_other d _ v h, SMap.get_del_other d m h]

/-- What an entry reads after a write. -/
theorem SMap.get_set {α : Type} [DecidableEq α] (d : α) (m : SMap α) (n k : Nat) (v : α) :
    SMap.get d (SMap.set d m n v) k = if k = n then v else SMap.get d m k := by
  by_cases h : k = n
  · subst h; simp
  · simp [h, SMap.get_set_other d m v h]

/-! ### Canonical form -/

/-- A table in canonical form whose keys all lie above a bound. -/
def SMap.above {α : Type} [DecidableEq α] (d : α) (lo : Nat) : SMap α → Prop
  | [] => True
  | (k, v) :: m => v ≠ d ∧ lo ≤ k ∧ SMap.above d (k + 1) m

theorem SMap.above_mono {α : Type} [DecidableEq α] (d : α) {lo lo' : Nat} (m : SMap α) (h : lo' ≤ lo)
    (hm : SMap.above d lo m) : SMap.above d lo' m := by
  cases m with
  | nil => trivial
  | cons p m => exact ⟨hm.1, Nat.le_trans h hm.2.1, hm.2.2⟩

theorem SMap.wf_cons {α : Type} [DecidableEq α] (d : α) (k : Nat) (v : α) (m : SMap α) :
    SMap.wf d ((k, v) :: m) = true ↔ v ≠ d ∧ SMap.above d (k + 1) m := by
  induction m generalizing k v with
  | nil => simp [SMap.wf, SMap.above]
  | cons p m ih =>
    obtain ⟨j, w⟩ := p
    simp only [SMap.wf, Bool.and_eq_true, decide_eq_true_eq, SMap.above, ih]
    constructor
    · rintro ⟨⟨a, b⟩, c, e⟩; exact ⟨a, c, b, e⟩
    · rintro ⟨a, c, b, e⟩; exact ⟨⟨a, b⟩, c, e⟩

theorem SMap.wf_iff {α : Type} [DecidableEq α] (d : α) (m : SMap α) : SMap.wf d m = true ↔ SMap.above d 0 m := by
  cases m with
  | nil => simp [SMap.wf, SMap.above]
  | cons p m =>
    obtain ⟨k, v⟩ := p
    simp [SMap.wf_cons, SMap.above]

theorem SMap.above_del {α : Type} [DecidableEq α] (d : α) (lo n : Nat) (m : SMap α) (h : SMap.above d lo m) :
    SMap.above d lo (SMap.del m n) := by
  induction m generalizing lo with
  | nil => trivial
  | cons p m ih =>
    obtain ⟨k, v⟩ := p
    simp only [SMap.del]
    split
    · have hk := h.2.1
      exact SMap.above_mono d _ (by omega : lo ≤ k + 1) (ih _ h.2.2)
    · exact ⟨h.1, h.2.1, ih _ h.2.2⟩

theorem SMap.above_ins {α : Type} [DecidableEq α] (d : α) (lo n : Nat) (v : α) (m : SMap α) (h : SMap.above d lo m)
    (hn : lo ≤ n) (hv : v ≠ d) (hk : n ∉ SMap.keys m) : SMap.above d lo (SMap.ins m n v) := by
  induction m generalizing lo with
  | nil => exact ⟨hv, hn, trivial⟩
  | cons p m ih =>
    obtain ⟨k, w⟩ := p
    simp only [SMap.keys, List.map_cons, List.mem_cons, not_or] at hk
    simp only [SMap.ins]
    split
    · rename_i hlt
      exact ⟨hv, hn, h.1, by omega, h.2.2⟩
    · rename_i hlt
      exact ⟨h.1, h.2.1, ih _ h.2.2 (by have := hk.1; omega) hk.2⟩

/-- A write keeps the canonical form. -/
theorem SMap.wf_set {α : Type} [DecidableEq α] (d : α) (m : SMap α) (n : Nat) (v : α) (h : SMap.wf d m = true) :
    SMap.wf d (SMap.set d m n v) = true := by
  rw [SMap.wf_iff] at h ⊢
  unfold SMap.set
  split
  · exact SMap.above_del d 0 n m h
  · rename_i hv
    exact SMap.above_ins d 0 n v _ (SMap.above_del d 0 n m h) (Nat.zero_le n) hv (SMap.notin_del m n)

/-! ### Physical memory -/

/-- A write of bytes keeps the canonical form of memory. -/
theorem memWrite_wf (m : Memory) (a : Nat) (bs : List Byte) (h : Memory.wf m = true) : Memory.wf (memWrite m a bs) = true := by
  induction bs generalizing m a with
  | nil => exact h
  | cons b bs ih => exact ih _ _ (SMap.wf_set _ _ _ _ h)

/-- A write of bytes leaves every byte outside them alone. -/
theorem memByte_memWrite_other (m : Memory) (a : Nat) (bs : List Byte) {k : Nat} (h : k < a ∨ a + bs.length ≤ k) :
    memByte (memWrite m a bs) k = memByte m k := by
  induction bs generalizing m a with
  | nil => rfl
  | cons b bs ih =>
    simp only [List.length_cons] at h
    rw [memWrite, ih _ _ (by omega), memByte, memByte, SMap.get_set_other _ _ _ (by omega)]

/-- A write of bytes is read back. -/
theorem memByte_memWrite_self (m : Memory) (a : Nat) (bs : List Byte) {k : Nat} (h : k < bs.length) :
    memByte (memWrite m a bs) (a + k) = bs[k] := by
  induction bs generalizing m a k with
  | nil => simp at h
  | cons b bs ih =>
    cases k with
    | zero =>
      rw [memWrite, memByte_memWrite_other _ _ _ (by omega), memByte]
      simp
    | succ k =>
      have := ih (SMap.set 0 m a b) (a + 1) (by simpa using h)
      simpa [memWrite, Nat.add_assoc, Nat.add_comm 1 k] using this

/-- Reading back the bytes of a write. -/
theorem memRead_memWrite (m : Memory) (a : Nat) (bs : List Byte) : memRead (memWrite m a bs) a bs.length = bs := by
  suffices h : ∀ n k, k + n = bs.length → memRead (memWrite m a bs) (a + k) n = bs.drop k by
    simpa using h bs.length 0 (by simp)
  intro n
  induction n with
  | zero => intro k hk; simp [memRead, List.drop_eq_nil_of_le (by omega : bs.length ≤ k)]
  | succ n ih =>
    intro k hk
    have hlt : k < bs.length := by omega
    rw [memRead, memByte_memWrite_self m a bs hlt, Nat.add_assoc, ih (k + 1) (by omega)]
    exact (List.drop_eq_getElem_cons hlt).symm

/-- As many bytes are read as are asked for. -/
@[simp] theorem memRead_length (m : Memory) (a n : Nat) : (memRead m a n).length = n := by
  induction n generalizing a with
  | zero => rfl
  | succ n ih => simp [memRead, ih]

/-- A range is read in two parts. -/
theorem memRead_append (m : Memory) (a i j : Nat) : memRead m a (i + j) = memRead m a i ++ memRead m (a + i) j := by
  induction i generalizing a with
  | zero => simp [memRead]
  | succ i ih => rw [Nat.succ_add, memRead, memRead, ih, Nat.add_right_comm, Nat.add_assoc, List.cons_append]

/-- Memories that agree on a range read alike there. -/
theorem memRead_congr {m k : Memory} (a n : Nat) (h : ∀ i, a ≤ i → i < a + n → memByte m i = memByte k i) : memRead m a n = memRead k a n := by
  induction n generalizing a with
  | zero => rfl
  | succ n ih => rw [memRead, memRead, h a (by omega) (by omega), ih (a + 1) fun i h₁ h₂ => h i (by omega) (by omega)]

/-- A part of a range that is read is that part of memory. -/
theorem slice_memRead (m : Memory) (a len : Nat) {off n : Nat} (h : off + n ≤ len) : slice (memRead m a len) off n = memRead m (a + off) n := by
  obtain ⟨k, rfl⟩ : ∃ k, len = off + (n + k) := ⟨len - off - n, by omega⟩
  simp [slice, zeros, memRead_append m a off, memRead_append m (a + off) n]

/-- Past the last byte that is listed memory reads as zero. -/
theorem memByte_above {m : Memory} {n k : Nat} (h : m.all (fun p => decide (p.1 < n)) = true) (hk : n ≤ k) : memByte m k = 0 := by
  induction m with
  | nil => rfl
  | cons p m ih =>
    simp only [List.all_cons, Bool.and_eq_true, decide_eq_true_eq] at h
    rw [memByte, SMap.get, if_neg (by omega)]
    exact ih h.2

end Sys2Proof.Machine
end

