-- ==== Sys2Proof/Laws/State.lean ====
section
/-!
SUPPORT. One lemma for each field and each update of the state and of a context.
-/

set_option Elab.async false

namespace Sys2Proof.Machine

/-! ### The state -/

@[simp] theorem State.setCtx_now (s : State) (c : Nat) (x : Ctx) : (s.setCtx c x).now = s.now := rfl
@[simp] theorem State.setCtx_tsc (s : State) (c : Nat) (x : Ctx) : (s.setCtx c x).tsc = s.tsc := rfl
@[simp] theorem State.setCtx_tscRate (s : State) (c : Nat) (x : Ctx) : (s.setCtx c x).tscRate = s.tscRate := rfl
@[simp] theorem State.setCtx_mem (s : State) (c : Nat) (x : Ctx) : (s.setCtx c x).mem = s.mem := rfl
@[simp] theorem State.setCtx_memPoison (s : State) (c : Nat) (x : Ctx) : (s.setCtx c x).memPoison = s.memPoison := rfl
@[simp] theorem State.setCtx_scratch (s : State) (c : Nat) (x : Ctx) : (s.setCtx c x).scratch = s.scratch := rfl
@[simp] theorem State.setCtx_cache (s : State) (c : Nat) (x : Ctx) : (s.setCtx c x).cache = s.cache := rfl
@[simp] theorem State.setCtx_tlb (s : State) (c : Nat) (x : Ctx) : (s.setCtx c x).tlb = s.tlb := rfl
@[simp] theorem State.setCtx_posted (s : State) (c : Nat) (x : Ctx) : (s.setCtx c x).posted = s.posted := rfl
@[simp] theorem State.setCtx_monitors (s : State) (c : Nat) (x : Ctx) : (s.setCtx c x).monitors = s.monitors := rfl
@[simp] theorem State.setCtx_flags (s : State) (c : Nat) (x : Ctx) : (s.setCtx c x).flags = s.flags := rfl
@[simp] theorem State.setCtx_promotions (s : State) (c : Nat) (x : Ctx) : (s.setCtx c x).promotions = s.promotions := rfl
@[simp] theorem State.setCtx_cmds (s : State) (c : Nat) (x : Ctx) : (s.setCtx c x).cmds = s.cmds := rfl
@[simp] theorem State.setCtx_reqs (s : State) (c : Nat) (x : Ctx) : (s.setCtx c x).reqs = s.reqs := rfl
@[simp] theorem State.setCtx_held (s : State) (c : Nat) (x : Ctx) : (s.setCtx c x).held = s.held := rfl
@[simp] theorem State.setCtx_invals (s : State) (c : Nat) (x : Ctx) : (s.setCtx c x).invals = s.invals := rfl
@[simp] theorem State.setCtx_invSeq (s : State) (c : Nat) (x : Ctx) : (s.setCtx c x).invSeq = s.invSeq := rfl
@[simp] theorem State.setCtx_invRanges (s : State) (c : Nat) (x : Ctx) : (s.setCtx c x).invRanges = s.invRanges := rfl
@[simp] theorem State.setCtx_dev (s : State) (c : Nat) (x : Ctx) : (s.setCtx c x).dev = s.dev := rfl
@[simp] theorem State.setCtx_pending (s : State) (c : Nat) (x : Ctx) : (s.setCtx c x).pending = s.pending := rfl
@[simp] theorem State.setCtx_scanPos (s : State) (c : Nat) (x : Ctx) : (s.setCtx c x).scanPos = s.scanPos := rfl
@[simp] theorem State.setCtx_gated (s : State) (c : Nat) (x : Ctx) : (s.setCtx c x).gated = s.gated := rfl
@[simp] theorem State.setCtx_devWaits (s : State) (c : Nat) (x : Ctx) : (s.setCtx c x).devWaits = s.devWaits := rfl
@[simp] theorem State.setCtx_fcs (s : State) (c : Nat) (x : Ctx) : (s.setCtx c x).fcs = s.fcs := rfl
@[simp] theorem State.setCtx_groups (s : State) (c : Nat) (x : Ctx) : (s.setCtx c x).groups = s.groups := rfl
@[simp] theorem State.setCtx_nodes (s : State) (c : Nat) (x : Ctx) : (s.setCtx c x).nodes = s.nodes := rfl
@[simp] theorem State.setCtx_pool (s : State) (c : Nat) (x : Ctx) : (s.setCtx c x).pool = s.pool := rfl
@[simp] theorem State.setCtx_images (s : State) (c : Nat) (x : Ctx) : (s.setCtx c x).images = s.images := rfl
@[simp] theorem State.setCtx_moves (s : State) (c : Nat) (x : Ctx) : (s.setCtx c x).moves = s.moves := rfl
@[simp] theorem State.setCtx_vdState (s : State) (c : Nat) (x : Ctx) : (s.setCtx c x).vdState = s.vdState := rfl
@[simp] theorem State.setCtx_gseq (s : State) (c : Nat) (x : Ctx) : (s.setCtx c x).gseq = s.gseq := rfl
@[simp] theorem State.setCtx_lastMgmt (s : State) (c : Nat) (x : Ctx) : (s.setCtx c x).lastMgmt = s.lastMgmt := rfl
@[simp] theorem State.setCtx_hlines (s : State) (c : Nat) (x : Ctx) : (s.setCtx c x).hlines = s.hlines := rfl
@[simp] theorem State.setCtx_extents (s : State) (c : Nat) (x : Ctx) : (s.setCtx c x).extents = s.extents := rfl
@[simp] theorem State.setCtx_matQueue (s : State) (c : Nat) (x : Ctx) : (s.setCtx c x).matQueue = s.matQueue := rfl
@[simp] theorem State.setCtx_ringHolds (s : State) (c : Nat) (x : Ctx) : (s.setCtx c x).ringHolds = s.ringHolds := rfl
@[simp] theorem State.setCtx_pins (s : State) (c : Nat) (x : Ctx) : (s.setCtx c x).pins = s.pins := rfl
@[simp] theorem State.setCtx_conns (s : State) (c : Nat) (x : Ctx) : (s.setCtx c x).conns = s.conns := rfl
@[simp] theorem State.setCtx_fabReqs (s : State) (c : Nat) (x : Ctx) : (s.setCtx c x).fabReqs = s.fabReqs := rfl
@[simp] theorem State.setCtx_egress (s : State) (c : Nat) (x : Ctx) : (s.setCtx c x).egress = s.egress := rfl
@[simp] theorem State.setCtx_ports (s : State) (c : Nat) (x : Ctx) : (s.setCtx c x).ports = s.ports := rfl
@[simp] theorem State.setCtx_collIn (s : State) (c : Nat) (x : Ctx) : (s.setCtx c x).collIn = s.collIn := rfl
@[simp] theorem State.setCtx_noise (s : State) (c : Nat) (x : Ctx) : (s.setCtx c x).noise = s.noise := rfl
@[simp] theorem State.setCtx_health (s : State) (c : Nat) (x : Ctx) : (s.setCtx c x).health = s.health := rfl
@[simp] theorem State.setCtx_healthCopies (s : State) (c : Nat) (x : Ctx) : (s.setCtx c x).healthCopies = s.healthCopies := rfl
@[simp] theorem State.setCtx_healthChanged (s : State) (c : Nat) (x : Ctx) : (s.setCtx c x).healthChanged = s.healthChanged := rfl
@[simp] theorem State.setCtx_healthAt (s : State) (c : Nat) (x : Ctx) : (s.setCtx c x).healthAt = s.healthAt := rfl
@[simp] theorem State.setCtx_recordSeq (s : State) (c : Nat) (x : Ctx) : (s.setCtx c x).recordSeq = s.recordSeq := rfl
@[simp] theorem State.setCtx_thermal (s : State) (c : Nat) (x : Ctx) : (s.setCtx c x).thermal = s.thermal := rfl
@[simp] theorem State.setCtx_agenda (s : State) (c : Nat) (x : Ctx) : (s.setCtx c x).agenda = s.agenda := rfl
@[simp] theorem State.setCtx_due (s : State) (c : Nat) (x : Ctx) : (s.setCtx c x).due = s.due := rfl
@[simp] theorem State.setCtx_todo (s : State) (c : Nat) (x : Ctx) : (s.setCtx c x).todo = s.todo := rfl
@[simp] theorem State.setCtx_visit (s : State) (c : Nat) (x : Ctx) : (s.setCtx c x).visit = s.visit := rfl
@[simp] theorem State.setCtx_cur (s : State) (c : Nat) (x : Ctx) : (s.setCtx c x).cur = s.cur := rfl
@[simp] theorem State.setCtx_fresh (s : State) (c : Nat) (x : Ctx) : (s.setCtx c x).fresh = s.fresh := rfl
@[simp] theorem State.setCtx_serial (s : State) (c : Nat) (x : Ctx) : (s.setCtx c x).serial = s.serial := rfl
@[simp] theorem State.setCtx_firmware (s : State) (c : Nat) (x : Ctx) : (s.setCtx c x).firmware = s.firmware := rfl
@[simp] theorem State.setCtx_migr (s : State) (c : Nat) (x : Ctx) : (s.setCtx c x).migr = s.migr := rfl
@[simp] theorem State.setCtx_wakeBy (s : State) (c : Nat) (x : Ctx) : (s.setCtx c x).wakeBy = s.wakeBy := rfl
@[simp] theorem State.setCtx_ringPuts (s : State) (c : Nat) (x : Ctx) : (s.setCtx c x).ringPuts = s.ringPuts := rfl
@[simp] theorem State.setCtx_stamps (s : State) (c : Nat) (x : Ctx) : (s.setCtx c x).stamps = s.stamps := rfl
@[simp] theorem State.setCtx_out (s : State) (c : Nat) (x : Ctx) : (s.setCtx c x).out = s.out := rfl
@[simp] theorem State.setCtx_bad (s : State) (c : Nat) (x : Ctx) : (s.setCtx c x).bad = s.bad := rfl

@[simp] theorem State.modCtx_now (s : State) (c : Nat) (g : Ctx → Ctx) : (s.modCtx c g).now = s.now := rfl
@[simp] theorem State.modCtx_tsc (s : State) (c : Nat) (g : Ctx → Ctx) : (s.modCtx c g).tsc = s.tsc := rfl
@[simp] theorem State.modCtx_tscRate (s : State) (c : Nat) (g : Ctx → Ctx) : (s.modCtx c g).tscRate = s.tscRate := rfl
@[simp] theorem State.modCtx_mem (s : State) (c : Nat) (g : Ctx → Ctx) : (s.modCtx c g).mem = s.mem := rfl
@[simp] theorem State.modCtx_memPoison (s : State) (c : Nat) (g : Ctx → Ctx) : (s.modCtx c g).memPoison = s.memPoison := rfl
@[simp] theorem State.modCtx_scratch (s : State) (c : Nat) (g : Ctx → Ctx) : (s.modCtx c g).scratch = s.scratch := rfl
@[simp] theorem State.modCtx_cache (s : State) (c : Nat) (g : Ctx → Ctx) : (s.modCtx c g).cache = s.cache := rfl
@[simp] theorem State.modCtx_tlb (s : State) (c : Nat) (g : Ctx → Ctx) : (s.modCtx c g).tlb = s.tlb := rfl
@[simp] theorem State.modCtx_posted (s : State) (c : Nat) (g : Ctx → Ctx) : (s.modCtx c g).posted = s.posted := rfl
@[simp] theorem State.modCtx_monitors (s : State) (c : Nat) (g : Ctx → Ctx) : (s.modCtx c g).monitors = s.monitors := rfl
@[simp] theorem State.modCtx_flags (s : State) (c : Nat) (g : Ctx → Ctx) : (s.modCtx c g).flags = s.flags := rfl
@[simp] theorem State.modCtx_promotions (s : State) (c : Nat) (g : Ctx → Ctx) : (s.modCtx c g).promotions = s.promotions := rfl
@[simp] theorem State.modCtx_cmds (s : State) (c : Nat) (g : Ctx → Ctx) : (s.modCtx c g).cmds = s.cmds := rfl
@[simp] theorem State.modCtx_reqs (s : State) (c : Nat) (g : Ctx → Ctx) : (s.modCtx c g).reqs = s.reqs := rfl
@[simp] theorem State.modCtx_held (s : State) (c : Nat) (g : Ctx → Ctx) : (s.modCtx c g).held = s.held := rfl
@[simp] theorem State.modCtx_invals (s : State) (c : Nat) (g : Ctx → Ctx) : (s.modCtx c g).invals = s.invals := rfl
@[simp] theorem State.modCtx_invSeq (s : State) (c : Nat) (g : Ctx → Ctx) : (s.modCtx c g).invSeq = s.invSeq := rfl
@[simp] theorem State.modCtx_invRanges (s : State) (c : Nat) (g : Ctx → Ctx) : (s.modCtx c g).invRanges = s.invRanges := rfl
@[simp] theorem State.modCtx_dev (s : State) (c : Nat) (g : Ctx → Ctx) : (s.modCtx c g).dev = s.dev := rfl
@[simp] theorem State.modCtx_pending (s : State) (c : Nat) (g : Ctx → Ctx) : (s.modCtx c g).pending = s.pending := rfl
@[simp] theorem State.modCtx_scanPos (s : State) (c : Nat) (g : Ctx → Ctx) : (s.modCtx c g).scanPos = s.scanPos := rfl
@[simp] theorem State.modCtx_gated (s : State) (c : Nat) (g : Ctx → Ctx) : (s.modCtx c g).gated = s.gated := rfl
@[simp] theorem State.modCtx_devWaits (s : State) (c : Nat) (g : Ctx → Ctx) : (s.modCtx c g).devWaits = s.devWaits := rfl
@[simp] theorem State.modCtx_fcs (s : State) (c : Nat) (g : Ctx → Ctx) : (s.modCtx c g).fcs = s.fcs := rfl
@[simp] theorem State.modCtx_groups (s : State) (c : Nat) (g : Ctx → Ctx) : (s.modCtx c g).groups = s.groups := rfl
@[simp] theorem State.modCtx_nodes (s : State) (c : Nat) (g : Ctx → Ctx) : (s.modCtx c g).nodes = s.nodes := rfl
@[simp] theorem State.modCtx_pool (s : State) (c : Nat) (g : Ctx → Ctx) : (s.modCtx c g).pool = s.pool := rfl
@[simp] theorem State.modCtx_images (s : State) (c : Nat) (g : Ctx → Ctx) : (s.modCtx c g).images = s.images := rfl
@[simp] theorem State.modCtx_moves (s : State) (c : Nat) (g : Ctx → Ctx) : (s.modCtx c g).moves = s.moves := rfl
@[simp] theorem State.modCtx_vdState (s : State) (c : Nat) (g : Ctx → Ctx) : (s.modCtx c g).vdState = s.vdState := rfl
@[simp] theorem State.modCtx_gseq (s : State) (c : Nat) (g : Ctx → Ctx) : (s.modCtx c g).gseq = s.gseq := rfl
@[simp] theorem State.modCtx_lastMgmt (s : State) (c : Nat) (g : Ctx → Ctx) : (s.modCtx c g).lastMgmt = s.lastMgmt := rfl
@[simp] theorem State.modCtx_hlines (s : State) (c : Nat) (g : Ctx → Ctx) : (s.modCtx c g).hlines = s.hlines := rfl
@[simp] theorem State.modCtx_extents (s : State) (c : Nat) (g : Ctx → Ctx) : (s.modCtx c g).extents = s.extents := rfl
@[simp] theorem State.modCtx_matQueue (s : State) (c : Nat) (g : Ctx → Ctx) : (s.modCtx c g).matQueue = s.matQueue := rfl
@[simp] theorem State.modCtx_ringHolds (s : State) (c : Nat) (g : Ctx → Ctx) : (s.modCtx c g).ringHolds = s.ringHolds := rfl
@[simp] theorem State.modCtx_pins (s : State) (c : Nat) (g : Ctx → Ctx) : (s.modCtx c g).pins = s.pins := rfl
@[simp] theorem State.modCtx_conns (s : State) (c : Nat) (g : Ctx → Ctx) : (s.modCtx c g).conns = s.conns := rfl
@[simp] theorem State.modCtx_fabReqs (s : State) (c : Nat) (g : Ctx → Ctx) : (s.modCtx c g).fabReqs = s.fabReqs := rfl
@[simp] theorem State.modCtx_egress (s : State) (c : Nat) (g : Ctx → Ctx) : (s.modCtx c g).egress = s.egress := rfl
@[simp] theorem State.modCtx_ports (s : State) (c : Nat) (g : Ctx → Ctx) : (s.modCtx c g).ports = s.ports := rfl
@[simp] theorem State.modCtx_collIn (s : State) (c : Nat) (g : Ctx → Ctx) : (s.modCtx c g).collIn = s.collIn := rfl
@[simp] theorem State.modCtx_noise (s : State) (c : Nat) (g : Ctx → Ctx) : (s.modCtx c g).noise = s.noise := rfl
@[simp] theorem State.modCtx_health (s : State) (c : Nat) (g : Ctx → Ctx) : (s.modCtx c g).health = s.health := rfl
@[simp] theorem State.modCtx_healthCopies (s : State) (c : Nat) (g : Ctx → Ctx) : (s.modCtx c g).healthCopies = s.healthCopies := rfl
@[simp] theorem State.modCtx_healthChanged (s : State) (c : Nat) (g : Ctx → Ctx) : (s.modCtx c g).healthChanged = s.healthChanged := rfl
@[simp] theorem State.modCtx_healthAt (s : State) (c : Nat) (g : Ctx → Ctx) : (s.modCtx c g).healthAt = s.healthAt := rfl
@[simp] theorem State.modCtx_recordSeq (s : State) (c : Nat) (g : Ctx → Ctx) : (s.modCtx c g).recordSeq = s.recordSeq := rfl
@[simp] theorem State.modCtx_thermal (s : State) (c : Nat) (g : Ctx → Ctx) : (s.modCtx c g).thermal = s.thermal := rfl
@[simp] theorem State.modCtx_agenda (s : State) (c : Nat) (g : Ctx → Ctx) : (s.modCtx c g).agenda = s.agenda := rfl
@[simp] theorem State.modCtx_due (s : State) (c : Nat) (g : Ctx → Ctx) : (s.modCtx c g).due = s.due := rfl
@[simp] theorem State.modCtx_todo (s : State) (c : Nat) (g : Ctx → Ctx) : (s.modCtx c g).todo = s.todo := rfl
@[simp] theorem State.modCtx_visit (s : State) (c : Nat) (g : Ctx → Ctx) : (s.modCtx c g).visit = s.visit := rfl
@[simp] theorem State.modCtx_cur (s : State) (c : Nat) (g : Ctx → Ctx) : (s.modCtx c g).cur = s.cur := rfl
@[simp] theorem State.modCtx_fresh (s : State) (c : Nat) (g : Ctx → Ctx) : (s.modCtx c g).fresh = s.fresh := rfl
@[simp] theorem State.modCtx_serial (s : State) (c : Nat) (g : Ctx → Ctx) : (s.modCtx c g).serial = s.serial := rfl
@[simp] theorem State.modCtx_firmware (s : State) (c : Nat) (g : Ctx → Ctx) : (s.modCtx c g).firmware = s.firmware := rfl
@[simp] theorem State.modCtx_migr (s : State) (c : Nat) (g : Ctx → Ctx) : (s.modCtx c g).migr = s.migr := rfl
@[simp] theorem State.modCtx_wakeBy (s : State) (c : Nat) (g : Ctx → Ctx) : (s.modCtx c g).wakeBy = s.wakeBy := rfl
@[simp] theorem State.modCtx_ringPuts (s : State) (c : Nat) (g : Ctx → Ctx) : (s.modCtx c g).ringPuts = s.ringPuts := rfl
@[simp] theorem State.modCtx_stamps (s : State) (c : Nat) (g : Ctx → Ctx) : (s.modCtx c g).stamps = s.stamps := rfl
@[simp] theorem State.modCtx_out (s : State) (c : Nat) (g : Ctx → Ctx) : (s.modCtx c g).out = s.out := rfl
@[simp] theorem State.modCtx_bad (s : State) (c : Nat) (g : Ctx → Ctx) : (s.modCtx c g).bad = s.bad := rfl

@[simp] theorem State.dset_now (s : State) (o i : Nat) (v : W64) : (s.dset o i v).now = s.now := rfl
@[simp] theorem State.dset_tsc (s : State) (o i : Nat) (v : W64) : (s.dset o i v).tsc = s.tsc := rfl
@[simp] theorem State.dset_tscRate (s : State) (o i : Nat) (v : W64) : (s.dset o i v).tscRate = s.tscRate := rfl
@[simp] theorem State.dset_ctxs (s : State) (o i : Nat) (v : W64) : (s.dset o i v).ctxs = s.ctxs := rfl
@[simp] theorem State.dset_mem (s : State) (o i : Nat) (v : W64) : (s.dset o i v).mem = s.mem := rfl
@[simp] theorem State.dset_memPoison (s : State) (o i : Nat) (v : W64) : (s.dset o i v).memPoison = s.memPoison := rfl
@[simp] theorem State.dset_scratch (s : State) (o i : Nat) (v : W64) : (s.dset o i v).scratch = s.scratch := rfl
@[simp] theorem State.dset_cache (s : State) (o i : Nat) (v : W64) : (s.dset o i v).cache = s.cache := rfl
@[simp] theorem State.dset_tlb (s : State) (o i : Nat) (v : W64) : (s.dset o i v).tlb = s.tlb := rfl
@[simp] theorem State.dset_posted (s : State) (o i : Nat) (v : W64) : (s.dset o i v).posted = s.posted := rfl
@[simp] theorem State.dset_monitors (s : State) (o i : Nat) (v : W64) : (s.dset o i v).monitors = s.monitors := rfl
@[simp] theorem State.dset_flags (s : State) (o i : Nat) (v : W64) : (s.dset o i v).flags = s.flags := rfl
@[simp] theorem State.dset_promotions (s : State) (o i : Nat) (v : W64) : (s.dset o i v).promotions = s.promotions := rfl
@[simp] theorem State.dset_cmds (s : State) (o i : Nat) (v : W64) : (s.dset o i v).cmds = s.cmds := rfl
@[simp] theorem State.dset_reqs (s : State) (o i : Nat) (v : W64) : (s.dset o i v).reqs = s.reqs := rfl
@[simp] theorem State.dset_held (s : State) (o i : Nat) (v : W64) : (s.dset o i v).held = s.held := rfl
@[simp] theorem State.dset_invals (s : State) (o i : Nat) (v : W64) : (s.dset o i v).invals = s.invals := rfl
@[simp] theorem State.dset_invSeq (s : State) (o i : Nat) (v : W64) : (s.dset o i v).invSeq = s.invSeq := rfl
@[simp] theorem State.dset_invRanges (s : State) (o i : Nat) (v : W64) : (s.dset o i v).invRanges = s.invRanges := rfl
@[simp] theorem State.dset_pending (s : State) (o i : Nat) (v : W64) : (s.dset o i v).pending = s.pending := rfl
@[simp] theorem State.dset_scanPos (s : State) (o i : Nat) (v : W64) : (s.dset o i v).scanPos = s.scanPos := rfl
@[simp] theorem State.dset_gated (s : State) (o i : Nat) (v : W64) : (s.dset o i v).gated = s.gated := rfl
@[simp] theorem State.dset_devWaits (s : State) (o i : Nat) (v : W64) : (s.dset o i v).devWaits = s.devWaits := rfl
@[simp] theorem State.dset_fcs (s : State) (o i : Nat) (v : W64) : (s.dset o i v).fcs = s.fcs := rfl
@[simp] theorem State.dset_groups (s : State) (o i : Nat) (v : W64) : (s.dset o i v).groups = s.groups := rfl
@[simp] theorem State.dset_nodes (s : State) (o i : Nat) (v : W64) : (s.dset o i v).nodes = s.nodes := rfl
@[simp] theorem State.dset_pool (s : State) (o i : Nat) (v : W64) : (s.dset o i v).pool = s.pool := rfl
@[simp] theorem State.dset_images (s : State) (o i : Nat) (v : W64) : (s.dset o i v).images = s.images := rfl
@[simp] theorem State.dset_moves (s : State) (o i : Nat) (v : W64) : (s.dset o i v).moves = s.moves := rfl
@[simp] theorem State.dset_vdState (s : State) (o i : Nat) (v : W64) : (s.dset o i v).vdState = s.vdState := rfl
@[simp] theorem State.dset_gseq (s : State) (o i : Nat) (v : W64) : (s.dset o i v).gseq = s.gseq := rfl
@[simp] theorem State.dset_lastMgmt (s : State) (o i : Nat) (v : W64) : (s.dset o i v).lastMgmt = s.lastMgmt := rfl
@[simp] theorem State.dset_hlines (s : State) (o i : Nat) (v : W64) : (s.dset o i v).hlines = s.hlines := rfl
@[simp] theorem State.dset_extents (s : State) (o i : Nat) (v : W64) : (s.dset o i v).extents = s.extents := rfl
@[simp] theorem State.dset_matQueue (s : State) (o i : Nat) (v : W64) : (s.dset o i v).matQueue = s.matQueue := rfl
@[simp] theorem State.dset_ringHolds (s : State) (o i : Nat) (v : W64) : (s.dset o i v).ringHolds = s.ringHolds := rfl
@[simp] theorem State.dset_pins (s : State) (o i : Nat) (v : W64) : (s.dset o i v).pins = s.pins := rfl
@[simp] theorem State.dset_conns (s : State) (o i : Nat) (v : W64) : (s.dset o i v).conns = s.conns := rfl
@[simp] theorem State.dset_fabReqs (s : State) (o i : Nat) (v : W64) : (s.dset o i v).fabReqs = s.fabReqs := rfl
@[simp] theorem State.dset_egress (s : State) (o i : Nat) (v : W64) : (s.dset o i v).egress = s.egress := rfl
@[simp] theorem State.dset_ports (s : State) (o i : Nat) (v : W64) : (s.dset o i v).ports = s.ports := rfl
@[simp] theorem State.dset_collIn (s : State) (o i : Nat) (v : W64) : (s.dset o i v).collIn = s.collIn := rfl
@[simp] theorem State.dset_noise (s : State) (o i : Nat) (v : W64) : (s.dset o i v).noise = s.noise := rfl
@[simp] theorem State.dset_health (s : State) (o i : Nat) (v : W64) : (s.dset o i v).health = s.health := rfl
@[simp] theorem State.dset_healthCopies (s : State) (o i : Nat) (v : W64) : (s.dset o i v).healthCopies = s.healthCopies := rfl
@[simp] theorem State.dset_healthChanged (s : State) (o i : Nat) (v : W64) : (s.dset o i v).healthChanged = s.healthChanged := rfl
@[simp] theorem State.dset_healthAt (s : State) (o i : Nat) (v : W64) : (s.dset o i v).healthAt = s.healthAt := rfl
@[simp] theorem State.dset_recordSeq (s : State) (o i : Nat) (v : W64) : (s.dset o i v).recordSeq = s.recordSeq := rfl
@[simp] theorem State.dset_thermal (s : State) (o i : Nat) (v : W64) : (s.dset o i v).thermal = s.thermal := rfl
@[simp] theorem State.dset_agenda (s : State) (o i : Nat) (v : W64) : (s.dset o i v).agenda = s.agenda := rfl
@[simp] theorem State.dset_due (s : State) (o i : Nat) (v : W64) : (s.dset o i v).due = s.due := rfl
@[simp] theorem State.dset_todo (s : State) (o i : Nat) (v : W64) : (s.dset o i v).todo = s.todo := rfl
@[simp] theorem State.dset_visit (s : State) (o i : Nat) (v : W64) : (s.dset o i v).visit = s.visit := rfl
@[simp] theorem State.dset_cur (s : State) (o i : Nat) (v : W64) : (s.dset o i v).cur = s.cur := rfl
@[simp] theorem State.dset_fresh (s : State) (o i : Nat) (v : W64) : (s.dset o i v).fresh = s.fresh := rfl
@[simp] theorem State.dset_serial (s : State) (o i : Nat) (v : W64) : (s.dset o i v).serial = s.serial := rfl
@[simp] theorem State.dset_firmware (s : State) (o i : Nat) (v : W64) : (s.dset o i v).firmware = s.firmware := rfl
@[simp] theorem State.dset_migr (s : State) (o i : Nat) (v : W64) : (s.dset o i v).migr = s.migr := rfl
@[simp] theorem State.dset_wakeBy (s : State) (o i : Nat) (v : W64) : (s.dset o i v).wakeBy = s.wakeBy := rfl
@[simp] theorem State.dset_ringPuts (s : State) (o i : Nat) (v : W64) : (s.dset o i v).ringPuts = s.ringPuts := rfl
@[simp] theorem State.dset_stamps (s : State) (o i : Nat) (v : W64) : (s.dset o i v).stamps = s.stamps := rfl
@[simp] theorem State.dset_out (s : State) (o i : Nat) (v : W64) : (s.dset o i v).out = s.out := rfl
@[simp] theorem State.dset_bad (s : State) (o i : Nat) (v : W64) : (s.dset o i v).bad = s.bad := rfl

@[simp] theorem State.addFlight_now (s : State) (g : Flight) : (s.addFlight g).now = s.now := rfl
@[simp] theorem State.addFlight_tsc (s : State) (g : Flight) : (s.addFlight g).tsc = s.tsc := rfl
@[simp] theorem State.addFlight_tscRate (s : State) (g : Flight) : (s.addFlight g).tscRate = s.tscRate := rfl
@[simp] theorem State.addFlight_mem (s : State) (g : Flight) : (s.addFlight g).mem = s.mem := rfl
@[simp] theorem State.addFlight_memPoison (s : State) (g : Flight) : (s.addFlight g).memPoison = s.memPoison := rfl
@[simp] theorem State.addFlight_scratch (s : State) (g : Flight) : (s.addFlight g).scratch = s.scratch := rfl
@[simp] theorem State.addFlight_cache (s : State) (g : Flight) : (s.addFlight g).cache = s.cache := rfl
@[simp] theorem State.addFlight_tlb (s : State) (g : Flight) : (s.addFlight g).tlb = s.tlb := rfl
@[simp] theorem State.addFlight_posted (s : State) (g : Flight) : (s.addFlight g).posted = s.posted := rfl
@[simp] theorem State.addFlight_monitors (s : State) (g : Flight) : (s.addFlight g).monitors = s.monitors := rfl
@[simp] theorem State.addFlight_flags (s : State) (g : Flight) : (s.addFlight g).flags = s.flags := rfl
@[simp] theorem State.addFlight_promotions (s : State) (g : Flight) : (s.addFlight g).promotions = s.promotions := rfl
@[simp] theorem State.addFlight_cmds (s : State) (g : Flight) : (s.addFlight g).cmds = s.cmds := rfl
@[simp] theorem State.addFlight_reqs (s : State) (g : Flight) : (s.addFlight g).reqs = s.reqs := rfl
@[simp] theorem State.addFlight_held (s : State) (g : Flight) : (s.addFlight g).held = s.held := rfl
@[simp] theorem State.addFlight_invals (s : State) (g : Flight) : (s.addFlight g).invals = s.invals := rfl
@[simp] theorem State.addFlight_invSeq (s : State) (g : Flight) : (s.addFlight g).invSeq = s.invSeq := rfl
@[simp] theorem State.addFlight_invRanges (s : State) (g : Flight) : (s.addFlight g).invRanges = s.invRanges := rfl
@[simp] theorem State.addFlight_dev (s : State) (g : Flight) : (s.addFlight g).dev = s.dev := rfl
@[simp] theorem State.addFlight_pending (s : State) (g : Flight) : (s.addFlight g).pending = s.pending := rfl
@[simp] theorem State.addFlight_scanPos (s : State) (g : Flight) : (s.addFlight g).scanPos = s.scanPos := rfl
@[simp] theorem State.addFlight_gated (s : State) (g : Flight) : (s.addFlight g).gated = s.gated := rfl
@[simp] theorem State.addFlight_devWaits (s : State) (g : Flight) : (s.addFlight g).devWaits = s.devWaits := rfl
@[simp] theorem State.addFlight_fcs (s : State) (g : Flight) : (s.addFlight g).fcs = s.fcs := rfl
@[simp] theorem State.addFlight_groups (s : State) (g : Flight) : (s.addFlight g).groups = s.groups := rfl
@[simp] theorem State.addFlight_nodes (s : State) (g : Flight) : (s.addFlight g).nodes = s.nodes := rfl
@[simp] theorem State.addFlight_pool (s : State) (g : Flight) : (s.addFlight g).pool = s.pool := rfl
@[simp] theorem State.addFlight_images (s : State) (g : Flight) : (s.addFlight g).images = s.images := rfl
@[simp] theorem State.addFlight_moves (s : State) (g : Flight) : (s.addFlight g).moves = s.moves := rfl
@[simp] theorem State.addFlight_vdState (s : State) (g : Flight) : (s.addFlight g).vdState = s.vdState := rfl
@[simp] theorem State.addFlight_gseq (s : State) (g : Flight) : (s.addFlight g).gseq = s.gseq := rfl
@[simp] theorem State.addFlight_lastMgmt (s : State) (g : Flight) : (s.addFlight g).lastMgmt = s.lastMgmt := rfl
@[simp] theorem State.addFlight_hlines (s : State) (g : Flight) : (s.addFlight g).hlines = s.hlines := rfl
@[simp] theorem State.addFlight_extents (s : State) (g : Flight) : (s.addFlight g).extents = s.extents := rfl
@[simp] theorem State.addFlight_matQueue (s : State) (g : Flight) : (s.addFlight g).matQueue = s.matQueue := rfl
@[simp] theorem State.addFlight_ringHolds (s : State) (g : Flight) : (s.addFlight g).ringHolds = s.ringHolds := rfl
@[simp] theorem State.addFlight_pins (s : State) (g : Flight) : (s.addFlight g).pins = s.pins := rfl
@[simp] theorem State.addFlight_conns (s : State) (g : Flight) : (s.addFlight g).conns = s.conns := rfl
@[simp] theorem State.addFlight_fabReqs (s : State) (g : Flight) : (s.addFlight g).fabReqs = s.fabReqs := rfl
@[simp] theorem State.addFlight_egress (s : State) (g : Flight) : (s.addFlight g).egress = s.egress := rfl
@[simp] theorem State.addFlight_ports (s : State) (g : Flight) : (s.addFlight g).ports = s.ports := rfl
@[simp] theorem State.addFlight_collIn (s : State) (g : Flight) : (s.addFlight g).collIn = s.collIn := rfl
@[simp] theorem State.addFlight_noise (s : State) (g : Flight) : (s.addFlight g).noise = s.noise := rfl
@[simp] theorem State.addFlight_health (s : State) (g : Flight) : (s.addFlight g).health = s.health := rfl
@[simp] theorem State.addFlight_healthCopies (s : State) (g : Flight) : (s.addFlight g).healthCopies = s.healthCopies := rfl
@[simp] theorem State.addFlight_healthChanged (s : State) (g : Flight) : (s.addFlight g).healthChanged = s.healthChanged := rfl
@[simp] theorem State.addFlight_healthAt (s : State) (g : Flight) : (s.addFlight g).healthAt = s.healthAt := rfl
@[simp] theorem State.addFlight_recordSeq (s : State) (g : Flight) : (s.addFlight g).recordSeq = s.recordSeq := rfl
@[simp] theorem State.addFlight_thermal (s : State) (g : Flight) : (s.addFlight g).thermal = s.thermal := rfl
@[simp] theorem State.addFlight_agenda (s : State) (g : Flight) : (s.addFlight g).agenda = s.agenda := rfl
@[simp] theorem State.addFlight_due (s : State) (g : Flight) : (s.addFlight g).due = s.due := rfl
@[simp] theorem State.addFlight_todo (s : State) (g : Flight) : (s.addFlight g).todo = s.todo := rfl
@[simp] theorem State.addFlight_visit (s : State) (g : Flight) : (s.addFlight g).visit = s.visit := rfl
@[simp] theorem State.addFlight_cur (s : State) (g : Flight) : (s.addFlight g).cur = s.cur := rfl
@[simp] theorem State.addFlight_fresh (s : State) (g : Flight) : (s.addFlight g).fresh = s.fresh := rfl
@[simp] theorem State.addFlight_firmware (s : State) (g : Flight) : (s.addFlight g).firmware = s.firmware := rfl
@[simp] theorem State.addFlight_migr (s : State) (g : Flight) : (s.addFlight g).migr = s.migr := rfl
@[simp] theorem State.addFlight_wakeBy (s : State) (g : Flight) : (s.addFlight g).wakeBy = s.wakeBy := rfl
@[simp] theorem State.addFlight_ringPuts (s : State) (g : Flight) : (s.addFlight g).ringPuts = s.ringPuts := rfl
@[simp] theorem State.addFlight_stamps (s : State) (g : Flight) : (s.addFlight g).stamps = s.stamps := rfl
@[simp] theorem State.addFlight_out (s : State) (g : Flight) : (s.addFlight g).out = s.out := rfl
@[simp] theorem State.addFlight_bad (s : State) (g : Flight) : (s.addFlight g).bad = s.bad := rfl

@[simp] theorem State.land_now (s : State) (n : Nat) (l : List Landing) : (s.land n l).now = s.now := rfl
@[simp] theorem State.land_tsc (s : State) (n : Nat) (l : List Landing) : (s.land n l).tsc = s.tsc := rfl
@[simp] theorem State.land_tscRate (s : State) (n : Nat) (l : List Landing) : (s.land n l).tscRate = s.tscRate := rfl
@[simp] theorem State.land_mem (s : State) (n : Nat) (l : List Landing) : (s.land n l).mem = s.mem := rfl
@[simp] theorem State.land_memPoison (s : State) (n : Nat) (l : List Landing) : (s.land n l).memPoison = s.memPoison := rfl
@[simp] theorem State.land_scratch (s : State) (n : Nat) (l : List Landing) : (s.land n l).scratch = s.scratch := rfl
@[simp] theorem State.land_cache (s : State) (n : Nat) (l : List Landing) : (s.land n l).cache = s.cache := rfl
@[simp] theorem State.land_tlb (s : State) (n : Nat) (l : List Landing) : (s.land n l).tlb = s.tlb := rfl
@[simp] theorem State.land_posted (s : State) (n : Nat) (l : List Landing) : (s.land n l).posted = s.posted := rfl
@[simp] theorem State.land_monitors (s : State) (n : Nat) (l : List Landing) : (s.land n l).monitors = s.monitors := rfl
@[simp] theorem State.land_flags (s : State) (n : Nat) (l : List Landing) : (s.land n l).flags = s.flags := rfl
@[simp] theorem State.land_promotions (s : State) (n : Nat) (l : List Landing) : (s.land n l).promotions = s.promotions := rfl
@[simp] theorem State.land_cmds (s : State) (n : Nat) (l : List Landing) : (s.land n l).cmds = s.cmds := rfl
@[simp] theorem State.land_reqs (s : State) (n : Nat) (l : List Landing) : (s.land n l).reqs = s.reqs := rfl
@[simp] theorem State.land_held (s : State) (n : Nat) (l : List Landing) : (s.land n l).held = s.held := rfl
@[simp] theorem State.land_invals (s : State) (n : Nat) (l : List Landing) : (s.land n l).invals = s.invals := rfl
@[simp] theorem State.land_invSeq (s : State) (n : Nat) (l : List Landing) : (s.land n l).invSeq = s.invSeq := rfl
@[simp] theorem State.land_invRanges (s : State) (n : Nat) (l : List Landing) : (s.land n l).invRanges = s.invRanges := rfl
@[simp] theorem State.land_dev (s : State) (n : Nat) (l : List Landing) : (s.land n l).dev = s.dev := rfl
@[simp] theorem State.land_pending (s : State) (n : Nat) (l : List Landing) : (s.land n l).pending = s.pending := rfl
@[simp] theorem State.land_scanPos (s : State) (n : Nat) (l : List Landing) : (s.land n l).scanPos = s.scanPos := rfl
@[simp] theorem State.land_gated (s : State) (n : Nat) (l : List Landing) : (s.land n l).gated = s.gated := rfl
@[simp] theorem State.land_devWaits (s : State) (n : Nat) (l : List Landing) : (s.land n l).devWaits = s.devWaits := rfl
@[simp] theorem State.land_fcs (s : State) (n : Nat) (l : List Landing) : (s.land n l).fcs = s.fcs := rfl
@[simp] theorem State.land_groups (s : State) (n : Nat) (l : List Landing) : (s.land n l).groups = s.groups := rfl
@[simp] theorem State.land_nodes (s : State) (n : Nat) (l : List Landing) : (s.land n l).nodes = s.nodes := rfl
@[simp] theorem State.land_pool (s : State) (n : Nat) (l : List Landing) : (s.land n l).pool = s.pool := rfl
@[simp] theorem State.land_images (s : State) (n : Nat) (l : List Landing) : (s.land n l).images = s.images := rfl
@[simp] theorem State.land_moves (s : State) (n : Nat) (l : List Landing) : (s.land n l).moves = s.moves := rfl
@[simp] theorem State.land_vdState (s : State) (n : Nat) (l : List Landing) : (s.land n l).vdState = s.vdState := rfl
@[simp] theorem State.land_gseq (s : State) (n : Nat) (l : List Landing) : (s.land n l).gseq = s.gseq := rfl
@[simp] theorem State.land_lastMgmt (s : State) (n : Nat) (l : List Landing) : (s.land n l).lastMgmt = s.lastMgmt := rfl
@[simp] theorem State.land_hlines (s : State) (n : Nat) (l : List Landing) : (s.land n l).hlines = s.hlines := rfl
@[simp] theorem State.land_extents (s : State) (n : Nat) (l : List Landing) : (s.land n l).extents = s.extents := rfl
@[simp] theorem State.land_matQueue (s : State) (n : Nat) (l : List Landing) : (s.land n l).matQueue = s.matQueue := rfl
@[simp] theorem State.land_ringHolds (s : State) (n : Nat) (l : List Landing) : (s.land n l).ringHolds = s.ringHolds := rfl
@[simp] theorem State.land_pins (s : State) (n : Nat) (l : List Landing) : (s.land n l).pins = s.pins := rfl
@[simp] theorem State.land_conns (s : State) (n : Nat) (l : List Landing) : (s.land n l).conns = s.conns := rfl
@[simp] theorem State.land_fabReqs (s : State) (n : Nat) (l : List Landing) : (s.land n l).fabReqs = s.fabReqs := rfl
@[simp] theorem State.land_egress (s : State) (n : Nat) (l : List Landing) : (s.land n l).egress = s.egress := rfl
@[simp] theorem State.land_ports (s : State) (n : Nat) (l : List Landing) : (s.land n l).ports = s.ports := rfl
@[simp] theorem State.land_collIn (s : State) (n : Nat) (l : List Landing) : (s.land n l).collIn = s.collIn := rfl
@[simp] theorem State.land_noise (s : State) (n : Nat) (l : List Landing) : (s.land n l).noise = s.noise := rfl
@[simp] theorem State.land_health (s : State) (n : Nat) (l : List Landing) : (s.land n l).health = s.health := rfl
@[simp] theorem State.land_healthCopies (s : State) (n : Nat) (l : List Landing) : (s.land n l).healthCopies = s.healthCopies := rfl
@[simp] theorem State.land_healthChanged (s : State) (n : Nat) (l : List Landing) : (s.land n l).healthChanged = s.healthChanged := rfl
@[simp] theorem State.land_healthAt (s : State) (n : Nat) (l : List Landing) : (s.land n l).healthAt = s.healthAt := rfl
@[simp] theorem State.land_recordSeq (s : State) (n : Nat) (l : List Landing) : (s.land n l).recordSeq = s.recordSeq := rfl
@[simp] theorem State.land_thermal (s : State) (n : Nat) (l : List Landing) : (s.land n l).thermal = s.thermal := rfl
@[simp] theorem State.land_agenda (s : State) (n : Nat) (l : List Landing) : (s.land n l).agenda = s.agenda := rfl
@[simp] theorem State.land_due (s : State) (n : Nat) (l : List Landing) : (s.land n l).due = s.due := rfl
@[simp] theorem State.land_todo (s : State) (n : Nat) (l : List Landing) : (s.land n l).todo = s.todo := rfl
@[simp] theorem State.land_visit (s : State) (n : Nat) (l : List Landing) : (s.land n l).visit = s.visit := rfl
@[simp] theorem State.land_cur (s : State) (n : Nat) (l : List Landing) : (s.land n l).cur = s.cur := rfl
@[simp] theorem State.land_fresh (s : State) (n : Nat) (l : List Landing) : (s.land n l).fresh = s.fresh := rfl
@[simp] theorem State.land_firmware (s : State) (n : Nat) (l : List Landing) : (s.land n l).firmware = s.firmware := rfl
@[simp] theorem State.land_migr (s : State) (n : Nat) (l : List Landing) : (s.land n l).migr = s.migr := rfl
@[simp] theorem State.land_wakeBy (s : State) (n : Nat) (l : List Landing) : (s.land n l).wakeBy = s.wakeBy := rfl
@[simp] theorem State.land_ringPuts (s : State) (n : Nat) (l : List Landing) : (s.land n l).ringPuts = s.ringPuts := rfl
@[simp] theorem State.land_stamps (s : State) (n : Nat) (l : List Landing) : (s.land n l).stamps = s.stamps := rfl
@[simp] theorem State.land_out (s : State) (n : Nat) (l : List Landing) : (s.land n l).out = s.out := rfl
@[simp] theorem State.land_bad (s : State) (n : Nat) (l : List Landing) : (s.land n l).bad = s.bad := rfl

/-! ### A context -/

@[simp] theorem Ctx.gset_st (x : Ctx) (n : Nat) (v : W64) : (x.gset n v).st = x.st := rfl
@[simp] theorem Ctx.vset_st (x : Ctx) (n : Nat) (v : VReg) : (x.vset n v).st = x.st := rfl
@[simp] theorem Ctx.tset_st (x : Ctx) (n : Nat) (v : TReg) : (x.tset n v).st = x.st := rfl
@[simp] theorem Ctx.hset_st (x : Ctx) (n : Nat) (v : Handle) : (x.hset n v).st = x.st := rfl
@[simp] theorem Ctx.qset_st (x : Ctx) (n : Nat) (v : Stream) : (x.qset n v).st = x.st := rfl
@[simp] theorem Ctx.cset_st (x : Ctx) (n : Nat) (v : W64) : (x.cset n v).st = x.st := rfl
@[simp] theorem Ctx.gset_s (x : Ctx) (n : Nat) (v : W64) : (x.gset n v).s = x.s := rfl
@[simp] theorem Ctx.vset_s (x : Ctx) (n : Nat) (v : VReg) : (x.vset n v).s = x.s := rfl
@[simp] theorem Ctx.tset_s (x : Ctx) (n : Nat) (v : TReg) : (x.tset n v).s = x.s := rfl
@[simp] theorem Ctx.hset_s (x : Ctx) (n : Nat) (v : Handle) : (x.hset n v).s = x.s := rfl
@[simp] theorem Ctx.qset_s (x : Ctx) (n : Nat) (v : Stream) : (x.qset n v).s = x.s := rfl
@[simp] theorem Ctx.cset_s (x : Ctx) (n : Nat) (v : W64) : (x.cset n v).s = x.s := rfl
@[simp] theorem Ctx.vset_g (x : Ctx) (n : Nat) (v : VReg) : (x.vset n v).g = x.g := rfl
@[simp] theorem Ctx.tset_g (x : Ctx) (n : Nat) (v : TReg) : (x.tset n v).g = x.g := rfl
@[simp] theorem Ctx.hset_g (x : Ctx) (n : Nat) (v : Handle) : (x.hset n v).g = x.g := rfl
@[simp] theorem Ctx.qset_g (x : Ctx) (n : Nat) (v : Stream) : (x.qset n v).g = x.g := rfl
@[simp] theorem Ctx.cset_g (x : Ctx) (n : Nat) (v : W64) : (x.cset n v).g = x.g := rfl
@[simp] theorem Ctx.gset_v (x : Ctx) (n : Nat) (v : W64) : (x.gset n v).v = x.v := rfl
@[simp] theorem Ctx.tset_v (x : Ctx) (n : Nat) (v : TReg) : (x.tset n v).v = x.v := rfl
@[simp] theorem Ctx.hset_v (x : Ctx) (n : Nat) (v : Handle) : (x.hset n v).v = x.v := rfl
@[simp] theorem Ctx.qset_v (x : Ctx) (n : Nat) (v : Stream) : (x.qset n v).v = x.v := rfl
@[simp] theorem Ctx.cset_v (x : Ctx) (n : Nat) (v : W64) : (x.cset n v).v = x.v := rfl
@[simp] theorem Ctx.gset_t (x : Ctx) (n : Nat) (v : W64) : (x.gset n v).t = x.t := rfl
@[simp] theorem Ctx.vset_t (x : Ctx) (n : Nat) (v : VReg) : (x.vset n v).t = x.t := rfl
@[simp] theorem Ctx.hset_t (x : Ctx) (n : Nat) (v : Handle) : (x.hset n v).t = x.t := rfl
@[simp] theorem Ctx.qset_t (x : Ctx) (n : Nat) (v : Stream) : (x.qset n v).t = x.t := rfl
@[simp] theorem Ctx.cset_t (x : Ctx) (n : Nat) (v : W64) : (x.cset n v).t = x.t := rfl
@[simp] theorem Ctx.gset_p (x : Ctx) (n : Nat) (v : W64) : (x.gset n v).p = x.p := rfl
@[simp] theorem Ctx.vset_p (x : Ctx) (n : Nat) (v : VReg) : (x.vset n v).p = x.p := rfl
@[simp] theorem Ctx.tset_p (x : Ctx) (n : Nat) (v : TReg) : (x.tset n v).p = x.p := rfl
@[simp] theorem Ctx.hset_p (x : Ctx) (n : Nat) (v : Handle) : (x.hset n v).p = x.p := rfl
@[simp] theorem Ctx.qset_p (x : Ctx) (n : Nat) (v : Stream) : (x.qset n v).p = x.p := rfl
@[simp] theorem Ctx.cset_p (x : Ctx) (n : Nat) (v : W64) : (x.cset n v).p = x.p := rfl
@[simp] theorem Ctx.gset_h (x : Ctx) (n : Nat) (v : W64) : (x.gset n v).h = x.h := rfl
@[simp] theorem Ctx.vset_h (x : Ctx) (n : Nat) (v : VReg) : (x.vset n v).h = x.h := rfl
@[simp] theorem Ctx.tset_h (x : Ctx) (n : Nat) (v : TReg) : (x.tset n v).h = x.h := rfl
@[simp] theorem Ctx.qset_h (x : Ctx) (n : Nat) (v : Stream) : (x.qset n v).h = x.h := rfl
@[simp] theorem Ctx.cset_h (x : Ctx) (n : Nat) (v : W64) : (x.cset n v).h = x.h := rfl
@[simp] theorem Ctx.gset_q (x : Ctx) (n : Nat) (v : W64) : (x.gset n v).q = x.q := rfl
@[simp] theorem Ctx.vset_q (x : Ctx) (n : Nat) (v : VReg) : (x.vset n v).q = x.q := rfl
@[simp] theorem Ctx.tset_q (x : Ctx) (n : Nat) (v : TReg) : (x.tset n v).q = x.q := rfl
@[simp] theorem Ctx.hset_q (x : Ctx) (n : Nat) (v : Handle) : (x.hset n v).q = x.q := rfl
@[simp] theorem Ctx.cset_q (x : Ctx) (n : Nat) (v : W64) : (x.cset n v).q = x.q := rfl
@[simp] theorem Ctx.gset_csr (x : Ctx) (n : Nat) (v : W64) : (x.gset n v).csr = x.csr := rfl
@[simp] theorem Ctx.vset_csr (x : Ctx) (n : Nat) (v : VReg) : (x.vset n v).csr = x.csr := rfl
@[simp] theorem Ctx.tset_csr (x : Ctx) (n : Nat) (v : TReg) : (x.tset n v).csr = x.csr := rfl
@[simp] theorem Ctx.hset_csr (x : Ctx) (n : Nat) (v : Handle) : (x.hset n v).csr = x.csr := rfl
@[simp] theorem Ctx.qset_csr (x : Ctx) (n : Nat) (v : Stream) : (x.qset n v).csr = x.csr := rfl
@[simp] theorem Ctx.gset_pc (x : Ctx) (n : Nat) (v : W64) : (x.gset n v).pc = x.pc := rfl
@[simp] theorem Ctx.vset_pc (x : Ctx) (n : Nat) (v : VReg) : (x.vset n v).pc = x.pc := rfl
@[simp] theorem Ctx.tset_pc (x : Ctx) (n : Nat) (v : TReg) : (x.tset n v).pc = x.pc := rfl
@[simp] theorem Ctx.hset_pc (x : Ctx) (n : Nat) (v : Handle) : (x.hset n v).pc = x.pc := rfl
@[simp] theorem Ctx.qset_pc (x : Ctx) (n : Nat) (v : Stream) : (x.qset n v).pc = x.pc := rfl
@[simp] theorem Ctx.cset_pc (x : Ctx) (n : Nat) (v : W64) : (x.cset n v).pc = x.pc := rfl
@[simp] theorem Ctx.gset_entry (x : Ctx) (n : Nat) (v : W64) : (x.gset n v).entry = x.entry := rfl
@[simp] theorem Ctx.vset_entry (x : Ctx) (n : Nat) (v : VReg) : (x.vset n v).entry = x.entry := rfl
@[simp] theorem Ctx.tset_entry (x : Ctx) (n : Nat) (v : TReg) : (x.tset n v).entry = x.entry := rfl
@[simp] theorem Ctx.hset_entry (x : Ctx) (n : Nat) (v : Handle) : (x.hset n v).entry = x.entry := rfl
@[simp] theorem Ctx.qset_entry (x : Ctx) (n : Nat) (v : Stream) : (x.qset n v).entry = x.entry := rfl
@[simp] theorem Ctx.cset_entry (x : Ctx) (n : Nat) (v : W64) : (x.cset n v).entry = x.entry := rfl
@[simp] theorem Ctx.gset_count (x : Ctx) (n : Nat) (v : W64) : (x.gset n v).count = x.count := rfl
@[simp] theorem Ctx.vset_count (x : Ctx) (n : Nat) (v : VReg) : (x.vset n v).count = x.count := rfl
@[simp] theorem Ctx.tset_count (x : Ctx) (n : Nat) (v : TReg) : (x.tset n v).count = x.count := rfl
@[simp] theorem Ctx.hset_count (x : Ctx) (n : Nat) (v : Handle) : (x.hset n v).count = x.count := rfl
@[simp] theorem Ctx.qset_count (x : Ctx) (n : Nat) (v : Stream) : (x.qset n v).count = x.count := rfl
@[simp] theorem Ctx.cset_count (x : Ctx) (n : Nat) (v : W64) : (x.cset n v).count = x.count := rfl
@[simp] theorem Ctx.gset_crc (x : Ctx) (n : Nat) (v : W64) : (x.gset n v).crc = x.crc := rfl
@[simp] theorem Ctx.vset_crc (x : Ctx) (n : Nat) (v : VReg) : (x.vset n v).crc = x.crc := rfl
@[simp] theorem Ctx.tset_crc (x : Ctx) (n : Nat) (v : TReg) : (x.tset n v).crc = x.crc := rfl
@[simp] theorem Ctx.hset_crc (x : Ctx) (n : Nat) (v : Handle) : (x.hset n v).crc = x.crc := rfl
@[simp] theorem Ctx.qset_crc (x : Ctx) (n : Nat) (v : Stream) : (x.qset n v).crc = x.crc := rfl
@[simp] theorem Ctx.cset_crc (x : Ctx) (n : Nat) (v : W64) : (x.cset n v).crc = x.crc := rfl
@[simp] theorem Ctx.gset_exec (x : Ctx) (n : Nat) (v : W64) : (x.gset n v).exec = x.exec := rfl
@[simp] theorem Ctx.vset_exec (x : Ctx) (n : Nat) (v : VReg) : (x.vset n v).exec = x.exec := rfl
@[simp] theorem Ctx.tset_exec (x : Ctx) (n : Nat) (v : TReg) : (x.tset n v).exec = x.exec := rfl
@[simp] theorem Ctx.hset_exec (x : Ctx) (n : Nat) (v : Handle) : (x.hset n v).exec = x.exec := rfl
@[simp] theorem Ctx.qset_exec (x : Ctx) (n : Nat) (v : Stream) : (x.qset n v).exec = x.exec := rfl
@[simp] theorem Ctx.cset_exec (x : Ctx) (n : Nat) (v : W64) : (x.cset n v).exec = x.exec := rfl
@[simp] theorem Ctx.gset_idle (x : Ctx) (n : Nat) (v : W64) : (x.gset n v).idle = x.idle := rfl
@[simp] theorem Ctx.vset_idle (x : Ctx) (n : Nat) (v : VReg) : (x.vset n v).idle = x.idle := rfl
@[simp] theorem Ctx.tset_idle (x : Ctx) (n : Nat) (v : TReg) : (x.tset n v).idle = x.idle := rfl
@[simp] theorem Ctx.hset_idle (x : Ctx) (n : Nat) (v : Handle) : (x.hset n v).idle = x.idle := rfl
@[simp] theorem Ctx.qset_idle (x : Ctx) (n : Nat) (v : Stream) : (x.qset n v).idle = x.idle := rfl
@[simp] theorem Ctx.cset_idle (x : Ctx) (n : Nat) (v : W64) : (x.cset n v).idle = x.idle := rfl
@[simp] theorem Ctx.gset_jump (x : Ctx) (n : Nat) (v : W64) : (x.gset n v).jump = x.jump := rfl
@[simp] theorem Ctx.vset_jump (x : Ctx) (n : Nat) (v : VReg) : (x.vset n v).jump = x.jump := rfl
@[simp] theorem Ctx.tset_jump (x : Ctx) (n : Nat) (v : TReg) : (x.tset n v).jump = x.jump := rfl
@[simp] theorem Ctx.hset_jump (x : Ctx) (n : Nat) (v : Handle) : (x.hset n v).jump = x.jump := rfl
@[simp] theorem Ctx.qset_jump (x : Ctx) (n : Nat) (v : Stream) : (x.qset n v).jump = x.jump := rfl
@[simp] theorem Ctx.cset_jump (x : Ctx) (n : Nat) (v : W64) : (x.cset n v).jump = x.jump := rfl
@[simp] theorem Ctx.gset_leave (x : Ctx) (n : Nat) (v : W64) : (x.gset n v).leave = x.leave := rfl
@[simp] theorem Ctx.vset_leave (x : Ctx) (n : Nat) (v : VReg) : (x.vset n v).leave = x.leave := rfl
@[simp] theorem Ctx.tset_leave (x : Ctx) (n : Nat) (v : TReg) : (x.tset n v).leave = x.leave := rfl
@[simp] theorem Ctx.hset_leave (x : Ctx) (n : Nat) (v : Handle) : (x.hset n v).leave = x.leave := rfl
@[simp] theorem Ctx.qset_leave (x : Ctx) (n : Nat) (v : Stream) : (x.qset n v).leave = x.leave := rfl
@[simp] theorem Ctx.cset_leave (x : Ctx) (n : Nat) (v : W64) : (x.cset n v).leave = x.leave := rfl
@[simp] theorem Ctx.gset_notBefore (x : Ctx) (n : Nat) (v : W64) : (x.gset n v).notBefore = x.notBefore := rfl
@[simp] theorem Ctx.vset_notBefore (x : Ctx) (n : Nat) (v : VReg) : (x.vset n v).notBefore = x.notBefore := rfl
@[simp] theorem Ctx.tset_notBefore (x : Ctx) (n : Nat) (v : TReg) : (x.tset n v).notBefore = x.notBefore := rfl
@[simp] theorem Ctx.hset_notBefore (x : Ctx) (n : Nat) (v : Handle) : (x.hset n v).notBefore = x.notBefore := rfl
@[simp] theorem Ctx.qset_notBefore (x : Ctx) (n : Nat) (v : Stream) : (x.qset n v).notBefore = x.notBefore := rfl
@[simp] theorem Ctx.cset_notBefore (x : Ctx) (n : Nat) (v : W64) : (x.cset n v).notBefore = x.notBefore := rfl
@[simp] theorem Ctx.gset_lastFirst (x : Ctx) (n : Nat) (v : W64) : (x.gset n v).lastFirst = x.lastFirst := rfl
@[simp] theorem Ctx.vset_lastFirst (x : Ctx) (n : Nat) (v : VReg) : (x.vset n v).lastFirst = x.lastFirst := rfl
@[simp] theorem Ctx.tset_lastFirst (x : Ctx) (n : Nat) (v : TReg) : (x.tset n v).lastFirst = x.lastFirst := rfl
@[simp] theorem Ctx.hset_lastFirst (x : Ctx) (n : Nat) (v : Handle) : (x.hset n v).lastFirst = x.lastFirst := rfl
@[simp] theorem Ctx.qset_lastFirst (x : Ctx) (n : Nat) (v : Stream) : (x.qset n v).lastFirst = x.lastFirst := rfl
@[simp] theorem Ctx.cset_lastFirst (x : Ctx) (n : Nat) (v : W64) : (x.cset n v).lastFirst = x.lastFirst := rfl
@[simp] theorem Ctx.gset_issuedAt (x : Ctx) (n : Nat) (v : W64) : (x.gset n v).issuedAt = x.issuedAt := rfl
@[simp] theorem Ctx.vset_issuedAt (x : Ctx) (n : Nat) (v : VReg) : (x.vset n v).issuedAt = x.issuedAt := rfl
@[simp] theorem Ctx.tset_issuedAt (x : Ctx) (n : Nat) (v : TReg) : (x.tset n v).issuedAt = x.issuedAt := rfl
@[simp] theorem Ctx.hset_issuedAt (x : Ctx) (n : Nat) (v : Handle) : (x.hset n v).issuedAt = x.issuedAt := rfl
@[simp] theorem Ctx.qset_issuedAt (x : Ctx) (n : Nat) (v : Stream) : (x.qset n v).issuedAt = x.issuedAt := rfl
@[simp] theorem Ctx.cset_issuedAt (x : Ctx) (n : Nat) (v : W64) : (x.cset n v).issuedAt = x.issuedAt := rfl
@[simp] theorem Ctx.gset_bundles (x : Ctx) (n : Nat) (v : W64) : (x.gset n v).bundles = x.bundles := rfl
@[simp] theorem Ctx.vset_bundles (x : Ctx) (n : Nat) (v : VReg) : (x.vset n v).bundles = x.bundles := rfl
@[simp] theorem Ctx.tset_bundles (x : Ctx) (n : Nat) (v : TReg) : (x.tset n v).bundles = x.bundles := rfl
@[simp] theorem Ctx.hset_bundles (x : Ctx) (n : Nat) (v : Handle) : (x.hset n v).bundles = x.bundles := rfl
@[simp] theorem Ctx.qset_bundles (x : Ctx) (n : Nat) (v : Stream) : (x.qset n v).bundles = x.bundles := rfl
@[simp] theorem Ctx.cset_bundles (x : Ctx) (n : Nat) (v : W64) : (x.cset n v).bundles = x.bundles := rfl
@[simp] theorem Ctx.gset_starve (x : Ctx) (n : Nat) (v : W64) : (x.gset n v).starve = x.starve := rfl
@[simp] theorem Ctx.vset_starve (x : Ctx) (n : Nat) (v : VReg) : (x.vset n v).starve = x.starve := rfl
@[simp] theorem Ctx.tset_starve (x : Ctx) (n : Nat) (v : TReg) : (x.tset n v).starve = x.starve := rfl
@[simp] theorem Ctx.hset_starve (x : Ctx) (n : Nat) (v : Handle) : (x.hset n v).starve = x.starve := rfl
@[simp] theorem Ctx.qset_starve (x : Ctx) (n : Nat) (v : Stream) : (x.qset n v).starve = x.starve := rfl
@[simp] theorem Ctx.cset_starve (x : Ctx) (n : Nat) (v : W64) : (x.cset n v).starve = x.starve := rfl
@[simp] theorem Ctx.gset_slotLast (x : Ctx) (n : Nat) (v : W64) : (x.gset n v).slotLast = x.slotLast := rfl
@[simp] theorem Ctx.vset_slotLast (x : Ctx) (n : Nat) (v : VReg) : (x.vset n v).slotLast = x.slotLast := rfl
@[simp] theorem Ctx.tset_slotLast (x : Ctx) (n : Nat) (v : TReg) : (x.tset n v).slotLast = x.slotLast := rfl
@[simp] theorem Ctx.hset_slotLast (x : Ctx) (n : Nat) (v : Handle) : (x.hset n v).slotLast = x.slotLast := rfl
@[simp] theorem Ctx.qset_slotLast (x : Ctx) (n : Nat) (v : Stream) : (x.qset n v).slotLast = x.slotLast := rfl
@[simp] theorem Ctx.cset_slotLast (x : Ctx) (n : Nat) (v : W64) : (x.cset n v).slotLast = x.slotLast := rfl
@[simp] theorem Ctx.gset_flights (x : Ctx) (n : Nat) (v : W64) : (x.gset n v).flights = x.flights := rfl
@[simp] theorem Ctx.vset_flights (x : Ctx) (n : Nat) (v : VReg) : (x.vset n v).flights = x.flights := rfl
@[simp] theorem Ctx.tset_flights (x : Ctx) (n : Nat) (v : TReg) : (x.tset n v).flights = x.flights := rfl
@[simp] theorem Ctx.hset_flights (x : Ctx) (n : Nat) (v : Handle) : (x.hset n v).flights = x.flights := rfl
@[simp] theorem Ctx.qset_flights (x : Ctx) (n : Nat) (v : Stream) : (x.qset n v).flights = x.flights := rfl
@[simp] theorem Ctx.cset_flights (x : Ctx) (n : Nat) (v : W64) : (x.cset n v).flights = x.flights := rfl
@[simp] theorem Ctx.gset_tagFree (x : Ctx) (n : Nat) (v : W64) : (x.gset n v).tagFree = x.tagFree := rfl
@[simp] theorem Ctx.vset_tagFree (x : Ctx) (n : Nat) (v : VReg) : (x.vset n v).tagFree = x.tagFree := rfl
@[simp] theorem Ctx.tset_tagFree (x : Ctx) (n : Nat) (v : TReg) : (x.tset n v).tagFree = x.tagFree := rfl
@[simp] theorem Ctx.hset_tagFree (x : Ctx) (n : Nat) (v : Handle) : (x.hset n v).tagFree = x.tagFree := rfl
@[simp] theorem Ctx.qset_tagFree (x : Ctx) (n : Nat) (v : Stream) : (x.qset n v).tagFree = x.tagFree := rfl
@[simp] theorem Ctx.cset_tagFree (x : Ctx) (n : Nat) (v : W64) : (x.cset n v).tagFree = x.tagFree := rfl
@[simp] theorem Ctx.gset_rdFree (x : Ctx) (n : Nat) (v : W64) : (x.gset n v).rdFree = x.rdFree := rfl
@[simp] theorem Ctx.vset_rdFree (x : Ctx) (n : Nat) (v : VReg) : (x.vset n v).rdFree = x.rdFree := rfl
@[simp] theorem Ctx.tset_rdFree (x : Ctx) (n : Nat) (v : TReg) : (x.tset n v).rdFree = x.rdFree := rfl
@[simp] theorem Ctx.hset_rdFree (x : Ctx) (n : Nat) (v : Handle) : (x.hset n v).rdFree = x.rdFree := rfl
@[simp] theorem Ctx.qset_rdFree (x : Ctx) (n : Nat) (v : Stream) : (x.qset n v).rdFree = x.rdFree := rfl
@[simp] theorem Ctx.cset_rdFree (x : Ctx) (n : Nat) (v : W64) : (x.cset n v).rdFree = x.rdFree := rfl
@[simp] theorem Ctx.gset_wrFree (x : Ctx) (n : Nat) (v : W64) : (x.gset n v).wrFree = x.wrFree := rfl
@[simp] theorem Ctx.vset_wrFree (x : Ctx) (n : Nat) (v : VReg) : (x.vset n v).wrFree = x.wrFree := rfl
@[simp] theorem Ctx.tset_wrFree (x : Ctx) (n : Nat) (v : TReg) : (x.tset n v).wrFree = x.wrFree := rfl
@[simp] theorem Ctx.hset_wrFree (x : Ctx) (n : Nat) (v : Handle) : (x.hset n v).wrFree = x.wrFree := rfl
@[simp] theorem Ctx.qset_wrFree (x : Ctx) (n : Nat) (v : Stream) : (x.qset n v).wrFree = x.wrFree := rfl
@[simp] theorem Ctx.cset_wrFree (x : Ctx) (n : Nat) (v : W64) : (x.cset n v).wrFree = x.wrFree := rfl
@[simp] theorem Ctx.gset_unitFree (x : Ctx) (n : Nat) (v : W64) : (x.gset n v).unitFree = x.unitFree := rfl
@[simp] theorem Ctx.vset_unitFree (x : Ctx) (n : Nat) (v : VReg) : (x.vset n v).unitFree = x.unitFree := rfl
@[simp] theorem Ctx.tset_unitFree (x : Ctx) (n : Nat) (v : TReg) : (x.tset n v).unitFree = x.unitFree := rfl
@[simp] theorem Ctx.hset_unitFree (x : Ctx) (n : Nat) (v : Handle) : (x.hset n v).unitFree = x.unitFree := rfl
@[simp] theorem Ctx.qset_unitFree (x : Ctx) (n : Nat) (v : Stream) : (x.qset n v).unitFree = x.unitFree := rfl
@[simp] theorem Ctx.cset_unitFree (x : Ctx) (n : Nat) (v : W64) : (x.cset n v).unitFree = x.unitFree := rfl
@[simp] theorem Ctx.gset_pend (x : Ctx) (n : Nat) (v : W64) : (x.gset n v).pend = x.pend := rfl
@[simp] theorem Ctx.vset_pend (x : Ctx) (n : Nat) (v : VReg) : (x.vset n v).pend = x.pend := rfl
@[simp] theorem Ctx.tset_pend (x : Ctx) (n : Nat) (v : TReg) : (x.tset n v).pend = x.pend := rfl
@[simp] theorem Ctx.hset_pend (x : Ctx) (n : Nat) (v : Handle) : (x.hset n v).pend = x.pend := rfl
@[simp] theorem Ctx.qset_pend (x : Ctx) (n : Nat) (v : Stream) : (x.qset n v).pend = x.pend := rfl
@[simp] theorem Ctx.cset_pend (x : Ctx) (n : Nat) (v : W64) : (x.cset n v).pend = x.pend := rfl
@[simp] theorem Ctx.gset_wset (x : Ctx) (n : Nat) (v : W64) : (x.gset n v).wset = x.wset := rfl
@[simp] theorem Ctx.vset_wset (x : Ctx) (n : Nat) (v : VReg) : (x.vset n v).wset = x.wset := rfl
@[simp] theorem Ctx.tset_wset (x : Ctx) (n : Nat) (v : TReg) : (x.tset n v).wset = x.wset := rfl
@[simp] theorem Ctx.hset_wset (x : Ctx) (n : Nat) (v : Handle) : (x.hset n v).wset = x.wset := rfl
@[simp] theorem Ctx.qset_wset (x : Ctx) (n : Nat) (v : Stream) : (x.qset n v).wset = x.wset := rfl
@[simp] theorem Ctx.cset_wset (x : Ctx) (n : Nat) (v : W64) : (x.cset n v).wset = x.wset := rfl
@[simp] theorem Ctx.gset_version (x : Ctx) (n : Nat) (v : W64) : (x.gset n v).version = x.version := rfl
@[simp] theorem Ctx.vset_version (x : Ctx) (n : Nat) (v : VReg) : (x.vset n v).version = x.version := rfl
@[simp] theorem Ctx.tset_version (x : Ctx) (n : Nat) (v : TReg) : (x.tset n v).version = x.version := rfl
@[simp] theorem Ctx.hset_version (x : Ctx) (n : Nat) (v : Handle) : (x.hset n v).version = x.version := rfl
@[simp] theorem Ctx.qset_version (x : Ctx) (n : Nat) (v : Stream) : (x.qset n v).version = x.version := rfl
@[simp] theorem Ctx.cset_version (x : Ctx) (n : Nat) (v : W64) : (x.cset n v).version = x.version := rfl
@[simp] theorem Ctx.gset_group (x : Ctx) (n : Nat) (v : W64) : (x.gset n v).group = x.group := rfl
@[simp] theorem Ctx.vset_group (x : Ctx) (n : Nat) (v : VReg) : (x.vset n v).group = x.group := rfl
@[simp] theorem Ctx.tset_group (x : Ctx) (n : Nat) (v : TReg) : (x.tset n v).group = x.group := rfl
@[simp] theorem Ctx.hset_group (x : Ctx) (n : Nat) (v : Handle) : (x.hset n v).group = x.group := rfl
@[simp] theorem Ctx.qset_group (x : Ctx) (n : Nat) (v : Stream) : (x.qset n v).group = x.group := rfl
@[simp] theorem Ctx.cset_group (x : Ctx) (n : Nat) (v : W64) : (x.cset n v).group = x.group := rfl
@[simp] theorem Ctx.gset_lx (x : Ctx) (n : Nat) (v : W64) : (x.gset n v).lx = x.lx := rfl
@[simp] theorem Ctx.vset_lx (x : Ctx) (n : Nat) (v : VReg) : (x.vset n v).lx = x.lx := rfl
@[simp] theorem Ctx.tset_lx (x : Ctx) (n : Nat) (v : TReg) : (x.tset n v).lx = x.lx := rfl
@[simp] theorem Ctx.hset_lx (x : Ctx) (n : Nat) (v : Handle) : (x.hset n v).lx = x.lx := rfl
@[simp] theorem Ctx.qset_lx (x : Ctx) (n : Nat) (v : Stream) : (x.qset n v).lx = x.lx := rfl
@[simp] theorem Ctx.cset_lx (x : Ctx) (n : Nat) (v : W64) : (x.cset n v).lx = x.lx := rfl
@[simp] theorem Ctx.gset_ly (x : Ctx) (n : Nat) (v : W64) : (x.gset n v).ly = x.ly := rfl
@[simp] theorem Ctx.vset_ly (x : Ctx) (n : Nat) (v : VReg) : (x.vset n v).ly = x.ly := rfl
@[simp] theorem Ctx.tset_ly (x : Ctx) (n : Nat) (v : TReg) : (x.tset n v).ly = x.ly := rfl
@[simp] theorem Ctx.hset_ly (x : Ctx) (n : Nat) (v : Handle) : (x.hset n v).ly = x.ly := rfl
@[simp] theorem Ctx.qset_ly (x : Ctx) (n : Nat) (v : Stream) : (x.qset n v).ly = x.ly := rfl
@[simp] theorem Ctx.cset_ly (x : Ctx) (n : Nat) (v : W64) : (x.cset n v).ly = x.ly := rfl
@[simp] theorem Ctx.gset_incarnation (x : Ctx) (n : Nat) (v : W64) : (x.gset n v).incarnation = x.incarnation := rfl
@[simp] theorem Ctx.vset_incarnation (x : Ctx) (n : Nat) (v : VReg) : (x.vset n v).incarnation = x.incarnation := rfl
@[simp] theorem Ctx.tset_incarnation (x : Ctx) (n : Nat) (v : TReg) : (x.tset n v).incarnation = x.incarnation := rfl
@[simp] theorem Ctx.hset_incarnation (x : Ctx) (n : Nat) (v : Handle) : (x.hset n v).incarnation = x.incarnation := rfl
@[simp] theorem Ctx.qset_incarnation (x : Ctx) (n : Nat) (v : Stream) : (x.qset n v).incarnation = x.incarnation := rfl
@[simp] theorem Ctx.cset_incarnation (x : Ctx) (n : Nat) (v : W64) : (x.cset n v).incarnation = x.incarnation := rfl
@[simp] theorem Ctx.gset_drainTo (x : Ctx) (n : Nat) (v : W64) : (x.gset n v).drainTo = x.drainTo := rfl
@[simp] theorem Ctx.vset_drainTo (x : Ctx) (n : Nat) (v : VReg) : (x.vset n v).drainTo = x.drainTo := rfl
@[simp] theorem Ctx.tset_drainTo (x : Ctx) (n : Nat) (v : TReg) : (x.tset n v).drainTo = x.drainTo := rfl
@[simp] theorem Ctx.hset_drainTo (x : Ctx) (n : Nat) (v : Handle) : (x.hset n v).drainTo = x.drainTo := rfl
@[simp] theorem Ctx.qset_drainTo (x : Ctx) (n : Nat) (v : Stream) : (x.qset n v).drainTo = x.drainTo := rfl
@[simp] theorem Ctx.cset_drainTo (x : Ctx) (n : Nat) (v : W64) : (x.cset n v).drainTo = x.drainTo := rfl
@[simp] theorem Ctx.gset_sleep (x : Ctx) (n : Nat) (v : W64) : (x.gset n v).sleep = x.sleep := rfl
@[simp] theorem Ctx.vset_sleep (x : Ctx) (n : Nat) (v : VReg) : (x.vset n v).sleep = x.sleep := rfl
@[simp] theorem Ctx.tset_sleep (x : Ctx) (n : Nat) (v : TReg) : (x.tset n v).sleep = x.sleep := rfl
@[simp] theorem Ctx.hset_sleep (x : Ctx) (n : Nat) (v : Handle) : (x.hset n v).sleep = x.sleep := rfl
@[simp] theorem Ctx.qset_sleep (x : Ctx) (n : Nat) (v : Stream) : (x.qset n v).sleep = x.sleep := rfl
@[simp] theorem Ctx.cset_sleep (x : Ctx) (n : Nat) (v : W64) : (x.cset n v).sleep = x.sleep := rfl
@[simp] theorem Ctx.gset_faulted (x : Ctx) (n : Nat) (v : W64) : (x.gset n v).faulted = x.faulted := rfl
@[simp] theorem Ctx.vset_faulted (x : Ctx) (n : Nat) (v : VReg) : (x.vset n v).faulted = x.faulted := rfl
@[simp] theorem Ctx.tset_faulted (x : Ctx) (n : Nat) (v : TReg) : (x.tset n v).faulted = x.faulted := rfl
@[simp] theorem Ctx.hset_faulted (x : Ctx) (n : Nat) (v : Handle) : (x.hset n v).faulted = x.faulted := rfl
@[simp] theorem Ctx.qset_faulted (x : Ctx) (n : Nat) (v : Stream) : (x.qset n v).faulted = x.faulted := rfl
@[simp] theorem Ctx.cset_faulted (x : Ctx) (n : Nat) (v : W64) : (x.cset n v).faulted = x.faulted := rfl
@[simp] theorem Ctx.gset_waits (x : Ctx) (n : Nat) (v : W64) : (x.gset n v).waits = x.waits := rfl
@[simp] theorem Ctx.vset_waits (x : Ctx) (n : Nat) (v : VReg) : (x.vset n v).waits = x.waits := rfl
@[simp] theorem Ctx.tset_waits (x : Ctx) (n : Nat) (v : TReg) : (x.tset n v).waits = x.waits := rfl
@[simp] theorem Ctx.hset_waits (x : Ctx) (n : Nat) (v : Handle) : (x.hset n v).waits = x.waits := rfl
@[simp] theorem Ctx.qset_waits (x : Ctx) (n : Nat) (v : Stream) : (x.qset n v).waits = x.waits := rfl
@[simp] theorem Ctx.cset_waits (x : Ctx) (n : Nat) (v : W64) : (x.cset n v).waits = x.waits := rfl
@[simp] theorem Ctx.gset_arrived (x : Ctx) (n : Nat) (v : W64) : (x.gset n v).arrived = x.arrived := rfl
@[simp] theorem Ctx.vset_arrived (x : Ctx) (n : Nat) (v : VReg) : (x.vset n v).arrived = x.arrived := rfl
@[simp] theorem Ctx.tset_arrived (x : Ctx) (n : Nat) (v : TReg) : (x.tset n v).arrived = x.arrived := rfl
@[simp] theorem Ctx.hset_arrived (x : Ctx) (n : Nat) (v : Handle) : (x.hset n v).arrived = x.arrived := rfl
@[simp] theorem Ctx.qset_arrived (x : Ctx) (n : Nat) (v : Stream) : (x.qset n v).arrived = x.arrived := rfl
@[simp] theorem Ctx.cset_arrived (x : Ctx) (n : Nat) (v : W64) : (x.cset n v).arrived = x.arrived := rfl
@[simp] theorem Ctx.gset_syncAt (x : Ctx) (n : Nat) (v : W64) : (x.gset n v).syncAt = x.syncAt := rfl
@[simp] theorem Ctx.vset_syncAt (x : Ctx) (n : Nat) (v : VReg) : (x.vset n v).syncAt = x.syncAt := rfl
@[simp] theorem Ctx.tset_syncAt (x : Ctx) (n : Nat) (v : TReg) : (x.tset n v).syncAt = x.syncAt := rfl
@[simp] theorem Ctx.hset_syncAt (x : Ctx) (n : Nat) (v : Handle) : (x.hset n v).syncAt = x.syncAt := rfl
@[simp] theorem Ctx.qset_syncAt (x : Ctx) (n : Nat) (v : Stream) : (x.qset n v).syncAt = x.syncAt := rfl
@[simp] theorem Ctx.cset_syncAt (x : Ctx) (n : Nat) (v : W64) : (x.cset n v).syncAt = x.syncAt := rfl
@[simp] theorem Ctx.gset_syncMask (x : Ctx) (n : Nat) (v : W64) : (x.gset n v).syncMask = x.syncMask := rfl
@[simp] theorem Ctx.vset_syncMask (x : Ctx) (n : Nat) (v : VReg) : (x.vset n v).syncMask = x.syncMask := rfl
@[simp] theorem Ctx.tset_syncMask (x : Ctx) (n : Nat) (v : TReg) : (x.tset n v).syncMask = x.syncMask := rfl
@[simp] theorem Ctx.hset_syncMask (x : Ctx) (n : Nat) (v : Handle) : (x.hset n v).syncMask = x.syncMask := rfl
@[simp] theorem Ctx.qset_syncMask (x : Ctx) (n : Nat) (v : Stream) : (x.qset n v).syncMask = x.syncMask := rfl
@[simp] theorem Ctx.cset_syncMask (x : Ctx) (n : Nat) (v : W64) : (x.cset n v).syncMask = x.syncMask := rfl
@[simp] theorem Ctx.gset_promoWait (x : Ctx) (n : Nat) (v : W64) : (x.gset n v).promoWait = x.promoWait := rfl
@[simp] theorem Ctx.vset_promoWait (x : Ctx) (n : Nat) (v : VReg) : (x.vset n v).promoWait = x.promoWait := rfl
@[simp] theorem Ctx.tset_promoWait (x : Ctx) (n : Nat) (v : TReg) : (x.tset n v).promoWait = x.promoWait := rfl
@[simp] theorem Ctx.hset_promoWait (x : Ctx) (n : Nat) (v : Handle) : (x.hset n v).promoWait = x.promoWait := rfl
@[simp] theorem Ctx.qset_promoWait (x : Ctx) (n : Nat) (v : Stream) : (x.qset n v).promoWait = x.promoWait := rfl
@[simp] theorem Ctx.cset_promoWait (x : Ctx) (n : Nat) (v : W64) : (x.cset n v).promoWait = x.promoWait := rfl
@[simp] theorem Ctx.gset_promoHold (x : Ctx) (n : Nat) (v : W64) : (x.gset n v).promoHold = x.promoHold := rfl
@[simp] theorem Ctx.vset_promoHold (x : Ctx) (n : Nat) (v : VReg) : (x.vset n v).promoHold = x.promoHold := rfl
@[simp] theorem Ctx.tset_promoHold (x : Ctx) (n : Nat) (v : TReg) : (x.tset n v).promoHold = x.promoHold := rfl
@[simp] theorem Ctx.hset_promoHold (x : Ctx) (n : Nat) (v : Handle) : (x.hset n v).promoHold = x.promoHold := rfl
@[simp] theorem Ctx.qset_promoHold (x : Ctx) (n : Nat) (v : Stream) : (x.qset n v).promoHold = x.promoHold := rfl
@[simp] theorem Ctx.cset_promoHold (x : Ctx) (n : Nat) (v : W64) : (x.cset n v).promoHold = x.promoHold := rfl
@[simp] theorem Ctx.gset_phase (x : Ctx) (n : Nat) (v : W64) : (x.gset n v).phase = x.phase := rfl
@[simp] theorem Ctx.vset_phase (x : Ctx) (n : Nat) (v : VReg) : (x.vset n v).phase = x.phase := rfl
@[simp] theorem Ctx.tset_phase (x : Ctx) (n : Nat) (v : TReg) : (x.tset n v).phase = x.phase := rfl
@[simp] theorem Ctx.hset_phase (x : Ctx) (n : Nat) (v : Handle) : (x.hset n v).phase = x.phase := rfl
@[simp] theorem Ctx.qset_phase (x : Ctx) (n : Nat) (v : Stream) : (x.qset n v).phase = x.phase := rfl
@[simp] theorem Ctx.cset_phase (x : Ctx) (n : Nat) (v : W64) : (x.cset n v).phase = x.phase := rfl
@[simp] theorem Ctx.gset_replay (x : Ctx) (n : Nat) (v : W64) : (x.gset n v).replay = x.replay := rfl
@[simp] theorem Ctx.vset_replay (x : Ctx) (n : Nat) (v : VReg) : (x.vset n v).replay = x.replay := rfl
@[simp] theorem Ctx.tset_replay (x : Ctx) (n : Nat) (v : TReg) : (x.tset n v).replay = x.replay := rfl
@[simp] theorem Ctx.hset_replay (x : Ctx) (n : Nat) (v : Handle) : (x.hset n v).replay = x.replay := rfl
@[simp] theorem Ctx.qset_replay (x : Ctx) (n : Nat) (v : Stream) : (x.qset n v).replay = x.replay := rfl
@[simp] theorem Ctx.cset_replay (x : Ctx) (n : Nat) (v : W64) : (x.cset n v).replay = x.replay := rfl
@[simp] theorem Ctx.gset_inputs (x : Ctx) (n : Nat) (v : W64) : (x.gset n v).inputs = x.inputs := rfl
@[simp] theorem Ctx.vset_inputs (x : Ctx) (n : Nat) (v : VReg) : (x.vset n v).inputs = x.inputs := rfl
@[simp] theorem Ctx.tset_inputs (x : Ctx) (n : Nat) (v : TReg) : (x.tset n v).inputs = x.inputs := rfl
@[simp] theorem Ctx.hset_inputs (x : Ctx) (n : Nat) (v : Handle) : (x.hset n v).inputs = x.inputs := rfl
@[simp] theorem Ctx.qset_inputs (x : Ctx) (n : Nat) (v : Stream) : (x.qset n v).inputs = x.inputs := rfl
@[simp] theorem Ctx.cset_inputs (x : Ctx) (n : Nat) (v : W64) : (x.cset n v).inputs = x.inputs := rfl
@[simp] theorem Ctx.gset_nextInputs (x : Ctx) (n : Nat) (v : W64) : (x.gset n v).nextInputs = x.nextInputs := rfl
@[simp] theorem Ctx.vset_nextInputs (x : Ctx) (n : Nat) (v : VReg) : (x.vset n v).nextInputs = x.nextInputs := rfl
@[simp] theorem Ctx.tset_nextInputs (x : Ctx) (n : Nat) (v : TReg) : (x.tset n v).nextInputs = x.nextInputs := rfl
@[simp] theorem Ctx.hset_nextInputs (x : Ctx) (n : Nat) (v : Handle) : (x.hset n v).nextInputs = x.nextInputs := rfl
@[simp] theorem Ctx.qset_nextInputs (x : Ctx) (n : Nat) (v : Stream) : (x.qset n v).nextInputs = x.nextInputs := rfl
@[simp] theorem Ctx.cset_nextInputs (x : Ctx) (n : Nat) (v : W64) : (x.cset n v).nextInputs = x.nextInputs := rfl
@[simp] theorem Ctx.gset_inputOver (x : Ctx) (n : Nat) (v : W64) : (x.gset n v).inputOver = x.inputOver := rfl
@[simp] theorem Ctx.vset_inputOver (x : Ctx) (n : Nat) (v : VReg) : (x.vset n v).inputOver = x.inputOver := rfl
@[simp] theorem Ctx.tset_inputOver (x : Ctx) (n : Nat) (v : TReg) : (x.tset n v).inputOver = x.inputOver := rfl
@[simp] theorem Ctx.hset_inputOver (x : Ctx) (n : Nat) (v : Handle) : (x.hset n v).inputOver = x.inputOver := rfl
@[simp] theorem Ctx.qset_inputOver (x : Ctx) (n : Nat) (v : Stream) : (x.qset n v).inputOver = x.inputOver := rfl
@[simp] theorem Ctx.cset_inputOver (x : Ctx) (n : Nat) (v : W64) : (x.cset n v).inputOver = x.inputOver := rfl
@[simp] theorem Ctx.gset_rerun (x : Ctx) (n : Nat) (v : W64) : (x.gset n v).rerun = x.rerun := rfl
@[simp] theorem Ctx.vset_rerun (x : Ctx) (n : Nat) (v : VReg) : (x.vset n v).rerun = x.rerun := rfl
@[simp] theorem Ctx.tset_rerun (x : Ctx) (n : Nat) (v : TReg) : (x.tset n v).rerun = x.rerun := rfl
@[simp] theorem Ctx.hset_rerun (x : Ctx) (n : Nat) (v : Handle) : (x.hset n v).rerun = x.rerun := rfl
@[simp] theorem Ctx.qset_rerun (x : Ctx) (n : Nat) (v : Stream) : (x.qset n v).rerun = x.rerun := rfl
@[simp] theorem Ctx.cset_rerun (x : Ctx) (n : Nat) (v : W64) : (x.cset n v).rerun = x.rerun := rfl
@[simp] theorem Ctx.gset_lastTrap (x : Ctx) (n : Nat) (v : W64) : (x.gset n v).lastTrap = x.lastTrap := rfl
@[simp] theorem Ctx.vset_lastTrap (x : Ctx) (n : Nat) (v : VReg) : (x.vset n v).lastTrap = x.lastTrap := rfl
@[simp] theorem Ctx.tset_lastTrap (x : Ctx) (n : Nat) (v : TReg) : (x.tset n v).lastTrap = x.lastTrap := rfl
@[simp] theorem Ctx.hset_lastTrap (x : Ctx) (n : Nat) (v : Handle) : (x.hset n v).lastTrap = x.lastTrap := rfl
@[simp] theorem Ctx.qset_lastTrap (x : Ctx) (n : Nat) (v : Stream) : (x.qset n v).lastTrap = x.lastTrap := rfl
@[simp] theorem Ctx.cset_lastTrap (x : Ctx) (n : Nat) (v : W64) : (x.cset n v).lastTrap = x.lastTrap := rfl
@[simp] theorem Ctx.gset_trapBundle (x : Ctx) (n : Nat) (v : W64) : (x.gset n v).trapBundle = x.trapBundle := rfl
@[simp] theorem Ctx.vset_trapBundle (x : Ctx) (n : Nat) (v : VReg) : (x.vset n v).trapBundle = x.trapBundle := rfl
@[simp] theorem Ctx.tset_trapBundle (x : Ctx) (n : Nat) (v : TReg) : (x.tset n v).trapBundle = x.trapBundle := rfl
@[simp] theorem Ctx.hset_trapBundle (x : Ctx) (n : Nat) (v : Handle) : (x.hset n v).trapBundle = x.trapBundle := rfl
@[simp] theorem Ctx.qset_trapBundle (x : Ctx) (n : Nat) (v : Stream) : (x.qset n v).trapBundle = x.trapBundle := rfl
@[simp] theorem Ctx.cset_trapBundle (x : Ctx) (n : Nat) (v : W64) : (x.cset n v).trapBundle = x.trapBundle := rfl
@[simp] theorem Ctx.gset_deadRec (x : Ctx) (n : Nat) (v : W64) : (x.gset n v).deadRec = x.deadRec := rfl
@[simp] theorem Ctx.vset_deadRec (x : Ctx) (n : Nat) (v : VReg) : (x.vset n v).deadRec = x.deadRec := rfl
@[simp] theorem Ctx.tset_deadRec (x : Ctx) (n : Nat) (v : TReg) : (x.tset n v).deadRec = x.deadRec := rfl
@[simp] theorem Ctx.hset_deadRec (x : Ctx) (n : Nat) (v : Handle) : (x.hset n v).deadRec = x.deadRec := rfl
@[simp] theorem Ctx.qset_deadRec (x : Ctx) (n : Nat) (v : Stream) : (x.qset n v).deadRec = x.deadRec := rfl
@[simp] theorem Ctx.cset_deadRec (x : Ctx) (n : Nat) (v : W64) : (x.cset n v).deadRec = x.deadRec := rfl
@[simp] theorem Ctx.gset_poison (x : Ctx) (n : Nat) (v : W64) : (x.gset n v).poison = x.poison := rfl
@[simp] theorem Ctx.vset_poison (x : Ctx) (n : Nat) (v : VReg) : (x.vset n v).poison = x.poison := rfl
@[simp] theorem Ctx.tset_poison (x : Ctx) (n : Nat) (v : TReg) : (x.tset n v).poison = x.poison := rfl
@[simp] theorem Ctx.hset_poison (x : Ctx) (n : Nat) (v : Handle) : (x.hset n v).poison = x.poison := rfl
@[simp] theorem Ctx.qset_poison (x : Ctx) (n : Nat) (v : Stream) : (x.qset n v).poison = x.poison := rfl
@[simp] theorem Ctx.cset_poison (x : Ctx) (n : Nat) (v : W64) : (x.cset n v).poison = x.poison := rfl
@[simp] theorem Ctx.gset_logBits (x : Ctx) (n : Nat) (v : W64) : (x.gset n v).logBits = x.logBits := rfl
@[simp] theorem Ctx.vset_logBits (x : Ctx) (n : Nat) (v : VReg) : (x.vset n v).logBits = x.logBits := rfl
@[simp] theorem Ctx.tset_logBits (x : Ctx) (n : Nat) (v : TReg) : (x.tset n v).logBits = x.logBits := rfl
@[simp] theorem Ctx.hset_logBits (x : Ctx) (n : Nat) (v : Handle) : (x.hset n v).logBits = x.logBits := rfl
@[simp] theorem Ctx.qset_logBits (x : Ctx) (n : Nat) (v : Stream) : (x.qset n v).logBits = x.logBits := rfl
@[simp] theorem Ctx.cset_logBits (x : Ctx) (n : Nat) (v : W64) : (x.cset n v).logBits = x.logBits := rfl
@[simp] theorem Ctx.gset_logStart (x : Ctx) (n : Nat) (v : W64) : (x.gset n v).logStart = x.logStart := rfl
@[simp] theorem Ctx.gset_versOld (x : Ctx) (n : Nat) (v : W64) : (x.gset n v).versOld = x.versOld := rfl
@[simp] theorem Ctx.gset_restart (x : Ctx) (n : Nat) (v : W64) : (x.gset n v).restart = x.restart := rfl
@[simp] theorem Ctx.gset_restarted (x : Ctx) (n : Nat) (v : W64) : (x.gset n v).restarted = x.restarted := rfl
@[simp] theorem Ctx.gset_syncPair (x : Ctx) (n : Nat) (v : W64) : (x.gset n v).syncPair = x.syncPair := rfl
@[simp] theorem Ctx.gset_hush (x : Ctx) (n : Nat) (v : W64) : (x.gset n v).hush = x.hush := rfl
@[simp] theorem Ctx.gset_acqAt (x : Ctx) (n : Nat) (v : W64) : (x.gset n v).acqAt = x.acqAt := rfl
@[simp] theorem Ctx.gset_logTail (x : Ctx) (n : Nat) (v : W64) : (x.gset n v).logTail = x.logTail := rfl
@[simp] theorem Ctx.vset_logStart (x : Ctx) (n : Nat) (v : VReg) : (x.vset n v).logStart = x.logStart := rfl
@[simp] theorem Ctx.vset_versOld (x : Ctx) (n : Nat) (v : VReg) : (x.vset n v).versOld = x.versOld := rfl
@[simp] theorem Ctx.vset_restart (x : Ctx) (n : Nat) (v : VReg) : (x.vset n v).restart = x.restart := rfl
@[simp] theorem Ctx.vset_restarted (x : Ctx) (n : Nat) (v : VReg) : (x.vset n v).restarted = x.restarted := rfl
@[simp] theorem Ctx.vset_syncPair (x : Ctx) (n : Nat) (v : VReg) : (x.vset n v).syncPair = x.syncPair := rfl
@[simp] theorem Ctx.vset_hush (x : Ctx) (n : Nat) (v : VReg) : (x.vset n v).hush = x.hush := rfl
@[simp] theorem Ctx.vset_acqAt (x : Ctx) (n : Nat) (v : VReg) : (x.vset n v).acqAt = x.acqAt := rfl
@[simp] theorem Ctx.vset_logTail (x : Ctx) (n : Nat) (v : VReg) : (x.vset n v).logTail = x.logTail := rfl
@[simp] theorem Ctx.tset_logStart (x : Ctx) (n : Nat) (v : TReg) : (x.tset n v).logStart = x.logStart := rfl
@[simp] theorem Ctx.tset_versOld (x : Ctx) (n : Nat) (v : TReg) : (x.tset n v).versOld = x.versOld := rfl
@[simp] theorem Ctx.tset_restart (x : Ctx) (n : Nat) (v : TReg) : (x.tset n v).restart = x.restart := rfl
@[simp] theorem Ctx.tset_restarted (x : Ctx) (n : Nat) (v : TReg) : (x.tset n v).restarted = x.restarted := rfl
@[simp] theorem Ctx.tset_syncPair (x : Ctx) (n : Nat) (v : TReg) : (x.tset n v).syncPair = x.syncPair := rfl
@[simp] theorem Ctx.tset_hush (x : Ctx) (n : Nat) (v : TReg) : (x.tset n v).hush = x.hush := rfl
@[simp] theorem Ctx.tset_acqAt (x : Ctx) (n : Nat) (v : TReg) : (x.tset n v).acqAt = x.acqAt := rfl
@[simp] theorem Ctx.tset_logTail (x : Ctx) (n : Nat) (v : TReg) : (x.tset n v).logTail = x.logTail := rfl
@[simp] theorem Ctx.hset_logStart (x : Ctx) (n : Nat) (v : Handle) : (x.hset n v).logStart = x.logStart := rfl
@[simp] theorem Ctx.hset_versOld (x : Ctx) (n : Nat) (v : Handle) : (x.hset n v).versOld = x.versOld := rfl
@[simp] theorem Ctx.hset_restart (x : Ctx) (n : Nat) (v : Handle) : (x.hset n v).restart = x.restart := rfl
@[simp] theorem Ctx.hset_restarted (x : Ctx) (n : Nat) (v : Handle) : (x.hset n v).restarted = x.restarted := rfl
@[simp] theorem Ctx.hset_syncPair (x : Ctx) (n : Nat) (v : Handle) : (x.hset n v).syncPair = x.syncPair := rfl
@[simp] theorem Ctx.hset_hush (x : Ctx) (n : Nat) (v : Handle) : (x.hset n v).hush = x.hush := rfl
@[simp] theorem Ctx.hset_acqAt (x : Ctx) (n : Nat) (v : Handle) : (x.hset n v).acqAt = x.acqAt := rfl
@[simp] theorem Ctx.hset_logTail (x : Ctx) (n : Nat) (v : Handle) : (x.hset n v).logTail = x.logTail := rfl
@[simp] theorem Ctx.qset_logStart (x : Ctx) (n : Nat) (v : Stream) : (x.qset n v).logStart = x.logStart := rfl
@[simp] theorem Ctx.qset_versOld (x : Ctx) (n : Nat) (v : Stream) : (x.qset n v).versOld = x.versOld := rfl
@[simp] theorem Ctx.qset_restart (x : Ctx) (n : Nat) (v : Stream) : (x.qset n v).restart = x.restart := rfl
@[simp] theorem Ctx.qset_restarted (x : Ctx) (n : Nat) (v : Stream) : (x.qset n v).restarted = x.restarted := rfl
@[simp] theorem Ctx.qset_syncPair (x : Ctx) (n : Nat) (v : Stream) : (x.qset n v).syncPair = x.syncPair := rfl
@[simp] theorem Ctx.qset_hush (x : Ctx) (n : Nat) (v : Stream) : (x.qset n v).hush = x.hush := rfl
@[simp] theorem Ctx.qset_acqAt (x : Ctx) (n : Nat) (v : Stream) : (x.qset n v).acqAt = x.acqAt := rfl
@[simp] theorem Ctx.qset_logTail (x : Ctx) (n : Nat) (v : Stream) : (x.qset n v).logTail = x.logTail := rfl
@[simp] theorem Ctx.cset_logStart (x : Ctx) (n : Nat) (v : W64) : (x.cset n v).logStart = x.logStart := rfl
@[simp] theorem Ctx.cset_versOld (x : Ctx) (n : Nat) (v : W64) : (x.cset n v).versOld = x.versOld := rfl
@[simp] theorem Ctx.cset_restart (x : Ctx) (n : Nat) (v : W64) : (x.cset n v).restart = x.restart := rfl
@[simp] theorem Ctx.cset_restarted (x : Ctx) (n : Nat) (v : W64) : (x.cset n v).restarted = x.restarted := rfl
@[simp] theorem Ctx.cset_syncPair (x : Ctx) (n : Nat) (v : W64) : (x.cset n v).syncPair = x.syncPair := rfl
@[simp] theorem Ctx.cset_hush (x : Ctx) (n : Nat) (v : W64) : (x.cset n v).hush = x.hush := rfl
@[simp] theorem Ctx.cset_acqAt (x : Ctx) (n : Nat) (v : W64) : (x.cset n v).acqAt = x.acqAt := rfl
@[simp] theorem Ctx.cset_logTail (x : Ctx) (n : Nat) (v : W64) : (x.cset n v).logTail = x.logTail := rfl
@[simp] theorem Ctx.gset_quantumFrom (x : Ctx) (n : Nat) (v : W64) : (x.gset n v).quantumFrom = x.quantumFrom := rfl
@[simp] theorem Ctx.vset_quantumFrom (x : Ctx) (n : Nat) (v : VReg) : (x.vset n v).quantumFrom = x.quantumFrom := rfl
@[simp] theorem Ctx.tset_quantumFrom (x : Ctx) (n : Nat) (v : TReg) : (x.tset n v).quantumFrom = x.quantumFrom := rfl
@[simp] theorem Ctx.hset_quantumFrom (x : Ctx) (n : Nat) (v : Handle) : (x.hset n v).quantumFrom = x.quantumFrom := rfl
@[simp] theorem Ctx.qset_quantumFrom (x : Ctx) (n : Nat) (v : Stream) : (x.qset n v).quantumFrom = x.quantumFrom := rfl
@[simp] theorem Ctx.cset_quantumFrom (x : Ctx) (n : Nat) (v : W64) : (x.cset n v).quantumFrom = x.quantumFrom := rfl
@[simp] theorem Ctx.gset_quantumOver (x : Ctx) (n : Nat) (v : W64) : (x.gset n v).quantumOver = x.quantumOver := rfl
@[simp] theorem Ctx.vset_quantumOver (x : Ctx) (n : Nat) (v : VReg) : (x.vset n v).quantumOver = x.quantumOver := rfl
@[simp] theorem Ctx.tset_quantumOver (x : Ctx) (n : Nat) (v : TReg) : (x.tset n v).quantumOver = x.quantumOver := rfl
@[simp] theorem Ctx.hset_quantumOver (x : Ctx) (n : Nat) (v : Handle) : (x.hset n v).quantumOver = x.quantumOver := rfl
@[simp] theorem Ctx.qset_quantumOver (x : Ctx) (n : Nat) (v : Stream) : (x.qset n v).quantumOver = x.quantumOver := rfl
@[simp] theorem Ctx.cset_quantumOver (x : Ctx) (n : Nat) (v : W64) : (x.cset n v).quantumOver = x.quantumOver := rfl
@[simp] theorem Ctx.gset_started (x : Ctx) (n : Nat) (v : W64) : (x.gset n v).started = x.started := rfl
@[simp] theorem Ctx.vset_started (x : Ctx) (n : Nat) (v : VReg) : (x.vset n v).started = x.started := rfl
@[simp] theorem Ctx.tset_started (x : Ctx) (n : Nat) (v : TReg) : (x.tset n v).started = x.started := rfl
@[simp] theorem Ctx.hset_started (x : Ctx) (n : Nat) (v : Handle) : (x.hset n v).started = x.started := rfl
@[simp] theorem Ctx.qset_started (x : Ctx) (n : Nat) (v : Stream) : (x.qset n v).started = x.started := rfl
@[simp] theorem Ctx.cset_started (x : Ctx) (n : Nat) (v : W64) : (x.cset n v).started = x.started := rfl
@[simp] theorem Ctx.unreplay_st (x : Ctx) : (x.unreplay).st = x.st := rfl
@[simp] theorem Ctx.unreplay_s (x : Ctx) : (x.unreplay).s = x.s := rfl
@[simp] theorem Ctx.unreplay_g (x : Ctx) : (x.unreplay).g = x.g := rfl
@[simp] theorem Ctx.unreplay_v (x : Ctx) : (x.unreplay).v = x.v := rfl
@[simp] theorem Ctx.unreplay_t (x : Ctx) : (x.unreplay).t = x.t := rfl
@[simp] theorem Ctx.unreplay_p (x : Ctx) : (x.unreplay).p = x.p := rfl
@[simp] theorem Ctx.unreplay_h (x : Ctx) : (x.unreplay).h = x.h := rfl
@[simp] theorem Ctx.unreplay_q (x : Ctx) : (x.unreplay).q = x.q := rfl
@[simp] theorem Ctx.unreplay_csr (x : Ctx) : (x.unreplay).csr = x.csr := rfl
@[simp] theorem Ctx.unreplay_pc (x : Ctx) : (x.unreplay).pc = x.pc := rfl
@[simp] theorem Ctx.unreplay_entry (x : Ctx) : (x.unreplay).entry = x.entry := rfl
@[simp] theorem Ctx.unreplay_count (x : Ctx) : (x.unreplay).count = x.count := rfl
@[simp] theorem Ctx.unreplay_crc (x : Ctx) : (x.unreplay).crc = x.crc := rfl
@[simp] theorem Ctx.unreplay_exec (x : Ctx) : (x.unreplay).exec = x.exec := rfl
@[simp] theorem Ctx.unreplay_idle (x : Ctx) : (x.unreplay).idle = x.idle := rfl
@[simp] theorem Ctx.unreplay_jump (x : Ctx) : (x.unreplay).jump = x.jump := rfl
@[simp] theorem Ctx.unreplay_leave (x : Ctx) : (x.unreplay).leave = x.leave := rfl
@[simp] theorem Ctx.unreplay_notBefore (x : Ctx) : (x.unreplay).notBefore = x.notBefore := rfl
@[simp] theorem Ctx.unreplay_lastFirst (x : Ctx) : (x.unreplay).lastFirst = x.lastFirst := rfl
@[simp] theorem Ctx.unreplay_issuedAt (x : Ctx) : (x.unreplay).issuedAt = x.issuedAt := rfl
@[simp] theorem Ctx.unreplay_bundles (x : Ctx) : (x.unreplay).bundles = x.bundles := rfl
@[simp] theorem Ctx.unreplay_starve (x : Ctx) : (x.unreplay).starve = x.starve := rfl
@[simp] theorem Ctx.unreplay_slotLast (x : Ctx) : (x.unreplay).slotLast = x.slotLast := rfl
@[simp] theorem Ctx.unreplay_flights (x : Ctx) : (x.unreplay).flights = x.flights := rfl
@[simp] theorem Ctx.unreplay_tagFree (x : Ctx) : (x.unreplay).tagFree = x.tagFree := rfl
@[simp] theorem Ctx.unreplay_rdFree (x : Ctx) : (x.unreplay).rdFree = x.rdFree := rfl
@[simp] theorem Ctx.unreplay_wrFree (x : Ctx) : (x.unreplay).wrFree = x.wrFree := rfl
@[simp] theorem Ctx.unreplay_unitFree (x : Ctx) : (x.unreplay).unitFree = x.unitFree := rfl
@[simp] theorem Ctx.unreplay_pend (x : Ctx) : (x.unreplay).pend = x.pend := rfl
@[simp] theorem Ctx.unreplay_wset (x : Ctx) : (x.unreplay).wset = x.wset := rfl
@[simp] theorem Ctx.unreplay_version (x : Ctx) : (x.unreplay).version = x.version := rfl
@[simp] theorem Ctx.unreplay_group (x : Ctx) : (x.unreplay).group = x.group := rfl
@[simp] theorem Ctx.unreplay_lx (x : Ctx) : (x.unreplay).lx = x.lx := rfl
@[simp] theorem Ctx.unreplay_ly (x : Ctx) : (x.unreplay).ly = x.ly := rfl
@[simp] theorem Ctx.unreplay_incarnation (x : Ctx) : (x.unreplay).incarnation = x.incarnation := rfl
@[simp] theorem Ctx.unreplay_drainTo (x : Ctx) : (x.unreplay).drainTo = x.drainTo := rfl
@[simp] theorem Ctx.unreplay_sleep (x : Ctx) : (x.unreplay).sleep = x.sleep := rfl
@[simp] theorem Ctx.unreplay_faulted (x : Ctx) : (x.unreplay).faulted = x.faulted := rfl
@[simp] theorem Ctx.unreplay_waits (x : Ctx) : (x.unreplay).waits = x.waits := rfl
@[simp] theorem Ctx.unreplay_arrived (x : Ctx) : (x.unreplay).arrived = x.arrived := rfl
@[simp] theorem Ctx.unreplay_syncAt (x : Ctx) : (x.unreplay).syncAt = x.syncAt := rfl
@[simp] theorem Ctx.unreplay_syncMask (x : Ctx) : (x.unreplay).syncMask = x.syncMask := rfl
@[simp] theorem Ctx.unreplay_promoWait (x : Ctx) : (x.unreplay).promoWait = x.promoWait := rfl
@[simp] theorem Ctx.unreplay_promoHold (x : Ctx) : (x.unreplay).promoHold = x.promoHold := rfl
@[simp] theorem Ctx.unreplay_phase (x : Ctx) : (x.unreplay).phase = x.phase := rfl
@[simp] theorem Ctx.unreplay_inputs (x : Ctx) : (x.unreplay).inputs = x.inputs := rfl
@[simp] theorem Ctx.unreplay_nextInputs (x : Ctx) : (x.unreplay).nextInputs = x.nextInputs := rfl
@[simp] theorem Ctx.unreplay_inputOver (x : Ctx) : (x.unreplay).inputOver = x.inputOver := rfl
@[simp] theorem Ctx.unreplay_rerun (x : Ctx) : (x.unreplay).rerun = x.rerun := rfl
@[simp] theorem Ctx.unreplay_lastTrap (x : Ctx) : (x.unreplay).lastTrap = x.lastTrap := rfl
@[simp] theorem Ctx.unreplay_trapBundle (x : Ctx) : (x.unreplay).trapBundle = x.trapBundle := rfl
@[simp] theorem Ctx.unreplay_deadRec (x : Ctx) : (x.unreplay).deadRec = x.deadRec := rfl
@[simp] theorem Ctx.unreplay_poison (x : Ctx) : (x.unreplay).poison = x.poison := rfl
@[simp] theorem Ctx.unreplay_logBits (x : Ctx) : (x.unreplay).logBits = x.logBits := rfl
@[simp] theorem Ctx.unreplay_logStart (x : Ctx) : (x.unreplay).logStart = x.logStart := rfl
@[simp] theorem Ctx.unreplay_versOld (x : Ctx) : (x.unreplay).versOld = x.versOld := rfl
@[simp] theorem Ctx.unreplay_restart (x : Ctx) : (x.unreplay).restart = x.restart := rfl
@[simp] theorem Ctx.unreplay_restarted (x : Ctx) : (x.unreplay).restarted = x.restarted := rfl
@[simp] theorem Ctx.unreplay_syncPair (x : Ctx) : (x.unreplay).syncPair = x.syncPair := rfl
@[simp] theorem Ctx.unreplay_hush (x : Ctx) : (x.unreplay).hush = x.hush := rfl
@[simp] theorem Ctx.unreplay_acqAt (x : Ctx) : (x.unreplay).acqAt = x.acqAt := rfl
@[simp] theorem Ctx.unreplay_logTail (x : Ctx) : (x.unreplay).logTail = x.logTail := rfl
@[simp] theorem Ctx.unreplay_quantumFrom (x : Ctx) : (x.unreplay).quantumFrom = x.quantumFrom := rfl
@[simp] theorem Ctx.unreplay_quantumOver (x : Ctx) : (x.unreplay).quantumOver = x.quantumOver := rfl
@[simp] theorem Ctx.unreplay_started (x : Ctx) : (x.unreplay).started = x.started := rfl

end Sys2Proof.Machine
end

