-- ==== Sys2Proof/Laws/Ops.lean ====
section
/-!
SUPPORT. What the shared operations do: reading a context after a change, the registers of a context after a write, results
put in flight, and the frame in which a word runs.
-/

set_option Elab.async false

namespace Sys2Proof.Machine

/-! ### Contexts -/

@[simp] theorem State.ctx_setCtx_self (s : State) (c : Nat) (x : Ctx) : (s.setCtx c x).ctx c = x := by
  simp [State.ctx, State.setCtx]

theorem State.ctx_setCtx_other (s : State) {c k : Nat} (x : Ctx) (h : k ≠ c) : (s.setCtx c x).ctx k = s.ctx k := by
  simp [State.ctx, State.setCtx, SMap.get_set_other _ _ _ h]

theorem State.ctx_setCtx (s : State) (c k : Nat) (x : Ctx) : (s.setCtx c x).ctx k = if k = c then x else s.ctx k := by
  by_cases h : k = c
  · subst h; simp
  · simp [h, State.ctx_setCtx_other s x h]

theorem State.setCtx_setCtx (s : State) (c : Nat) (x y : Ctx) : (s.setCtx c x).setCtx c y = s.setCtx c y := by
  simp [State.setCtx, SMap.set_set]

theorem State.modCtx_modCtx (s : State) (c : Nat) (f g : Ctx → Ctx) : (s.modCtx c f).modCtx c g = s.modCtx c fun x => g (f x) := by
  simp [State.modCtx, State.ctx, State.setCtx, SMap.set_set]

@[simp] theorem State.ctx_modCtx_self (s : State) (c : Nat) (f : Ctx → Ctx) : (s.modCtx c f).ctx c = f (s.ctx c) := by
  simp [State.modCtx]

theorem State.ctx_modCtx_other (s : State) {c k : Nat} (f : Ctx → Ctx) (h : k ≠ c) : (s.modCtx c f).ctx k = s.ctx k :=
  State.ctx_setCtx_other s _ h

@[simp] theorem State.me_modCtx (s : State) (f : Ctx → Ctx) : (s.modCtx s.cur.ctx f).me = f s.me := by
  simp [State.me]

@[simp] theorem State.ctx_dset (s : State) (o i : Nat) (v : W64) (c : Nat) : (s.dset o i v).ctx c = s.ctx c := rfl

/-! ### Registers -/

@[simp] theorem Ctx.sget_zero (x : Ctx) : x.sget 0 = 0 := rfl

theorem Ctx.sget_sset (x : Ctx) (n k : Nat) (v : W64) : (x.sset n v).sget k = if k = n ∧ n ≠ 0 then v else x.sget k := by
  unfold Ctx.sset Ctx.sget
  by_cases hn : n = 0
  · simp [hn]
  · by_cases hk : k = 0
    · subst hk; simp [hn, Ne.symm hn]
    · simp [hn, hk, SMap.get_set]

theorem Ctx.gget_gset (x : Ctx) (n k : Nat) (v : W64) : (x.gset n v).gget k = if k = n then v else x.gget k := by
  simp [Ctx.gset, Ctx.gget, SMap.get_set]

theorem Ctx.vget_vset (x : Ctx) (n k : Nat) (v : VReg) : (x.vset n v).vget k = if k = n then v else x.vget k := by
  simp [Ctx.vset, Ctx.vget, SMap.get_set]

theorem Ctx.tget_tset (x : Ctx) (n k : Nat) (v : TReg) : (x.tset n v).tget k = if k = n then v else x.tget k := by
  simp [Ctx.tset, Ctx.tget, SMap.get_set]

theorem Ctx.hget_hset (x : Ctx) (n k : Nat) (v : Handle) : (x.hset n v).hget k = if k = n then v else x.hget k := by
  simp [Ctx.hset, Ctx.hget, SMap.get_set]

theorem Ctx.qget_qset (x : Ctx) (n k : Nat) (v : Stream) : (x.qset n v).qget k = if k = n then v else x.qget k := by
  simp [Ctx.qset, Ctx.qget, SMap.get_set]

theorem Ctx.cget_cset (x : Ctx) (n k : Nat) (v : W64) : (x.cset n v).cget k = if k = n then v else x.cget k := by
  simp [Ctx.cset, Ctx.cget, SMap.get_set]

theorem State.dget_dset (s : State) (o i : Nat) (v : W64) : (s.dset o i v).dget o i = v := by
  simp [State.dset, State.dget]

/-! ### Results in flight -/

@[simp] theorem State.ctx_addFlight_self (s : State) (f : Flight) :
    (s.addFlight f).ctx s.cur.ctx = { s.me with flights := s.me.flights ++ [f] } := by
  simp [State.addFlight, State.modCtx, State.me, State.ctx, State.setCtx]

theorem State.ctx_addFlight_other (s : State) (f : Flight) {k : Nat} (h : k ≠ s.cur.ctx) : (s.addFlight f).ctx k = s.ctx k := by
  simp only [State.addFlight]
  rw [State.ctx_modCtx_other _ _ h]
  rfl

/-- A fixed-latency result is put in flight, and nothing else changes in its context. -/
@[simp] theorem State.me_land (s : State) (n : Nat) (l : List Landing) :
    (s.land n l).me = { s.me with flights := s.me.flights ++ [s.launchFlight .fixed (some n) l] } :=
  State.ctx_addFlight_self s _

theorem State.ctx_land_other (s : State) (n : Nat) (l : List Landing) {k : Nat} (h : k ≠ s.cur.ctx) :
    (s.land n l).ctx k = s.ctx k := State.ctx_addFlight_other s _ h

/-! ### Words -/

theorem Ctx.poisonOf_nil {x : Ctx} (h : x.poison = []) (r : PReg) : x.poisonOf r = none := by simp [Ctx.poisonOf, h]

theorem State.predPoison_nil {s : State} (hd : Hdr) (h : s.me.poison = []) : s.predPoison hd = none := by
  simp [State.predPoison, Ctx.poisonOf_nil h]

/-- A word with a false predicate does nothing. -/
theorem runWord_idle {h : Hdr} {s : State} (m : WordSem) (hp : predOf s.cur.preds h.pred = false) (hq : s.predPoison h = none) :
    runWord h m s = .next s := by
  simp [runWord, WordSem.run, hp, hq]

/-- A word whose checks fail traps. -/
theorem runWord_traps {h : Hdr} {s : State} (m : WordSem) {t : TrapRec} (hp : predOf s.cur.preds h.pred = true)
    (ht : m.chk s = some t) : runWord h m s = .next (s.trapWord s.cur t) := by
  simp [runWord, WordSem.run, hp, ht]

theorem Ctx.no_poison {x : Ctx} (h : x.poison = []) (l : List PReg) : l.findSome? (fun r => x.poisonOf r) = none := by
  simp [List.findSome?_eq_none_iff, Ctx.poisonOf_nil h]

/-- A word that passes its checks, in a context without poison, has its effect. -/
theorem runWord_goes {h : Hdr} {s : State} (m : WordSem) (hg : Safety.goes h s) (hc : m.chk s = none) (hq : m.popped s = none) :
    runWord h m s = .next (m.eff (if m.once s then s.modCtx s.cur.ctx Ctx.unreplay else s)) := by
  have hn := Ctx.no_poison hg.2 m.srcs
  simp only [runWord, WordSem.run, hg.1, hc, State.predPoison_nil h hg.2, hn, hq]
  rfl

end Sys2Proof.Machine
end

