-- ==== Sys2Proof/Laws/Vector.lean ====
section
/-!
SUPPORT. Vector words: elements and lanes of packed registers, and what every word of class 2 with a vector destination does.
-/

set_option Elab.async false

namespace Sys2Proof.Machine

open Safety

/-! ### Elements -/

theorem packElems_lt (w : Nat) (es : List Nat) : packElems w es < 2 ^ (w * es.length) := by
  induction es with
  | nil => simp [packElems]
  | cons c cs ih =>
    simp only [packElems, List.length_cons, Nat.mul_succ, Nat.pow_add]
    have h := Nat.mod_lt c (Nat.two_pow_pos w)
    calc c % 2 ^ w + 2 ^ w * packElems w cs < 2 ^ w * (packElems w cs + 1) := by rw [Nat.mul_succ]; omega
      _ ≤ 2 ^ w * 2 ^ (w * cs.length) := Nat.mul_le_mul_left _ ih
      _ = 2 ^ (w * cs.length) * 2 ^ w := Nat.mul_comm ..

/-- An element of a packed list. -/
theorem elem_packElems (w : Nat) (es : List Nat) (i : Nat) (hi : i < es.length) :
    packElems w es / 2 ^ (w * i) % 2 ^ w = es[i] % 2 ^ w := by
  induction es generalizing i with
  | nil => simp at hi
  | cons c cs ih =>
    cases i with
    | zero => simp [packElems, Nat.add_mul_mod_self_left]
    | succ i =>
      simp only [packElems, List.getElem_cons_succ]
      rw [← ih i (by simpa using hi), Nat.mul_succ, Nat.pow_add, Nat.mul_comm (2 ^ (w * i)), ← Nat.div_div_eq_div_mul,
        Nat.add_mul_div_left _ _ (Nat.two_pow_pos w), Nat.div_eq_of_lt (Nat.mod_lt _ (Nat.two_pow_pos w)), Nat.zero_add]

/-- An element of a register packed from a list that fits it. -/
theorem elem_pack (t : Fmt) (es : List Nat) (i : Nat) (hi : i < es.length) (hl : t.width * es.length ≤ 2048) :
    elem t (t.pack es) i = es[i] % 2 ^ t.width := by
  have h := Nat.lt_of_lt_of_le (packElems_lt t.width es) (Nat.pow_le_pow_right (by decide) hl)
  simp only [elem, Fmt.pack, BitVec.toNat_ofNat, Nat.mod_eq_of_lt h]
  exact elem_packElems _ _ _ hi

/-- A lane of a register packed from 64 of them. -/
theorem lane_pack (es : List Nat) (h : es.length = 64) (i : Nat) (hi : i < 64) :
    lane (BitVec.ofNat 2048 (packElems 32 es)) i = BitVec.ofNat 32 es[i] := by
  apply BitVec.eq_of_toNat_eq
  have h1 := packElems_lt 32 es
  rw [h] at h1
  simp only [lane, BitVec.extractLsb'_toNat, BitVec.toNat_ofNat, Nat.mod_eq_of_lt h1, Nat.shiftRight_eq_div_pow]
  exact elem_packElems 32 es i (by omega)

/-- Every lane of a splat. -/
theorem lane_splat (v i : Nat) (hi : i < 64) : lane (splat v) i = BitVec.ofNat 32 v := by
  rw [splat, lane_pack _ List.length_replicate i hi, List.getElem_replicate]

/-- A lane as a number. -/
theorem lanes_getD (r : VReg) (i : Nat) (hi : i < 64) : BitVec.ofNat 32 (r.lanes.getD i 0) = lane r.data i := by
  apply BitVec.eq_of_toNat_eq
  simp [VReg.lanes, elemsOf, List.getD, hi, lane, Nat.shiftRight_eq_div_pow]

/-- A register has 64 lanes. -/
@[simp] theorem VReg.lanes_length (r : VReg) : r.lanes.length = 64 := by simp [VReg.lanes, elemsOf]

/-- A register has as many elements as its format gives. -/
@[simp] theorem VReg.codes_length (r : VReg) : r.codes.length = 2048 / r.tag.width := by simp [VReg.codes, Fmt.elems, elemsOf]

/-- An element code of a register. -/
theorem VReg.codes_getElem (r : VReg) (i : Nat) (h : i < r.codes.length) : r.codes[i] = elem r.tag r.data i := by
  simp [VReg.codes, Fmt.elems, elemsOf, elem]

/-! ### Rounding the elements of a word -/

/-- The codes that elements round to, each with its own noise bits, and their flags together. -/
theorem splitElems_spec (es : List Elem) (bs : List Bool) :
    ∃ bits : Nat → Nat, (splitElems es bs).1.length = es.length ∧
      (∀ n (h : n < es.length), (splitElems es bs).1.getD n 0 = (es[n].out (bits n)).1) ∧
      (∀ a, a ||| (splitElems es bs).2 = es.zipIdx.foldl (fun f (e, n) => f ||| (e.out (bits n)).2) a) ∧
      ((∀ e ∈ es, e.w = 0) → ∀ n, bits n = 0) := by
  induction es generalizing bs with
  | nil => exact ⟨fun _ => 0, rfl, by simp, by simp [splitElems], by simp⟩
  | cons e es ih =>
    obtain ⟨bits, h1, h2, h3, h4⟩ := ih (bs.drop e.w)
    refine ⟨fun n => if n = 0 then bitsNat (bs.take e.w) else bits (n - 1), by simp [splitElems, h1], ?_, ?_, ?_⟩
    · intro n h
      cases n with
      | zero => simp [splitElems]
      | succ n => simpa [splitElems] using h2 n (by simpa using h)
    · intro a
      have hz : ∀ (l : List Elem) (k b : Nat), (l.zipIdx (k + 1)).foldl (fun f (p : Elem × Nat) => f ||| (p.1.out
          (if p.2 = 0 then bitsNat (bs.take e.w) else bits (p.2 - 1))).2) b = (l.zipIdx k).foldl (fun f p => f ||| (p.1.out (bits p.2)).2) b := by
        intro l
        induction l with
        | nil => intros; rfl
        | cons x l ih => intro k b; simp [List.zipIdx_cons, ih]
      simp only [splitElems, List.zipIdx_cons, List.foldl_cons, Nat.zero_add, if_true]
      rw [← Nat.or_assoc, h3, hz es 0]
    · intro hw n
      dsimp only
      split
      · rw [hw e (by simp)]; simp [bitsNat]
      · exact h4 (fun x hx => hw x (by simp [hx])) _

/-- What rounding the elements of a word gives: codes and flags, and where no element takes noise nothing else changes. -/
theorem State.roundAll_spec (s : State) (es : List Elem) :
    ∃ (bits : Nat → Nat) (r : Nat), (s.roundAll es).2.1.length = es.length ∧
      (∀ n (h : n < es.length), (s.roundAll es).2.1.getD n 0 = (es[n].out (bits n)).1) ∧
      (s.roundAll es).2.2 = es.zipIdx.foldl (fun f (e, n) => f ||| (e.out (bits n)).2) 0 ||| r ∧
      ((∀ e ∈ es, e.w = 0) → (s.roundAll es).1 = s ∧ r = 0 ∧ ∀ n, bits n = 0) := by
  obtain ⟨bits, h1, h2, h3, h4⟩ := splitElems_spec es (s.takeBits (es.foldl (fun n e => n + e.w) 0)).2.1
  refine ⟨bits, if (s.takeBits (es.foldl (fun n e => n + e.w) 0)).2.2 then flRlog else 0, h1, h2, ?_, ?_⟩
  · rw [← h3 0, Nat.zero_or]; rfl
  · intro hw
    have hz : ∀ (l : List Elem) (a : Nat), (∀ e ∈ l, e.w = 0) → l.foldl (fun n e => n + e.w) a = a := by
      intro l
      induction l with
      | nil => intros; rfl
      | cons x l ih => intro a h; simp [h x (by simp), ih a fun e he => h e (by simp [he])]
    rw [hz es 0 hw]
    refine ⟨?_, by simp [State.takeBits], h4 hw⟩
    simp [State.roundAll, hz es 0 hw, State.takeBits]

/-! ### Words -/

/-- A word that rounds nothing takes no noise. -/
@[simp] theorem State.roundAll_nil (s : State) : s.roundAll [] = (s, [], 0) := by
  simp [State.roundAll, State.takeBits, splitElems]

/-- What a word with a vector destination does once it passes its checks: its pops, then its result in flight. -/
theorem VecWord.runs {h : Hdr} {i : Instr} {s : State} (v : VecWord) (hm : semOf i = v.sem) (hp : passes h i s) :
    runWord h v.sem s =
      .next (vectorOut s v.codes v.bound v.d
        (v.run (s.mode (v.rm.getD 0)) (sources s v.codes ⟨0, v.fmt, 0, 0, v.xs⟩ v.fixed) (s.me.vget v.d)).elems
        (v.run (s.mode (v.rm.getD 0)) (sources s v.codes ⟨0, v.fmt, 0, 0, v.xs⟩ v.fixed) (s.me.vget v.d)).fin
        (v.run (s.mode (v.rm.getD 0)) (sources s v.codes ⟨0, v.fmt, 0, 0, v.xs⟩ v.fixed) (s.me.vget v.d)).fl
        (v.part (v.tags s.me))) := by
  rw [← hm, runWord_goes _ hp.1 hp.2.1 hp.2.2, hm]
  have he : v.sem.once s = (streamCode v.d).isSome := rfl
  rw [he]
  cases hs : (streamCode v.d).isSome
  · simp only [vectorOut, afterPops, hs]; rfl
  · simp only [vectorOut, afterPops, hs, if_true]
    have hme : (s.modCtx s.cur.ctx Ctx.unreplay).me = s.me.unreplay := State.me_modCtx s _
    simp only [VecWord.sem, VecWord.eff, State.mode, hme]
    rfl

end Sys2Proof.Machine
end

