-- ==== Sys2Proof/Tests/Slice0.lean ====
section
/-!
SUPPORT. Tests: ill-formed instructions are refused, words written out from the spec decode, single steps give what the spec says, and
states that meet the hypotheses of the statements.
-/

set_option maxRecDepth 20000

set_option Elab.async false

namespace Sys2Proof.Tests

open Sys2Proof.Machine Sys2Proof.Safety

/-! ### Well-formedness -/

/-- An instruction whose fields fit, and which one check refuses for one reason. -/
def refusedFor (r : Reject) (i : Instr) : Bool := fits i && formOk i && decide (firstBad (fieldChecks i) = some r) && !wellFormed i

/-- An instruction that does not fit its encoding. -/
def misfit (i : Instr) : Bool := !fits i && !wellFormed i

/-- The predicate that is always true, and the last word of its bundle. -/
def h : Hdr := ⟨true, 7⟩

theorem test_wellFormed_takes_words :
    ([.add h 1 2 (.imm 5), .vadd h 1 2 3 none, .mma h 1 2 3 0 0 0 0 0, .ldg h 7 2 4 3 1 1 1 0, .sync h 3, .trn h 2 4 3 20] :
      List Instr).all wellFormed = true := by decide

theorem test_misfit_fields :
    ([.add ⟨true, 8⟩ 1 2 (.reg 3), .add h 64 2 (.reg 3), .add h 1 64 (.reg 3), .add h 1 2 (.reg 64), .add h 1 2 (.imm (2 ^ 32)),
      .sched true 16 0 0 false, .vadd h 1 2 3 (some ⟨256, 0, 0, 0, 0⟩), .vadd h 1 2 3 (some ⟨0, 16, 0, 0, 0⟩), .div h 1 2 3 8 true,
      .vst h 1 2 0 (2 ^ 28), .brk h 64] : List Instr).all misfit = true := by decide

theorem test_misfit_events : ([.coldReset, .fixedResultLands 0 0, .launch 0, .scannerWake] : List Instr).all misfit = true := by decide

theorem test_forms_of_one_op : (formOk (.vffs h 0 1 none) || formOk (.vcvt h 1 2 ⟨1, 1, 0, 0, 0⟩) || formOk (.vcvtTag h 1 2 ⟨0, 1, 0, 0, 0⟩)) = false := by
  decide

theorem test_refused_scalar_registers :
    ([.movg h 32 1, .movfg h 1 32, .csrr h 1 5, .csrw h 1 4, .csrw h 1 0x14, .trn h 16 1 1 16, .hinv h 16, .brp h 8 0 0 0] :
      List Instr).all (refusedFor .registerRange) = true := by decide

theorem test_refused_scalar_modifiers :
    ([.setp h 6 1 2, .trn h 1 1 0 16, .trn h 1 1 1 15, .trn h 1 1 1 33, .brp h 0 2 0 0, .loop h 1 0 0 0, .loop h 1 7 0 0] :
      List Instr).all (refusedFor .badModifier) = true := by decide

theorem test_refused_vector_reserved :
    ([.vadd h 1 2 3 (some ⟨1, 0, 0, 0, 0⟩), .vadd h 1 2 3 (some ⟨0, 0, 0, 1, 0⟩), .vadd h 1 2 3 (some ⟨0, 0, 0, 0, 1⟩),
      .vmax h 1 2 3 (some ⟨0, 0, 1, 0, 0⟩), .vcmp h 1 2 3 ⟨16, 0, 0, 0, 0⟩, .viadd h 1 2 3 (some ⟨4, 0, 0, 0, 0⟩),
      .vcvtTag h 1 2 ⟨3, 1, 0, 0, 0⟩, .vrng h 1 ⟨0, 1, 1, 0, 0⟩] : List Instr).all (refusedFor .reservedField) = true := by decide

theorem test_refused_vector_registers :
    ([.vadd h 1 62 3 none, .vadd h 1 63 3 none, .vadd h 48 2 3 none, .vadd h 60 2 3 none, .vfma h 51 1 2 ⟨0, 0, 0, 3, 0⟩,
      .vsel h 52 1 2 none, .vffs h 1 63 none, .vany h 62 none] : List Instr).all (refusedFor .registerRange) = true := by decide

theorem test_refused_vector_modifiers :
    ([.vadd h 1 2 3 (some ⟨0, 11, 0, 0, 0⟩), .vadd h 1 2 3 (some ⟨0, 0, 5, 0, 0⟩), .vcmp h 1 2 3 ⟨8, 0, 0, 0, 0⟩,
      .vexpb h 1 2 3 (some ⟨3, 0, 0, 0, 0⟩), .vcvtTag h 1 2 ⟨1, 6, 0, 0, 0⟩, .vrng h 1 ⟨0, 2, 0, 0, 0⟩] : List Instr).all
      (refusedFor .badModifier) = true := by decide

theorem test_refused_tiles :
    (([.mma h 24 1 2 0 0 0 0 0, .mzero h 24 none, .mcvt h 1 24 2 0 0, .mfmt h 24 1 1, .mtv h 48 1 0 0, .mvt h 24 1 0, .mvt h 1 60 0,
       .mcsel h 24 1 2 0 false false] : List Instr).all (refusedFor .registerRange) &&
     ([.mma h 1 2 3 3 0 0 0 0, .mma h 1 2 3 0 0 3 0 0, .mzero h 1 (some 11), .mcvt h 1 2 11 0 0, .mcvt h 1 2 2 5 0, .mfmt h 1 2 6,
       .mcsel h 1 2 3 3 false false] : List Instr).all (refusedFor .badModifier) &&
     ([.mma h 1 1 2 0 0 0 0 0, .mmaz h 1 2 1 0 0 0 0 0, .mcvt h 1 1 2 0 0, .mcsel h 1 1 2 0 false false] : List Instr).all
       (refusedFor .destIsSource)) = true := by decide

theorem test_refused_memory_reserved :
    ([.vld h 1 2 3 1 0, .ldt h 1 2 1 false 1 0 0, .ldt h 1 2 1 false 0 1 0, .tld h 1 2 3 1 0 0 0, .ldg h 1 2 3 0 0 0 1 0, .ldg h 1 2 3 0 0 0 0 1,
      .stg h 1 2 3 0 0 1, .amo h 1 2 3 0 0 false true 0 0 0 0, .amo h 1 2 3 0 0 false false 0 1 0 0, .amo h 1 2 3 0 0 false false 0 0 0 1,
      .fwait h 1 2 3 false 1 0] : List Instr).all (refusedFor .reservedField) = true := by decide

theorem test_refused_memory_registers :
    ([.vld h 48 2 0 1 0, .vst h 60 2 0 0, .ldt h 24 2 1 true 0 0 0, .ldt h 48 2 1 false 0 0 0, .tld h 24 2 0 1 0 0 0, .tst h 24 2 0 0 0 0,
      .ldg h 1 16 3 0 0 0 0 0, .ldg h 48 2 3 0 2 0 0 1, .stg h 1 16 3 0 0 0, .stg h 60 2 3 2 0 0, .vgat h 48 2 3 0 0 63, .vgat h 1 16 3 0 0 63,
      .vgat h 1 2 62 0 0 63, .vgat h 1 2 3 0 0 48, .vsct h 60 2 3 63, .amo h 1 16 3 0 0 false false 0 0 0 0, .vldc h 48 1 0 1, .vstc h 60 1,
      .pref h 16 1 false 0, .inv h 16 1 0, .sbind h 8 1, .sbind h 1 27, .sunbind h 8, .sflush h 8 0 0, .sstat h 8 1, .sskip h 8 1,
      .fadd h 16 1 0 0, .fset h 16 1 0 0 0, .fwait h 1 16 1 false 0 0] : List Instr).all (refusedFor .registerRange) = true := by decide

theorem test_refused_memory_modifiers :
    ([.vld h 1 2 0 11 0, .ldt h 1 2 6 false 0 0 0, .ldt h 1 2 1 true 63 1 0, .tld h 1 2 0 11 0 0 0, .tld h 1 2 0 1 1 63 0, .tst h 1 2 0 1 63 0,
      .ldg h 1 2 3 0 3 0 0 0, .ldg h 1 2 3 0 0 2 0 0, .ldg h 1 2 3 0 2 0 0 6, .stg h 1 2 3 3 0 0, .stg h 1 2 3 0 1 0, .vgat h 1 2 3 0 2 63,
      .vldc h 1 2 0 6] : List Instr).all (refusedFor .badModifier) = true := by decide

theorem test_refused_engine_words :
    (([.xcopy h 1 0 63 0 0, .xcopy h 1 28 2 0 0, .xlist h 1 31 2 0 0, .fltake h 1 29 2 0 0] : List Instr).all (refusedFor .registerRange) &&
     ([.xstat h 1 1 0 0 0, .xstat h 1 0 1 0 0] : List Instr).all (refusedFor .reservedField)) = true := by decide

theorem test_refused_sync_words :
    ([.wait h 1 2 3 true false false 0 0, .waitArm h 1 2 3 false false false 1 0] : List Instr).all (refusedFor .reservedField) = true ∧
    ([.wait h 1 2 0 true false true 0 0] : List Instr).all (refusedFor .badModifier) = true ∧
    ([.wait h 1 16 3 false false false 0 0] : List Instr).all (refusedFor .registerRange) = true ∧
    refusedFor .badSync (.sync ⟨true, 6⟩ 1) = true := by decide

/-! ### Decoding: words written out bit by bit -/

/-- The instruction that words decode to, when no word is left. -/
def reads (ws : List W32) : Option Instr :=
  match decode ws with
  | .ok (i, []) => some i
  | _ => none

/-- R92, R98: `sched` with S = 0 and pd = 3: pd in bits 25:22. -/
theorem test_decode_class0 : reads [0b0_0_0000_0011_00000000_0000000_0_000000#32] = some (.sched false 3 0 0 false) := by decide

/-- R126: the worked encoding of `div.u s7, s8, s9 -> k2`. -/
theorem test_decode_class1 : reads [0b1_1_0001_11010_111_000111_001000_001001#32, 0x40000001#32] = some (.div h 7 8 9 2 true) := by decide

/-- R170: the worked encoding of `vffs s9, v3`. -/
theorem test_decode_class2 : reads [0b1_0_0010_11111_111_001001_000011_000000#32] = some (.vffs h 9 3 none) := by decide

/-- R172: the worked encoding of `mmaz t2, t5, t6`, add, of 8 groups. -/
theorem test_decode_class3 : reads [0b1_1_0011_00001_111_000010_000101_000110#32, 0x00E00000#32] = some (.mmaz h 2 5 6 0 0 0 7 0) := by decide

/-- R195: the worked encoding of `ldg.d.acq.k s7, h2, s4 -> k3`. -/
theorem test_decode_class4 : reads [0b1_1_0100_01010_111_000111_000010_000100#32, 0x6A800000#32] = some (.ldg h 7 2 4 3 1 1 1 0) := by decide

/-- R199: `sbind q3, g8`. -/
theorem test_decode_class5 : reads [0b1_0_0101_00000_111_000011_001000_000000#32] = some (.sbind h 3 8) := by decide

/-- R224: `xcopy.c s0, g0, s12 -> k2`, as a program of the spec has it. -/
theorem test_decode_class6 : reads [0b1_1_0110_00000_111_000000_000000_001100#32, 0x40000000#32] = some (.xcopy h 0 0 12 2 0) := by decide

/-- R133: the worked encoding of `loop s5, 3, body`, with the body at bundle 2. -/
theorem test_decode_class7 : reads [0b1_1_0111_00111_111_000000_000101_000011#32, 0xFFFF0002#32] = some (.loop h 5 3 0xFFFF 2) := by decide

/-- R210: the worked encoding of `wait.d s20, h2, s21, s22`. -/
theorem test_decode_class8 :
    reads [0b1_1_1000_00001_111_010100_000010_010101#32, 0x02000580#32] = some (.wait h 20 2 21 false true false 0 22) := by decide

/-- R140: the worked encoding of `trn.rw h2, s4, 20`. -/
theorem test_decode_class9 : reads [0b1_1_1001_00010_111_000010_000100_000000#32, 0x00000314#32] = some (.trn h 2 4 3 20) := by decide

/-- R224, R226: one word of each engine class: the base words of classes 10 to 14, with K = 1 and SCOPE = .g. -/
theorem test_decode_class10 : reads [0b1_1_1010_00001_111_000011_000100_001010#32, 0x30000000#32] = some (.gins h 3 4 10 1 2) := by decide

theorem test_decode_class11 : reads [0b1_1_1011_00010_111_000011_000100_001010#32, 0x30000000#32] = some (.hrel h 3 4 10 1 2) := by decide

theorem test_decode_class12 : reads [0b1_1_1100_00001_111_000011_000100_001010#32, 0x34000000#32] = some (.adopt h 3 4 10 1 2 true) := by decide

theorem test_decode_class13 : reads [0b1_1_1101_00000_111_000011_000100_001010#32, 0x30000000#32] = some (.nbmv h 3 4 10 1 2) := by decide

theorem test_decode_class14 : reads [0b1_1_1110_00010_111_000011_000100_001010#32, 0x30000000#32] = some (.fget h 3 4 10 1 2) := by decide

/-- R208, R217, R219-R223: class-8 words with the encodings that their entries give. -/
theorem test_decode_sync_words :
    reads [0xA01C0001#32] = some (.fence h 1) ∧ reads [0xA01C0007#32] = some (.fenceAll h 3) ∧ reads [0xA01C0008#32] = some (.fenceDrain h) ∧
    reads [0xA05C0040#32] = some (.sync h 1) ∧ reads [0xA0DC0040#32] = some (.promote h 1) ∧
    reads [0xE07C0040#32, 0x08000200#32] = some (.fadd h 1 0 2 8) ∧ reads [0xE09C004C#32, 0x0800D0C0#32] = some (.fset h 1 12 2 13 3) ∧
    reads [0xE0BCB047#32, 0x018000C0#32] = some (.fwait h 11 1 7 true 2 3) := by decide

/-- R146, R155, R169, R153, R156: class-2 words with extensions, as the spec's examples and programs have them. -/
theorem test_decode_vector_words :
    reads [0xC87C507E#32, 0x00000147#32] = some (.vfma h 5 1 62 ⟨0, 0, 0, 5, 7⟩) ∧
    reads [0xCBDC2000#32, 0x00010000#32] = some (.vrng h 2 ⟨0, 1, 0, 0, 0⟩) ∧
    reads [0xC91C3081#32, 0x00500000#32] = some (.vcmp h 3 2 1 ⟨5, 0, 0, 0, 0⟩) ∧
    reads [0xC8FC2F04#32, 0x00010000#32] = some (.vmov h 2 60 (some ⟨0, 1, 0, 0, 0⟩)) := by decide

/-- Why a word is refused. -/
def reason (w : Nat) (x : Option Nat) : Option Reject :=
  match decodeNat w x with
  | .error r => some r
  | .ok _ => none

/-- R92, R114, R417: what is refused, and for which reason. -/
theorem test_decode_refuses :
    reason (wordOf h 0 15 0 0 0 0) none = some .unassignedOp ∧ reason (wordOf h 0 1 25 0 0 0) none = some .unassignedOp ∧
    reason (wordOf h 1 7 10 0 0 0) (some 0) = some .badE ∧ reason (wordOf h 0 7 10 1 0 0) none = some .reservedField ∧
    reason (wordOf h 1 0 0 0 0 0) (some 0) = some .badScw ∧ reason (wordOf ⟨true, 3⟩ 0 8 2 0 1 0) none = some .badSync ∧
    reason (wordOf h 1 1 24 0 0 0) none = some .truncated := by decide

/-- A word of the opcode table, its second word above the first. -/
theorem test_decodeTableWord : decodeTableWord 64 0x40000001C75C7209 = some (.div h 7 8 9 2 true) := by decide

/-! ### States that meet the hypotheses of the statements about words -/

/-- As `passes` for the words of this file, as a test. -/
def ok (s : State) (i : Instr) : Bool :=
  predOf s.cur.preds h.pred && decide (s.me.poison = []) && (semOf i).chk s == none && (semOf i).popped s == none

theorem passes_of_ok {s : State} {i : Instr} (hk : ok s i = true) : passes h i s := by
  simp only [ok, Bool.and_eq_true, decide_eq_true_eq, beq_iff_eq] at hk
  exact ⟨⟨hk.1.1.1, hk.1.1.2⟩, hk.1.2, hk.2⟩

theorem all_pass {s : State} {l : List Instr} (hl : l.all (ok s) = true) : ∀ i, i ∈ l → passes h i s :=
  fun i hi => passes_of_ok (List.all_eq_true.mp hl i hi)

/-- The machine after reset with bank A of core 0 changed. -/
def bank (f : Ctx → Ctx) : State := State.reset.modCtx 0 f

theorem witness_goes : goes h State.reset := ⟨rfl, rfl⟩

/-- Scalar registers for the words that look at them. -/
def scalars : State := bank fun x => ((((x.sset 1 5).sset 2 7).sset 3 0x8000000000000000).sset 4 0xFFFFFFFFFFFFFFFF).sset 5 3

theorem witness_scalars : goes h scalars := ⟨by decide, by decide⟩

theorem witness_divide_cases :
    scalars.me.sget 0 = 0 ∧ scalars.me.sget 2 ≠ 0 ∧ (scalars.me.sget 3).toInt = -2 ^ 63 ∧ (scalars.me.sget 4).toInt = -1 := by decide

theorem witness_lih : goes h (bank fun x => x.sset 1 0x56789ABC) ∧ ((bank fun x => x.sset 1 0x56789ABC).me.sget 1 = 0x56789ABC) ∧
    0x1234 < 2 ^ 32 := ⟨⟨by decide, by decide⟩, by decide, by decide⟩

/-- Vector registers v1-v9 with the tags F32, F32, I32, I32, MASK, MASK, B16, B16 and RAW; main tiles t1-t4 with B16, B16, F32, F32. -/
def vectors : State := bank fun x =>
  let v (t : Fmt) : VReg := ⟨0, 0, t⟩
  let t (f : Fmt) : TReg := ⟨[], f⟩
  (((((((((((((x.vset 1 (v .f32)).vset 2 (v .f32)).vset 3 (v .i32)).vset 4 (v .i32)).vset 5 (v .mask)).vset 6 (v .mask)).vset 7 (v .b16)).vset 8
    (v .b16)).vset 9 (v .raw)).tset 1 (t .b16)).tset 2 (t .b16)).tset 3 (t .f32)).tset 4 (t .f32)).sset 1 128

theorem witness_vector_words : ∀ i, i ∈ ([.vadd h 10 1 2 none, .vsub h 10 7 8 none, .vmul h 10 1 2 none, .vfma h 10 1 2 ⟨0, 0, 0, 1, 0⟩,
    .vfms h 10 7 8 ⟨0, 0, 0, 7, 0⟩, .vexp2 h 10 1 none, .vlog2 h 10 1 none, .vrcp h 10 7 none, .vrsqrt h 10 1 none, .vmax h 10 1 2 none,
    .vmax h 10 3 4 none, .vmin h 10 7 8 none, .vabs h 10 3 none, .vneg h 10 1 none, .vfloor h 10 1 none, .vceil h 10 7 none, .vmov h 10 5 none,
    .vcmp h 10 1 2 ⟨2, 0, 0, 0, 0⟩, .vcmp h 10 3 4 ⟨7, 0, 0, 0, 0⟩, .vsel h 5 1 2 none, .vffs h 9 5 none, .vany h 6 none, .vperm h 10 1 3 none,
    .vbcast h 10 1 63 none, .viadd h 10 3 4 none, .viadd h 10 3 4 (some ⟨3, 0, 0, 0, 0⟩), .vimul h 10 3 4 none, .vand h 10 3 4 none,
    .vor h 10 5 6 none, .vxor h 10 9 9 none, .vshl h 10 3 4 none, .vshr h 10 3 4 (some ⟨1, 0, 0, 0, 0⟩), .vredadd h 10 1 none, .vredadd h 10 3 none,
    .vredmax h 10 1 none, .vredmax h 10 3 none, .vscan h 10 1 none, .vscan h 10 3 none, .vexpb h 10 1 2 none, .vrng h 10 ⟨0, 0, 0, 0, 0⟩,
    .vrng h 10 ⟨0, 1, 0, 0, 0⟩, .vrng h 10 ⟨0, 8, 0, 0, 0⟩] : List Instr) → passes h i vectors := all_pass (by decide +kernel)

theorem witness_conversions : (∀ i, i ∈ ([.vcvt h 10 5 ⟨0, 8, 0, 0, 0⟩, .vcvt h 10 3 ⟨0, 10, 0, 0, 0⟩, .vcvt h 10 1 ⟨0, 8, 0, 0, 0⟩,
    .vcvtTag h 10 1 ⟨1, 0, 0, 0, 0⟩, .vpack h 10 1 2 ⟨1, 4, 0, 0, 0⟩, .vpack h 10 3 4 ⟨1, 9, 0, 0, 0⟩, .vunpk h 10 7 ⟨1, 1, 0, 0, 0⟩,
    .vpack h 10 7 8 ⟨0, 6, 0, 0, 0⟩] : List Instr) → passes h i vectors) ∧
    (source vectors [5] ⟨0, 8, 0, 0, 0⟩ none 0).tag = .mask ∧ (source vectors [3] ⟨0, 10, 0, 0, 0⟩ none 0).tag = .i32 :=
  ⟨all_pass (by decide), by decide, by decide⟩

/-- E4M3 in v1, the source of a conversion to DX8. -/
theorem witness_conversion_to_blocks : passes h (.vcvt h 2 1 ⟨0, 6, 0, 0, 0⟩) (bank fun x => x.vset 1 ⟨0, 0, .e4m3⟩) := passes_of_ok (by decide +kernel)

theorem witness_matrix_words : ∀ i, i ∈ ([.mma h 3 1 2 0 0 0 0 0, .mmaz h 5 1 2 1 7 1 1 0, .mmat h 3 1 2 2 0 2 0 1, .mzero h 1 none, .mfmt h 5 1 3,
    .mtv h 1 1 7 63, .mvt h 1 1 63, .mcvt h 5 3 2 0 1, .mcvt h 5 3 6 0 3, .mcsel h 5 3 1 0 false true, .mcsel h 4 3 1 2 true false] :
      List Instr) → passes h i vectors := all_pass (by decide +kernel)

/-- A scratchpad whose first eight lines bank A has pinned. -/
def pinned (f : Ctx → Ctx) : State :=
  { bank f with scratch := (List.range 8).map fun n => (n, { SLine.free with pin := some 0 }) }

/-- Scratchpad addresses 0 and 16, and vectors and tiles of a plain and of a block format. -/
def local0 : State := pinned fun x =>
  ((((x.sset 1 128).sset 2 768).vset 1 ⟨5, 0, .f32⟩).vset 2 ⟨0, 3, .dx8⟩).tset 1 ⟨[(0, ⟨7, 9⟩)], .f32⟩

theorem witness_local_loads : ∀ i, i ∈ ([.ldw h 1 0 none, .ldw h 1 0 (some 1020), .ldd h 1 1 (some 0xFFFFFFF8), .vld h 1 0 0 1 0, .vld h 1 0 2 6 256,
    .ldt h 1 0 1 false 0 0 0, .ldt h 1 0 4 true 0 63 0, .tld h 1 0 0 1 63 0 0, .tld h 1 0 2 7 0 1 0] : List Instr) → passes h i local0 :=
  all_pass (by decide +kernel)

theorem witness_local_stores : (∀ i, i ∈ ([.stw h 1 0 none, .stw h 1 0 (some 1020), .std h 1 1 none, .vst h 1 0 0 768, .vst h 2 0 1 256,
    .tst h 1 0 0 0 0 0, .tst h 1 0 0 62 1 16, .sstat h 0 1] : List Instr) → passes h i local0) ∧
    (local0.srcTag 1).isDx = false ∧ (local0.srcTag 2).isDx = true ∧ (local0.me.tget 1).tag.isDx = false ∧ 256 ≤ 16 * 16 :=
  ⟨all_pass (by decide +kernel), by decide +kernel, by decide +kernel, by decide +kernel, by decide⟩

/-- Bank B holds line 0, so that bank A cannot pin it; it can pin lines 1 and 2, of which it holds the second. -/
def shared : State :=
  { bank fun x => (x.sset 1 128).sset 2 256 with
    scratch := [(0, { SLine.free with pin := some 1 }), (2, { SLine.free with pin := some 0 })] }

theorem witness_pinning : (∀ i, i ∈ ([.alloc h 0 1, .alloc h 1 2, .free h 1 2] : List Instr) → passes h i shared) ∧
    shared.pinFails 0 0 (linesOf 0 128) = true ∧ shared.pinFails 0 0 (linesOf 128 256) = false :=
  ⟨all_pass (by decide +kernel), by decide +kernel, by decide +kernel⟩

theorem witness_mates : (∀ i, i ∈ ([.vldc h 1 0 7 1, .vldc h 1 3 0 1, .vstc h 1 0, .vstc h 1 3] : List Instr) →
      passes h i (pinned fun x => x.sset 3 (2 ^ 22))) ∧
    (pinned fun x => x.sset 3 (2 ^ 22)).mate 0 = some 0 ∧ (pinned fun x => x.sset 3 (2 ^ 22)).mate (2 ^ 22) = none :=
  ⟨all_pass (by decide +kernel), by decide +kernel, by decide +kernel⟩

/-- A task group of virtual device 1 with one placed task. -/
def group0 : Group :=
  { serial := 1, gid := 2, vd := 1, stab := 0, scount := 2, gridX := 2, gridY := 2, learner := false, mode := 0, prio := 0, args := [7]
    sigAddr := 0, sigVal := 0, queuedAt := 0, node := none, mail := none, placed := true, startTs := 0, startedAt := 0, sliceAt := 0, exited := 0
    error := 0, ending := false, drainChosen := false }

/-- Translations that core 0 holds for virtual device 1: pages 0, 1 and 2 with the three ordering attributes. -/
def tlb0 : List TlbEntry :=
  [⟨1, 0, 1, 0, 16, ⟨0, .so, none, 0, false⟩, true, true⟩, ⟨1, 0, 1, 2 ^ 16, 16, ⟨2 ^ 16, .rc, none, 2 ^ 16, false⟩, true, true⟩,
   ⟨1, 0, 1, 2 ^ 17, 16, ⟨2 ^ 17, .uo, none, 2 ^ 17, false⟩, true, true⟩]

/-- A handle with every right on the first 16 pages. -/
def handle0 : Handle := ⟨true, 1, true, true, true, 20, 0⟩

/-- A running task with a handle on three translated pages; s1-s3 are the offsets 0xFFF8, 0x10000 and 0x20000. -/
def global0 : State :=
  { bank fun x => { (((((((x.hset 1 handle0).sset 1 0xFFF8).sset 2 0x10000).sset 3 0x20000).vset 1 ⟨5, 0, .f32⟩).vset 2 ⟨0, 0, .i32⟩).vset 3
      ⟨1, 0, .mask⟩) with st := .running, group := some 1 } with tlb := tlb0, groups := [group0] }

theorem witness_global_loads : (∀ i, i ∈ ([.ldg h 1 1 0 0 0 0 0 0, .ldg h 1 1 1 1 1 1 3 0, .ldg h 1 1 2 2 2 0 0 1, .amo h 1 1 1 3 7 true false 3 2 0 0,
      .vgat h 1 1 2 4 1 3] : List Instr) → passes h i global0) ∧ global0.me.st ≠ .dead ∧
    Mapped global0 1 0xFFF8 ⟨0xFFF8, .so, none, 0, false⟩ ∧ 0xFFF8 % 2 ^ 16 + 8 ≤ 2 ^ 16 ∧
    ((List.range 64).filter fun i => (global0.me.vget 3).data.getLsbD (32 * i)) = [0] ∧ Mapped global0 1 0 ⟨0, .so, none, 0, false⟩ :=
  ⟨all_pass (by decide +kernel), by decide, ⟨_, rfl, rfl, rfl, rfl, fun _ => by decide +kernel⟩, by decide, by decide +kernel,
    ⟨_, rfl, rfl, rfl, rfl, fun _ => by decide +kernel⟩⟩

theorem witness_global_stores : (∀ i, i ∈ ([.stg h 1 1 0 0 0 0, .stg h 1 1 1 1 2 3, .stg h 1 1 2 2 0 0, .stg h 1 1 3 1 0 0, .vsct h 1 1 2 3,
      .pref h 1 0 true 0, .pref h 1 0 false 4095, .inv h 1 0 0] : List Instr) → passes h i global0) ∧
    Mapped global0 1 0x10000 ⟨0x10000, .rc, none, 0x10000, false⟩ ∧ Mapped global0 1 0x20000 ⟨0x20000, .uo, none, 0x20000, false⟩ ∧
    0x20000 < apertureBase ∧ global0.posted = [] ∧ (∀ q, q ∈ global0.posted → q.id ≠ global0.serial) ∧
    (let u := (global0.modCtx 0 fun y => y.unreplay).modCtx 0 fun y => y
     let p : Posted := {
       id := 0, ctx := 0, vd := 1, va := 0x20000, bytes := toLE 4 0, op := .write, rel := none, xl := some ⟨0x20000, .uo, none, 0x20000, false⟩, wait := none
       stream := none, log := none, promoted := false, bound := 8192, freq := none, bundle := 0 }
     ({ u with serial := 1, posted := [p] } : State).unheld p = true) :=
  ⟨all_pass (by decide +kernel), ⟨_, rfl, rfl, rfl, rfl, fun _ => by decide +kernel⟩, ⟨_, rfl, rfl, rfl, rfl, fun _ => by decide +kernel⟩, by decide,
    by decide +kernel, by decide +kernel, by decide +kernel⟩

theorem witness_flag_words : (∀ i, i ∈ ([.sync h 4, .fadd h 1 0 0 1, .fadd h 1 2 3 1, .fset h 1 4 2 0 1, .fwait h 5 1 0 true 3 1] : List Instr) →
      passes h i (global0.modCtx 0 fun x => x.sset 4 1)) ∧ global0.flags.length < 64 ∧
    passes h (.promote h 4) (global0.modCtx 0 fun x => x.sset 4 3) ∧
    (global0.modCtx 0 fun x => x.sset 4 3).groupOf 0 = some group0 ∧
    (global0.modCtx 0 fun x => x.sset 4 3).taskCtx 1 1 1 = none ∧ global0.me.st ≠ .dead ∧
    Mapped (global0.modCtx 0 fun x => x.sset 4 1) 1 0 ⟨0, .so, none, 0, false⟩ :=
  ⟨all_pass (by decide +kernel), by decide, passes_of_ok (by decide +kernel), by decide +kernel, by decide +kernel, by decide,
    ⟨_, rfl, rfl, rfl, rfl, fun _ => by decide +kernel⟩⟩

/-- Another task of the group runs beside it, on core 1. -/
theorem witness_promotion : let s := (global0.modCtx 0 fun x => x.sset 4 1).modCtx 2 fun x => { x with st := .running, group := some 1, lx := 1 }
    passes h (.promote h 4) s ∧ s.groupOf 0 = some group0 ∧ s.taskCtx 1 1 0 = some 2 :=
  ⟨passes_of_ok (by decide +kernel), by decide +kernel, by decide +kernel⟩

theorem witness_full_flags : let s : State := { global0 with flags := List.replicate 64 ⟨1, 1, 0, none, 0, none, [], false, none, none⟩ }
    passes h (.fwait h 5 1 0 false 0 1) s ∧ ¬(s.flags.filter fun f => f.ctx / 2 == 0).length < 64 :=
  ⟨passes_of_ok (by decide +kernel), by decide +kernel⟩

theorem witness_waits : (∀ i, i ∈ ([.wait h 1 1 0 false true false 0 0, .waitArm h 1 0 0 true false false 0 0] : List Instr) →
      passes h i { global0 with scratch := [(0, { SLine.free with pin := some 0 })] }) ∧
    (∀ k, k ∈ global0.monitors → False) ∧ goes h global0 :=
  ⟨all_pass (by decide +kernel), by decide, by decide, by decide⟩

/-- A monitor of bank A on scratchpad word 0. -/
def monitor0 : Monitor := ⟨0, true, 0, 0, 0, false, 0, none, none, true, false, none⟩

theorem witness_waits_again : let s : State := { global0 with scratch := [(0, { SLine.free with pin := some 0 })], monitors := List.replicate 16 monitor0 }
    passes h (.wait h 1 0 0 true false false 0 0) s ∧ (∃ k, k ∈ s.monitors ∧ k.ctx = 0 ∧ k.scratch = true ∧ k.va = 0 ∧ k.dbl = false) ∧
    passes h (.wait h 1 0 0 true true false 0 0) s ∧ ¬(s.monitors.filter fun k => k.ctx / 2 == 0).length < 16 :=
  ⟨passes_of_ok (by decide +kernel), ⟨monitor0, by decide, rfl, rfl, rfl, rfl⟩, passes_of_ok (by decide +kernel), by decide +kernel⟩

/-- The six words of a stream descriptor: read, F32, one dimension of 4 entries, through handle 1. -/
def stream0 : State := global0.modCtx 0 fun x =>
  ((x.gset 1 (BitVec.ofNat 64 (1 * 2 ^ 60 + 1 * 2 ^ 55))).gset 2 4).gset 4 256

theorem witness_streams : (∀ i, i ∈ ([.sbind h 7 0, .sunbind h 7] : List Instr) → passes h i stream0) ∧
    (∀ i, i ∈ ([.sflush h 0 7 3, .sskip h 0 0] : List Instr) → passes h i (global0.modCtx 0 fun x =>
      x.qset 0 { Stream.unbound with bound := true, total := 4, win := handle0 })) :=
  ⟨all_pass (by decide +kernel), all_pass (by decide +kernel)⟩

/-- The loop buffer holds segment 0, of three bundles; `n` follows it. -/
def half0 (n : Nat) : Half := { Half.fetching 0 with ready := true, words := [0x9D5C0000#32, 0x9D5C0000#32, 0x9D5C0000#32], next := n, issue := 0xFFFFFFFF }

/-- A running task at bundle 0 of that segment; s1 names bundle 1 of the current segment. -/
def code0 : State := bank fun x => { (x.sset 1 0xFFFF0001) with st := .running, exec := some (half0 1), group := some 1 }

theorem witness_branches : (∀ i, i ∈ ([.br h 0xFFFF 2, .br h 0 0, .brz h 0 0xFFFF 2, .brnz h 1 0xFFFF 0, .brp h 7 0 0xFFFF 1, .call h 5 0xFFFF 2,
      .jmpr h 1 1, .ret h 1] : List Instr) → passes h i code0) ∧ goes h code0 ∧ code0.me.sget 0 = 0 ∧ code0.me.sget 1 ≠ 0 ∧
    code0.cur.preds.getLsbD 7 ≠ decide (0 = 1) ∧ code0.cur.preds.getLsbD 0 = decide (0 = 1) ∧ code0.me.following code0.cur.pc = some ⟨0, 1⟩ :=
  ⟨all_pass (by decide +kernel), ⟨rfl, by decide⟩, by decide, by decide, by decide, by decide, by decide +kernel⟩

theorem witness_loop : (∀ i, i ∈ ([.loop h 0 1 0xFFFF 2, .loop h 1 6 0xFFFF 0] : List Instr) → passes h i code0) ∧ code0.me.sget 1 ≠ 0 ∧
    code0.me.sget 0 = 0 ∧ (code0.me.cget csrEpi).getLsbD 7 = false ∧ 0 < 6 - 1 ∧ 1 - 1 = 0 :=
  ⟨all_pass (by decide +kernel), by decide, by decide, by decide, by decide, by decide⟩

/-- Memory that holds the segment table of one entry at 0x100, and at 0x140 the segment that the spec writes out as an example. -/
def image0 : Memory := memWrite (memWrite [] 0x100 (toLE 8 0x140 ++ toLE 4 79)) 0x140
  (toLE 4 0x47534C5A ++ toLE 2 1 ++ toLE 2 0xFFFF ++ toLE 4 15 ++ toLE 2 6 ++ toLE 2 6 ++ toLE 4 0xFFFFFFFF ++ zeros 8 ++ toLE 2 0 ++ toLE 2 1 ++ zeros 32 ++
    [0, 0, 0x5C, 0x9D, 0, 0, 0xF0, 0, 0, 0, 0x81, 0, 0, 0, 0xFF])

/-- A task whose table lies so that its segment 1 is that one. -/
def fetch0 : State := { code0 with mem := image0, tlb := tlb0, groups := [{ group0 with stab := 0xF0 }] }

/-- R46: the example of the spec expands to its six words. -/
theorem test_segment_expands : (match (fetch0.segFetch 0 1 0).2 with | .ok k => k.words | _ => []) =
    [0x9D5C0000#32, 0x9D5C0000#32, 0x81000000#32, 0x9D5C0000#32, 0x9D5C0000#32, 0x9D5C0000#32] := by decide +kernel

theorem witness_prefetch : goes h fetch0 ∧ (∃ k, (fetch0.segFetch 0 1 0).2 = .ok k) ∧ fetch0.groupOf 0 = some { group0 with stab := 0xF0 } ∧
    (2 : Nat) ≤ 2 ∧ fetch0.me.exec = some (half0 1) :=
  ⟨⟨rfl, by decide⟩, ⟨_, rfl⟩, by decide +kernel, by decide, by decide +kernel⟩

theorem witness_exit : goes h code0 ∧ code0.me.rerun = none ∧ code0.me.passMismatch = none ∧
    (let s := code0.modCtx 0 fun x => { x with exec := some { half0 1 with issue := 0, sig := 0 }, count := 1 }
     goes h s ∧ s.me.rerun = none ∧ s.me.passMismatch = some 1) ∧
    (let s := code0.modCtx 0 fun x => { x with rerun := some ⟨1, false, 1, 0, 0, 0, none, [], 0, none, none⟩ }
     goes h s ∧ s.me.rerun = some ⟨1, false, 1, 0, 0, 0, none, [], 0, none, none⟩) :=
  ⟨⟨rfl, by decide⟩, by decide, by decide +kernel, ⟨⟨rfl, by decide⟩, by decide, by decide +kernel⟩, ⟨rfl, by decide⟩, by decide⟩

theorem witness_trap : let s := code0.modCtx 0 fun x => x.cset csrTvec 0x1FFFF0002
    predOf s.cur.preds h.pred = true ∧ s.me.rerun = none ∧ s.me.st = .running ∧ (s.me.cget csrTvec).getLsbD 32 = true ∧
    s.me.exec = some (half0 1) ∧ (s.me.cget csrTvec).toNat / 2 ^ 16 % 2 ^ 16 = 0xFFFF ∧ (s.me.cget csrTvec).toNat % 2 ^ 13 < (half0 1).bundles.length :=
  ⟨rfl, by decide, by decide, by decide, by decide +kernel, by decide, by decide +kernel⟩

theorem witness_control_registers : goes h code0 ∧ code0.me.logBits = [] ∧ (code0.modCtx 0 fun x => { x with count := 1 }).me.count = 1 ∧
    code0.me.versOld = none ∧ (code0.modCtx 0 fun x => { x with versOld := some (0, 5) }).me.versOld = some (code0.now, 5) ∧
    (let x := (code0.modCtx 0 fun x => { x.cset csrRngMode 1 with logBits := [true] }).me
     x.logBits ≠ [] ∧ ¬((x.cget 0x34).toNat < x.replayEnd ∨ (x.cget 0x32).toNat % 4 = 2)) :=
  ⟨⟨rfl, by decide⟩, by decide, by decide, by decide, by decide, by decide +kernel⟩

theorem witness_handles : (0 : Nat) % 2 ^ 16 = 0 ∧ 0 + 2 ^ 16 ≤ 2 ^ 55 ∧ 0x8000 % 2 ^ 16 ≠ 0 ∧ (2 ^ 55 : Nat) % 2 ^ 32 = 0 ∧ 2 ^ 55 < 2 ^ 55 + 2 ^ 32 := by decide

theorem witness_commit : code0.me.following ⟨0, 0⟩ = some ⟨0, 1⟩ ∧
    (bank fun x => { x with exec := some (half0 0xFFFF) }).me.following ⟨0, 2⟩ = none ∧
    (bank fun x => { x with exec := some (half0 1) }).me.following ⟨0, 2⟩ = some ⟨1, 0⟩ := by decide +kernel

theorem witness_engine_absent : engine (.nbmat h 1 0 0 0 0) = some (specNbmat, 1, 0, 0, 0, 0) ∧ header (.nbmat h 1 0 0 0 0) = some h ∧
    passes h (.nbmat h 1 0 0 0 0) global0 ∧ specNbmat.absent global0 = true :=
  ⟨rfl, rfl, passes_of_ok (by decide +kernel), by decide +kernel⟩

theorem witness_engine_broken : engine (.xcopy h 1 0 0 0 0) = some (specCopy false, 1, 0, 0, 0, 0) ∧ header (.xcopy h 1 0 0 0 0) = some h ∧
    passes h (.xcopy h 1 0 0 0 0) global0 ∧ (specCopy false).absent global0 = false ∧ (specCopy false).bad global0 (List.replicate 5 0) = true :=
  ⟨rfl, rfl, passes_of_ok (by decide +kernel), by decide +kernel, by decide +kernel⟩

theorem witness_engine_early : engine (.fput h 1 0 0 0 0) = some (specFab 1, 1, 0, 0, 0, 0) ∧ header (.fput h 1 0 0 0 0) = some h ∧
    passes h (.fput h 1 0 0 0 0) global0 ∧ (specFab 1).absent global0 = false ∧ (specFab 1).bad global0 (List.replicate 4 0) = false ∧
    (specFab 1).early global0 (List.replicate 4 0) = some (0, []) :=
  ⟨rfl, rfl, passes_of_ok (by decide +kernel), by decide +kernel, by decide +kernel, by decide +kernel⟩

/-- A task with a pinned scratchpad line, and g3 = 16 bytes. -/
def fill0 : State := { global0.modCtx 0 fun x => x.gset 3 16 with scratch := [(0, { SLine.free with pin := some 0 })] }

theorem witness_engine_accepted : engine (.xfill h 1 1 0 7 3) = some (specXfill, 1, 1, 0, 7, 3) ∧ header (.xfill h 1 1 0 7 3) = some h ∧
    passes h (.xfill h 1 1 0 7 3) fill0 ∧ specXfill.absent fill0 = false ∧ specXfill.bad fill0 [0, 0, 16] = false ∧
    specXfill.early fill0 [0, 0, 16] = none :=
  ⟨rfl, rfl, passes_of_ok (by decide +kernel), by decide +kernel, by decide +kernel, by decide +kernel⟩

theorem witness_xstat : passes h (.xstat h 1 0 0 0 0) fill0 ∧ fill0.cmds.length ≤ 16 := ⟨passes_of_ok (by decide +kernel), by decide⟩

/-! ### The step -/

theorem witness_decode_of_encode : wellFormed (.ldt h 1 2 4 true 63 0 (2 ^ 15 - 1)) = true := by decide

theorem witness_unassigned : fld (wordOf h 0 4 7 0 0 0) 26 4 ≠ 0 ∧ assigned (fld (wordOf h 0 4 7 0 0 0) 26 4) (fld (wordOf h 0 4 7 0 0 0) 21 5) = false ∧
    assigned (fld (wordOf h 0 14 4 0 0 0) 26 4) (fld (wordOf h 0 14 4 0 0 0) 21 5) = true := by decide

theorem witness_step_fetches : wellFormed (.add h 1 2 (.imm 5)) = true ∧ header (.add h 1 2 (.imm 5)) = some h ∧ h.stop = true ∧
    isSync (.add h 1 2 (.imm 5)) = false ∧ SMap.wf Ctx.init State.reset.ctxs = true ∧ State.reset.thermal = false ∧
    (State.reset.withBundle (encode (.add h 1 2 (.imm 5)))).wordsReady 0
      [⟨0, slotIn 0 (fld (wordNat (.add h 1 2 (.imm 5))) 26 4), ⟨0, 0⟩, (State.reset.ctx 0).preds, 0, 0, false, false, (State.reset.ctx 0).bundles,
        .add h 1 2 (.imm 5)⟩] = true :=
  ⟨by decide, rfl, rfl, rfl, by decide, rfl, by decide +kernel⟩

theorem witness_step_words : ({ State.reset with todo := [IssueWord.none] } : State).bad = none ∧
    ({ State.reset with due := [.scannerWake] } : State).todo = [] ∧
    ({ State.reset with agenda := [(0, .coldReset)] } : State).agenda = [(0, .coldReset)] ∧ 0 ≤ State.reset.now :=
  ⟨rfl, rfl, rfl, Nat.le_refl 0⟩

theorem witness_step_faults : ({ State.reset with bad := some (.absentPhysicalAddress 0) } : State).bad = some (.absentPhysicalAddress 0) := rfl

theorem witness_false_predicate : header (.add ⟨true, 0⟩ 1 2 (.reg 3)) = some ⟨true, 0⟩ ∧ predOf State.reset.cur.preds 0 = false ∧
    State.reset.me.poison = [] := ⟨rfl, rfl, rfl⟩

/-- R184: `ldw` of a line that is not pinned. -/
theorem witness_failed_check : header (.ldw h 1 0 none) = some h ∧ goes h State.reset ∧
    (semOf (.ldw h 1 0 none)).chk State.reset = some ⟨5, 1, 0⟩ ∧ (5 : Nat) < 8 ∧ State.reset.me.rerun = none ∧
    (State.reset.me.cget csrTvec).getLsbD 32 = false ∧ State.reset.me.group = none :=
  ⟨rfl, ⟨rfl, rfl⟩, by decide +kernel, by decide, rfl, by decide, rfl⟩

theorem witness_memory_canonical : Memory.wf image0 = true ∧ (∃ t, step { State.reset with mem := image0 } = .next t) := ⟨by decide +kernel, _, rfl⟩

/-! ### Single steps -/

/-- What the last result in flight of the word in hand's context is to write, after an instruction. -/
def lands (i : Instr) (s : State) : List Landing :=
  match exec i s with
  | .next t => ((t.me.flights.getLast?).map (·.lands)).getD []
  | _ => []

/-- A value of the state after an instruction. -/
def after {α : Type} (i : Instr) (s : State) (f : State → α) : Option α :=
  match exec i s with
  | .next t => some (f t)
  | _ => none

/-- R122: a sum modulo 2^64. -/
theorem test_add_wraps : lands (.add h 9 4 (.imm 2)) scalars = [.sreg 9 1] := by decide +kernel

/-- R122: shifts ignore b[63:6], so that a shift by 65 shifts by 1. -/
theorem test_shl_65 : lands (.shl h 9 5 (.imm 65)) scalars = [.sreg 9 6] := by decide +kernel

/-- R122: the upper half of a signed product. -/
theorem test_mulh_signs : lands (.mulh h 9 4 (.reg 5)) scalars = [.sreg 9 0xFFFFFFFFFFFFFFFF] ∧ lands (.mulhu h 9 4 (.reg 5)) scalars = [.sreg 9 2] := by
  decide +kernel

/-- R123: the leading zeros of zero are 64. -/
theorem test_clz_zero : lands (.clz h 9 0) scalars = [.sreg 9 64] := by decide +kernel

/-- R124: bits above 63 read as zero, and the sign of a field extends. -/
theorem test_bext : lands (.bext h 9 4 false 7 60) scalars = [.sreg 9 15] ∧ lands (.bext h 9 2 true 2 0) scalars = [.sreg 9 0xFFFFFFFFFFFFFFFF] := by
  decide +kernel

/-- R126: -7 div 2 gives -3, and -7 rem 2 gives -1. -/
theorem test_divide_truncates : let s := bank fun x => (x.sset 1 0xFFFFFFFFFFFFFFF9).sset 2 2
    lands (.div h 9 1 2 0 false) s = [.sreg 9 0xFFFFFFFFFFFFFFFD] ∧ lands (.rem h 9 1 2 0 false) s = [.sreg 9 0xFFFFFFFFFFFFFFFF] := by decide +kernel

/-- R126: the most negative number divided by -1. -/
theorem test_divide_overflow : lands (.div h 9 3 4 0 false) scalars = [.sreg 9 0x8000000000000000] ∧ lands (.rem h 9 3 4 0 false) scalars = [.sreg 9 0] := by
  decide +kernel

/-- R128: signed and unsigned conditions differ. -/
theorem test_setp_signs : lands (.setp h 2 4 1) scalars = [.p6 true] ∧ lands (.setp h 4 4 1) scalars = [.p6 false] := by decide +kernel

/-- R133: the fourth pass of the example: the counter is zero, and the drain of 3 - 1 stages begins. -/
theorem test_loop_drains : lands (.loop h 0 3 0xFFFF 0) { code0 with cur := { IssueWord.none with preds := 0x87 } } =
    [.window 0b001110#6, .csr csrEpi 0x81] := by decide +kernel

/-- R132: the link of `call` names the bundle after it. -/
theorem test_call_links : (after (.call h 5 0xFFFF 2) code0 fun t => (t.me.flights.map (·.lands), t.me.pc)) = some ([[.sreg 5 1]], ⟨0, 2⟩) := by
  decide +kernel

/-- R140: the handle of the worked example: a window of 1 MiB that may be read and written. -/
theorem test_trn_handle : lands (.trn h 2 4 3 20) (global0.modCtx 0 fun x => x.sset 4 0x300000) =
    [.handle 2 ⟨true, 1, true, true, false, 20, 0x300000⟩] := by decide +kernel

/-- R140: a base that is no multiple of the size traps ALIGN. -/
theorem test_trn_traps : (after (.trn h 2 4 3 20) (global0.modCtx 0 fun x => x.sset 4 0x310000) fun t => t.me.cget csrTcause) = some 0x707 := by
  decide +kernel

/-- R187: a doubleword is stored little-endian, and read back. -/
theorem test_store_load : (after (.std h 1 0 none) (local0.modCtx 0 fun x => x.sset 1 0x0102030405060708) fun t =>
    (scrByte t 0 0, scrByte t 0 7, lands (.ldw h 9 0 none) t)) = some (8, 1, [.sreg 9 0x05060708]) := by decide +kernel

/-- R191: the lines that were not pinned are, and read zero. -/
theorem test_alloc_pins : (after (.alloc h 1 2) shared fun t => ((t.sline 0 128).pin, (t.sline 0 256).pin, (t.sline 0 0).pin)) =
    some (some 0, some 0, some 1) := by decide +kernel

/-- R156: a comparison of lanes; R170: no true lane gives 64. -/
theorem test_vffs_none : lands (.vffs h 9 5 none) vectors = [.sreg 9 64] := by decide +kernel

/-- R165: a lane is broadcast with its tag. -/
theorem test_vbcast : (lands (.vbcast h 10 1 0 none) (bank fun x => x.vset 1 ⟨7, 0, .i32⟩)).head?.map (fun l => match l with
    | .vreg n v _ => (n, lane v.data 63, v.tag) | _ => (0, 0, .raw)) = some (10, 7, .i32) := by decide +kernel

/-- R152: 1 + 2 = 3 in F32, lane by lane. -/
theorem test_vadd_f32 : (lands (.vadd h 10 1 2 none) (bank fun x => (x.vset 1 ⟨0x3F800000, 0, .f32⟩).vset 2 ⟨0x40000000, 0, .f32⟩)).head?.map (fun l => match l with
    | .vreg n v _ => (n, lane v.data 0, lane v.data 63) | _ => (0, 0, 0)) = some (10, 0x40400000, 0) := by decide +kernel

/-- R416, R411: a trap whose handler is absent drains the task. -/
theorem test_trap_without_handler : (after (.trap h 0x1234) code0 fun t => (t.me.st, t.me.cget csrTcause, t.me.cget csrTinfo)) =
    some (.draining, 0x70A, 0x1234) := by decide +kernel

/-- R142: a commit records the bundle that follows. -/
theorem test_commit_records : (after (.commit h) code0 fun t => t.me.phase.map (·.pc)) = some (some ⟨0, 1⟩) := by decide +kernel

/-- R100: a result for s0 lands nowhere. -/
theorem test_s0_stays_zero : (after (.fixedResultLands 0 0) ((State.reset.land 1 [.sreg 0 5]).modCtx 0 fun x => { x with flights := x.flights.map fun f =>
    { f with first := 0 } }) fun t => (t.me.sget 0, t.me.flights)) = some (0, []) := by decide +kernel

/-! ### States that meet the hypotheses of the statements about events -/

/-- A result of a kind in flight in bank A of core 0, with the number 0, a tag, a tile that it reads and one that it writes, and a unit. -/
def flight0 (kind : FlightKind) : Flight :=
  { State.reset.launchFlight kind (some 1) [.sreg 1 5] with first := 0, tag := some 7, rd := [3], wr := [4], unit := some 2 }

def flying (kind : FlightKind) : State := bank fun x => { x with flights := [flight0 kind] }

theorem witness_results : ∀ kind, ((flying kind).ctx 0).flight 0 = some (flight0 kind) ∧ (flight0 kind).first ≤ (flying kind).now ∧
    (flight0 kind).load = none ∧ (flight0 kind).flush = none ∧ (flight0 kind).cmd = none ∧ (flight0 kind).poison = none ∧
    (∀ l, l ∈ (flight0 kind).lands → ∀ q g vd va v, l ≠ .push q g vd va v) ∧ (flight0 kind).kind = kind ∧ (flight0 kind).phaseEnd ≤ (flying kind).now := by
  intro kind
  refine ⟨?_, Nat.le_refl 0, rfl, rfl, rfl, rfl, ?_, rfl, Nat.le_refl 0⟩
  · cases kind <;> decide +kernel
  · intro l hl
    simp only [flight0, State.launchFlight, List.mem_singleton] at hl
    subst hl
    intros
    nofun

theorem witness_last_lands : let f : Flight := { flight0 .fixed with lands := [.last VReg.zero] }
    ((bank fun x => { x with flights := [f] }).ctx 0).flight 0 = some f ∧ f.lands = [.last VReg.zero] := by decide +kernel

/-- The status of an engine command in flight, before its bound and at it; a load whose parts have come; a result that does not linger. -/
theorem witness_statuses_and_loads : (∀ late now, now = 10 ∨ now = 64 → let f : Flight := { flight0 .tagged with cmd := some 7, bound := some 64, late := late }
      let s : State := { bank (fun x => { x with flights := [f] }) with now := now }
      (s.ctx 0).flight 0 = some f ∧ f.first ≤ s.now ∧ f.cmd ≠ none) ∧ 10 < 64 ∧ 64 ≤ 64 ∧
    (∀ acq, acq = none ∨ acq = some 2 →
      let l : Load := { pieces := [{ Piece.init 0x40000 4 0 with xl := some ⟨0x40000, .rc, none, 0x40000, false⟩, val := some [1, 2, 3, 4] }]
                        dst := .scalar 1, acq := acq, rel := none, amo := none, gather := false, offsets := 0, vd := 1 }
      let f : Flight := { flight0 .tagged with load := some l, bound := some 0 }
      ((bank fun x => { x with flights := [f] }).ctx 0).flight 0 = some f ∧ (∀ p, p ∈ l.pieces → p.val ≠ none ∧ p.xl ≠ none) ∧
        (∀ q g e, l.dst ≠ .stream q g e) ∧ (bank fun x => { x with flights := [f] }).lingers 0 f = false) := by
  refine ⟨?_, by decide, by decide, ?_⟩
  · rintro late now (rfl | rfl) <;> cases late <;> decide +kernel
  · rintro acq (rfl | rfl)
    all_goals refine ⟨by decide +kernel, by simp, nofun, ?_⟩
    all_goals simp only [State.lingers, Bool.and_eq_false_iff]; exact .inr rfl

/-- Control has passed to bundle 2 of segment 1, which is being expanded. -/
def jumping : State := fetch0.modCtx 0 fun x => { x with idle := some (Half.fetching 1), jump := some (⟨1, 2⟩, ⟨0, 2⟩, 0, 0) }

theorem witness_segment_arrives : (jumping.ctx 0).st = .running ∧ (jumping.ctx 0).waits = [] ∧ (jumping.ctx 0).exec = some (half0 1) ∧
    (half0 1).ready = true ∧ (jumping.ctx 0).idle = some (Half.fetching 1) ∧ (Half.fetching 1).ready = false ∧ (half0 1).seg ≠ 1 ∧
    (match jumping.segFetch 0 1 (2 + 1 * 2 ^ 16) with
      | (u, .ok r) => decide (r.seg = 1) && r.ready && r.fail.isNone && decide (2 < r.bundles.length) && decide (u.ctx 0 = jumping.ctx 0)
      | _ => false) = true := by decide +kernel

/-- The end of the segment: the program counter stands behind its last bundle. -/
def fallen (next : Nat) : State := bank fun x =>
  { x with st := .running, exec := some (half0 next), pc := ⟨0, 3⟩, group := some 1 }

theorem witness_falls_through : ∀ next, next = 0xFFFF ∨ next = 1 → let x := (fallen next).ctx 0
    x.sleep = none ∧ x.notBefore ≤ (fallen next).now ∧ x.leave = none ∧ x.st = .running ∧ (fallen next).thermal = false ∧ x.pend = [] ∧
    x.jump = none ∧ x.rerun = none ∧ x.passMismatch = none ∧ x.exec = some (half0 next) ∧ (half0 next).ready = true ∧
    (half0 next).seg = x.pc.seg ∧ (half0 next).bundles.length ≤ x.pc.bun ∧ x.idle = none ∧ (half0 next).next = next ∧ (half0 next).seg ≠ next := by
  rintro next (rfl | rfl) <;> decide +kernel

/-- A task of a group of one task comes to a sync bundle whose mask is in s4. -/
def syncing : State :=
  { bank fun x => { x.sset 4 1 with st := .running, group := some 1, exec := some { half0 1 with words := [0xA05C0100#32] } } with
    groups := [{ group0 with gridX := 1, gridY := 1, scount := 1 }], now := 100 }

theorem witness_sync_arrives : syncing.look 0 = .arrive ⟨0, 6, ⟨0, 0⟩, 0x80, 0, 0, false, false, 0, .sync ⟨true, 7⟩ 4⟩ ∧
    syncing.stops ⟨0, 6, ⟨0, 0⟩, 0x80, 0, 0, false, false, 0, .sync ⟨true, 7⟩ 4⟩ = false := ⟨rfl, by decide +kernel⟩

/-- It has arrived, 32 cycles ago. -/
def syncHeld0 : State := syncing.modCtx 0 fun x => { x with st := .syncHeld, arrived := some 68, restart := some 100, syncMask := 1 }

theorem witness_sync_restarts : syncHeld0.thermal = false ∧ (syncHeld0.ctx 0).st = .syncHeld ∧ (syncHeld0.ctx 0).syncAt = none ∧
    (syncHeld0.ctx 0).restart = some syncHeld0.now ∧ syncHeld0.syncNamed 0 (syncHeld0.ctx 0).syncMask = some [(0, 0)] ∧
    syncHeld0.mateAt 0 0 0 = some (syncHeld0.ctx 0) ∧ (syncHeld0.ctx 0).arrived = some (syncHeld0.now - 32) ∧ syncHeld0.restartsNow 0 = true ∧
    ((syncHeld0.modCtx 0 fun x => { x with restarted := some 90 }).ctx 0).restarted = some 90 ∧ syncHeld0.now - 32 < 90 ∧
    (match (syncHeld0.ctx 0).bundleAt.map checkBundle with | some (.ok _) => true | _ => false) = true := by decide +kernel

/-! ### Waits -/

/-- A sleeping task that a wait of s5 has put to sleep in cycle 0, ten cycles ago. -/
def asleep (sl : Sleep) : State :=
  { global0.modCtx 0 fun x => { x with st := .sleeping, sleep := some sl } with now := 10, scratch := [(0, { SLine.free with pin := some 0 })] }

theorem witness_wait_status : let sl : Sleep := ⟨5, 0, false, true, false, some 4⟩
    ((asleep sl).ctx 0).sleep = some sl ∧ ((asleep sl).ctx 0).waits = [] ∧ ((asleep sl).ctx 0).faulted = false ∧ sl.status = some 4 ∧
    sl.since + (if sl.held then 2 else 1) ≤ (asleep sl).now := by decide +kernel

/-- The arming read of a scratchpad word that holds 0, where the program expects `v`. -/
def arming (held : Bool) (v : W64) : State :=
  { asleep ⟨5, 0, true, held, false, none⟩ with monitors := [{ monitor0 with expected := v, bound := false, arming := true }] }

theorem witness_arming : ∀ held v, v = 0 ∨ v = 1 → ((arming held v).ctx 0).sleep = some ⟨5, 0, true, held, false, none⟩ ∧
    ((arming held v).ctx 0).waits = [] ∧ ((arming held v).ctx 0).faulted = false ∧
    0 + (if held then 2 else 1) ≤ (arming held v).now ∧ (arming held v).monitors.find? (fun m => m.ctx == 0 && m.arming) = some { monitor0 with expected := v, bound := false, arming := true } ∧
    (bitsOfBytes 64 ((arming held v).scr (tileOf 0) monitor0.addr (wordSize monitor0.dbl))).toNat % 2 ^ (8 * wordSize monitor0.dbl) = 0 := by
  rintro held v (rfl | rfl) <;> cases held <;> decide +kernel

/-- A flag binding whose value has come. -/
theorem witness_binding : let f : FlagBind := ⟨0, 1, 0, some 0, 3, none, [], false, none, none⟩
    let s : State := { asleep ⟨5, 0, true, false, true, none⟩ with flags := [f] }
    (s.ctx 0).sleep = some ⟨5, 0, true, false, true, none⟩ ∧ (s.ctx 0).waits = [] ∧ (s.ctx 0).faulted = false ∧ 0 + 1 ≤ s.now ∧
    s.flags.find? (·.ctx == 0) = some f := by decide +kernel

/-- A monitor that a push or an eviction has fired. -/
def firing (v : W64) : State :=
  { asleep ⟨5, 0, false, false, false, none⟩ with monitors := [{ monitor0 with expected := v, fired := some 1 }] }

theorem witness_firing : ∀ v, v = 0 ∨ v = 1 → ((firing v).ctx 0).sleep = some ⟨5, 0, false, false, false, none⟩ ∧
    ((firing v).monitors.filter (·.ctx == 0))[0]? = some { monitor0 with expected := v, fired := some 1 } ∧
    (firing v).monitors.filter (·.ctx == 0) = [{ monitor0 with expected := v, fired := some 1 }] ∧ ((firing v).ctx 0).onMonitors = true ∧
    (bitsOfBytes 64 ((firing v).scr (tileOf 0) monitor0.addr (wordSize monitor0.dbl))).toNat % 2 ^ (8 * wordSize monitor0.dbl) = 0 := by
  rintro v (rfl | rfl) <;> decide +kernel

/-- A bound flag with threshold 3. -/
def flagged (pushed : List W64) (lost : Bool) : State :=
  { asleep ⟨5, 0, false, false, true, none⟩ with flags := [⟨0, 1, 0, some 0, 3, none, pushed, lost, none, none⟩] }

theorem witness_flags : (∀ pushed lost, pushed = [2, 3] ∨ pushed = [1, 2] → ((flagged pushed lost).ctx 0).sleep = some ⟨5, 0, false, false, true, none⟩ ∧
      (flagged pushed lost).flags.find? (·.ctx == 0) = some ⟨0, 1, 0, some 0, 3, none, pushed, lost, none, none⟩) ∧
    (∃ v : W64, v ∈ [2, 3] ∧ (3 : W64).toNat ≤ v.toNat) ∧ (∀ v : W64, v ∈ [1, 2] → v.toNat < (3 : W64).toNat) ∧ ([1, 2] : List W64) ≠ [] :=
  ⟨by rintro pushed lost (rfl | rfl) <;> cases lost <;> decide +kernel, ⟨3, by simp, by simp⟩, by simp, by simp⟩

/-- A wait with a limit of 1024 cycles, which have passed. -/
def overdue : State := { (firing 0).modCtx 0 (fun x => x.cset csrTimeout 1) with monitors := [monitor0], now := 1024 }

/-- A running task with a hang limit of 2^20 cycles, which have passed. -/
def hanging : State := { global0.modCtx 0 (fun x => x.cset csrTimeout 0x100000000) with now := 2 ^ 20 }

theorem witness_time_limits : (overdue.ctx 0).sleep = some ⟨5, 0, false, false, false, none⟩ ∧ ((overdue.ctx 0).cget csrTimeout).toNat % 2 ^ 32 = 1 ∧
    (overdue.ctx 0).waits = [] ∧ (overdue.ctx 0).faulted = false ∧ 0 + 1024 * 1 ≤ overdue.now ∧
    (∀ m, m ∈ overdue.monitors → m.ctx = 0 → m.fired = none) ∧ (hanging.ctx 0).st = .running ∧
    ((hanging.ctx 0).cget csrTimeout).toNat / 2 ^ 32 = 1 ∧ (hanging.ctx 0).issuedAt + 2 ^ 20 * 1 ≤ hanging.now := by decide +kernel

/-- A promotion by the task on core 1, of the task on core 0. -/
def promoting (upto : Option Nat) : State :=
  { global0.modCtx 2 fun x => { x with st := .running, group := some 1, lx := 1 } with promotions := [⟨9, 2, 0, upto⟩] }

theorem witness_promotions : ∀ upto, upto = none ∨ upto = some 3 → (promoting upto).promotions.find? (·.id == 9) = some ⟨9, 2, 0, upto⟩ ∧ ((promoting upto).ctx 0).st ≠ .idle ∧
    ((promoting upto).ctx 0).st ≠ .dead ∧ ((promoting upto).ctx 0).group = ((promoting upto).ctx 2).group ∧
    (∀ q, q ∈ (promoting upto).posted → q.id < 3 → q.ctx ≠ 0) ∧ (0 : Nat) ≠ 2 := by
  rintro upto (rfl | rfl) <;> decide +kernel

/-! ### Posted writes, streams, the noise log -/

/-- A posted request of four bytes at physical address 0x10000, which has gone so far, and one to the UO page. -/
def posted0 (op : PostOp) (tries : Refusal283) : Posted :=
  { id := 3, ctx := 0, vd := 1, va := 0x10000, bytes := [1, 2, 3, 4], op := op, rel := none, xl := some ⟨0x10000, .rc, none, 0x10000, false⟩, wait := none
    stream := none, log := none, promoted := false, bound := 8192, tries := tries, freq := none }
def postedUo : Posted := { posted0 .write .none with va := 0x20000, xl := some ⟨0x20000, .uo, none, 0x20000, false⟩ }

/-- A write or a flag add on its way, beside others of its tile to its slice. -/
def posting (op : PostOp) (tries : Refusal283) (others : List Refusal283) : State :=
  { global0 with now := 200, posted := posted0 op tries :: others.map fun t => { posted0 .write t with id := 4, bytes := [] } }

theorem witness_posted : (∀ op, op = .write ∨ op = .flagAdd 5 → ∀ tries others, (tries, others) = (.none, []) ∨ (tries, others) = (.none, [.refused 1 300]) ∨
      (tries, others) = (.reserved 500, []) ∨ (tries, others) = (.refused 1 300, []) ∨ (tries, others) = (.refused 1 100, []) ∨
      (tries, others) = (.refused 1 100, [.reserved 500]) →
      let s := posting op tries others
      let u := s.settleWrites (clusterOf (tileOf 0))
      s.posted.find? (·.id == 3) = some (posted0 op tries) ∧ (posted0 op tries).isUoWrite = false ∧ 0x10000 + 8 ≤ apertureBase ∧
      (match u.posted.find? (·.id == 3) with
        | some q => u.mayPerform q && decide ({ q with buf := false } = posted0 op tries)
        | none => false) = true ∧
      (∀ r, r ∈ others → r ∈ u.triesAt (tileOf 0) (homeSlice 0x10000)) ∧ (∀ l, l ∈ s.cache → l.tile ≠ tileOf 0)) ∧
    (posting .write (.refused 1 300) []).now < 300 ∧ (posting .write (.refused 1 100) []).triesAt (tileOf 0) (homeSlice 0x10000) = [.refused 1 100] ∧
    (let s : State := { global0 with posted := [postedUo] }
     s.posted.find? (·.id == 3) = some postedUo ∧ postedUo.isUoWrite = true ∧ s.unheld postedUo = true ∧ s.before postedUo = []) := by
  refine ⟨?_, by decide +kernel, by decide +kernel, by decide +kernel⟩
  rintro op (rfl | rfl) tries others (h | h | h | h | h | h) <;> simp only [Prod.mk.injEq] at h <;> obtain ⟨rfl, rfl⟩ := h <;> decide +kernel

/-- A read stream of 4 entries through a window on the three translated pages. -/
def fetching : State := global0.modCtx 0 fun x =>
  x.qset 2 { Stream.unbound with bound := true, total := 4, win := handle0 }

theorem witness_stream_fetch : let st := (fetching.ctx 0).qget 2
    (fetching.ctx 0).mayFetch 2 = true ∧ st.pos ≤ st.next ∧ (∀ n, n < 8 → fetching.poolSlot st.win.vd n = none) ∧
    st.entryVa st.next % 2 ^ 16 + 256 ≤ 2 ^ 16 ∧
    (match fetching.tlbFind 1 (tileOf 0) st.win.vd (st.entryVa st.next) with
      | some e => e.r && (e.at (st.entryVa st.next)).fab.isNone && !fetching.inHeartwood (e.at (st.entryVa st.next)).pa
      | none => false) = true ∧
    (fetching.ctx 0).flights = [] := by decide +kernel

/-- A context that replays a log of 8 bits at address 0. -/
def replaying : State := global0.modCtx 0 fun x => ((x.cset csrRngMode 2).cset csrLogLen 8).cset csrLogBase 0

theorem witness_log_read_ahead : (replaying.ctx 0).mayReadAhead = true ∧ (∀ p, p ∈ replaying.posted → p.ctx = 0 → p.log = none) ∧
    (match replaying.readGuest (tileOf 0) (replaying.vdOf 0) 2 0 128 with
      | (u, .bytes _ none) => decide (u.ctx 0 = replaying.ctx 0) | _ => false) = true := by decide +kernel

/-! ### Engines -/

/-- An engine command of the running task, of a class and an operation. -/
def cmd0 (cls op : Nat) : Cmd :=
  ⟨7, 0, 0, 1, 0, 0, 1, cls, op, 0, [0, 0, 0, 0], 0, some (0, 1), [], 0, 0, 0, none, 0, 0, 0, false, 0, 0, false, false, [], [], none, none, 0, [], 0, false⟩

def working (k : Cmd) : State := { global0 with cmds := [k], now := 10, scratch := [(0, { SLine.free with pin := some 0 })] }

theorem witness_command_ends : let k := { cmd0 6 0 with ending := some (0, 0, false) }
    (working k).cmds.find? (·.id == 7) = some k ∧ SMap.wf SLine.free (working k).scratch = true ∧ (working k).cmdGoes k = true ∧ k.step ≠ 1000 ∧
    k.comp = some (0, 1) ∧ (0 : W64).getLsbD 63 = false ∧ (0 : W64).toNat % 2 ^ 22 + 8 ≤ 2 ^ 22 ∧ (working k).stillRuns k = true ∧ k.cls ≠ 14 := by
  decide +kernel

theorem witness_command_stopped : let k := { cmd0 6 0 with stopped := true, abandoned := true }
    (working k).cmds.find? (·.id == 7) = some k ∧ k.stopped = true ∧ k.abandoned = true := by decide +kernel

/-- An adoption and a collective whose time is over. -/
def late (cls op : Nat) : Cmd := { cmd0 cls op with deadline := 5, target := 1 }

theorem witness_late_commands : (working (late 12 1)).cmds.find? (·.id == 7) = some (late 12 1) ∧ (working (late 12 1)).adoptLate (late 12 1) = true ∧
    (working (late 14 0)).cmds.find? (·.id == 7) = some (late 14 0) ∧ (working (late 14 0)).collLate (late 14 0) = true := by decide +kernel

/-- An extent that is being written for a version which is no longer published: the materialisation ends with RANGE. -/
theorem witness_materialisation : let s : State := { State.reset with extents := [(0, ⟨1, 5, 0, false, []⟩)] }
    (s.extent 0 0).state = 1 ∧ (s.matResult 0 0).2 = 2 ∧ (s.matResult 0 0).1.cmds = s.cmds ∧ s.cmds = [] := by decide +kernel

theorem witness_reclaim : let l : HLine := ⟨1, 0, 0, 5, false, 0, 0, true⟩
    ({ State.reset with hlines := [l] } : State).hlines.find? (·.reclaiming) = some l ∧ l.node = false := by decide +kernel

/-! ### Device registers -/

/-- A device register field by field, as a test. -/
def dev (s : State) (l : List (Nat × Nat × W64)) : State := l.foldl (fun s (off, inst, v) => s.dset off inst v) s

/-- The machine in service, with FE_SEMA held by CE-A. -/
def conf : State := dev State.reset [(Dev.feStat, 0, 1), (Dev.feSema, 0, 1)]

/-- Its firmware's feature bits for dirty logs and the fabric are on. -/
def confOn : State := dev conf [(Dev.feFeatEn0, 0, 0x60)]

theorem witness_configurable : Configurable conf ∧ (State.reset.dset Dev.feStat 0 0).ready = false ∧
    ({ conf with thermal := true } : State).thermal = true ∧ (conf.dset Dev.feSema 0 0).ready = true ∧ (conf.dset Dev.feSema 0 0).thermal = false ∧
    (conf.dset Dev.feSema 0 0).dfld Dev.feSema 0 0 2 = 0 := by
  unfold Configurable
  decide +kernel

theorem witness_ring_values : (2 ^ 63 + 5).testBit 63 = true ∧ (2 ^ 63 + 5) % 32 < 6 ∧ 16 < (2 ^ 63 + 17) % 32 ∧ (2 ^ 63 + 17).testBit 63 = true ∧
    (∀ n, n = 6 ∨ n = 16 → (2 ^ 63 + n).testBit 63 = true ∧ 6 ≤ (2 ^ 63 + n) % 32 ∧ (2 ^ 63 + n) % 32 ≤ 16) ∧ (8 : Nat).testBit 63 = false ∧
    (∀ n, n = 4 ∨ n = 16 → (2 ^ 63 + n * 2 ^ 48).testBit 63 = true ∧ 4 ≤ (2 ^ 63 + n * 2 ^ 48) / 2 ^ 48 % 32 ∧ (2 ^ 63 + n * 2 ^ 48) / 2 ^ 48 % 32 ≤ 16) ∧
    (2 ^ 63 + 3 * 2 ^ 48) / 2 ^ 48 % 32 < 4 ∧ 16 < (2 ^ 63 + 17 * 2 ^ 48) / 2 ^ 48 % 32 := by
  refine ⟨by decide, by decide, by decide, by decide, ?_, by decide, ?_, by decide, by decide⟩ <;> rintro n (rfl | rfl) <;> decide

/-- An open page request of virtual device 0. -/
def req0 : PageReq := ⟨⟨0, 1, 1, 0x10000, 0, false⟩, 4, 0, 0⟩

theorem witness_dirty_log_and_requests : Configurable confOn ∧ conf.dfld Dev.feFeatEn0 0 6 1 = 0 ∧ confOn.dfld Dev.feFeatEn0 0 6 1 = 1 ∧
    6 ≤ (2 ^ 63 + 20) % 32 ∧ (2 ^ 63 + 20) % 32 ≤ 20 ∧ conf.openReqs (conf.selected .mmVd) = [] ∧
    (let s : State := { conf with reqs := [req0] }
     Configurable s ∧ s.openReqs (s.selected .mmVd) = [req0] ∧ req0.id < 256 ∧ (2 ^ 63 + 0x1006) / 2 ^ 12 % 2 ^ 40 * 4096 + 32 ≤ hbmSize) := by
  unfold Configurable
  decide +kernel

theorem witness_queue_configuration : conf.dfld Dev.feQcfg (conf.selected .queue) 63 1 ≠ 1 ∧ (let s := conf.dset Dev.feQcfg 0 (2 ^ 63);
    Configurable s ∧ s.dfld Dev.feQcfg (s.selected .queue) 63 1 = 1) := by
  unfold Configurable
  decide +kernel

theorem witness_groups_and_pool : Configurable { conf with groups := [group0] } ∧ ({ conf with groups := [group0] } : State).groups ≠ [] ∧ conf.groups = [] ∧
    conf.dfld Dev.fePoolCfg 0 63 1 = 0 ∧ (let s := dev conf [(Dev.fePoolCfg, 0, 2 ^ 63), (Dev.fePoolSize, 0, 2)];
      Configurable s ∧ s.dfld Dev.fePoolCfg 0 63 1 = 1 ∧ s.pool.length < s.dfld Dev.fePoolSize 0 0 32) ∧
    (let s := { dev conf [(Dev.fePoolCfg, 0, 2 ^ 63), (Dev.fePoolSize, 0, 2)] with pool := [0, 1] };
      Configurable s ∧ s.dfld Dev.fePoolCfg 0 63 1 = 1 ∧ s.dfld Dev.fePoolSize 0 0 32 ≤ s.pool.length) := by
  unfold Configurable
  decide +kernel

/-- Tables: stage 1 and stage 2 of virtual device 1 map the first 512 MiB onto themselves; import entry 0 names 64 KiB of its memory at 0x40000;
connection 0 speaks Bamug with chip 9, and connection 1, of QP 5 here and QP 6 there, RoCE v2. -/
def tables : Memory :=
  [(0x10000, 1), (0x10002, 2), (0x20000, 0x8E), (0x30000, 0x0F), (0x30001, 1), (0x30002, 0xFF), (0x30003, 0xFF), (0x3000A, 4), (0x30012, 1),
   (0x50000, 1), (0x50001, 2), (0x50002, 9), (0x50040, 3), (0x50041, 2), (0x50042, 9), (0x50044, 5), (0x50048, 6), (0x50066, 1), (0x5006A, 8),
   (0x50070, 4), (0x60000, 1), (0x60002, 7), (0x70000, 0x0E)]

/-- The machine in service with these tables. -/
def wired : State :=
  { dev confOn [(Dev.mmVdcfg, 1, 2 ^ 63 + 0x10000), (Dev.mmVds1, 1, 0x60000), (Dev.fxImp, 0, 2 ^ 63 + 0x30000), (Dev.fxConn, 0, 2 ^ 63 + 0x50001)] with
    mem := tables }

/-- The entries of its connections. -/
def entry0 : List Byte := [1, 2, 9] ++ zeros 61
def entry1 : List Byte := [3, 2, 9, 0, 5, 0, 0, 0, 6] ++ zeros 29 ++ [1, 0, 0, 0, 8, 0, 0, 0, 0, 0, 4] ++ zeros 15

theorem witness_connections : wired.connEntry 0 = some entry0 ∧ wired.connEntry 1 = some entry1 ∧ connRoce entry0 = false ∧ connRoce entry1 = true ∧
    wired.qpConn 5 = some (1, entry1) ∧ natAt entry1 8 3 = 6 ∧ natAt entry1 0x26 1 = 1 ∧ natAt entry1 0x28 8 = 0x80000 ∧ natAt entry1 0x30 1 = 4 := by
  decide +kernel

theorem witness_tables : (match wired.stage2 1 0x40008 with | .ok l => l.oa == 0 && l.size == 29 && l.dirty && l.w && !l.cnt | _ => false) = true ∧
    (match (wired.translate none 1 0x40008 true true).2 with | .ok x => x.pa == 0x40008 && x.fab.isNone | _ => false) = true ∧
    wired.importValid 0 = true := by decide +kernel

theorem witness_receive_ring : (let s := wired.dset Dev.fxRqsel 0 1;
    Configurable s ∧ s.selected .rq = 1 ∧ s.connEntry (s.selected .rq) = some entry1 ∧
    ((s.conn (connKey 1 0)).rqTail + 2 ^ 32 - 0 % 2 ^ 32) % 2 ^ 32 ≤ 2 ^ natAt entry1 0x30 1 ∧
    2 ^ natAt entry1 0x30 1 < ((s.conn (connKey 1 0)).rqTail + 2 ^ 32 - 100 % 2 ^ 32) % 2 ^ 32) := by
  unfold Configurable
  decide +kernel

theorem witness_registers : (∃ r, regSpec Dev.fxRto = some r ∧ r.rw ≠ 0) ∧ Dev.fxRto < 0x100000 ∧ conf.dfld Dev.feSema 0 0 2 ≠ 2 ∧
    Dev.fxRto ≠ Dev.feSema ∧ Dev.fxRto ≠ Dev.feQhead ∧ Dev.fxRto ≠ Dev.feQtail ∧ Dev.fxRto ≠ Dev.feCebind ∧
    (let s := dev wired [(Dev.feSema, 0, 2), (Dev.feCebind, 0, 2 ^ 32)]
     s.dfld Dev.feSema 0 0 2 = 2 ∧ s.ceb = some 1) ∧ conf.dfld Dev.feSema 0 0 2 = 1 ∧ (conf.dget Dev.secAttaddr 0).toNat + 256 ≤ hbmSize := by
  refine ⟨⟨_, rfl, by decide⟩, by decide, by decide +kernel, by decide, by decide, by decide, by decide, by decide +kernel, by decide +kernel, by decide +kernel⟩

theorem witness_semaphore : (conf.dset Dev.feSema 0 0).dfld Dev.feSema 0 0 2 = 0 ∧ conf.dfld Dev.feSema 0 0 2 = 1 ∧ (1 : Nat) % 4 = 1 ∧ 0 % 4 = 0 ∧
    (conf.dset Dev.feSema 0 3).dfld Dev.feSema 0 0 2 ≠ 0 ∧ (conf.dset Dev.feSema 0 3).dfld Dev.feSema 0 0 2 ≠ 1 ∧ conf.thermal = false := by
  decide +kernel

/-- A management request: VER, OPC, SEQ, address and value. -/
def dgram (op seq addr v : Nat) : Datagram := ⟨4, [1] ++ toLE 1 op ++ zeros 2 ++ toLE 4 seq ++ toLE 8 addr ++ toLE 8 v ++ zeros 8⟩

/-- It is well formed. -/
def dgramOk (op : Nat) (b : List Byte) : Bool :=
  b.length == 32 && natAt b 0 1 == 1 && natAt b 1 1 == op && natAt b 2 2 == 0 && natAt b 0x18 8 == 0 && natAt b 8 8 % 8 == 0

theorem witness_management : dgramOk 1 (dgram 1 7 Dev.fxRto 0).bytes = true ∧ dgramOk 2 (dgram 2 7 Dev.fxRto 3).bytes = true ∧ natAt (dgram 1 7 Dev.fxRto 0).bytes 4 4 = 7 ∧
    (∀ q r, conf.lastMgmt = some (q, r) → q ≠ 7) ∧ ({ conf with lastMgmt := some (7, []) } : State).lastMgmt = some (7, []) ∧
    (∃ r, regSpec Dev.fxRto = some r ∧ r.rc = 0 ∧ r.rw ≠ 0) ∧ natAt (dgram 1 7 Dev.fxRto 0).bytes 8 8 = Dev.fxRto ∧ Dev.fxRto < 0x100000 ∧
    conf.ready = true ∧ (conf.regEffect Dev.fxRto 3).dget Dev.feCfgdeny 0 = conf.dget Dev.feCfgdeny 0 ∧
    (dgram 3 7 0 0).bytes.length = 32 ∧ natAt (dgram 3 7 0 0).bytes 1 1 ≠ 1 ∧ natAt (dgram 3 7 0 0).bytes 1 1 ≠ 2 ∧ ([1] : List Byte).length ≠ 32 := by
  refine ⟨by decide +kernel, by decide +kernel, by decide +kernel, nofun, rfl, ⟨_, rfl, by decide, by decide⟩, by decide +kernel, by decide, by decide +kernel,
    by decide +kernel, by decide +kernel, by decide +kernel, by decide +kernel, by decide⟩

theorem witness_connection_loss : conf.dfld Dev.feSema 0 0 2 = 1 ∧ (conf.dset Dev.feSema 0 3).dfld Dev.feSema 0 0 2 ≠ 1 ∧
    (conf.dset Dev.feSema 0 3).dfld Dev.feSema 0 0 2 ≠ 2 := by decide +kernel

/-! ### The fabric -/

/-- A packet of chip 9 on connection 0, virtual channel 0. -/
def pkt (opc flags : Nat) (addr : Option (Nat × Nat × Nat)) (payload : List Byte) : List Byte :=
  Pkt.bytes { opc := opc, flags := flags, vc := 0, src := 9, dst := 0, conn := 0, psn := 0, addr := addr, payload := payload }

theorem witness_requests_accepted : Acceptable wired (pkt 1 1 (some (0, 0, 8)) [1, 2, 3, 4]) entry0 1 ∧
    Acceptable wired (pkt 8 1 (some (0, 0, 8)) (toLE 8 3)) entry0 8 ∧ Acceptable wired (pkt 2 1 (some (0, 0, 8)) (toLE 4 4096)) entry0 2 ∧
    Acceptable wired (pkt 4 1 (some (0, 0, 8)) (zeros 24)) entry0 4 ∧ Acceptable wired (pkt 9 1 (some (0, 0, 0)) (zeros 16)) entry0 9 ∧
    Acceptable wired (pkt 11 3 none (zeros 8)) entry0 11 ∧ InOrder wired (pkt 12 1 none []) entry0 ∧
    11 < natAt (pkt 12 1 none []) 1 1 ∧ InOrder (wired.dset Dev.feFeatEn0 0 0x40) (pkt 1 1 (some (0, 0, 8)) [1, 2, 3, 4]) entry0 ∧
    (wired.dset Dev.feFeatEn0 0 0x40).dfld Dev.feFeatEn0 0 5 1 = 0 ∧ malformed (rxOf (pkt 1 1 (some (0, 0, 8)) [1, 2, 3, 4])) = false := by
  unfold Acceptable InOrder Receives
  refine ⟨?_, ?_, ?_, ?_, ?_, ?_, ?_, ?_, ?_, ?_, ?_⟩ <;> decide +kernel

theorem witness_imports : ∀ n al right, (n, al, right) = (4, 1, 2) ∨ (n, al, right) = (8, 8, 2) ∨ (n, al, right) = (4096, 1, 1) ∨ (n, al, right) = (4, 4, 3) →
    Imports wired 9 0 8 n al right 1 0x40008 := by
  unfold Imports
  rintro n al right (h | h | h | h) <;> simp only [Prod.mk.injEq] at h <;> obtain ⟨rfl, rfl, rfl⟩ := h <;> decide +kernel

theorem witness_imports_names : Imports wired 9 0 0 0 1 1 1 0x40000 := by
  unfold Imports
  decide +kernel

theorem witness_imported_page : ∀ n, n = 4 ∨ n = 8 ∨ n = 4096 → ∀ w, ImportedPage wired 1 0x40008 n w 0x40008 := by
  rintro n (rfl | rfl | rfl) w <;> cases w <;>
    exact ⟨⟨0, 29, true, true, 0, true, false, false, 0x20000⟩, ⟨0x40008, .rc, none, 0x40000, false⟩, by rfl, rfl, rfl, rfl, by decide, by decide, by decide⟩

theorem witness_atomic_cache : SMap.wf Conn.init wired.conns = true := by decide

/-- A request of this chip on connection 0, for a load's only piece, for an engine command, for a posted write. -/
def freq0 (user : FabUser) (read : Bool) : FabReq := ⟨3, user, 0, 0, read, none, 0⟩

/-- A load in flight whose only piece waits for that request. -/
def peerLoad : Flight :=
  { flight0 .tagged with
    load := some { pieces := [{ Piece.init 0x40000 4 0 with freq := some 3 }], dst := .scalar 1, acq := none, rel := none, amo := none, gather := false
                   offsets := 0, vd := 1 } }

def asking (user : FabUser) (read : Bool) : State :=
  { wired.modCtx 0 (fun x => { x with st := .running, group := some 1, flights := [peerLoad] }) with
    fabReqs := [freq0 user read], cmds := [cmd0 15 1], posted := [{ posted0 .write .none with freq := some 3 }]
    conns := [(0, { Conn.init with unacked := [⟨0, [1], 1⟩], sendPsn := 1 })] }

theorem witness_answers : Acceptable (asking (.load 0 0 0) true) (pkt 3 6 none (zeros 4)) entry0 3 ∧ Acceptable (asking (.cmd 7 0) true) (pkt 5 6 none (zeros 8)) entry0 5 ∧
    (rxOf (pkt 3 6 none (zeros 4))).flags.testBit 1 = true ∧ (rxOf (pkt 3 6 none (zeros 4))).flags.testBit 2 = true ∧
    (rxOf (pkt 3 6 none (zeros 4))).apsn = 0 ∧ ((asking (.load 0 0 0) true).conn 0).msg = [] ∧
    ((asking (.load 0 0 0) true).ctx 0).flights.find? (·.id == 0) = some peerLoad ∧ ((asking (.load 0 0 0) true).ctx 0).st ≠ .dead ∧
    (∃ m, m ∈ (asking (.cmd 7 0) true).cmds ∧ m.id = 7) := by
  refine ⟨?_, ?_, by decide +kernel, by decide +kernel, by decide +kernel, by decide +kernel, by decide +kernel, by decide +kernel,
    ⟨cmd0 15 1, by decide +kernel, rfl⟩⟩ <;> unfold Acceptable InOrder Receives <;> decide +kernel

theorem witness_name_answer : Acceptable (asking (.cmd 7 0) true) (pkt 10 6 none (zeros 160)) entry0 10 := by
  unfold Acceptable InOrder Receives
  decide +kernel

/-- An acknowledgement, and a negative acknowledgement. -/
def ackPkt (opc nak : Nat) : List Byte :=
  Pkt.bytes { opc := opc, flags := 4, vc := 0, src := 9, dst := 0, conn := 0, psn := 0, apsn := if opc = 7 then 0xFFFFFF else 0, nak := nak }

theorem witness_acknowledgements : (∀ opc nak, (opc, nak) = (6, 0) ∨ (opc, nak) = (7, 1) ∨ (opc, nak) = (7, 2) ∨ (opc, nak) = (7, 3) ∨
      (opc, nak) = (7, 4) ∨ (opc, nak) = (7, 5) → ∀ user, user = .posted 3 ∨ user = .cmd 7 0 →
      Receives (asking user false) (ackPkt opc nak) entry0 ∧ natAt (ackPkt opc nak) 0 1 = 1 ∧ malformed (rxOf (ackPkt opc nak)) = false ∧
      natAt (ackPkt opc nak) 1 1 = opc ∧ (asking user false).dfld Dev.feFeatEn0 0 5 1 = 1 ∧ (rxOf (ackPkt opc nak)).nak = nak ∧ (rxOf (ackPkt opc nak)).flags.testBit 2 = true) ∧
    (asking (.posted 3) false).posted.find? (·.id == 3) = some { posted0 .write .none with freq := some 3 } ∧
    psnAhead (rxOf (ackPkt 6 0)).apsn 0 < 2 ^ 23 ∧ ¬psnAhead (rxOf (ackPkt 7 1)).apsn 0 < 2 ^ 23 ∧
    (∃ q, q ∈ ((asking (.posted 3) false).conn 0).unacked ∧ q.psn = 0) ∧ (rxOf (ackPkt 7 2)).psn = 0 ∧
    (1 < Nat.max 1 ((asking (.posted 3) false).dset Dev.fxRlim 0 3 |>.dfld Dev.fxRlim 0 0 8)) := by
  refine ⟨?_, by decide +kernel, by decide +kernel, by decide +kernel, ⟨⟨0, [1], 1⟩, by decide +kernel, rfl⟩, by decide +kernel, by decide +kernel⟩
  unfold Receives
  rintro opc nak (h | h | h | h | h | h) <;> simp only [Prod.mk.injEq] at h <;> obtain ⟨rfl, rfl⟩ := h <;> rintro user (rfl | rfl) <;> decide +kernel

theorem witness_retransmissions : let s := { asking (.posted 3) false with now := 10 ^ 9, fabReqs := [] }
    s.dfld Dev.feFeatEn0 0 5 1 = 1 ∧ (s.conn 0).failed = false ∧ (s.conn 0).unacked = [⟨0, [1], 1⟩] ∧ s.connEntry (0 / 4) = some entry0 ∧ connRoce entry0 = false ∧
    (s.conn 0).progressAt + Nat.max 1 (s.dfld Dev.fxRto 0 0 32) * cyclesPerUs ≤ s.now ∧ s.fabReqs = [] ∧
    (1 < Nat.max 1 (s.dfld Dev.fxRlim 0 0 8) ∨ Nat.max 1 (s.dfld Dev.fxRlim 0 0 8) ≤ 1) := by decide +kernel

/-! ### RoCE v2 -/

/-- A message of one packet for QP 5. -/
def msg0 : RoceMsg := ⟨2, 5, 0, true, true, true, none, 0x40008, 0, 8, 1, 0, 0, [1, 2, 3, 4], false⟩

/-- The tables of before, with a notification ring for virtual device 1. -/
def wiredNq : State := dev wired [(Dev.feNq, 1, 2 ^ 63 + 0x90006)]

theorem witness_roce_requests : QpInOrder wiredNq msg0 1 entry1 ∧ msg0.imm = none ∧ wiredNq.ringFull ringNq 1 = false ∧
    ((wiredNq.conn (connKey 1 0)).rqTail + 2 ^ 32 - (wiredNq.conn (connKey 1 0)).rqHead) % 2 ^ 32 < 2 ^ natAt entry1 0x30 1 ∧
    natAt entry1 0x28 8 + 4096 * 0 + 4 ≤ hbmSize ∧ wired.ringFull ringNq 1 = true ∧ msg0.payload.length ≤ 4096 ∧
    wiredNq.cebRange 1 0x40008 = false ∧ msg0.va % 8 = 0 ∧ msg0.len ≤ 4096 := by
  unfold QpInOrder QpReceives
  decide +kernel

theorem witness_roce_imports : ∀ n right, (n, right) = (4, 2) ∨ (n, right) = (8, 1) ∨ (n, right) = (8, 3) → QpImports wiredNq entry1 0 0x40008 n right 0x40008 := by
  rintro n right (h | h | h) <;> simp only [Prod.mk.injEq] at h <;> obtain ⟨rfl, rfl⟩ := h <;>
    refine ⟨by decide +kernel, 1, by unfold Imports; decide +kernel, ⟨0, 29, true, true, 0, true, false, false, 0x20000⟩,
      ⟨0x40008, .rc, none, 0x40000, false⟩, by rfl, rfl, rfl, rfl, by decide, by decide, by decide⟩

theorem witness_roce_unknown_qp : wired.thermal = false ∧ wired.qpConn 9 = none := by decide +kernel

theorem witness_ceb : let s := dev wired [(Dev.feSema, 0, 2), (Dev.feCebind, 0, 2 ^ 32)]
    s.ceb = some 1 ∧ s.connEntry 1 = some entry1 ∧ s.thermal = false ∧ s.qpConn (natAt entry1 4 3) = some (1, entry1) ∧
    (s.conn (connKey 1 0)).failed = false ∧ (s.conn (connKey 1 0)).held = none ∧ (apertureBase + 8) % 8 = 0 ∧ apertureBase + 8 < apertureBase + 2 ^ 32 := by
  decide +kernel

/-- A request of this chip on connection 1, with a packet that is not acknowledged. -/
def roceAsking (user : FabUser) (read : Bool) (retries rnr : Nat) (rnrTimer : Option Nat) : State :=
  { asking user read with
    fabReqs := [{ freq0 user read with conn := connKey 1 0 }], now := 10 ^ 9
    conns := [(connKey 1 0, { Conn.init with unacked := [⟨0, [1], 1⟩], sendPsn := 1, retries := retries, rnr := rnr, rnrTimer := rnrTimer })] }

theorem witness_roce_answers : QpReceives (roceAsking (.load 0 0 0) true 0 0 none) msg0 1 entry1 ∧
    QpReceives (roceAsking (.posted 3) false 0 0 none) msg0 1 entry1 ∧ (freq0 (.load 0 0 0) true).psn = msg0.psn ∧
    psnAhead msg0.psn (freq0 (.load 0 0 0) true).psn = ((roceAsking (.load 0 0 0) true 0 0 none).conn (connKey 1 0)).msg.length / 4096 ∧
    ((roceAsking (.load 0 0 0) true 0 0 none).ctx 0).flights.find? (·.id == 0) = some peerLoad ∧
    (roceAsking (.posted 3) false 0 0 none).posted.find? (·.id == 3) = some { posted0 .write .none with freq := some 3 } := by
  unfold QpReceives
  decide +kernel

theorem witness_roce_retries : (let s := { roceAsking (.load 0 0 0) true 0 0 none with fabReqs := [] };
    QpReceives s msg0 1 entry1 ∧ s.connEntry 1 = some entry1 ∧ (s.conn (connKey 1 0)).failed = false ∧ (s.conn (connKey 1 0)).unacked ≠ [] ∧
      (s.conn (connKey 1 0)).rnrTimer = none ∧ (s.conn (connKey 1 0)).progressAt + Nat.max 1 (s.dfld Dev.fxRto 0 0 32) * cyclesPerUs ≤ s.now ∧
      (s.conn (connKey 1 0)).retries < Nat.min (Nat.max 1 (s.dfld Dev.fxRlim 0 0 8)) 7) ∧
    (∀ rnr, rnr = 6 ∨ rnr = 7 → (let s := { roceAsking (.load 0 0 0) true 7 rnr (some 5) with fabReqs := [] };
      s.connEntry 1 = some entry1 ∧ (s.conn (connKey 1 0)).rnrTimer = some 5 ∧ 5 ≤ s.now ∧ (s.conn (connKey 1 0)).rnr = rnr ∧
      Nat.min (Nat.max 1 (s.dfld Dev.fxRlim 0 0 8)) 7 ≤ (s.conn (connKey 1 0)).retries ∧ s.fabReqs = [])) ∧
    nakSeq ≠ nakRnr ∧ nakAccess ≠ nakSeq ∧ nakAccess ≠ nakRnr := by
  refine ⟨by unfold QpReceives; decide +kernel, ?_, by decide⟩
  rintro rnr (rfl | rfl) <;> decide +kernel

theorem witness_roce_rate : let s : State := { wired with now := 10 ^ 9, conns := [(connKey 1 0, { Conn.init with rate := 1000 })] }
    (s.conn (connKey 1 0)).rate < 800000 ∧ (s.conn (connKey 1 0)).cnpIn + 55 * cyclesPerUs ≤ s.now ∧ 800000 ≤ (wired.conn (connKey 1 0)).rate ∧
    wired.qpConn msg0.qpn = some (1, entry1) ∧ wired.thermal = false := by decide +kernel

/-! ### Ports -/

/-- A port whose link is up, with a packet of a virtual channel and credit for it. -/
def sending (vc : Nat) (credit : Nat) (paused : List Nat) : State :=
  { State.reset with
    egress := [⟨5, 2, vc, 0, pkt 6 0 none []⟩], ports := [(2, ⟨true, paused, [(vc, credit)], 1⟩)] }

theorem witness_ports : ((sending 0 0 []).port 2).up = true ∧ 0 ∉ ((sending 0 0 []).port 2).paused ∧
    ((sending 0 0 []).egress.find? fun h => h.port == 2 && h.vc == 0) = some ⟨5, 2, 0, 0, pkt 6 0 none []⟩ ∧
    (∀ vc, vc = 1 ∨ vc = 3 → ((sending vc 5000 []).port 2).up = true ∧ ((sending vc 5000 []).egress.find? fun h => h.port == 2 && h.vc == 0) = none ∧
      ((sending vc 5000 []).port 2).turn ≤ vc ∧ vc ∉ ((sending vc 5000 []).port 2).paused ∧
      (sending vc 5000 []).frameLen ⟨5, 2, vc, 0, pkt 6 0 none []⟩ ≤ SMap.get 0 ((sending vc 5000 []).port 2).credit vc) ∧
    0 ∈ ((sending 0 0 [0]).port 2).paused ∧ (sending 0 0 []).thermal = false ∧ (2 : Nat) < 8 ∧ (3 : Nat) < 4 ∧ (-2 ^ 31 : Int) ≤ -51 ∧ (-51 : Int) < 2 ^ 31 := by
  refine ⟨by decide +kernel, by decide +kernel, by decide +kernel, ?_, by decide +kernel, by decide +kernel, by decide, by decide, by decide, by decide⟩
  rintro vc (rfl | rfl) <;> decide +kernel

/-! ### Reliability -/

/-- A machine without a retirement limit and without patrol scrub, some of its lines pinned, one line cached and one result in flight. -/
def failing (dirty : SMap Nat) : State :=
  { (local0.dset Dev.reCtl 0 0).modCtx 0 fun x => { x with flights := [flight0 .fixed] } with cache := [⟨0, 32, 5, dirty, none⟩] }

theorem witness_errors : (∀ dirty, dirty = [] ∨ dirty = [(0, 2)] → (failing dirty).dfld Dev.reCtl 0 16 16 = 0 ∧ ((failing dirty).sline 0 0).pin ≠ none ∧
      (failing dirty).cached 0 (0x1000 / 128) = some ⟨0, 32, 5, dirty, none⟩ ∧
      ((failing dirty).ctx 0).flights.find? (·.id == 0) = some (flight0 .fixed) ∧ (failing dirty).dfld Dev.reCtl 0 32 32 = 0) ∧
    (0x1000 : Nat) < hbmSize ∧ State.reset.dfld Dev.reCtl 0 32 32 ≠ 0 ∧
    (∀ limit, limit = 1 ∨ limit = 2 → (State.reset.dset Dev.reCtl 0 (BitVec.ofNat 64 (limit * 2 ^ 16))).dfld Dev.reCtl 0 16 16 = limit) ∧
    SMap.get 0 State.reset.health.lane 0 = 0 ∧ State.reset.health.retired = [] ∧ State.reset.moves = [] := by
  refine ⟨?_, by decide, by decide +kernel, ?_, by decide +kernel, by decide +kernel, by decide +kernel⟩
  rotate_left
  · rintro limit (rfl | rfl) <;> decide +kernel
  rintro dirty (rfl | rfl) <;> decide +kernel

/-- The noise source of tile 0 with failures behind it. -/
def noisy (failed : Bool) (failures : List Nat) : State := { State.reset with noise := [(0, ⟨failed, failures⟩)], now := 10 ^ 9 }

theorem witness_noise : (SMap.get Noise.good (noisy false [5]).noise 0).failures.length < 2 ∧
    (SMap.get Noise.good (noisy false [10 ^ 9 - 5, 10 ^ 9 - 9]).noise 0).failures = [10 ^ 9 - 5, 10 ^ 9 - 9] ∧
    (noisy false [10 ^ 9 - 5, 10 ^ 9 - 9]).now < 10 ^ 9 - 5 + 10 ^ 6 * cyclesPerUs ∧ 0 ∉ (noisy false []).health.retired ∧
    (∀ m, m ∈ (noisy false []).moves → m.retireTile ≠ some 0) ∧ (SMap.get Noise.good (noisy true []).noise 0).failed = true := by decide +kernel

theorem witness_health_store : let s : State := { State.reset with healthChanged := true, now := 60 * 10 ^ 6 * cyclesPerUs }
    s.healthChanged = true ∧ s.healthAt + 60 * 10 ^ 6 * cyclesPerUs ≤ s.now ∧ State.reset.healthChanged = false ∧ s.thermal = false ∧
    ({ s with thermal := true } : State).thermal = true := by decide +kernel

/-! ### The front end -/

/-- Bytes of a command: opcode, entries, signal address, special field, and what follows. -/
def commandBytes (op n word sig special : Nat) (rest : List Byte) : List Byte :=
  toLE 1 op ++ toLE 1 n ++ zeros 2 ++ toLE 4 word ++ toLE 8 sig ++ zeros 40 ++ toLE 8 special ++ rest

/-- Queue 4 in service for virtual device 1, with 16 entries at 0x40000, and one entry notified, which holds a NOP command. -/
def queued (head tail : W64) : State :=
  { dev wired [(Dev.feQcfg, 4, 2 ^ 63 + 2 ^ 56 + 2 ^ 50), (Dev.feQbase, 4, 0x40000), (Dev.feQhead, 4, head), (Dev.feQtail, 4, tail)] with
    pending := [4], mem := memWrite tables 0x40000 (commandBytes 0 1 0 0 0 []), gated := false }

theorem witness_notify : (queued 0 1).ready = true ∧ (queued 0 1).thermal = false ∧ (queued 0 1).dfld Dev.feQcfg 4 63 1 = 1 ∧
    (queued 0 1).dfld Dev.feQcfg 4 62 1 = 0 ∧ (16 % 2 ^ 32 + 2 ^ 32 - (queued 0 1).dfld Dev.feQhead 4 0 32) % 2 ^ 32 ≤ 2 ^ (queued 0 1).dfld Dev.feQcfg 4 48 5 ∧
    2 ^ (queued 0 1).dfld Dev.feQcfg 4 48 5 < (17 % 2 ^ 32 + 2 ^ 32 - (queued 0 1).dfld Dev.feQhead 4 0 32) % 2 ^ 32 ∧ wired.dfld Dev.feQcfg 4 63 1 ≠ 1 := by
  decide +kernel

theorem witness_scanner : (queued 0 1).gated = false ∧ 4 ∈ (queued 0 1).pending ∧
    (∀ p, p ∈ (queued 0 1).pending → p ≠ 4 → (4 + 4096 - (queued 0 1).scanPos - 1) % 4096 < (p + 4096 - (queued 0 1).scanPos - 1) % 4096) ∧
    (queued 0 1).queueRuns 4 = true ∧ ((queued 0 1).dfld Dev.feQtail 4 0 32 + 2 ^ 32 - (queued 0 1).dfld Dev.feQhead 4 0 32) % 2 ^ 32 = 1 ∧
    ((queued 0 1).fc 0).backlog < 64 ∧
    (match ({ queued 0 1 with pending := [], scanPos := 4 } : State).queueEntries 4 0 1 with
      | (v, .bytes e) => decide (Nat.max 1 (natAt e 1 1) = 1) && (match v.queueEntries 4 0 1 with
        | (w, .bytes _) => decide (w.fc 0 = (queued 0 1).fc 0) && decide (w.pending = []) | _ => false)
      | _ => false) = true ∧
    ((queued 1 1).dfld Dev.feQtail 4 0 32 + 2 ^ 32 - (queued 1 1).dfld Dev.feQhead 4 0 32) % 2 ^ 32 = 0 := by decide +kernel

theorem witness_scanner_full_and_waiting : (let s := (queued 0 1).setFc 0 { Controller.init with filled := 64 };
      64 ≤ (s.fc 0).backlog ∧ s.queueRuns 4 = true) ∧
    (match ({ (queued 0 1).dset Dev.mmVds1 1 0x100000 with pending := [], scanPos := 4 } : State).queueEntries 4 0 1 with | (_, .waits) => true | _ => false) = true := by
  decide +kernel

/-- The fetch of its entry fails where its address has no translation, and finds poison. -/
theorem witness_scanner_stops : (let s := ({ (queued 0 1).dset Dev.feQbase 4 (2 ^ 32) with pending := [], scanPos := 4 } : State)
     match s.queueEntries 4 0 1 with | (_, .fails) | (_, .waits) => true | _ => false) = true ∧
    (let s := ({ queued 0 1 with memPoison := [(0x40000 / 128, .outside 6)], pending := [], scanPos := 4 } : State)
     match s.queueEntries 4 0 1 with | (_, .poisoned) => true | _ => false) = true := by decide +kernel

/-- A command of queue 0 in the first mailbox slot of controller 0. -/
def mailed (bs : List Byte) : State :=
  { (wired.setFc 0 { Controller.init with mailbox := [(0, ⟨0, 1, bs, 0, none⟩)], filled := 1 }).dset Dev.feFeatEn0 0 0x61 with
    mem := memWrite tables 0x40000 (toLE 2 5) }

/-- A launch of one task. -/
def launchBytes (gridX : Nat) : List Byte :=
  commandBytes 1 4 2 0 0 (zeros 8 ++ toLE 2 1 ++ toLE 1 gridX ++ [1, 0, 0] ++ zeros 178)

theorem witness_commands : (∀ op bs, (op, bs) = (0, commandBytes 0 1 0 0 0 []) ∨ (op, bs) = (1, launchBytes 1) ∨ (op, bs) = (2, commandBytes 2 1 1 0 0x40000 []) ∨
      (op, bs) = (3, commandBytes 3 1 0 0 5 []) →
      (mailed bs).served 0 (fun k => k.opc == op && (mailed bs).commandOk k) = [(0, ⟨0, 1, bs, 0, none⟩)] ∧
      (match (mailed bs).dependences 0 0 ⟨0, 1, bs, 0, none⟩ with | (_, .met) => true | _ => false) = true) ∧
    (mailed (commandBytes 9 1 0 0 0 [])).served 0 (fun k => !(mailed (commandBytes 9 1 0 0 0 [])).commandOk k) =
      [(0, ⟨0, 1, commandBytes 9 1 0 0 0 [], 0, none⟩)] ∧
    wired.gridOk false 0 1 1 = true ∧ wired.gridOk false 0 96 96 = false ∧
    (wired.writeSignal (.fc 0) 0x0100 1 0 0 0 wired.time 0).2 = true := by
  refine ⟨?_, by decide +kernel, by decide +kernel, by decide +kernel, by decide +kernel⟩
  rintro op bs (h | h | h | h) <;> simp only [Prod.mk.injEq] at h <;> obtain ⟨rfl, rfl⟩ := h <;> decide +kernel

/-- A NOP command with a dependence on a signal at 0x40020, which is 0 there, or tells of an error. -/
def depending (thr error : Nat) (missing : Bool) : State × Command :=
  let bs := toLE 1 0 ++ [1, 0, 0] ++ zeros 12 ++ toLE 8 (if missing then 0x40000000 else 0x40020) ++ toLE 8 thr ++ zeros 32
  ({ mailed bs with mem := memWrite tables 0x40038 (toLE 4 error) }, ⟨0, 1, bs, 0, none⟩)

theorem witness_dependences : (∀ thr error missing, (thr, error, missing) = (5, 0, false) ∨ (thr, error, missing) = (5, 3, false) ∨
      (thr, error, missing) = (5, 0, true) → let (s, k) := depending thr error missing
      s.served 0 (fun k => k.opc == 0 && s.commandOk k) = [(0, k)] ∧
      (match s.dependences 0 0 k with
        | (_, d) => decide (d = if missing then .asked else if error = 0 then .open_ else .failed)) = true) ∧
    (let s : State := { mailed (launchBytes 1) with groups := [{ group0 with mail := some (0, 0) }] }
     s.served 0 (fun k => k.opc == 1 && s.commandOk k) = [(0, ⟨0, 1, launchBytes 1, 0, none⟩)] ∧ ∃ g, g ∈ s.groups ∧ g.mail = some (0, 0)) ∧
    (let bs := commandBytes 2 1 16385 0 0x40000 []
     (mailed bs).served 0 (fun k => k.opc == 2 && (mailed bs).commandOk k) = [(0, ⟨0, 1, bs, 0, none⟩)] ∧ 16384 < (mailed bs).nodes.length + 16385) ∧
    ({ wired with moves := [⟨[2], 5, none, 0, none, 0⟩] } : State).repartRuns = true := by
  refine ⟨?_, ⟨by decide +kernel, _, List.mem_singleton.mpr rfl, rfl⟩, by decide +kernel, by decide +kernel⟩
  rintro thr error missing (h | h | h) <;> simp only [Prod.mk.injEq] at h <;> obtain ⟨rfl, rfl, rfl⟩ := h <;> decide +kernel

theorem witness_graph : (match (mailed (commandBytes 2 1 1 0 0x40000 [])).devRead (.fc 0) 0x0105 1 0x40000 64 with
      | (v, .bytes bs) => (match nodesOf v.serial 1 bs 1 with | some l => v.graphOk l && decide (l.map (·.id) = [5]) | none => false)
      | _ => false) = true := by decide +kernel

theorem witness_repartition : (mailed (commandBytes 3 1 0 0 5 [])).repartRuns = false ∧
    ((wired.dfld Dev.pmMap 0 0 24).testBit 2 ≠ (5 : Nat).testBit 2) ∧ wired.retiredCl 2 = false ∧ (∀ m, m ∈ wired.moves → 2 ∉ m.clusters) ∧
    (∀ cl, cl < 24 → (wired.dfld Dev.pmMap 0 0 24).testBit cl = (0 : Nat).testBit cl) := by
  refine ⟨by decide +kernel, by decide +kernel, by decide +kernel, nofun, by decide +kernel⟩

theorem witness_signal : (0x40020 : Nat) ≠ 0 ∧ 0x40020 % 32 = 0 ∧ (match wired.devXlat (.fc 0) 0x0100 1 0x40020 true with
      | (_, .ok x) => x.fab.isNone && decide (x.pa + 32 ≤ apertureBase) | _ => false) = true := by decide +kernel

theorem witness_repartition_ends : let m : Move := ⟨[2], 5, some ⟨0, 1, commandBytes 3 1 0 0 5 [], 0, none⟩, 0, none, 0⟩
    let s : State := { wired with moves := [m] }
    s.moves.find? (fun m => m.retireTile.isNone) = some m ∧ (∀ c, c < 192 → clusterOf (tileOf c) ∈ m.clusters → (s.ctx c).st = .idle) ∧
    (s.writeSignal (.fc 0) 0x0100 1 0 0 0 m.startTs 0).2 = true := by decide +kernel

/-- Controller 0 with a firmware of one bundle of words, at bundle `pc`, in cycle `n` of its frame. -/
def firmed (ws : List W32) (pc n : Nat) : State :=
  { wired.setFc 0 { Controller.init with isram := ws.zipIdx.map fun (w, k) => (k, w), pc := pc } with now := n }

theorem witness_controllers : (firmed [0] 0 0).ready = true ∧ ((firmed [0] 0 0).fc 0).halted = false ∧ (firmed [0] 0 0).thermal = false ∧
    ((firmed [0] 0 0).fc 0).frameAt + 8 * cyclesPerUs < (firmed [0] 0 (10 * cyclesPerUs)).now ∧
    (firmed [0] 0 (5 * cyclesPerUs)).now ≤ 0 + 8 * cyclesPerUs ∧ 0 + 4 * cyclesPerUs ≤ (firmed [0] 0 (5 * cyclesPerUs)).now ∧
    (firmed [0] 0 0).now < 0 + 4 * cyclesPerUs ∧
    (∀ i, i ∈ ([.add ⟨true, 7⟩ 1 2 (.reg 3), .csrr ⟨true, 7⟩ 1 0x100, .csrr ⟨true, 7⟩ 1 0x10, .csrw ⟨true, 7⟩ 1 0x101, .br ⟨true, 7⟩ 0xFFFF 0] : List Instr) →
      ((firmed (encode i) 0 0).fc 0).bundles[0]? = some (encode i) ∧ (fcBundle (encode i)).map (·.map (·.2)) = some [i]) ∧
    ((firmed [0] 0 0).fc 0).asCtx.sget 1 = 0 ∧ ((firmed (encode (.nop ⟨true, 7⟩)) 1 0).fc 0).bundles.length = 1 ∧ ((firmed [] 0 0).fc 0).bundles = [] ∧
    (let i : Instr := .vabs ⟨true, 7⟩ 1 2 none
     ((firmed (encode i) 0 0).fc 0).bundles[0]? = some (encode i) ∧ fcBundle (encode i) = none) := by decide +kernel

/-! ### Groups and graphs -/

/-- A group of one task that waits for placement. -/
def waiting : Group := { group0 with placed := false, gridX := 1, gridY := 1, scount := 1 }

theorem witness_placement : let s : State := { wired with groups := [waiting] }
    s.group 1 = some waiting ∧ s.mayPlace waiting = true ∧ s.gridOk false 0 1 1 = true ∧ s.isNext waiting = true ∧
    s.seats waiting [(0, 0)] = some [(0, 0, 0)] ∧ (s.findPlace waiting).isSome = true ∧
    (let g : Group := { waiting with gridX := 96, gridY := 96 }
     let u : State := { wired with groups := [g] }
     u.group 1 = some g ∧ u.mayPlace g = true ∧ u.gridOk g.learner g.mode g.gridX g.gridY = false ∧ g.mail = none) := by decide +kernel

/-- One cluster is in the inference partition; a group past its quantum runs in both banks of its first tile, and one of four tasks and a higher
PRIO waits. -/
theorem witness_making_room : let g : Group := { group0 with serial := 2, placed := false, prio := 1 }
    let s := { (((wired.dset Dev.pmMap 0 0xFFFFFE).modCtx 0 fun x => { x with st := .running, group := some 1, quantumOver := true }).modCtx 1 fun x =>
      { x with st := .running, group := some 1, quantumOver := true }) with groups := [group0, g] }
    s.group 2 = some g ∧ s.mayPlace g = true ∧ s.gridOk g.learner g.mode g.gridX g.gridY = true ∧ s.findPlace g = none ∧ s.victims g = [group0] ∧
    (s.without ((s.groups.filter s.leaves).map (·.serial))).findPlace g = none ∧
    ((s.without ((s.groups.filter s.leaves).map (·.serial) ++ [1])).findPlace g).isSome = true ∧ group0.class = 0 := by decide +kernel

/-- A running task whose quantum began in cycle 0. -/
def quantumOf (now : Nat) : State :=
  { (wired.modCtx 0 fun x => { x with st := .running, group := some 1, quantumFrom := some 0 }) with groups := [{ group0 with mode := 0 }], now := now }

theorem witness_quantum : ((quantumOf 0).ctx 0).group = some 1 ∧ ((quantumOf 0).ctx 0).quantumFrom = some 0 ∧
    0 + Nat.max ((quantumOf 0).dfld Dev.scQmin 0 0 32) ((quantumOf 0).saveCost 1) * cyclesPerUs ≤ (quantumOf (10 ^ 12)).now ∧
    (quantumOf 0).now < 0 + Nat.max ((quantumOf 0).dfld Dev.scQmin 0 0 32) ((quantumOf 0).saveCost 1) * cyclesPerUs := by decide +kernel

theorem witness_slice : let s := (quantumOf (10 ^ 12)).dset Dev.scSlice 0 1
    s.group 1 = some { group0 with mode := 0 } ∧ s.dfld Dev.scSlice 0 0 32 ≠ 0 ∧ s.leaves { group0 with mode := 0 } = false ∧ s.groupCtxs 1 ≠ [] ∧
    0 + Nat.max (s.dfld Dev.scSlice 0 0 32) (s.quantum 1) * cyclesPerUs ≤ s.now ∧ s.withinQuantum 1 = true := by decide +kernel

/-- It is past its quantum, and another group of its PRIO waits. -/
theorem witness_slice_ends : let t := (quantumOf (10 ^ 12)).dset Dev.scSlice 0 1
    let s := { (t.modCtx 0 fun x => { x with quantumOver := true }) with groups := [{ group0 with mode := 0 }, { waiting with serial := 2 }] }
    s.withinQuantum 1 = false ∧ s.mayPlace { waiting with serial := 2 } = true ∧ waiting.prio = group0.prio ∧
    ({ group0 with mode := 0 } : Group).class = 0 := by decide +kernel

theorem witness_group_ends : let s : State := { wired with groups := [group0] }
    s.group 1 = some group0 ∧ group0.placed = true ∧ s.groupCtxs 1 = [] ∧ s.groupImages 1 = [] ∧ (∀ k, k ∈ s.cmds → k.group ≠ 1) ∧ group0.node = none ∧
    (s.writeSignal (.group 1) 0x0105 1 2 0 0 0 0).2 = true ∧
    (let i : Image := ⟨1, 0, 1, 0, 0, 3, 0, 0, 0, 0, 0, none, false⟩
     let u : State := { wired with groups := [{ group0 with ending := true }], images := [i] }
     u.group 1 = some { group0 with ending := true } ∧ u.groupImages 1 ≠ []) := by decide +kernel

/-- Tables of virtual device 1 whose stage 2 maps its intermediate pages 1, 2, 6 and 7 by leaves of 64 KiB, and whose stage 1 maps the first
512 MiB onto them; in page 1 stands the descriptor of a pool of one page, page 2, and its count word. -/
def paged : Memory :=
  [(0x10000, 1), (0x10002, 2), (0x20000, 1), (0x20002, 4), (0x40008, 0x8E), (0x4000A, 0x21), (0x40010, 0x8E), (0x40012, 0x22), (0x40030, 0x8E),
   (0x40032, 0x26), (0x40038, 0x8E), (0x4003A, 0x27), (0x50002, 2), (0x5000A, 0x30), (0x50010, 1), (0x210000, 0x4C), (0x210001, 0x50), (0x210002, 0x56),
   (0x210003, 0x4B), (0x210004, 1), (0x21000A, 2), (0x210011, 1), (0x210012, 1), (0x210100, 1), (0x260000, 1), (0x260002, 7), (0x270000, 0x0E)]

/-- A node of a graph, with its launch block at 0x40000. -/
def node0 (id : Nat) (preds : List Nat) : Node := ⟨id, 1, 1, preds, true, 0, 0x40000, 0, 0, 1, 0, 0, [], false, none⟩

theorem witness_node_launch : let s : State := { wired with nodes := [node0 5 []], mem := memWrite tables 0x40000 (launchBytes 1) }
    s.node 5 = some (node0 5 []) ∧ s.ready = true ∧ SMap.get 0 s.vdState 1 = 0 ∧
    (match s.devRead (.node 5) 0x0105 1 0x40000 256 with
      | (v, .bytes bs) => decide (v.nodes = s.nodes) && decide (bs = launchBytes 1) && launchOk bs &&
        (match v.depsOf (.node 5) (.dep 4 5) 0x0105 1 bs with | (w, d) => decide (d = .met) && w.gridOk false 0 1 1 && !w.gridOk false 0 96 96)
      | _ => false) = true := by
  decide +kernel

/-- The buffer of a node: it has none, its page is not in the window, and it is in the window and there is no unit, or one. -/
theorem witness_backing : let w (units : List Nat) : State :=
      { dev wired [(Dev.fePoolCfg, 0, 2 ^ 63), (Dev.feActwin, 1, 2 ^ 63), (Dev.feActlen, 1, 16)] with
        pool := units, tlb := [], mem := paged }
    let k : Node := { node0 5 [] with bufLen := 1, buf := 0x20000 }
    ((w []).backNode (node0 5 [])).2 = .done ∧ (wired.backNode k).2 = .impossible ∧ ((w []).backNode k).2 = .waits ∧ ((w [0]).backNode k).2 = .done := by
  decide +kernel

/-- A node that has ended, and its consumer, which waits. -/
def graph0 (k : Node) : State :=
  { dev wired [(Dev.fePoolCfg, 0, 2 ^ 63), (Dev.fePoolWm, 0, 4)] with nodes := [k, node0 6 [5]] }

theorem witness_discard : let k : Node := { node0 5 [] with phase := 2, backed := [(0, 1)], bufLen := 1 }
    (graph0 k).node 5 = some k ∧ (graph0 k).ready = true ∧ (graph0 k).pool.length < (graph0 k).dfld Dev.fePoolWm 0 0 32 ∧
    (graph0 k).nextDiscard = some 5 ∧ (∀ p u, (p, u) ∈ k.backed → (graph0 k).pageBusy ((graph0 k).unitAt u) = false) := by
  refine ⟨by decide +kernel, by decide +kernel, by decide +kernel, by decide +kernel, ?_⟩
  intro p u h
  simp only [List.mem_singleton, Prod.mk.injEq] at h
  obtain ⟨rfl, rfl⟩ := h
  decide +kernel

theorem witness_replay : let k : Node := { node0 5 [] with phase := 2, discarded := true, rstart := 5 }
    (graph0 k).node 5 = some k ∧ k.discarded = true ∧ k.error ≠ 7 ∧ (graph0 k).nodeTurn (node0 6 [5]) = true ∧ (node0 6 [5]).replayFor ≠ some 5 ∧
    (∀ o, o ∈ (graph0 k).nodes → o.replayFor ≠ some 5) ∧
    (∀ o, o ∈ (graph0 k).nodes → (decide (k.rstart ≤ o.id ∧ o.id < k.rstart + k.rcount) && o.graph == k.graph) = true → o.phase = 2 ∧ o.replayFor = none) ∧
    (match (graph0 k).backNode k with | (_, .done) => true | _ => false) = true ∧ node0 6 [5] ∈ (graph0 k).nodes ∧ 5 ∈ (node0 6 [5]).preds := by
  decide +kernel

/-! ### Virtual devices -/

/-- Virtual device 1 with a save region of two slots; one checkpointable task of it runs. -/
def saving (vdState : Nat) : State :=
  { (dev wired [(Dev.scVdsave, 1, 2 ^ 63 + 2 ^ 24 + 2)]).modCtx 0 fun x => { x with st := .running, group := some 1 } with
    groups := [{ group0 with mode := 16 }], vdState := if vdState = 0 then [] else [(1, vdState)] }

theorem witness_stop : Configurable (saving 0) ∧ SMap.get 0 (saving 0).vdState 1 = 0 ∧ (saving 0).ctxs = [(0, (saving 0).ctx 0)] ∧
    (saving 0).groupOf 0 = some { group0 with mode := 16 } ∧ ((saving 0).ctx 0).stays = true ∧ ({ group0 with mode := 16 } : Group).class ≠ 0 ∧
    0 ∈ (saving 0).slots 1 ∧ (saving 0).slotHolds 1 0 = false ∧ SMap.get 0 (saving 1).vdState 1 ≠ 0 := by
  unfold Configurable
  decide +kernel

/-- Its first slot holds an image that another chip left there. -/
def moved : State := { saving 2 with mem := memWrite tables (2 ^ 24) (toLE 4 0x4153435A) }

/-- No context is bound; the device is stopping. -/
def emptied : State := { saving 1 with ctxs := [] }

theorem witness_stopped_and_resumed : Configurable emptied ∧ SMap.get 0 emptied.vdState 1 = 1 ∧ emptied.ctxs = [] ∧ Configurable (saving 2) ∧
    SMap.get 0 (saving 2).vdState 1 = 2 ∧ (∀ n, n ∈ (saving 2).slots 1 → (saving 2).slotHolds 1 n = true → False) ∧ Configurable moved ∧
    SMap.get 0 moved.vdState 1 = 2 ∧ (moved.slots 1).filter (moved.slotHolds 1) = [0] ∧ moved.images = [] := by
  unfold Configurable
  decide +kernel

/-! ### Translation -/

theorem witness_invalidations : Configurable wired ∧ wired.dfld Dev.mmInval 0 63 1 ≠ 1 ∧
    (∀ kind, kind = 0 ∨ kind = 1 ∨ kind = 2 → (2 ^ 63 + kind * 2 ^ 60 + 2 ^ 52).testBit 63 = true ∧ (2 ^ 63 + kind * 2 ^ 60 + 2 ^ 52) / 2 ^ 60 % 4 = kind ∧
      (2 ^ 63 + kind * 2 ^ 60 + 2 ^ 52).testBit 62 = false) ∧ (2 ^ 63 + 2 ^ 62 + 2 ^ 52).testBit 62 = true ∧
    wired.dfld Dev.mmInvalx 0 0 3 * 2 ^ 36 + (2 ^ 63 + 2 ^ 60 + 2 ^ 52) / 2 ^ 16 % 2 ^ 36 + ((2 ^ 63 + 2 ^ 60 + 2 ^ 52) % 2 ^ 16 + 1) ≤ 2 ^ 39 := by
  unfold Configurable
  refine ⟨by decide +kernel, by decide +kernel, ?_, by decide, by decide +kernel⟩
  rintro kind (rfl | rfl | rfl) <;> decide

theorem witness_invalidation_completes : (let s : State := { global0 with invals := [⟨1, 2⟩] };
      s.invals = [⟨1, 2⟩] ∧ s.invalOpen ⟨1, 2⟩ = false) ∧
    (let s : State := { global0 with invals := [⟨1, 9⟩], posted := [posted0 .write .none] };
      s.invals = [⟨1, 9⟩] ∧ s.invalOpen ⟨1, 9⟩ = true) := by decide +kernel

/-- A task of virtual device 0 that has faulted on the page of the open request. -/
def faulted0 : State :=
  { conf.modCtx 0 (fun x => { x with st := .sleeping, group := some 1, waits := [(req0.key, 0x10000)], faulted := true }) with
    reqs := [req0], groups := [{ group0 with vd := 0 }] }

theorem witness_page_replies : Configurable faulted0 ∧ (faulted0.openReqs (faulted0.selected .mmVd)).find? (·.id == 4 * 2 ^ 32 / 2 ^ 32 % 2 ^ 16) = some req0 ∧
    (faulted0.ctx 0).waits = [(req0.key, 0x10000)] ∧ (faulted0.ctx 0).flights = [] ∧ (faulted0.ctx 0).exec = none ∧ (faulted0.ctx 0).idle = none ∧
    (faulted0.ctx 0).faulted = true ∧ (faulted0.ctx 0).st = .sleeping ∧ (faulted0.ctx 0).sleep = none ∧ faulted0.posted = [] ∧ faulted0.ctxs.length = 1 ∧
    4 * 2 ^ 32 % 2 ^ 8 = 0 ∧ (4 * 2 ^ 32 + 1) % 2 ^ 8 = 1 ∧ 2 ≤ (4 * 2 ^ 32 + 2) % 2 ^ 8 ∧
    (let s : State := { conf with reqs := [req0] }; Configurable s ∧ s.ctxs = [] ∧ s.conns = [] ∧ (s.openReqs (s.selected .mmVd)).find? (·.id == 4) = some req0) := by
  unfold Configurable
  decide +kernel

theorem witness_held_faults : (let s : State := { conf.dset Dev.mmPrq 0 (2 ^ 63 + 6) with held := [req0] };
      s.held.find? (·.key.vd == 0) = some req0 ∧ s.freeReqId 0 = some 0 ∧ s.ringFull ringPrq 0 = false) ∧
    (let s : State := { conf with held := [req0] }; s.held.find? (·.key.vd == 0) = some req0 ∧ s.ringFull ringPrq 0 = true) := by decide +kernel

/-- Virtual device 1, whose stage 2 maps intermediate page 0 onto physical page 0x20 by a leaf of level 2, and a request to move it to page 0x30. -/
def evicting (vd : Nat) : State :=
  { dev conf [(Dev.mmVdcfg, 1, 2 ^ 63 + 0x10000), (Dev.mmEvq, 0, 2 ^ 63 + 0x50006), (Dev.mmEvqtail, 0, 1)] with
    mem := [(0x10000, 1), (0x10002, 2), (0x20000, 1), (0x20002, 4), (0x40000, 0x8E), (0x40002, 0x20), (0x5000A, 0x30), (0x50010, BitVec.ofNat 8 vd)].filter
      fun p => p.2 != 0 }

/-- A request to move page 2, which is the page of a pool, with one reference and so many pins. -/
def pooled (pin : Nat) : State :=
  { dev (evicting 1) [(Dev.mmVds1, 1, 0x60000), (Dev.gvPdesc, 8, 2 ^ 63 + 0x10000)] with mem := memWrite paged 0x210104 (toLE 4 pin) }

theorem witness_pool_evictions : ∀ pin, pin = 0 ∨ pin = 1 → (pooled pin).migr = none ∧
    (match (pooled pin).stage2 1 0x20000, (pooled pin).poolPage 1 0x20000 with
      | .ok l, some (p, i) => decide (l.size = 16) && !l.fab && decide (l.oa = 0x220000) && decide (p.cbase + 16 * i = 0x10100) &&
        (match (pooled pin).peek 1 2 0x10100 16 with | some bs => decide ((Count.ofBytes bs).pin = pin) | none => false)
      | _, _ => false) = true ∧ (pooled pin).physNat 0x50000 8 = 0x20000 ∧ (pooled pin).physNat 0x50008 8 = 0x300000 := by
  rintro pin (rfl | rfl) <;> decide +kernel

/-- A migration that has begun, which an access holds up or does not. -/
theorem witness_migrations : let m : Migration := ⟨1, 0, 0x10000, 0x300000, 0x40000, 0x50000, none⟩
    ({ evicting 1 with migr := some m } : State).pageBusy m.old = false ∧
    ({ evicting 1 with migr := some m, posted := [posted0 .write .none] } : State).pageBusy m.old = true ∧ m.old % 2 ^ 16 = 0 ∧ m.new % 2 ^ 16 = 0 := by
  decide +kernel

theorem witness_evictions : (evicting 1).migr = none ∧ (∀ vd, vd = 0 ∨ vd = 1 → (evicting vd).dfld Dev.mmEvq 0 63 1 = 1 ∧
      (evicting vd).dfld Dev.mmEvqhead 0 0 32 ≠ (evicting vd).dfld Dev.mmEvqtail 0 0 32 ∧ (0x50000 : Nat) + 32 ≤ hbmSize) ∧
    conf.dfld Dev.mmEvq 0 63 1 = 0 ∧ (match (evicting 0).stage2 0 0 with | .error _ => true | _ => false) = true ∧
    (match (evicting 1).stage2 1 0 with
      | .ok l => decide (l.size = 16) && !l.fab && decide (l.oa = 0x200000) && !(evicting 1).inHeartwood l.oa && !(evicting 1).pageBusy l.oa
      | _ => false) = true ∧ (evicting 1).physNat 0x50008 8 = 0x300000 ∧ (evicting 1).inHeartwood 0x300000 = false ∧ (0x300000 : Nat) % 2 ^ 16 = 0 ∧
    (match (evicting 1).poolPage 1 0 with | none => true | _ => false) = true ∧ Memory.wf (evicting 1).mem = true ∧ (evicting 1).ringFull ringNq 1 = true := by
  refine ⟨by decide +kernel, ?_, by decide +kernel, by decide +kernel, by decide +kernel, by decide +kernel, by decide +kernel, by decide, by decide +kernel, by decide +kernel,
    by decide +kernel⟩
  rintro vd (rfl | rfl) <;> decide +kernel

/-! ### Drains -/

/-- A draining task. -/
def draining (dt : DrainTo) (r : Option Rerun) : State :=
  { bank fun x => { x with st := .draining, group := some 1, drainTo := dt, rerun := r } with groups := [group0] }

/-- A task that holds part of a ring whose page is missing. -/
theorem witness_holds_that_wait : ∀ void,
    let s := dev (draining .exit none) [(Dev.mmVdcfg, 1, 2 ^ 63 + 0x10000), (Dev.mmPrq, 1, 2 ^ 63 + 6)]
    (({ s with ringHolds := [⟨1, 0x10000, some (taskKey 1 0 0), 0, 1, false, 4⟩] } : State).endHolds (taskKey 1 0 0) void).2 = false := by
  intro void; cases void <;> decide +kernel

/-- The outcome of a rerun, and a rollback at the end of its `n`th rerun. -/
def outcome0 (count : Nat) : Outcome := ⟨count, 0, none, false, 7, false⟩
def rerun0 (n : Nat) (refill : Bool) : Rerun := ⟨n, refill, 1, 0, 0, 0, some (outcome0 3), [], 0, some (outcome0 3), none⟩

theorem witness_drains : (∀ dt, dt = .sleep ∨ dt = .exit ∨ dt = .stop ∨ dt = .kill → ((draining dt none).ctx 0).st = .draining ∧
      ((draining dt none).ctx 0).drainTo = dt ∧ (draining dt none).stuck 0 = true ∧ (draining dt none).landed 0 = true ∧
      ((draining dt none).ctx 0).streaming = false ∧ (draining dt none).writtenOut 0 = true ∧ (draining dt none).posted = [] ∧
      (draining dt none).cmdsOf 0 = [] ∧ ((draining dt none).ctx 0).group = some 1 ∧ ((draining dt none).endHolds (taskKey 1 0 0) true).2 = true ∧
      ((draining dt none).endHolds (taskKey 1 0 0) false).2 = true) ∧
    (let s := (draining .exit none).modCtx 0 fun x => x.qset 3 { Stream.unbound with bound := true }; (s.ctx 0).streaming = true ∧ s.landed 0 = true) ∧
    (let s := { draining .exit none with cache := [⟨0, 32, 5, [(0, 2)], none⟩] }; (s.ctx 0).streaming = false ∧ s.writtenOut 0 = false) := by
  refine ⟨?_, by decide +kernel, by decide +kernel⟩
  rintro dt (rfl | rfl | rfl | rfl) <;> decide +kernel

theorem witness_rollbacks : ∀ n refill, (n, refill) = (1, false) ∨ (n, refill) = (2, false) ∨ (n, refill) = (1, true) →
    let s := draining .rollback (some (rerun0 n refill))
    (s.ctx 0).drainTo = .rollback ∧ (s.ctx 0).rerun = some (rerun0 n refill) ∧ s.landed 0 = true ∧ (s.ctx 0).exitPass = none ∧
    (rerun0 n refill).ended = some (outcome0 3) ∧ (outcome0 3).agrees (outcome0 3) = true ∧ (outcome0 4).agrees (outcome0 3) = false ∧
    tileOf 0 ∉ s.health.retired ∧ s.moves = [] ∧ (rerun0 n refill).cmds = [] ∧ (outcome0 3).trap = none ∧ (rerun0 n refill).resume = none := by
  rintro n refill (h | h | h) <;> simp only [Prod.mk.injEq] at h <;> obtain ⟨rfl, rfl⟩ := h <;> decide +kernel

/-- A task that drains to be saved in slot 0 of virtual device 1. -/
theorem witness_save : let s := draining (.save 3 0) none
    (s.ctx 0).drainTo = .save 3 0 ∧ s.readyToSave 0 = true ∧ s.writtenOut 0 = true ∧ s.posted = [] ∧ (s.ctx 0).group = some 1 ∧
    s.group 1 = some group0 := by decide +kernel

/-- R367: the bytes that are not zero of the header of an image of virtual device 1, without its checksum: the magic, the format version, VD, LEN, and
offset and length of each section; its registers are all zero, and it holds no scratchpad line. -/
def imageHeader : Memory :=
  [(0x0, 0x5A), (0x1, 0x43), (0x2, 0x53), (0x3, 0x41), (0x4, 0x1), (0x10, 0x1), (0x68, 0xC0), (0x69, 0x38), (0x6A, 0x7), (0x81, 0x1), (0x85,
   0x2), (0x89, 0x3), (0x8D, 0x1), (0x91, 0x4), (0x95, 0x2), (0x99, 0x6), (0x9D, 0x2), (0xA1, 0x8), (0xA5, 0x6), (0xA9, 0xE), (0xAC, 0x80),
   (0xAD, 0x1), (0xB0, 0x80), (0xB1, 0xF), (0xB5, 0x2), (0xB8, 0x80), (0xB9, 0x11), (0xBD, 0x8), (0xC0, 0x80), (0xC1, 0x19), (0xC4, 0xC0),
   (0xC5, 0x3D), (0xC8, 0x40), (0xC9, 0x57), (0xCC, 0x80), (0xCD, 0xC1), (0xCE, 0x6), (0xD0, 0xC0), (0xD1, 0x18), (0xD2, 0x7), (0xD5, 0x20)]

/-- The image in memory without its checksum, and with it; its bytes. -/
def unsummed : Memory := tables ++ imageHeader.map fun (o, b) => (2 ^ 24 + o, b)
@[irreducible] def summed (c : W32) : Memory := memWrite unsummed (2 ^ 24 + 0x70) (toLE 4 c.toNat)
def imageOf (c : W32) : List Byte := memRead (summed c) (2 ^ 24) 0x738C0

/-- A task of virtual device 1 is off its bank, with its image in slot 0. -/
def alone : Group := { group0 with gridX := 1, gridY := 1 }
def imageAway : Image := ⟨1, 0, 1, 0, 0, 2, 0, 0, 0, 0, 0, none, false⟩
def unplaced : State := { dev wired [(Dev.scVdsave, 1, 2 ^ 63 + 2 ^ 24 + 2)] with groups := [alone], images := [imageAway] }
def away (c : W32) : State := { unplaced with mem := summed c }

theorem away_dfld (c : W32) (o i l n : Nat) : (away c).dfld o i l n = unplaced.dfld o i l n := by rw [State.dfld, State.dfld, State.dget, State.dget]; rfl

theorem away_base (c : W32) : (away c).slotBase 1 0 = 2 ^ 24 := by rw [State.slotBase, away_dfld]; decide +kernel

theorem summed_read (c : W32) {a n : Nat} (h : a + n ≤ 2 ^ 24 + 0x70 ∨ 2 ^ 24 + 0x74 ≤ a) : memRead (summed c) a n = memRead unsummed a n :=
  memRead_congr a n fun i _ _ => by rw [summed, memByte_memWrite_other _ _ _ (by simp [toLE]; omega)]

theorem unsummed_zero {a : Nat} (h : 2 ^ 24 + 0x100 ≤ a) : memByte unsummed a = 0 := memByte_above (n := 2 ^ 24 + 0x100) (by decide +kernel) h

theorem unsummed_zeros {a n : Nat} (h : 2 ^ 24 + 0x100 ≤ a) : memRead unsummed a n = zeros n := by
  induction n generalizing a with
  | zero => rfl
  | succ n ih => rw [memRead, unsummed_zero h, ih (by omega)]; rfl

theorem leNat_zeros (n : Nat) : leNat (zeros n) = 0 := by
  induction n with
  | zero => rfl
  | succ n ih => rw [zeros, List.replicate_succ, leNat, ← zeros, ih]; rfl

theorem image_slice (c : W32) {o n : Nat} (h : o + n ≤ 0x70 ∨ (0x74 ≤ o ∧ o + n ≤ 0x738C0)) : slice (imageOf c) o n = memRead unsummed (2 ^ 24 + o) n := by
  rw [imageOf, slice_memRead _ _ _ (by omega), summed_read c (by omega)]

theorem image_field (c : W32) {o n : Nat} (h : o + n ≤ 0x70 ∨ (0x74 ≤ o ∧ o + n ≤ 0x738C0)) :
    natAt (imageOf c) o n = leNat (memRead unsummed (2 ^ 24 + o) n) := by
  rw [natAt, image_slice c h]

theorem image_zero (c : W32) {o n : Nat} (h : 0x100 ≤ o) (hn : o + n ≤ 0x738C0) : natAt (imageOf c) o n = 0 := by
  rw [image_field c (.inr (by omega)), unsummed_zeros (by omega), leNat_zeros]

theorem image_section (c : W32) : ∀ n, n < 11 → sectionOf (imageOf c) n = ([(0x100, 512), (0x300, 256), (0x400, 512), (0x600, 512), (0x800, 1536), (0xE00, 384),
    (0xF80, 512), (0x1180, 2048), (0x1980, 15808), (0x5740, 442752), (0x718C0, 8192)] : List (Nat × Nat)).getD n (0, 0) := by
  have h : ∀ n, n < 11 → sectionOf (imageOf c) n = (leNat (memRead unsummed (2 ^ 24 + (0x80 + 8 * n)) 4), leNat (memRead unsummed (2 ^ 24 + (0x84 + 8 * n)) 4)) :=
    fun n hn => by rw [sectionOf, image_field c (.inr (by omega)), image_field c (.inr (by omega))]
  intro n hn
  rw [h n hn]
  revert n
  decide +kernel

theorem image_whole (c : W32) : overlay (imageOf c) 0x70 (zeros 4) = memRead unsummed (2 ^ 24) 0x738C0 := by
  have h : imageOf c = memRead unsummed (2 ^ 24) 0x70 ++ (memRead (summed c) (2 ^ 24 + 0x70) 4 ++ memRead unsummed (2 ^ 24 + 0x74) 0x7384C) := by
    rw [imageOf, show 0x738C0 = 0x70 + (4 + 0x7384C) from rfl, memRead_append, memRead_append, summed_read c (a := 2 ^ 24) (.inl (by omega)),
      summed_read c (a := 2 ^ 24 + 0x70 + 4) (.inr (by omega))]
  have hd : (imageOf c).drop 0x74 = memRead unsummed (2 ^ 24 + 0x74) 0x7384C := by
    rw [h, ← List.append_assoc, List.drop_append, List.drop_eq_nil_of_le (by simp)]
    simp
  have hs : slice (imageOf c) 0 0x70 = memRead unsummed (2 ^ 24) 0x70 := image_slice c (.inl (by omega))
  have hz : memRead unsummed (2 ^ 24 + 0x70) 4 = zeros 4 := by decide +kernel
  rw [overlay, hs, show 0x70 + (zeros 4).length = 0x74 from rfl, hd, show 0x738C0 = 0x70 + (4 + 0x7384C) from rfl, memRead_append, memRead_append, hz,
    List.append_assoc]

theorem image_sum (c : W32) : natAt (imageOf c) 0x70 4 = c.toNat := by
  have hr : memRead (memWrite unsummed (2 ^ 24 + 0x70) (toLE 4 c.toNat)) (2 ^ 24 + 0x70) 4 = toLE 4 c.toNat := memRead_memWrite _ _ (toLE 4 c.toNat)
  have := c.isLt
  rw [natAt, imageOf, slice_memRead _ _ _ (by omega), summed, hr]
  simp only [toLE, leNat, BitVec.toNat_ofNat]
  omega

theorem image_pins (c : W32) : slice (imageOf c) 0x718C0 4096 = zeros 4096 := by
  rw [image_slice c (.inr (by omega)), unsummed_zeros (by omega)]

theorem no_lines (n : Nat) : bitmapLines (zeros n) = [] ∧ popBytes (zeros n) = 0 := by
  constructor
  · simp only [bitmapLines, List.flatMap_eq_nil_iff, zeros]
    intro p hp
    obtain ⟨i, hi, rfl⟩ := List.mem_mapIdx.mp hp
    simp
  · rw [popBytes, zeros, List.map_replicate]
    rw [show ((List.range 8).filter (0 : Byte).getLsbD).length = 0 from rfl]
    induction n with
    | zero => rfl
    | succ n ih => rw [List.replicate_succ, List.foldl_cons]; exact ih

theorem image_reserved (c : W32) : reservedOk (imageOf c) = true := by
  have hz : ∀ l : List (Nat × Nat), (l.all fun p => decide (0x100 ≤ p.1 ∧ p.1 + p.2 ≤ 0x738C0 ∨ p ∈ [(0x25, 1), (0x7C, 4), (0xD8, 40)])) = true →
      zeroAt (imageOf c) l = true := by
    intro l hl
    simp only [List.all_eq_true, decide_eq_true_eq, zeroAt, beq_iff_eq, List.mem_cons, List.not_mem_nil, or_false] at hl ⊢
    intro p hp
    obtain h | rfl | rfl | rfl := hl p hp
    · exact image_zero c h.1 h.2
    · rw [image_field c (by omega)]; decide +kernel
    · rw [image_field c (by omega)]; decide +kernel
    · rw [image_field c (by omega)]; decide +kernel
  have ha (l m : List (Nat × Nat)) : zeroAt (imageOf c) (l ++ m) = (zeroAt (imageOf c) l && zeroAt (imageOf c) m) := List.all_append
  have h2 := image_section c 2 (by omega)
  have h4 := image_section c 4 (by omega)
  have h5 := image_section c 5 (by omega)
  have h6 := image_section c 6 (by omega)
  have h7 := image_section c 7 (by omega)
  have h8 := image_section c 8 (by omega)
  have h9 := image_section c 9 (by omega)
  have hs := image_section c 3 (by omega)
  simp only [List.getD_eq_getElem?_getD, List.getElem?_cons_succ, List.getElem?_cons_zero, Option.getD_some] at h2 hs h4 h5 h6 h7 h8 h9
  simp only [reservedOk, h2, hs, h4, h5, h6, h7, h8, h9, Bool.and_eq_true, List.all_eq_true, List.mem_range, decide_eq_true_eq, Bool.or_eq_true, beq_iff_eq]
  refine ⟨⟨⟨⟨?_, ?_⟩, ?_⟩, fun i hi => ?_⟩, fun i hi => ?_⟩
  · rw [ha, ha, ha, ha, ha, hz _ (by decide), hz _ (by decide), hz _ (by decide), hz _ (by decide), hz _ (by decide), hz _ (by decide)]
    rfl
  · rw [image_field c (by omega)]; decide +kernel
  · rw [image_field c (by omega)]; decide +kernel
  · rw [image_zero c (by omega) (by omega), image_zero c (by omega) (by omega)]; decide
  · rw [image_zero c (by omega) (by omega), image_zero c (by omega) (by omega), image_zero c (by omega) (by omega)]; decide

theorem image_good (c : W32) (hc : crc32c (memRead unsummed (2 ^ 24) 0x738C0) = c) : (away c).imageBad 1 0 = none := by
  have hb := away_base c
  have hm : (away c).mem = summed c := rfl
  have hp : (away c).rangePoison (2 ^ 24) 0x738C0 = none := rfl
  have hh (o n : Nat) (h : o + n ≤ 0x100) : natAt ((away c).phys (2 ^ 24) 256) o n = natAt (imageOf c) o n := by
    rw [natAt, natAt, imageOf, slice_memRead _ _ _ (by omega), State.phys, hm, slice_memRead _ _ _ h]
  have hf (o n v : Nat) (h : o + n ≤ 0x70 ∨ (0x74 ≤ o ∧ o + n ≤ 0x100)) (hv : leNat (memRead unsummed (2 ^ 24 + o) n) = v) :
      natAt ((away c).phys (2 ^ 24) 256) o n = v := by
    rw [hh o n (by omega), image_field c (by omega), hv]
  have h0 : natAt ((away c).phys (2 ^ 24) 256) 0 4 = 0x4153435A := hf 0 4 _ (by omega) (by decide +kernel)
  have h1 : natAt ((away c).phys (2 ^ 24) 256) 4 2 = 1 := hf 4 2 _ (by omega) (by decide +kernel)
  have h2 : natAt ((away c).phys (2 ^ 24) 256) 6 1 = 0 := hf 6 1 _ (by omega) (by decide +kernel)
  have h3 : natAt ((away c).phys (2 ^ 24) 256) 0x10 1 = 1 := hf 0x10 1 _ (by omega) (by decide +kernel)
  have h4 : natAt ((away c).phys (2 ^ 24) 256) 0x68 8 = 0x738C0 := hf 0x68 8 _ (by omega) (by decide +kernel)
  have hs : (List.range 11).map (fun n => (sectionOf ((away c).phys (2 ^ 24) 256) n).2) = sectionLengths ++ [8192] := by
    have : ∀ n, n < 11 → sectionOf ((away c).phys (2 ^ 24) 256) n = sectionOf (imageOf c) n := fun n hn => by
      rw [sectionOf, hh _ _ (by omega), hh _ _ (by omega), sectionOf]
    rw [List.map_congr_left fun n hn => by rw [this n (List.mem_range.mp hn), image_section c n (List.mem_range.mp hn)]]
    decide
  have hi : (away c).phys (2 ^ 24) 0x738C0 = imageOf c := by rw [State.phys, hm, imageOf]
  have hl : (List.range 11).map (sectionOf (imageOf c)) = [(0x100, 512), (0x300, 256), (0x400, 512), (0x600, 512), (0x800, 1536), (0xE00, 384),
      (0xF80, 512), (0x1180, 2048), (0x1980, 15808), (0x5740, 442752), (0x718C0, 8192)] := by
    rw [List.map_congr_left fun n hn => image_section c n (List.mem_range.mp hn)]
    decide
  have ho : sectionsOk (imageOf c) 0x738C0 = true := by
    rw [sectionsOk, hl]
    simp only [List.getD_eq_getElem?_getD, List.getElem?_cons_succ, List.getElem?_cons_zero, Option.getD_some, image_pins, (no_lines 4096).2]
    decide
  have ht : tagsOk (imageOf c) = true := by
    simp only [tagsOk, Bool.and_eq_true, List.all_eq_true, List.mem_range, decide_eq_true_eq]
    have h8 := image_section c 8 (by omega)
    have h9 := image_section c 9 (by omega)
    simp only [List.getD_eq_getElem?_getD, List.getElem?_cons_succ, List.getElem?_cons_zero, Option.getD_some] at h8 h9
    rw [h8, h9]
    refine ⟨fun i hi => ?_, fun i hi => ?_⟩
    · rw [image_zero c (by omega) (by omega)]; omega
    · rw [image_zero c (by omega) (by omega)]; omega
  simp only [State.imageBad, hb, h0, h1, h2, h3, h4, hi, hp, hs, image_whole, image_sum, hc, image_reserved, ho, ht]
  simp [sectionLengths]

theorem image_returns (c : W32) (hc : crc32c (memRead unsummed (2 ^ 24) 0x738C0) = c) : let s := away c
      s.images.find? (fun j => j.vd == imageAway.vd && j.slot == imageAway.slot) = some imageAway ∧ imageAway.slot < 2 ^ 16 ∧
      s.imageMayReturn imageAway = some alone ∧ s.imageBad 1 0 = none ∧ s.clusterFor alone imageAway = some 0 ∧ tileIn 0 0 0 = 0 ∧
      s.bankFor alone.mode 0 (imagePins (s.imageOn imageAway)) = some 0 ∧ s.slotBase 1 0 + 4 ≤ hbmSize ∧ imageAway.foreign = false ∧
      imageAway.rerun = none ∧ natAt (s.imageOn imageAway) 0x15 1 ≠ 1 ∧ cursorsAt (s.imageOn imageAway) = [] := by
  have hb := away_base c
  have hl : (away c).physNat (2 ^ 24 + 0x68) 8 = 0x738C0 := by
    rw [State.physNat, State.phys, show (away c).mem = summed c from rfl, summed_read c (by omega)]
    decide +kernel
  have hi : (away c).imageOn imageAway = imageOf c := by
    rw [State.imageOn, show imageAway.vd = 1 from rfl, show imageAway.slot = 0 from rfl]
    simp only [hb, hl]
    rfl
  have hp : imagePins (imageOf c) = [] := by
    rw [imagePins, image_section c 10 (by omega)]
    exact (congrArg bitmapLines (image_pins c)).trans (no_lines 4096).1
  have hk : (away c).bankFor alone.mode 0 [] = some 0 := by
    rw [State.bankFor, show bankOrder alone.mode = [0, 1] from rfl, List.find?_cons_of_pos (by simp [State.bankFree, State.linesFit, State.pinFails]; rfl)]
  have hg : (away c).blockGoes alone imageAway 0 = true := by
    have h1 : (away c).serves alone.learner 0 = true := by
      rw [State.serves, State.retiredCl, State.learnerCl, away_dfld, away_dfld, show (away c).moves = unplaced.moves from rfl]
      decide +kernel
    have h2 : (away c).blockImages imageAway = [imageAway] := by
      rw [State.blockImages, State.groupImages, show (away c).images = [imageAway] from rfl]
      decide
    have h3 : (away c).blockBound imageAway = [] := by rw [State.blockBound, show (away c).ctxs = [] from rfl]; rfl
    have h4 : tileIn 0 imageAway.lx imageAway.ly = 0 := by decide
    rw [State.blockGoes, h1, h2, h3, List.all_cons, h4, hi, hp, hk]
    rfl
  have hr : (away c).imageMayReturn imageAway = some alone := by
    rw [State.imageMayReturn, if_neg (by simp [imageAway])]
    have h1 : (away c).group imageAway.group = some alone := by rw [State.group, show (away c).groups = [alone] from rfl]; decide
    have h2 : (away c).ctxs = [] := rfl
    have h3 : SMap.get 0 (away c).vdState imageAway.vd = 0 := rfl
    simp only [State.imageReady, h1, h2, h3]
    simp [imageAway, alone, group0]
  have hn : (away c).images.find? (fun j => j.vd == imageAway.vd && j.slot == imageAway.slot) = some imageAway := by
    rw [show (away c).images = [imageAway] from rfl]; decide
  refine ⟨hn, by decide, hr, image_good c hc, ?_, by decide, ?_, ?_, rfl, rfl, ?_, ?_⟩
  · rw [State.clusterFor, show List.range 24 = 0 :: (List.range 23).map (· + 1) from rfl, List.find?_cons_of_pos hg]
  · rw [hi, hp, hk]
  · rw [hb]; decide
  · rw [hi, image_field c (by omega)]; decide +kernel
  · rw [hi, cursorsAt, List.filterMap_eq_nil_iff]
    intro n hn
    have h7 := image_section c 7 (by omega)
    simp only [List.getD_eq_getElem?_getD, List.getElem?_cons_succ, List.getElem?_cons_zero, Option.getD_some] at h7
    have := List.mem_range.mp hn
    rw [h7, cursorAt, image_zero c (by omega) (by omega)]
    rfl

/-- A good image comes back to bank A of tile 0; without its magic it does not. -/
theorem witness_restore :
    (∃ c, (away c).imageMayReturn imageAway = some alone ∧ (away c).imageBad 1 0 = none ∧ (away c).clusterFor alone imageAway = some 0 ∧
      (away c).bankFor alone.mode 0 (imagePins ((away c).imageOn imageAway)) = some 0) ∧
    unplaced.imageMayReturn imageAway = some alone ∧ unplaced.imageBad 1 0 = some 1 :=
  have ⟨_, _, h1, h2, h3, _, h4, _⟩ := image_returns _ rfl
  ⟨⟨_, h1, h2, h3, h4⟩, by decide +kernel, by decide +kernel⟩

theorem witness_dead : let s : State := { bank fun x => { x with st := .dead, group := some 1, deadRec := some (1, 0) } with groups := [group0] }
    (s.ctx 0).st = .dead ∧ (s.ctx 0).group = some 1 ∧ s.deadCmds 0 = false ∧ (s.endHolds (taskKey 1 (s.ctx 0).lx (s.ctx 0).ly) true).2 = true := by decide +kernel

theorem witness_retirement : let m : Move := ⟨[0], 0, none, 0, some 1, 0⟩
    let s : State := { State.reset with moves := [m] }
    s.moves.find? (fun m => m.retireTile == some 1) = some m ∧ (∀ c, c < 192 → clusterOf (tileOf c) = clusterOf 1 → (s.ctx c).st = .idle) ∧ (1 : Nat) < 96 := by
  decide +kernel

/-! ### Engines that wait -/

/-- Weight set 0 with one published version, number 5, whose materialisation is queued. -/
def publishing : State :=
  { dev State.reset [(Dev.rlWscfg, 0, 0x80), (Dev.nbXcfg, 0, 1)] with matQueue := [(0, 5)], mem := [(0x20000, 5), (0x20004, 2)] }

theorem witness_queued_materialisation : publishing.matQueue.find? (·.1 == 0) = some (0, 5) ∧ publishing.extOf 0 5 = none ∧ publishing.pickExtent 0 = some 0 ∧ publishing.queuedReady 0 = true ∧
    (match publishing.newest 0, publishing.published 0 5 with
      | some e, some f => decide (e.version = 5) && decide (e.i = f.i) && decide (e.state = f.state) && decide (e.readers = f.readers) &&
          decide (e.root = f.root) && decide (e.pubts = f.pubts)
      | _, _ => false) = true := by decide +kernel

/-- An `nbmat` of version 5 of weight set 0, whose extent is being written. -/
def materialising : Cmd := { cmd0 13 1 with target := 5, step := 1 }

theorem witness_command_goes_on : let s : State := { wired.modCtx 0 fun x => { x with st := .running, group := some 1 } with
      cmds := [materialising], groups := [group0], extents := [(0, ⟨1, 5, 0, false, []⟩)] }
    materialising.stopped = false ∧ s.cmdGoes materialising = true ∧ materialising.ending = none ∧ materialising.asks = [] ∧
    (match (cmdBody materialising).run (s.setCmd { materialising with peers := 0 }) with | .ok (.more _) _ => true | _ => false) = true := by
  decide +kernel

end Sys2Proof.Tests
end

/-!
Proofs for the device-register reads that clear (R6), the management port (R356) and the release of FE_SEMA (R353).
-/

namespace Sys2Proof.Machine

/-! ### Reads of registers -/

/-- R6: below the notify words, a read of a register returns its value and clears its RC fields. -/
theorem State.regRead_of_regSpec {s : State} {off : Nat} {r : RegSpec} (hoff : off < 0x100000) (hr : regSpec off = some r) :
    s.regRead off =
      (if r.rc = 0 then s
        else s.dset off (s.selected r.sel) (s.dget off (s.selected r.sel) &&& ~~~(BitVec.ofNat 64 r.rc)),
       s.regValue off (s.selected r.sel)) := by
  have hnotify : ¬ (0x100000 ≤ off ∧ off < 0x108000) := by omega
  simp only [State.regRead, hnotify, if_false, hr]
  split <;> rfl

/-- R6, R24: an event that is a read of the register at `off` clears the RC fields of the instance selected, unless a thermal trip
has come before it. -/
theorem exec_of_readClears {s : State} {e : Instr} {off inst mask : Nat} {r : RegSpec} (he : exec e s = .next (s.readClears off))
    (hr : regSpec off = some r) (hoff : off < 0x100000) (hinst : s.selected r.sel = inst) (hrc : r.rc = mask) (hmask : mask ≠ 0) :
    (s.thermal = false → exec e s = .next (s.dset off inst (s.dget off inst &&& ~~~(BitVec.ofNat 64 mask)))) ∧
    (s.thermal = true → exec e s = .next s) := by
  subst hinst hrc
  constructor
  · intro ht
    simp [he, State.readClears, ht, State.regRead_of_regSpec hoff hr, hmask]
  · intro ht
    simp [he, State.readClears, ht]

/-! ### Writes through the management port (R353, R356) -/

/-- A refused configuration write shows in FE_CFGDENY. -/
theorem State.dget_cfgDeny_ne (s : State) : s.cfgDeny.dget Dev.feCfgdeny 0 ≠ s.dget Dev.feCfgdeny 0 := by
  rw [State.cfgDeny, State.dget_dset]
  bv_omega

/-- R353: a write by CE-A of a register with RW fields and no rule of its own takes effect where CE-A holds FE_SEMA, and is refused and
counted where it does not. -/
theorem State.regWrite_ceA {s : State} {off : Nat} {r : RegSpec} (val : Nat) (ht : s.thermal = false) (hready : s.ready = true)
    (hoff : off < 0x100000) (hr : regSpec off = some r) (hrw : r.rw ≠ 0) (hsema : off ≠ Dev.feSema) (hhead : off ≠ Dev.feQhead)
    (htail : off ≠ Dev.feQtail) (hbind : off ≠ Dev.feCebind) :
    s.regWrite 1 off val = if s.dfld Dev.feSema 0 0 2 = 1 then s.regEffect off val else s.cfgDeny := by
  by_cases hown : s.dfld Dev.feSema 0 0 2 = 1 <;>
    simp [State.regWrite, ht, hready, Nat.not_le.mpr hoff, hr, hrw, hsema, hhead, htail, hbind, hown]

/-! ### Requests of the management port (R356) -/

/-- R356: the format of a request that the port performs. -/
theorem isRequest_of_format {op : Nat} {d : Datagram} (hop : op = 1 ∨ op = 2)
    (h : d.bytes.length = 32 ∧ natAt d.bytes 0 1 = 1 ∧ natAt d.bytes 1 1 = op ∧ natAt d.bytes 2 2 = 0 ∧ natAt d.bytes 0x18 8 = 0 ∧
      natAt d.bytes 8 8 % 8 = 0) : isRequest op d = true := by
  obtain ⟨hlen, hver, hcode, hpad, hzero, halign⟩ := h
  simp [isRequest, badDatagram, hlen, hver, hcode, hpad, hzero, halign, hop]

/-- R356: the ways in which a datagram breaks the format. -/
theorem badDatagram_iff (b : List Byte) : badDatagram b = true ↔
    natAt b 0 1 ≠ 1 ∨ (natAt b 1 1 ≠ 1 ∧ natAt b 1 1 ≠ 2) ∨ natAt b 2 2 ≠ 0 ∨ natAt b 0x18 8 ≠ 0 ∨ natAt b 8 8 % 8 ≠ 0 := by
  simp [badDatagram, or_assoc]

/-- A read request after its checks. -/
theorem exec_mgmtRead {s : State} {dg : Datagram} (ht : s.thermal = false) (hreq : isRequest 1 dg = true) :
    exec (.mgmtRead dg) s =
      .next (s.mgmt dg fun s => ((s.regRead (natAt dg.bytes 8 8)).1, 0, (s.regRead (natAt dg.bytes 8 8)).2)) := by
  change execMgmtRead dg s = _
  simp [execMgmtRead, hreq, ht]

/-- A write request after its checks; its STATUS is 1 where the count of refused writes moved. -/
theorem exec_mgmtWrite {s : State} {dg : Datagram} (ht : s.thermal = false) (hreq : isRequest 2 dg = true) :
    exec (.mgmtWrite dg) s = .next (s.mgmt dg fun s =>
      (s.regWrite 1 (natAt dg.bytes 8 8) (natAt dg.bytes 0x10 8),
       if (s.regWrite 1 (natAt dg.bytes 8 8) (natAt dg.bytes 0x10 8)).dget Dev.feCfgdeny 0 = s.dget Dev.feCfgdeny 0 then 0 else 1,
       BitVec.ofNat 64 (natAt dg.bytes 0x10 8))) := by
  change execMgmtWrite dg s = _
  simp [execMgmtWrite, hreq, ht]

/-- R356: a request with the SEQ of the last one is answered again, and not performed. -/
theorem State.mgmt_repeated {s : State} {d : Datagram} {r : List Byte} (perform : State → State × Nat × W64)
    (h : s.lastMgmt = some (natAt d.bytes 4 4, r)) : s.mgmt d perform = s.send d r := by
  simp [State.mgmt, h]

/-- R356: a request with a new SEQ is performed, answered and remembered. -/
theorem State.mgmt_performed {s : State} {d : Datagram} {perform : State → State × Nat × W64} {t : State} {status : Nat} {v : W64}
    (hnew : ∀ q r, s.lastMgmt = some (q, r) → q ≠ natAt d.bytes 4 4) (hp : perform s = (t, status, v)) :
    s.mgmt d perform =
      { t.send d (replyBytes d.bytes status v) with lastMgmt := some (natAt d.bytes 4 4, replyBytes d.bytes status v) } := by
  cases hlast : s.lastMgmt with
  | none => simp [State.mgmt, hlast, hp]
  | some last => simp [State.mgmt, hlast, hp, hnew last.1 last.2 hlast]

/-- R356: a malformed request gets its own bytes back with STATUS 2. -/
theorem exec_mgmtMalformedRequest_of_bad {s : State} {dg : Datagram} (ht : s.thermal = false) (hlen : dg.bytes.length = 32)
    (hbad : badDatagram dg.bytes = true) : exec (.mgmtMalformedRequest dg) s = .next (s.send dg (overlay dg.bytes 2 [2])) := by
  change execMgmtMalformedRequest dg s = _
  simp [execMgmtMalformedRequest, ht, hlen, hbad]

/-- R356: a datagram of another length is dropped. -/
theorem exec_mgmtMalformedRequest_of_length {s : State} {dg : Datagram} (hlen : dg.bytes.length ≠ 32) :
    exec (.mgmtMalformedRequest dg) s = .next s := by
  change execMgmtMalformedRequest dg s = _
  simp [execMgmtMalformedRequest, hlen]

/-! ### The loss of an endpoint (R353) -/

/-- R24, R353: what the loss of an endpoint's connection does to FE_SEMA. -/
theorem exec_endpointConnectionLoss (s : State) : exec .endpointConnectionLoss s =
    .next (if s.thermal then s
      else if s.dfld Dev.feSema 0 0 2 = 1 ∨ s.dfld Dev.feSema 0 0 2 = 2 then s.dsetFld Dev.feSema 0 0 2 0 else s) := rfl

/-- Settles O40: each clearing read by the entry of its register in the table, the management port by its two cases (the SEQ of the last
request, or a new one), and the loss of an endpoint by the owner of FE_SEMA. -/
theorem readsAndManagement : Obligations.ReadsAndManagement := by
  refine ⟨?clearingReads, ?managementPort, ?endpointLoss⟩
  case clearingReads =>
    rintro s e off inst mask (h | h | h | h | h | h | h | h) <;> cases h <;>
      exact exec_of_readClears rfl rfl (by decide) rfl rfl (by decide)
  case managementPort =>
    intro s dg ht b seq reply formed answered
    refine ⟨fun r hlast => ⟨fun hf => ?readAgain, fun hf => ?writeAgain⟩,
      fun hnew => ⟨fun hf => ?read, fun r hf hoff hr hrc => ?readPlain,
        fun r hf hoff hr hrw hready hsema hhead htail hbind => ?write⟩,
      fun hlen hbad => ?malformed, fun hlen => ?dropped⟩
    case readAgain =>
      rw [exec_mgmtRead ht (isRequest_of_format (.inl rfl) hf), State.mgmt_repeated _ hlast]; rfl
    case writeAgain =>
      rw [exec_mgmtWrite ht (isRequest_of_format (.inr rfl) hf), State.mgmt_repeated _ hlast]; rfl
    case read =>
      rw [exec_mgmtRead ht (isRequest_of_format (.inl rfl) hf), State.mgmt_performed hnew rfl]; rfl
    case readPlain =>
      have hread : s.regRead (natAt b 8 8) = (s, s.regValue (natAt b 8 8) (s.selected r.sel)) := by
        rw [State.regRead_of_regSpec hoff hr, if_pos hrc]
      rw [exec_mgmtRead ht (isRequest_of_format (.inl rfl) hf), State.mgmt_performed hnew (by rw [hread])]; rfl
    case write =>
      have hw := State.regWrite_ceA (natAt b 0x10 8) ht hready hoff hr hrw hsema hhead htail hbind
      rw [exec_mgmtWrite ht (isRequest_of_format (.inr rfl) hf)]
      constructor
      · intro hother
        rw [if_neg hother] at hw
        rw [State.mgmt_performed hnew (by rw [hw, if_neg s.dget_cfgDeny_ne])]; rfl
      · intro howner t hcount
        rw [if_pos howner] at hw
        rw [State.mgmt_performed hnew (by rw [hw, if_pos hcount])]; rfl
    case malformed => exact exec_mgmtMalformedRequest_of_bad ht hlen ((badDatagram_iff b).mpr hbad)
    case dropped => exact exec_mgmtMalformedRequest_of_length hlen
  case endpointLoss =>
    intro s
    rw [exec_endpointConnectionLoss]
    refine ⟨fun ht howner => ?_, fun ht => ?_, fun hnotA hnotB => ?_⟩
    · simp [ht, howner]
    · simp [ht]
    · simp [hnotA, hnotB]

end Sys2Proof.Machine

/-!
Proofs for the machine after cold reset (R25, R100, R358): what each accessor reads there.
-/

namespace Sys2Proof.Machine

/-! ### The banks and the device registers at reset -/

/-- R25: no bank is listed at reset, so each one is the bank of cold reset. -/
@[simp] theorem State.ctx_reset (c : Nat) : State.reset.ctx c = Ctx.init := SMap.get_nil Ctx.init c

/-- R57: a bank after cold reset holds no valid handle. -/
@[simp] theorem Ctx.hget_init (n : Nat) : Ctx.init.hget n = Handle.invalid := SMap.get_nil Handle.invalid n

/-- R100, log entry 8: s0 is zero by its own rule, every other scalar register because none is listed. -/
@[simp] theorem Ctx.sget_init (n : Nat) : Ctx.init.sget n = 0 := by
  rw [Ctx.sget, Ctx.init, SMap.get_nil, ite_self]

/-- R355: at reset a device register reads the reset value of its entry in the table. -/
theorem State.dget_reset (off inst : Nat) : State.reset.dget off inst = regReset off := SMap.get_nil (regReset off) (devKey off inst)

/-- R25: PM_MAP resets to zero, its learner mask and its retired mask alike. -/
theorem regReset_pmMap : regReset Dev.pmMap = 0 := rfl

/-- R358: FE_STAT resets to zero, READY included. -/
theorem regReset_feStat : regReset Dev.feStat = 0 := rfl

/-- R358: the front end is not in service at reset. -/
theorem State.ready_reset : State.reset.ready = false := by
  rw [State.ready, State.dfld, State.dget_reset, regReset_feStat]
  decide

/-- Settles O60: at reset every sparse table is empty, so each read gives the table's default: the idle bank, the invalid handle,
zero, or a register's reset value. -/
theorem resetLeavesTheMachineIdle : Obligations.ResetLeavesTheMachineIdle := by
  refine ⟨fun c => ?banks, ?partitionMap, State.ready_reset, rfl, rfl, fun a => SMap.get_nil 0 a⟩
  case banks =>
    rw [State.ctx_reset]
    exact ⟨rfl, rfl, fun n => by rw [Ctx.hget_init, Handle.invalid], Ctx.sget_init⟩
  case partitionMap => rw [State.dget_reset, regReset_pmMap]

end Sys2Proof.Machine

/-!
Proofs for the scalar words of class 1 (R122-R128): what each operation computes, and that it is put in flight.
-/

namespace Sys2Proof.Machine

open Safety

/-! ### Words with one result -/

/-- R122: a word of ops 0-18 that issues puts `f` of its two sources in flight. -/
theorem exec_of_aluSem {h : Hdr} {s : State} {i : Instr} {k d a : Nat} {b : SrcB} {f : W64 → W64 → W64} {v : W64} (hg : goes h s)
    (hi : exec i s = runWord h (aluSem k f d a b) s) (hv : f (s.me.sget a) (s.me.bval b) = v) :
    exec i s = .next (s.land k [.sreg d v]) := by
  rw [hi, runWord_goes _ hg rfl rfl, ← hv]; rfl

/-- R123-R125: a word of one source that issues puts `f` of it in flight. -/
theorem exec_of_unarySem {h : Hdr} {s : State} {i : Instr} {d a : Nat} {f : W64 → W64} {v : W64} (hg : goes h s)
    (hi : exec i s = runWord h (unarySem f d a) s) (hv : f (s.me.sget a) = v) :
    exec i s = .next (s.land 1 [.sreg d v]) := by
  rw [hi, runWord_goes _ hg rfl rfl, ← hv]; rfl

/-- R126: a `div` or `rem` that issues puts `f` of its sources in flight under its tag. -/
theorem exec_of_divSem {h : Hdr} {s : State} {i : Instr} {d a b k : Nat} {f : W64 → W64 → W64} {v : W64} (hg : goes h s)
    (hi : exec i s = runWord h (divSem f d a b k) s) (hv : f (s.me.sget a) (s.me.sget b) = v) :
    exec i s = .next (s.launchTagged k 12 (some 70) [.sreg d v]) := by
  rw [hi, runWord_goes _ hg rfl rfl, ← hv]; rfl

/-! ### The values of ops 0-18 (R122) -/

/-- R122: the high half of the signed 128-bit product. -/
theorem mulHigh_eq (x y : W64) : mulHigh x y = (x.signExtend 128 * y.signExtend 128).extractLsb' 64 64 := by
  have hp : x.signExtend 128 * y.signExtend 128 = BitVec.ofInt 128 (x.toInt * y.toInt) := by
    rw [BitVec.ofInt_mul]; rfl
  apply BitVec.eq_of_toNat_eq
  rw [hp, mulHigh, BitVec.extractLsb'_toNat, BitVec.toNat_ofInt, BitVec.toNat_ofInt, Nat.shiftRight_eq_div_pow]
  generalize x.toInt * y.toInt = m
  omega

/-- R122: the high half of the unsigned 128-bit product. -/
theorem mulHighU_eq (x y : W64) : mulHighU x y = (x.zeroExtend 128 * y.zeroExtend 128).extractLsb' 64 64 := by
  apply BitVec.eq_of_toNat_eq
  rw [mulHighU, BitVec.extractLsb'_toNat, BitVec.toNat_mul, BitVec.toNat_ofNat, Nat.shiftRight_eq_div_pow,
    BitVec.toNat_setWidth_of_le (by decide), BitVec.toNat_setWidth_of_le (by decide)]
  generalize x.toNat * y.toNat = m
  omega

/-- A choice between two values by a strict comparison is one by the comparison itself where values that compare equal are equal. -/
theorem ite_lt_eq_ite_le {β : Type} {lt : Bool} {le eq : Prop} [Decidable le] {p q : β} (hle : le ↔ lt = true ∨ eq)
    (heq : eq → p = q) : (if lt then p else q) = if le then p else q := by
  cases lt
  · by_cases h : le
    · have hpq : p = q := heq ((hle.mp h).resolve_left Bool.false_ne_true)
      rw [hpq, ite_self, ite_self]
    · rw [if_neg h, if_neg Bool.false_ne_true]
  · rw [if_pos rfl, if_pos (hle.mpr (.inl rfl))]

/-- A signed comparison as a strict one or equality. -/
theorem toInt_le_iff_slt_or_eq (x y : W64) : x.toInt ≤ y.toInt ↔ x.slt y = true ∨ x.toInt = y.toInt := by
  rw [BitVec.slt_iff_toInt_lt]; exact Int.le_iff_lt_or_eq

/-- An unsigned comparison as a strict one or equality. -/
theorem toNat_le_iff_ult_or_eq (x y : W64) : x.toNat ≤ y.toNat ↔ x.ult y = true ∨ x.toNat = y.toNat := by
  rw [BitVec.ult_iff_lt]; exact Nat.le_iff_lt_or_eq

/-- A truth value as a scalar, where it decides a proposition. -/
theorem bool64_eq_ite {t : Bool} {p : Prop} [Decidable p] (h : t = true ↔ p) : bool64 t = if p then 1 else 0 := by
  rw [bool64]
  by_cases hp : p
  · rw [if_pos hp, if_pos (h.mpr hp)]
  · rw [if_neg hp, if_neg (mt h.mp hp)]

/-- Settles O1: each operation is `aluSem` of its function; the functions that the rule words otherwise (the high products, the minima and
maxima, the comparisons) have the lemmas above. -/
theorem scalarArithmeticIssues : Obligations.ScalarArithmeticIssues := by
  intro h d a b s hg x y n gives
  have hy : s.me.bval b = y := by cases b <;> rfl
  have alu {i : Instr} {k : Nat} (f : W64 → W64 → W64) {v : W64} (hi : exec i s = runWord h (aluSem k f d a b) s) (hv : f x y = v) :
      exec i s = gives k v := exec_of_aluSem hg hi (hy.symm ▸ hv)
  refine ⟨alu _ rfl rfl, alu _ rfl rfl, alu _ rfl rfl, alu _ rfl (mulHigh_eq x y), alu _ rfl (mulHighU_eq x y),
    alu _ rfl rfl, alu _ rfl rfl, alu _ rfl rfl, alu _ rfl rfl, alu _ rfl rfl, alu _ rfl rfl, alu _ rfl rfl,
    alu _ rfl ?min, alu _ rfl ?max, alu _ rfl ?minu, alu _ rfl ?maxu, alu _ rfl ?seq, alu _ rfl ?slt, alu _ rfl ?sltu⟩
  case min => exact ite_lt_eq_ite_le (toInt_le_iff_slt_or_eq x y) BitVec.eq_of_toInt_eq
  case max => exact ite_lt_eq_ite_le (toInt_le_iff_slt_or_eq x y) fun e => (BitVec.eq_of_toInt_eq e).symm
  case minu => exact ite_lt_eq_ite_le (toNat_le_iff_ult_or_eq x y) BitVec.eq_of_toNat_eq
  case maxu => exact ite_lt_eq_ite_le (toNat_le_iff_ult_or_eq x y) fun e => (BitVec.eq_of_toNat_eq e).symm
  case seq => exact bool64_eq_ite beq_iff_eq
  case slt => exact bool64_eq_ite BitVec.slt_iff_toInt_lt
  case sltu => exact bool64_eq_ite BitVec.ult_iff_lt

/-! ### Counting and fields (R123, R124) -/

/-- R123: above the place that `clz` finds every bit is zero, and the bit there is one unless the value is zero. -/
theorem clz64_spec (x : W64) : ∃ n, n ≤ 64 ∧ clz64 x = BitVec.ofNat 64 n ∧ (∀ j, j < n → x.getMsbD j = false) ∧
    (n < 64 → x.getMsbD n = true) := by
  by_cases hx : x = 0
  · exact ⟨64, Nat.le_refl 64, by rw [clz64, if_pos hx]; rfl, fun j _ => by simp [hx], fun h => absurd h (by decide)⟩
  · have hne : x.toNat ≠ 0 := fun e => hx (BitVec.eq_of_toNat_eq e)
    have hlog : x.toNat.log2 < 64 := (Nat.log2_lt hne).mpr x.isLt
    refine ⟨63 - x.toNat.log2, by omega, by rw [clz64, if_neg hx], fun j hj => ?above, fun _ => ?top⟩
    case above =>
      have hsmall : x.toNat < 2 ^ (64 - 1 - j) := (Nat.log2_lt hne).mp (by omega)
      rw [BitVec.getMsbD, ← BitVec.testBit_toNat, Nat.testBit_lt_two_pow hsmall, Bool.and_false]
    case top =>
      have hplace : 64 - 1 - (63 - x.toNat.log2) = x.toNat.log2 := by omega
      rw [BitVec.getMsbD, ← BitVec.testBit_toNat, hplace, Nat.testBit_log2 hne, Bool.and_true, decide_eq_true_eq]
      omega

/-- Counting is adding ones. -/
theorem countP_eq_sum_toNat {α : Type} (p : α → Bool) (l : List α) : l.countP p = (l.map fun j => (p j).toNat).sum := by
  induction l with
  | nil => rfl
  | cons j l ih => rw [List.countP_cons, List.map_cons, List.sum_cons, ih, Nat.add_comm]; cases p j <;> rfl

/-- The bits of a mask of `n` ones at `k`. -/
theorem getLsbD_mask (n k j : Nat) (hj : j < 64) :
    (BitVec.ofNat 64 ((2 ^ n - 1) * 2 ^ k)).getLsbD j = (decide (k ≤ j) && decide (j - k < n)) := by
  rw [BitVec.getLsbD_ofNat, Nat.testBit_mul_two_pow, Nat.testBit_two_pow_sub_one]
  simp [hj]

/-- R124: the bits of an extracted field: the field's own, above them zeros or copies of its highest one. -/
theorem getLsbD_bextVal (sx : Bool) {lm1 : Nat} (pos : Nat) (x : W64) (hl : lm1 < 64) {j : Nat} (hj : j < 64) :
    (bextVal sx lm1 pos x).getLsbD j = if j ≤ lm1 then x.getLsbD (pos + j) else sx && x.getLsbD (pos + lm1) := by
  have hmask {j : Nat} (hj : j < 64) : (BitVec.ofNat 64 (2 ^ (lm1 + 1) - 1)).getLsbD j = decide (j ≤ lm1) := by
    simpa [Nat.lt_succ_iff] using getLsbD_mask (lm1 + 1) 0 j hj
  have hfield {j : Nat} (hj : j < 64) :
      ((x >>> pos) &&& BitVec.ofNat 64 (2 ^ (lm1 + 1) - 1)).getLsbD j = (x.getLsbD (pos + j) && decide (j ≤ lm1)) := by
    rw [BitVec.getLsbD_and, hmask hj, BitVec.getLsbD_ushiftRight]
  have htop := hfield hl
  simp only [Nat.le_refl, decide_true, Bool.and_true] at htop
  rw [bextVal, htop]
  cases hs : sx && x.getLsbD (pos + lm1)
  · rw [if_neg Bool.false_ne_true, hfield hj]
    by_cases hle : j ≤ lm1 <;> simp [hle]
  · rw [if_pos rfl, BitVec.getLsbD_or, BitVec.getLsbD_not, hfield hj, hmask hj]
    by_cases hle : j ≤ lm1 <;> simp [hle, hj]

/-- R124: the bits of an inserted field: inside it the low bits of the source, outside it the old ones. -/
theorem getLsbD_binsVal (lm1 pos : Nat) (old x : W64) {j : Nat} (hj : j < 64) :
    (binsVal lm1 pos old x).getLsbD j = if pos ≤ j ∧ j ≤ pos + lm1 then x.getLsbD (j - pos) else old.getLsbD j := by
  have hmask : (BitVec.ofNat 64 ((2 ^ (lm1 + 1) - 1) * 2 ^ pos)).getLsbD j = decide (pos ≤ j ∧ j ≤ pos + lm1) := by
    rw [getLsbD_mask _ _ _ hj, ← Bool.decide_and]
    exact decide_eq_decide.mpr (by omega)
  simp only [binsVal, BitVec.getLsbD_or, BitVec.getLsbD_and, BitVec.getLsbD_not, BitVec.getLsbD_shiftLeft, hmask]
  by_cases hin : pos ≤ j ∧ j ≤ pos + lm1
  · simp [hin, hj, Nat.not_lt.mpr hin.1]
  · simp [hin, hj]

/-- R125: the immediate stands above the low half of the source. -/
theorem lihVal_eq_append (imm : Nat) (x : W64) :
    BitVec.ofNat 64 (imm % 2 ^ 32 * 2 ^ 32) ||| (x &&& 0xFFFFFFFF#64) = BitVec.ofNat 32 imm ++ x.extractLsb' 0 32 := by
  have hlow : (0xFFFFFFFF#64 : W64) = BitVec.ofNat 64 ((2 ^ 32 - 1) * 2 ^ 0) := rfl
  apply BitVec.eq_of_getLsbD_eq
  intro j hj
  rw [BitVec.getLsbD_or, BitVec.getLsbD_and, hlow, getLsbD_mask 32 0 j hj, BitVec.getLsbD_ofNat, Nat.testBit_mul_two_pow,
    BitVec.getLsbD_append, BitVec.getLsbD_extractLsb', BitVec.getLsbD_ofNat, Nat.testBit_mod_two_pow]
  by_cases hlo : j < 32
  · simp [hlo, hj, Nat.not_le.mpr hlo]
  · simp [hlo, hj, Nat.not_lt.mp hlo]

/-! ### Division (R126) -/

/-- R126: the signed quotient is truncated toward zero, and wraps where it overflows. -/
theorem divVal_signed {x y : W64} (hy : y ≠ 0) : divVal false x y = x.sdiv y := by
  apply BitVec.eq_of_toInt_eq
  rw [divVal, if_neg hy, if_neg Bool.false_ne_true, BitVec.toInt_sdiv, BitVec.toInt_ofInt]

/-- R126: the sign of the signed remainder follows the dividend. -/
theorem remVal_signed {x y : W64} (hy : y ≠ 0) : remVal false x y = x.srem y := by
  rw [remVal, if_neg hy, if_neg Bool.false_ne_true, ← BitVec.toInt_srem, BitVec.ofInt_toInt]

/-! ### The obligations -/

/-- Settles O2: each word puts its value in flight; the bits of the value are those of the lemmas above. -/
theorem scalarBitsMovesAndComparesIssue : Obligations.ScalarBitsMovesAndComparesIssue := by
  constructor
  case left =>
    intro h d a s hg x gives
    have unary {i : Instr} (f : W64 → W64) {v : W64} (hi : exec i s = runWord h (unarySem f d a) s) (hv : f x = v) :
        exec i s = gives v := exec_of_unarySem hg hi hv
    refine ⟨fun b => runWord_goes (semSel d a b) hg rfl rfl, ?clz, ?popc, fun sx lm1 pos hl => ?bext, fun lm1 pos _ _ => ?bins,
      fun imm => unary _ rfl (lihVal_eq_append imm x), runWord_goes (semMovg d a) hg rfl rfl,
      runWord_goes (semMovfg d a) hg rfl rfl⟩
    case clz =>
      obtain ⟨n, hn, hv, habove, htop⟩ := clz64_spec x
      exact ⟨n, hn, unary _ rfl hv, habove, htop⟩
    case popc => exact unary _ rfl (congrArg (BitVec.ofNat 64) (countP_eq_sum_toNat _ _))
    case bext => exact ⟨bextVal sx lm1 pos x, unary _ rfl rfl, fun j hj => getLsbD_bextVal sx pos x hl hj⟩
    case bins =>
      exact ⟨binsVal lm1 pos (s.me.sget d) x, runWord_goes (semBins d a lm1 pos) hg rfl rfl,
        fun j hj => getLsbD_binsVal lm1 pos _ x hj⟩
  case right =>
    intro h a b s hg x y gives
    have setp {cond : Nat} {p : Prop} [Decidable p] (hp : setpHolds cond x y = true ↔ p) : exec (.setp h cond a b) s = gives (decide p) :=
      Bool.eq_iff_iff.mpr (hp.trans decide_eq_true_iff.symm) ▸ runWord_goes (semSetp cond a b) hg rfl rfl
    have hnot (t : Bool) : (!t) = true ↔ ¬t = true := by cases t <;> decide
    refine ⟨setp beq_iff_eq, setp bne_iff_ne, setp BitVec.slt_iff_toInt_lt, setp ?ge, setp BitVec.ult_iff_lt, setp ?geu⟩
    case ge => exact (hnot _).trans ((not_congr BitVec.slt_iff_toInt_lt).trans Int.not_lt)
    case geu => exact (hnot _).trans ((not_congr BitVec.ult_iff_lt).trans BitVec.not_lt)

/-- Settles O3: `div` and `rem` are `divSem` of their functions, which for signed operands are the library's signed quotient and
remainder; the quotient alone can overflow, in the case that the rule names. -/
theorem divideGivesQuotientAndRemainder : Obligations.DivideGivesQuotientAndRemainder := by
  intro h d a b k s hg x y gives
  have div {u : Bool} {v : W64} (hv : divVal u x y = v) : exec (.div h d a b k u) s = gives v := exec_of_divSem hg rfl hv
  have rem {u : Bool} {v : W64} (hv : remVal u x y = v) : exec (.rem h d a b k u) s = gives v := exec_of_divSem hg rfl hv
  refine ⟨fun hy => ?byZero, fun hy => ?unsigned, fun hy hover => ?signed, fun hx hy => ?overflow⟩
  case byZero => exact ⟨div (if_pos hy), rem (if_pos hy), div (if_pos hy), rem (if_pos hy)⟩
  case unsigned => exact ⟨div (if_neg hy), rem (if_neg hy)⟩
  case signed =>
    have hq : (x.sdiv y).toInt = x.toInt.tdiv y.toInt :=
      BitVec.toInt_sdiv_of_ne_or_ne x y (Decidable.not_and_iff_or_not.mp fun ⟨hx, hy⟩ => hover ⟨hx ▸ rfl, hy ▸ rfl⟩)
    refine ⟨x.sdiv y, x.srem y, div (divVal_signed hy), rem (remVal_signed hy), hq, ?_⟩
    rw [BitVec.toInt_srem, Int.tmod_def, hq]
  case overflow =>
    have hx : x = BitVec.intMin 64 := BitVec.eq_of_toInt_eq hx
    have hy : y = -1 := BitVec.eq_of_toInt_eq hy
    have hne : y ≠ 0 := by rw [hy]; decide
    refine ⟨div ?_, rem ?_⟩
    · rw [divVal_signed hne, hx, hy]; decide
    · rw [remVal_signed hne, hx, hy]; decide

/-- Settles O56: `lih` is its own row of the encoding; what it puts in flight is the immediate, which fits 32 bits, above the low half;
and the constant of the rule is that value for the immediate 0x1234. -/
theorem lihWritesTheHighHalf : Obligations.LihWritesTheHighHalf := by
  intro h d a imm himm
  refine ⟨rfl, fun s hg => ?_⟩
  have lih : exec (.lih h d a imm) s = .next (s.land 1 [.sreg d (BitVec.ofNat 64 (imm * 2 ^ 32) ||| (s.me.sget a &&& 0xFFFFFFFF))]) :=
    exec_of_unarySem hg rfl (by rw [Nat.mod_eq_of_lt himm]; rfl)
  refine ⟨lih, exec_of_aluSem hg rfl ?sum, fun ha hi => lih.trans ?constant⟩
  case sum => rw [Ctx.sget_zero, Ctx.bval]; decide
  case constant => rw [ha, hi]; rfl

end Sys2Proof.Machine

/-!
Proofs for the control words `loop`, `trap` and `brk` (R133, R135, R144): how control passes to another bundle (R48, R50, R113), and how a
trap passes it to the handler (R411-R416).
-/

namespace Sys2Proof.Machine

open Safety

/-! ### Control that arrives at a segment (R50) -/

/-- The bank of a context after control has arrived at `target`, which the executing half now holds. -/
def Ctx.entering (x : Ctx) (target : Pc) (cyc : Nat) (ex idle : Option Half) : Ctx :=
  { x.startPass target with exec := ex, idle := idle, jump := none, notBefore := Nat.max x.notBefore (cyc + 3), lastFirst := cyc }

/-- R50: a segment that the executing half holds is entered there. -/
theorem State.arriveAt_exec {s : State} {trap : State → TrapRec → Nat → State} {c cyc how : Nat} {target loc : Pc} {e : Half}
    (he : (s.ctx c).exec = some e) (hseg : e.seg = target.seg) (hfail : e.fail = none) (hbun : target.bun < e.bundles.length) :
    s.arriveAt trap c target loc cyc how = s.setCtx c ((s.ctx c).entering target cyc (some e) (s.ctx c).idle) := by
  unfold State.arriveAt
  cases hi : (s.ctx c).idle <;> simp [he, hi, hseg, hfail, hbun, Ctx.entering]

/-- R50: a segment that the idle half holds is entered there, and the halves change places. -/
theorem State.arriveAt_idle {s : State} {trap : State → TrapRec → Nat → State} {c cyc how : Nat} {target loc : Pc} {e k : Half}
    (he : (s.ctx c).exec = some e) (hne : e.seg ≠ target.seg) (hk : (s.ctx c).idle = some k) (hseg : k.seg = target.seg)
    (hready : k.ready = true) (hfail : k.fail = none) (hbun : target.bun < k.bundles.length) :
    s.arriveAt trap c target loc cyc how = s.setCtx c ((s.ctx c).entering target cyc (some k) (some e)) := by
  simp [State.arriveAt, he, hk, hne, hseg, hready, hfail, hbun, Ctx.entering]

/-- R49, R50: control waits for a segment that neither half holds, and its expansion starts. -/
theorem State.arriveAt_away {s : State} {trap : State → TrapRec → Nat → State} {c cyc how : Nat} {target loc : Pc} {e : Half}
    (he : (s.ctx c).exec = some e) (hne : e.seg ≠ target.seg) (hk : (s.ctx c).idle.map (·.seg) ≠ some target.seg) :
    s.arriveAt trap c target loc cyc how = s.setCtx c
      { s.ctx c with idle := some (Half.fetching target.seg), jump := some (target, loc, cyc, how) } := by
  have hp : (s.ctx c).prefetch target.seg = { s.ctx c with idle := some (Half.fetching target.seg) } := if_neg hk
  unfold State.arriveAt
  cases hi : (s.ctx c).idle with
  | none => simp [he, hi, hne, hp]
  | some k =>
    have hseg : k.seg ≠ target.seg := by simpa [hi] using hk
    simp [he, hi, hne, hseg, hp]

/-- R48, R113: a branch to another segment, with no word pending and a pass that matches its header, enters that segment. -/
theorem State.branchTo_enters {s : State} {seg bun : Nat} (hseg : seg ≠ 0xFFFF) (hpend : s.me.pend = []) (hrerun : s.me.rerun = none)
    (hpass : s.me.passMismatch = none) : s.branchTo s.cur seg bun = s.enterSegment s.cur.ctx ⟨seg, bun⟩ s.cur.pc s.now 0 := by
  rw [State.me] at hpend hrerun hpass
  rw [State.branchTo, if_neg hseg, if_pos (List.isEmpty_iff.mpr hpend), State.endPass, hrerun, hpass]

/-- R48, R113, R130: a taken branch of the word in hand is the arrival of control at its target. -/
theorem State.branchTo_arrives (s : State) (seg bun : Nat) : Arrives s seg bun (s.branchTo s.cur seg bun) := by
  refine ⟨fun hseg => if_pos hseg, fun hseg hpend => ?waits, fun hseg hpend hrerun hpass e he => ?enters⟩
  case waits => exact (if_neg hseg).trans (if_neg (mt List.isEmpty_iff.mp hpend))
  case enters =>
    rw [State.branchTo_enters hseg hpend hrerun hpass]
    exact ⟨State.arriveAt_exec (target := ⟨seg, bun⟩) he, fun hne k hk => State.arriveAt_idle (target := ⟨seg, bun⟩) he hne hk,
      State.arriveAt_away (target := ⟨seg, bun⟩) he⟩

/-! ### `loop` (R133) -/

/-- R133: what a step of `loop` puts in flight: the counter or `epi`, and the window where it turns. -/
def LoopStep.lands (r : LoopStep) (a : Nat) (ctr : W64) : List Landing :=
  if ctr ≠ 0 then [.sreg a r.counter, .window r.window] else (if r.taken then [.window r.window] else []) ++ [.csr csrEpi r.epi]

/-- R133: a `loop` that is taken puts the results of its step in flight, and control arrives at its target. -/
theorem exec_loop_taken {h : Hdr} {a n seg bun : Nat} {s : State} (hp : passes h (.loop h a n seg bun) s) {r : LoopStep}
    {l : List Landing} (hr : s.loopNow a n = r) (ht : r.taken = true) (hl : r.lands a (s.me.sget a) = l) :
    ∃ t, exec (.loop h a n seg bun) s = .next t ∧ Arrives (s.land 1 l) seg bun t := by
  subst hr hl
  exact ⟨_, (runWord_goes (semLoop a n seg bun) hp.1 hp.2.1 hp.2.2).trans (congrArg _ (if_pos ht)),
    State.branchTo_arrives (s.land 1 _) seg bun⟩

/-- R133: a `loop` that is not taken puts the results of its step in flight, and control goes on. -/
theorem exec_loop_ends {h : Hdr} {a n seg bun : Nat} {s : State} (hp : passes h (.loop h a n seg bun) s) {r : LoopStep}
    {l : List Landing} (hr : s.loopNow a n = r) (ht : r.taken = false) (hl : r.lands a (s.me.sget a) = l) :
    exec (.loop h a n seg bun) s = .next (s.land 1 l) := by
  subst hr hl
  exact (runWord_goes (semLoop a n seg bun) hp.1 hp.2.1 hp.2.2).trans (congrArg _ (if_neg (ht ▸ Bool.false_ne_true)))

/-- R133: while the counter is not zero it counts down, and the window turns with a one. -/
theorem loopStep_counting {n : Nat} {ctr : W64} (win : BitVec 6) (epi : W64) (hc : ctr ≠ 0) :
    loopStep n ctr win epi = ⟨ctr - 1, (win <<< 1) ||| 1#6, epi, true⟩ := if_pos hc

/-- R133: the drain passes that are left when the counter is zero: those that `epi` holds, or all of them where the drain starts. -/
def drainLeft (n : Nat) (epi : W64) : Nat := if epi.getLsbD 7 then epi.toNat % 8 else n - 1

/-- One bit of a register as a number. -/
theorem bitsOf_one (v : W64) (i : Nat) : bitsOf v i 1 = (v.getLsbD i).toNat := by
  rw [← BitVec.testBit_toNat, Nat.toNat_testBit]; rfl

/-- R133: the drain's count, in the `epi` that a `loop` with its counter at zero starts from. -/
theorem drainLeft_eq {n : Nat} (hn : n ≤ 8) (epi : W64) :
    bitsOf (if bitsOf epi 7 1 = 0 then BitVec.ofNat 64 (128 + (n - 1)) else epi) 0 3 = drainLeft n epi := by
  rw [bitsOf_one, drainLeft, bitsOf, fld]
  cases epi.getLsbD 7
  · simp only [Bool.toNat_false, if_true, Bool.false_eq_true, if_false, BitVec.toNat_ofNat]
    omega
  · simp

/-- R133: with the counter zero, a drain pass is run while some are left; then the drain is over. -/
theorem loopStep_draining {n : Nat} (hn : n ≤ 8) (win : BitVec 6) (epi : W64) : loopStep n 0 win epi =
    if 0 < drainLeft n epi then ⟨0, win <<< 1, BitVec.ofNat 64 (128 + (drainLeft n epi - 1)), true⟩ else ⟨0, win, 0, false⟩ := by
  simp only [loopStep, ne_eq, not_true_eq_false, if_false, drainLeft_eq hn]
  split
  next => rfl
  next hleft => rw [Nat.eq_zero_of_not_pos hleft]; rfl

/-- Settles O23: the three cases of `loopStep`: counting, and draining with passes left or with none. -/
theorem loopCountsAndDrains : Obligations.LoopCountsAndDrains := by
  intro h a n seg bun s hp _ hn ctr epi win left
  have draining (hc : ctr = 0) : s.loopNow a n =
      if 0 < left then ⟨0, win <<< 1, BitVec.ofNat 64 (128 + (left - 1)), true⟩ else ⟨0, win, 0, false⟩ :=
    (congrArg (loopStep n · win epi) hc).trans (loopStep_draining hn win epi)
  exact ⟨fun hc => exec_loop_taken hp (loopStep_counting win epi hc) rfl (if_pos hc),
    fun hc hleft => exec_loop_taken hp ((draining hc).trans (if_pos hleft)) rfl (if_neg (not_not_intro hc)),
    fun hc hleft => exec_loop_ends hp ((draining hc).trans (if_neg (Nat.not_lt.mpr (Nat.le_of_eq hleft)))) rfl
      (if_neg (not_not_intro hc))⟩

/-! ### A trap that a handler takes (R411-R416) -/

/-- A change of a context that has just been written. -/
theorem State.modCtx_setCtx (s : State) (c : Nat) (x : Ctx) (f : Ctx → Ctx) : (s.setCtx c x).modCtx c f = s.setCtx c (f x) := by
  rw [State.modCtx, State.ctx_setCtx_self, State.setCtx_setCtx]

/-- The trap registers of a trap leave `tvec` as it is. -/
theorem Ctx.cget_tvec_trapRegs (x : Ctx) (t : TrapRec) (slot : Nat) (slip : Bool) (loc : Pc) :
    (x.trapRegs t slot slip loc).cget csrTvec = x.cget csrTvec := by
  rw [Ctx.trapRegs, Ctx.cget_cset, if_neg (by decide), Ctx.cget_cset, if_neg (by decide), Ctx.cget_cset, if_neg (by decide)]

/-- R412, R416: the trap registers of SIG and BRK: `tinfo` is the code alone. -/
theorem Ctx.trapRegs_code {x : Ctx} {cause code : Nat} (hcause : cause = 9 ∨ cause = 10) (hcode : code < 2 ^ 32) (slot : Nat)
    (slip : Bool) (loc : Pc) : x.trapRegs ⟨cause, 0, code⟩ slot slip loc =
      ((x.cset csrTcause (BitVec.ofNat 64 (slot * 256 + cause))).cset csrTinfo (BitVec.ofNat 64 code)).cset csrTloc
        (BitVec.ofNat 64 (loc.seg * 2 ^ 16 + loc.bun)) := by
  have hmod : code % 2 ^ 64 = code := Nat.mod_eq_of_lt (Nat.lt_trans hcode (by decide))
  simp only [Ctx.trapRegs, if_pos hcause, hmod]
  rfl

/-- R413: a running context passes to the handler that `tvec` names in its current segment, and a new pass begins there. -/
theorem State.setCtx_vector {s : State} {c seg bun : Nat} {x : Ctx} {k : Half} (loc : Pc) (hst : x.st = .running)
    (hexec : x.exec = some k) (hsegOf : bitsOf (x.cget csrTvec) 16 16 = seg) (hseg : seg = 0xFFFF ∨ seg = k.seg)
    (hbunOf : bitsOf (x.cget csrTvec) 0 13 = bun) (hbun : bun < k.bundles.length) :
    (s.setCtx c x).vector c loc = s.setCtx c
      { x with
        st := .running, trapBundle := some ⟨k.seg, bun⟩, sleep := none, arrived := none, syncAt := none, jump := none
        pc := ⟨k.seg, bun⟩, entry := bun, count := 0, crc := 0xFFFFFFFF#32, notBefore := s.now + 2, lastFirst := s.now } := by
  have htarget : (if seg = 0xFFFF then k.seg else seg) = k.seg := by
    rcases hseg with h | h
    · rw [if_pos h]
    · rw [h, ite_self]
  simp [State.vector, State.setCtx_setCtx, hexec, hst, hsegOf, hbunOf, htarget, hbun, Ctx.startPass]

/-- R411-R413: a trap of a context in no rerun, of a cause that may recur, drops the words in hand and the pending words, writes the trap
registers, and passes control to the handler where `tvec` names one. -/
theorem State.takeTrap_vectors {s : State} {c slot : Nat} {t : TrapRec} {slip : Bool} {loc : Pc} {x : Ctx}
    (hrerun : (s.ctx c).rerun = none) (hcause : ¬(t.cause = 8 ∨ t.cause = 11)) (hv : ((s.ctx c).cget csrTvec).getLsbD 32 = true)
    (hregs : (s.ctx c).trapRegs t slot slip loc = x) :
    s.takeTrap c t slot slip loc =
      ((s.dropWords c).setCtx c { x with pend := [], leave := none, lastTrap := some t.cause }).vector c loc := by
  subst hregs
  have hv : bitsOf ((s.ctx c).cget csrTvec) 32 1 = 1 := by rw [bitsOf_one, hv]; rfl
  have hfirst : ¬((t.cause = 8 ∨ t.cause = 11) ∧ (s.ctx c).lastTrap = some t.cause) := fun h => hcause h.1
  unfold State.takeTrap
  extract_lets x u
  split
  next r hr => exact absurd (hrerun.symm.trans hr) nofun
  next =>
    rw [if_neg hfirst, if_pos hv]
    exact congrArg (·.vector c loc) (State.modCtx_setCtx u c _ _)

/-- Settles O25: both words always trap; the trap registers leave `tvec` as it is, and it names a bundle of the current segment. -/
theorem trapAndBrkVector : Obligations.TrapAndBrkVector := by
  intro h code s k hpred hcode c x tv bun seg after vectors hrerun hst hv hexec hseg hbun
  have traps {i : Instr} {m : WordSem} {cause : Nat} (hcause : cause = 9 ∨ cause = 10) (hi : exec i s = runWord h m s)
      (hchk : m.chk s = some ⟨cause, 0, code⟩) : ∃ t, exec i s = .next t ∧ vectors cause t := by
    have hregs : x.trapRegs ⟨cause, 0, code⟩ s.cur.slot s.cur.pend s.cur.pc = after cause := Ctx.trapRegs_code hcause hcode _ _ _
    have htvec : (after cause).cget csrTvec = tv := hregs ▸ Ctx.cget_tvec_trapRegs x _ _ _ _
    have hbunOf : bitsOf tv 0 13 = bun := by rw [bitsOf, fld, Nat.pow_zero, Nat.div_one]
    refine ⟨_, hi.trans (runWord_traps m hpred hchk), ?_⟩
    rw [State.trapWord, State.takeTrap_vectors hrerun (by dsimp only; omega) hv hregs]
    exact State.setCtx_vector s.cur.pc hst hexec (congrArg (bitsOf · 16 16) htvec) hseg
      ((congrArg (bitsOf · 0 13) htvec).trans hbunOf) hbun
  exact ⟨traps (.inr rfl) rfl rfl, traps (.inl rfl) rfl rfl⟩

end Sys2Proof.Machine

/-!
Proofs for the system words of class 9 that make and invalidate handles, read the time, record phase points and post notifications
(R140-R144, R445, R446).
-/

namespace Sys2Proof.Machine

open Safety

/-! ### Handles (R140, R141) -/

/-- R141: after an `hinv` a handle that it names is not valid, and every other handle is as before. -/
theorem Ctx.hget_dropHandles (x : Ctx) (p : Nat → Bool) (n : Nat) :
    (p n = false → (x.dropHandles p).hget n = x.hget n) ∧ (p n = true → ((x.dropHandles p).hget n).valid = false) := by
  simp only [Ctx.hget, Ctx.dropHandles]
  induction x.h with
  | nil => exact ⟨fun _ => rfl, fun _ => rfl⟩
  | cons e m ih =>
    obtain ⟨j, w⟩ := e
    rw [List.filterMap_cons]
    by_cases hj : j = n
    · subst hj
      refine ⟨fun hp => ?_, fun hp => ?_⟩
      · simp [hp, SMap.get]
      · by_cases hw : { w with valid := false } = Handle.invalid
        · simpa [hp, hw] using ih.2 hp
        · simp [hp, hw, SMap.get]
    · have hskip : ∀ v m', SMap.get Handle.invalid ((j, v) :: m') n = SMap.get Handle.invalid m' n := fun v m' => if_neg hj
      rw [hskip]
      by_cases hp : p j
      · by_cases hw : { w with valid := false } = Handle.invalid
        · simpa [hp, hw] using ih
        · simpa [hp, hw, hskip] using ih
      · simpa [hp, hskip] using ih

/-- R141: the valid bits after an `hinv`. -/
theorem Ctx.valid_dropHandles (x : Ctx) (p : Nat → Bool) (n : Nat) :
    ((x.dropHandles p).hget n).valid = ((x.hget n).valid && !p n) := by
  cases hp : p n
  · rw [(x.hget_dropHandles p n).1 hp, Bool.not_false, Bool.and_true]
  · rw [(x.hget_dropHandles p n).2 hp, Bool.not_true, Bool.and_false]

/-- R141: no handle that an `hinv` names is left in flight. -/
theorem Ctx.lands_dropHandles {x : Ctx} {p : Nat → Bool} {f : Flight} (hf : f ∈ (x.dropHandles p).flights) {n : Nat} {w : Handle}
    (hl : Landing.handle n w ∈ f.lands) : p n = false := by
  obtain ⟨g, _, rfl⟩ := List.mem_map.mp hf
  simpa [Landing.toHandle] using (List.mem_filter.mp hl).2

/-- R141: the results in flight stay in flight. -/
theorem Ctx.flights_dropHandles (x : Ctx) (p : Nat → Bool) : (x.dropHandles p).flights.map (·.id) = x.flights.map (·.id) := by
  simp [Ctx.dropHandles, Function.comp_def]

/-- R140: a base that is aligned to its window, and whose window ends inside the address space, passes the check. -/
theorem trnChk_eq_none {l2s base : Nat} (halign : base % 2 ^ l2s = 0) (hend : base + 2 ^ l2s ≤ 2 ^ 55) : trnChk l2s base = none := by
  rw [trnChk, if_neg (not_not_intro halign), if_neg (Nat.not_lt.mpr hend)]

/-- A one-bit field is a bit. -/
theorem fldB_eq_testBit (w lo : Nat) : fldB w lo = w.testBit lo := by
  rw [fldB, fld, Nat.testBit_eq_decide_div_mod_eq]; rfl

/-- Settles O27: `trn` by what its checks say of the base; `hinv` by what it makes of the handles and of the results in flight. -/
theorem handlesAndTime : Obligations.HandlesAndTime := by
  intro h d a s hg base invalid
  have drops (p : Nat → Bool) {i : Instr}
      (hi : exec i s = .next (s.modCtx s.cur.ctx fun x => x.dropHandles p)) : ∃ t, exec i s = .next t ∧ invalid p t := by
    refine ⟨_, hi, ?_⟩
    have hme : (s.modCtx s.cur.ctx fun x => x.dropHandles p).me = s.me.dropHandles p := State.me_modCtx s _
    simp only [invalid, hme]
    exact ⟨s.me.valid_dropHandles p, fun n => (s.me.hget_dropHandles p n).1, fun f hf n w => Ctx.lands_dropHandles hf,
      s.me.flights_dropHandles p, rfl⟩
  refine ⟨fun rights l2s halign hend => ?window, fun rights l2s hmis => ?misaligned, fun rights l2s halign hend => ?beyond,
    drops (· == d) (runWord_goes (semHinv d) hg rfl rfl), drops _ (runWord_goes semHinvAll hg rfl rfl),
    runWord_goes (semTsc d) hg rfl rfl⟩
  case window =>
    simp only [← fldB_eq_testBit]
    exact runWord_goes (semTrn d a rights l2s) hg (trnChk_eq_none halign hend) rfl
  case misaligned => exact runWord_traps (semTrn d a rights l2s) hg.1 (if_pos hmis)
  case beyond => exact runWord_traps (semTrn d a rights l2s) hg.1 ((if_neg (not_not_intro halign)).trans (if_pos hend))

/-! ### Phase points and notifications (R142, R143, R445, R446) -/

/-- R142, R445, R446: the phase point at the bundle that follows, and the input list that goes with it. -/
theorem Ctx.commit_of_following {x : Ctx} {p n : Pc} (ts : W64) (hn : x.following p = some n) :
    x.commit p ts = { x with
      phase := some { s := x.s, g := x.g, h := x.h, p := x.p, csr := x.csr, pc := n
                      count := if n.seg ≠ p.seg ∨ n.bun ≤ p.bun then 0 else x.count
                      crc := if n.seg ≠ p.seg ∨ n.bun ≤ p.bun then 0xFFFFFFFF#32 else x.crc, ts := ts }
      replay := !x.inputOver, inputs := x.nextInputs, nextInputs := [], inputOver := false } := by
  simp [Ctx.commit, hn]

/-- A change of a context that leaves its group alone leaves its virtual device alone. -/
theorem State.vdOf_modCtx (s : State) {c : Nat} {f : Ctx → Ctx} (hf : (f (s.ctx c)).group = (s.ctx c).group) :
    (s.modCtx c f).vdOf c = s.vdOf c := by
  rw [State.vdOf, State.groupOf, State.ctx_modCtx_self, hf]; rfl

/-- R143, R445: `sig` makes its phase not replayable, and posts its notification. -/
theorem exec_sig {h : Hdr} {s : State} (a : Nat) (hg : goes h s) :
    exec (.sig h a) s = .next ((s.modCtx s.cur.ctx Ctx.unreplay).postSig (s.me.sget a)) := by
  have hval : (s.modCtx s.cur.ctx Ctx.unreplay).me.sget a = s.me.sget a := by rw [State.me_modCtx]; rfl
  rw [← hval]
  exact runWord_goes (semSig a) hg rfl rfl

/-- Settles O28: `commit` by whether a bundle follows it, and `sig` by what it posts. -/
theorem commitAndSig : Obligations.CommitAndSig := by
  intro h a s hg x
  refine ⟨?commits, fun hend => ?traps, ?sig⟩
  case commits =>
    intro n hn wraps
    have hchk : semCommit.chk s = none := by simp only [semCommit, show s.me.following s.cur.pc = some n from hn]
    exact (runWord_goes semCommit hg hchk rfl).trans
      (congrArg (fun y => Host.Outcome.next (s.setCtx s.cur.ctx y)) (Ctx.commit_of_following s.time hn))
  case traps =>
    have hchk : semCommit.chk s = some (pastEnd s.cur.pc) := by simp only [semCommit, show s.me.following s.cur.pc = none from hend]
    exact runWord_traps semCommit hg.1 hchk
  case sig =>
    have hvd : (s.modCtx s.cur.ctx Ctx.unreplay).vdOf s.cur.ctx = s.vdOf s.cur.ctx := s.vdOf_modCtx rfl
    rw [exec_sig a hg, ← hvd]
    rfl

end Sys2Proof.Machine
